-- ==== Sys2Proof/Word.lean ====
section
/-! DEFINITION. The word types of the core and their signed reading (spec/00_scope.md R8 to R10). -/

namespace Sys2Proof

/-- `u32`: every register value, address, immediate and result (R10). -/
abbrev Word := BitVec 32

/-- The smallest addressable unit of both memories (R102, R104). -/
abbrev Byte := BitVec 8

/-- A register number 0..31, as a 5-bit field of an instruction holds it (R151, R166). -/
abbrev Reg := BitVec 5

/-- `s32(v)`, the two's-complement value of a word, in [-2^31, 2^31) (R10). -/
abbrev s32 (v : Word) : Int := v.toInt

/-- `u32(i)`, the word congruent to the integer `i` modulo 2^32 (R10). -/
abbrev u32 (i : Int) : Word := BitVec.ofInt 32 i

end Sys2Proof
end

