-- ==== Sys2Proof/Syntax.lean ====
section
/-! DEFINITION. The admitted instructions, one constructor per row of spec/opcode_table.json
(30 R170), and their mnemonics. A register field is its 5-bit number; an immediate is the word the
decoded record stores, already extended to 32 bits (00 R11, 30 R171). -/

namespace Sys2Proof

/-- The 41 mnemonics, in the order of 30 R170: the `op` field of the decoded record (30 R171). -/
inductive Op where
  | lui | auipc
  | addi | slti | sltiu | xori | ori | andi | slli | srli | srai
  | add | sub | sll | slt | sltu | xor | srl | sra | or | and
  | jal | jalr | beq | bne | blt | bge | bltu | bgeu
  | lw | lbu | sw
  | mul | mulh | mulhsu | mulhu | div | divu | rem | remu
  | ebreak
  deriving DecidableEq, Repr

/-- An instruction with its operands. -/
inductive Instr where
  | lui (rd : Reg) (imm : Word)
  | auipc (rd : Reg) (imm : Word)
  | addi (rd rs1 : Reg) (imm : Word)
  | slti (rd rs1 : Reg) (imm : Word)
  | sltiu (rd rs1 : Reg) (imm : Word)
  | xori (rd rs1 : Reg) (imm : Word)
  | ori (rd rs1 : Reg) (imm : Word)
  | andi (rd rs1 : Reg) (imm : Word)
  | slli (rd rs1 : Reg) (shamt : Word)
  | srli (rd rs1 : Reg) (shamt : Word)
  | srai (rd rs1 : Reg) (shamt : Word)
  | add (rd rs1 rs2 : Reg)
  | sub (rd rs1 rs2 : Reg)
  | sll (rd rs1 rs2 : Reg)
  | slt (rd rs1 rs2 : Reg)
  | sltu (rd rs1 rs2 : Reg)
  | xor (rd rs1 rs2 : Reg)
  | srl (rd rs1 rs2 : Reg)
  | sra (rd rs1 rs2 : Reg)
  | or (rd rs1 rs2 : Reg)
  | and (rd rs1 rs2 : Reg)
  | jal (rd : Reg) (imm : Word)
  | jalr (rd rs1 : Reg) (imm : Word)
  | beq (rs1 rs2 : Reg) (imm : Word)
  | bne (rs1 rs2 : Reg) (imm : Word)
  | blt (rs1 rs2 : Reg) (imm : Word)
  | bge (rs1 rs2 : Reg) (imm : Word)
  | bltu (rs1 rs2 : Reg) (imm : Word)
  | bgeu (rs1 rs2 : Reg) (imm : Word)
  | lw (rd rs1 : Reg) (imm : Word)
  | lbu (rd rs1 : Reg) (imm : Word)
  | sw (rs2 rs1 : Reg) (imm : Word)
  | mul (rd rs1 rs2 : Reg)
  | mulh (rd rs1 rs2 : Reg)
  | mulhsu (rd rs1 rs2 : Reg)
  | mulhu (rd rs1 rs2 : Reg)
  | div (rd rs1 rs2 : Reg)
  | divu (rd rs1 rs2 : Reg)
  | rem (rd rs1 rs2 : Reg)
  | remu (rd rs1 rs2 : Reg)
  | ebreak
  deriving DecidableEq, Repr

end Sys2Proof
end

