-- ==== Sys2Proof/WellFormed.lean ====
section
/-! DEFINITION. Which instructions have an encoding: the immediate of each format lies in the range
its field can hold (spec/30_encoding.md R160 to R165). Register numbers need no check (R166). -/

namespace Sys2Proof

/-- I- and S-immediates: a sign-extended 12-bit number, -2048..2047 (R160, R161). -/
def fitsImm12 (imm : Word) : Bool := decide (-2048 ≤ s32 imm ∧ s32 imm ≤ 2047)

/-- B-immediates: an even byte offset in -4096..4094 (R162). -/
def fitsImmB (imm : Word) : Bool :=
  decide (-4096 ≤ s32 imm ∧ s32 imm ≤ 4094 ∧ s32 imm % 2 = 0)

/-- U-immediates: a word whose low 12 bits are zero (R163). -/
def fitsImmU (imm : Word) : Bool := decide (imm.toNat % 4096 = 0)

/-- J-immediates: an even byte offset in -1048576..1048574 (R164). -/
def fitsImmJ (imm : Word) : Bool :=
  decide (-1048576 ≤ s32 imm ∧ s32 imm ≤ 1048574 ∧ s32 imm % 2 = 0)

/-- Shift amounts of the immediate shifts: 0..31 (R165). -/
def fitsShamt (shamt : Word) : Bool := decide (shamt.toNat < 32)

/-- The instruction can be written as a word of its row (R160 to R166). -/
def Instr.wellFormed : Instr → Bool
  | .lui _ imm | .auipc _ imm => fitsImmU imm
  | .addi _ _ imm | .slti _ _ imm | .sltiu _ _ imm | .xori _ _ imm | .ori _ _ imm
  | .andi _ _ imm | .jalr _ _ imm | .lw _ _ imm | .lbu _ _ imm | .sw _ _ imm => fitsImm12 imm
  | .slli _ _ shamt | .srli _ _ shamt | .srai _ _ shamt => fitsShamt shamt
  | .jal _ imm => fitsImmJ imm
  | .beq _ _ imm | .bne _ _ imm | .blt _ _ imm | .bge _ _ imm | .bltu _ _ imm
  | .bgeu _ _ imm => fitsImmB imm
  | .add _ _ _ | .sub _ _ _ | .sll _ _ _ | .slt _ _ _ | .sltu _ _ _ | .xor _ _ _ | .srl _ _ _
  | .sra _ _ _ | .or _ _ _ | .and _ _ _ | .mul _ _ _ | .mulh _ _ _ | .mulhsu _ _ _
  | .mulhu _ _ _ | .div _ _ _ | .divu _ _ _ | .rem _ _ _ | .remu _ _ _ | .ebreak => true

end Sys2Proof
end

