-- ==== Sys2Proof/Decode.lean ====
section
/-! DEFINITION. The decoder (spec/30_encoding.md R150 to R176), total on every word and on any bytes,
and after it the encoder. The decoder follows the match and mask columns of R170; the encoder is
written from the opcode, funct3 and funct7 columns and the format layouts R152 to R159. -/

namespace Sys2Proof

/-- `sext_N(v)`: the low `n` bits of `v`, sign-extended to 32 bits (00 R11). -/
def sext (n : Nat) (v : Word) : Word := (v.setWidth n).signExtend 32

/-- `zext_N(v)`: the low `n` bits of `v`, zero-extended to 32 bits (00 R11). -/
def zext (n : Nat) (v : Word) : Word := (v.setWidth n).setWidth 32

/-- The word whose little-endian bytes are `b0` (lowest address) to `b3` (20 R104). -/
def wordOfBytes (b0 b1 b2 b3 : Byte) : Word := b3 ++ b2 ++ b1 ++ b0

/-- Lane `l` of a word: bits `[8l+7 : 8l]` (20 R104). -/
def byteLane (v : Word) (l : Nat) : Byte := v.extractLsb' (8 * l) 8

/-- The four bytes of a word, lowest address first (20 R104). -/
def bytesOfWord (v : Word) : List Byte := [byteLane v 0, byteLane v 1, byteLane v 2, byteLane v 3]

/-- rd, `w[11:7]` (R151). -/
def rdField (w : Word) : Reg := w.extractLsb' 7 5
/-- rs1, `w[19:15]` (R151). -/
def rs1Field (w : Word) : Reg := w.extractLsb' 15 5
/-- rs2, `w[24:20]` (R151). -/
def rs2Field (w : Word) : Reg := w.extractLsb' 20 5
/-- The I-immediate, `sext_12(w[31:20])` (R160). -/
def immI (w : Word) : Word := (w.extractLsb' 20 12).signExtend 32
/-- The S-immediate, `sext_12 of w[31:25], w[11:7]` (R161). -/
def immS (w : Word) : Word := (w.extractLsb' 25 7 ++ w.extractLsb' 7 5).signExtend 32
/-- The B-immediate, `sext_13 of w[31], w[7], w[30:25], w[11:8], 0` (R162). -/
def immB (w : Word) : Word :=
  (w.extractLsb' 31 1 ++ w.extractLsb' 7 1 ++ w.extractLsb' 25 6 ++ w.extractLsb' 8 4
    ++ 0b0#1).signExtend 32
/-- The U-immediate, `w[31:12], 0x000` (R163). -/
def immU (w : Word) : Word := w.extractLsb' 12 20 ++ 0x000#12
/-- The J-immediate, `sext_21 of w[31], w[19:12], w[20], w[30:21], 0` (R164). -/
def immJ (w : Word) : Word :=
  (w.extractLsb' 31 1 ++ w.extractLsb' 12 8 ++ w.extractLsb' 20 1 ++ w.extractLsb' 21 10
    ++ 0b0#1).signExtend 32
/-- The shift amount, `zext_5(w[24:20])` (R165). -/
def shamtField (w : Word) : Word := (w.extractLsb' 20 5).setWidth 32

/-- The encoding formats (R152 to R159). -/
inductive Format where
  | r | i | iShift | s | b | u | j | sys
  deriving DecidableEq, Repr

/-- One row of the opcode map: a word `w` is this instruction when `w & mask = pattern` (R170, R172). -/
structure OpcodeRow where
  op : Op
  format : Format
  pattern : Word
  mask : Word
  deriving DecidableEq, Repr

/-- Rows LUI to SRAI of R170. -/
def opcodeRowsImmediate : List OpcodeRow := [
  ⟨.lui, .u, 0x00000037#32, 0x0000007f#32⟩,
  ⟨.auipc, .u, 0x00000017#32, 0x0000007f#32⟩,
  ⟨.addi, .i, 0x00000013#32, 0x0000707f#32⟩,
  ⟨.slti, .i, 0x00002013#32, 0x0000707f#32⟩,
  ⟨.sltiu, .i, 0x00003013#32, 0x0000707f#32⟩,
  ⟨.xori, .i, 0x00004013#32, 0x0000707f#32⟩,
  ⟨.ori, .i, 0x00006013#32, 0x0000707f#32⟩,
  ⟨.andi, .i, 0x00007013#32, 0x0000707f#32⟩,
  ⟨.slli, .iShift, 0x00001013#32, 0xfe00707f#32⟩,
  ⟨.srli, .iShift, 0x00005013#32, 0xfe00707f#32⟩,
  ⟨.srai, .iShift, 0x40005013#32, 0xfe00707f#32⟩]

/-- Rows ADD to AND of R170. -/
def opcodeRowsRegister : List OpcodeRow := [
  ⟨.add, .r, 0x00000033#32, 0xfe00707f#32⟩,
  ⟨.sub, .r, 0x40000033#32, 0xfe00707f#32⟩,
  ⟨.sll, .r, 0x00001033#32, 0xfe00707f#32⟩,
  ⟨.slt, .r, 0x00002033#32, 0xfe00707f#32⟩,
  ⟨.sltu, .r, 0x00003033#32, 0xfe00707f#32⟩,
  ⟨.xor, .r, 0x00004033#32, 0xfe00707f#32⟩,
  ⟨.srl, .r, 0x00005033#32, 0xfe00707f#32⟩,
  ⟨.sra, .r, 0x40005033#32, 0xfe00707f#32⟩,
  ⟨.or, .r, 0x00006033#32, 0xfe00707f#32⟩,
  ⟨.and, .r, 0x00007033#32, 0xfe00707f#32⟩]

/-- Rows JAL to SW of R170. -/
def opcodeRowsControlMemory : List OpcodeRow := [
  ⟨.jal, .j, 0x0000006f#32, 0x0000007f#32⟩,
  ⟨.jalr, .i, 0x00000067#32, 0x0000707f#32⟩,
  ⟨.beq, .b, 0x00000063#32, 0x0000707f#32⟩,
  ⟨.bne, .b, 0x00001063#32, 0x0000707f#32⟩,
  ⟨.blt, .b, 0x00004063#32, 0x0000707f#32⟩,
  ⟨.bge, .b, 0x00005063#32, 0x0000707f#32⟩,
  ⟨.bltu, .b, 0x00006063#32, 0x0000707f#32⟩,
  ⟨.bgeu, .b, 0x00007063#32, 0x0000707f#32⟩,
  ⟨.lw, .i, 0x00002003#32, 0x0000707f#32⟩,
  ⟨.lbu, .i, 0x00004003#32, 0x0000707f#32⟩,
  ⟨.sw, .s, 0x00002023#32, 0x0000707f#32⟩]

/-- Rows MUL to EBREAK of R170. -/
def opcodeRowsMulDivSystem : List OpcodeRow := [
  ⟨.mul, .r, 0x02000033#32, 0xfe00707f#32⟩,
  ⟨.mulh, .r, 0x02001033#32, 0xfe00707f#32⟩,
  ⟨.mulhsu, .r, 0x02002033#32, 0xfe00707f#32⟩,
  ⟨.mulhu, .r, 0x02003033#32, 0xfe00707f#32⟩,
  ⟨.div, .r, 0x02004033#32, 0xfe00707f#32⟩,
  ⟨.divu, .r, 0x02005033#32, 0xfe00707f#32⟩,
  ⟨.rem, .r, 0x02006033#32, 0xfe00707f#32⟩,
  ⟨.remu, .r, 0x02007033#32, 0xfe00707f#32⟩,
  ⟨.ebreak, .sys, 0x00100073#32, 0xffffffff#32⟩]

/-- The opcode map of R170, all 41 rows. -/
def opcodeTable : List OpcodeRow :=
  opcodeRowsImmediate ++ opcodeRowsRegister ++ opcodeRowsControlMemory ++ opcodeRowsMulDivSystem

/-- The word belongs to the row (R172). -/
def OpcodeRow.matchesWord (row : OpcodeRow) (w : Word) : Bool := w &&& row.mask == row.pattern

/-- The instruction of a mnemonic with the operands the fields of `w` hold, by the format of its row
(R172, "Fields used by each format"). -/
def readOperands (op : Op) (w : Word) : Instr :=
  match op with
  | .lui => .lui (rdField w) (immU w)
  | .auipc => .auipc (rdField w) (immU w)
  | .addi => .addi (rdField w) (rs1Field w) (immI w)
  | .slti => .slti (rdField w) (rs1Field w) (immI w)
  | .sltiu => .sltiu (rdField w) (rs1Field w) (immI w)
  | .xori => .xori (rdField w) (rs1Field w) (immI w)
  | .ori => .ori (rdField w) (rs1Field w) (immI w)
  | .andi => .andi (rdField w) (rs1Field w) (immI w)
  | .slli => .slli (rdField w) (rs1Field w) (shamtField w)
  | .srli => .srli (rdField w) (rs1Field w) (shamtField w)
  | .srai => .srai (rdField w) (rs1Field w) (shamtField w)
  | .add => .add (rdField w) (rs1Field w) (rs2Field w)
  | .sub => .sub (rdField w) (rs1Field w) (rs2Field w)
  | .sll => .sll (rdField w) (rs1Field w) (rs2Field w)
  | .slt => .slt (rdField w) (rs1Field w) (rs2Field w)
  | .sltu => .sltu (rdField w) (rs1Field w) (rs2Field w)
  | .xor => .xor (rdField w) (rs1Field w) (rs2Field w)
  | .srl => .srl (rdField w) (rs1Field w) (rs2Field w)
  | .sra => .sra (rdField w) (rs1Field w) (rs2Field w)
  | .or => .or (rdField w) (rs1Field w) (rs2Field w)
  | .and => .and (rdField w) (rs1Field w) (rs2Field w)
  | .jal => .jal (rdField w) (immJ w)
  | .jalr => .jalr (rdField w) (rs1Field w) (immI w)
  | .beq => .beq (rs1Field w) (rs2Field w) (immB w)
  | .bne => .bne (rs1Field w) (rs2Field w) (immB w)
  | .blt => .blt (rs1Field w) (rs2Field w) (immB w)
  | .bge => .bge (rs1Field w) (rs2Field w) (immB w)
  | .bltu => .bltu (rs1Field w) (rs2Field w) (immB w)
  | .bgeu => .bgeu (rs1Field w) (rs2Field w) (immB w)
  | .lw => .lw (rdField w) (rs1Field w) (immI w)
  | .lbu => .lbu (rdField w) (rs1Field w) (immI w)
  | .sw => .sw (rs2Field w) (rs1Field w) (immS w)
  | .mul => .mul (rdField w) (rs1Field w) (rs2Field w)
  | .mulh => .mulh (rdField w) (rs1Field w) (rs2Field w)
  | .mulhsu => .mulhsu (rdField w) (rs1Field w) (rs2Field w)
  | .mulhu => .mulhu (rdField w) (rs1Field w) (rs2Field w)
  | .div => .div (rdField w) (rs1Field w) (rs2Field w)
  | .divu => .divu (rdField w) (rs1Field w) (rs2Field w)
  | .rem => .rem (rdField w) (rs1Field w) (rs2Field w)
  | .remu => .remu (rdField w) (rs1Field w) (rs2Field w)
  | .ebreak => .ebreak

/-- The decode function of R172. `none` is `DecodeError`: the word matches no row (R174). -/
def decode (w : Word) : Option Instr :=
  (opcodeTable.find? (fun row => row.matchesWord w)).map (fun row => readOperands row.op w)

/-- Why bytes are no instruction. -/
inductive DecodeReject where
  /-- Fewer than four bytes are left: an instruction is one whole word (R150). -/
  | truncated
  /-- `DecodeError`: the word matches no row of R170 (R174). -/
  | decodeError (w : Word)
  deriving DecidableEq, Repr

/-- The decoder on bytes, lowest address first, with the bytes after the instruction (R150, R104). -/
def decodeBytes : List Byte → Except DecodeReject (Instr × List Byte)
  | b0 :: b1 :: b2 :: b3 :: rest =>
    match decode (wordOfBytes b0 b1 b2 b3) with
    | some i => .ok (i, rest)
    | none => .error (.decodeError (wordOfBytes b0 b1 b2 b3))
  | _ => .error .truncated

/-- The instruction the decoder reads from a word whose low `nbits` bits are `w`, bit 0 the least
significant, laid out little-endian as the hardware stores it (R104, R150). -/
def decodeTableWord (nbits w : Nat) : Option Instr :=
  match decodeBytes (bytesOfWord (BitVec.ofNat 32 (w % 2 ^ nbits))) with
  | .ok (i, _) => some i
  | .error _ => none

/-- Format R (R152). -/
def encodeR (f7 : BitVec 7) (f3 : BitVec 3) (opc : BitVec 7) (rd rs1 rs2 : Reg) : Word :=
  f7 ++ rs2 ++ rs1 ++ f3 ++ rd ++ opc
/-- Format I (R153): `imm[11:0]` in bits 31..20. -/
def encodeI (f3 : BitVec 3) (opc : BitVec 7) (rd rs1 : Reg) (imm : Word) : Word :=
  imm.extractLsb' 0 12 ++ rs1 ++ f3 ++ rd ++ opc
/-- Format I-shift (R154): `shamt[4:0]` in bits 24..20. -/
def encodeIShift (f7 : BitVec 7) (f3 : BitVec 3) (opc : BitVec 7) (rd rs1 : Reg) (shamt : Word) :
    Word :=
  f7 ++ shamt.extractLsb' 0 5 ++ rs1 ++ f3 ++ rd ++ opc
/-- Format S (R155): `imm[11:5]` in bits 31..25, `imm[4:0]` in bits 11..7. -/
def encodeS (f3 : BitVec 3) (opc : BitVec 7) (rs2 rs1 : Reg) (imm : Word) : Word :=
  imm.extractLsb' 5 7 ++ rs2 ++ rs1 ++ f3 ++ imm.extractLsb' 0 5 ++ opc
/-- Format B (R156): `imm[12]`, `imm[10:5]`, rs2, rs1, funct3, `imm[4:1]`, `imm[11]`. -/
def encodeB (f3 : BitVec 3) (opc : BitVec 7) (rs1 rs2 : Reg) (imm : Word) : Word :=
  imm.extractLsb' 12 1 ++ imm.extractLsb' 5 6 ++ rs2 ++ rs1 ++ f3 ++ imm.extractLsb' 1 4
    ++ imm.extractLsb' 11 1 ++ opc
/-- Format U (R157): `imm[31:12]` in bits 31..12. -/
def encodeU (opc : BitVec 7) (rd : Reg) (imm : Word) : Word := imm.extractLsb' 12 20 ++ rd ++ opc
/-- Format J (R158): `imm[20]`, `imm[10:1]`, `imm[11]`, `imm[19:12]`. -/
def encodeJ (opc : BitVec 7) (rd : Reg) (imm : Word) : Word :=
  imm.extractLsb' 20 1 ++ imm.extractLsb' 1 10 ++ imm.extractLsb' 11 1 ++ imm.extractLsb' 12 8
    ++ rd ++ opc

/-- The word of a well-formed instruction, from the opcode, funct3 and funct7 columns of R170. -/
def encode : Instr → Word
  | .lui rd imm => encodeU 0b0110111#7 rd imm
  | .auipc rd imm => encodeU 0b0010111#7 rd imm
  | .addi rd rs1 imm => encodeI 0b000#3 0b0010011#7 rd rs1 imm
  | .slti rd rs1 imm => encodeI 0b010#3 0b0010011#7 rd rs1 imm
  | .sltiu rd rs1 imm => encodeI 0b011#3 0b0010011#7 rd rs1 imm
  | .xori rd rs1 imm => encodeI 0b100#3 0b0010011#7 rd rs1 imm
  | .ori rd rs1 imm => encodeI 0b110#3 0b0010011#7 rd rs1 imm
  | .andi rd rs1 imm => encodeI 0b111#3 0b0010011#7 rd rs1 imm
  | .slli rd rs1 shamt => encodeIShift 0b0000000#7 0b001#3 0b0010011#7 rd rs1 shamt
  | .srli rd rs1 shamt => encodeIShift 0b0000000#7 0b101#3 0b0010011#7 rd rs1 shamt
  | .srai rd rs1 shamt => encodeIShift 0b0100000#7 0b101#3 0b0010011#7 rd rs1 shamt
  | .add rd rs1 rs2 => encodeR 0b0000000#7 0b000#3 0b0110011#7 rd rs1 rs2
  | .sub rd rs1 rs2 => encodeR 0b0100000#7 0b000#3 0b0110011#7 rd rs1 rs2
  | .sll rd rs1 rs2 => encodeR 0b0000000#7 0b001#3 0b0110011#7 rd rs1 rs2
  | .slt rd rs1 rs2 => encodeR 0b0000000#7 0b010#3 0b0110011#7 rd rs1 rs2
  | .sltu rd rs1 rs2 => encodeR 0b0000000#7 0b011#3 0b0110011#7 rd rs1 rs2
  | .xor rd rs1 rs2 => encodeR 0b0000000#7 0b100#3 0b0110011#7 rd rs1 rs2
  | .srl rd rs1 rs2 => encodeR 0b0000000#7 0b101#3 0b0110011#7 rd rs1 rs2
  | .sra rd rs1 rs2 => encodeR 0b0100000#7 0b101#3 0b0110011#7 rd rs1 rs2
  | .or rd rs1 rs2 => encodeR 0b0000000#7 0b110#3 0b0110011#7 rd rs1 rs2
  | .and rd rs1 rs2 => encodeR 0b0000000#7 0b111#3 0b0110011#7 rd rs1 rs2
  | .jal rd imm => encodeJ 0b1101111#7 rd imm
  | .jalr rd rs1 imm => encodeI 0b000#3 0b1100111#7 rd rs1 imm
  | .beq rs1 rs2 imm => encodeB 0b000#3 0b1100011#7 rs1 rs2 imm
  | .bne rs1 rs2 imm => encodeB 0b001#3 0b1100011#7 rs1 rs2 imm
  | .blt rs1 rs2 imm => encodeB 0b100#3 0b1100011#7 rs1 rs2 imm
  | .bge rs1 rs2 imm => encodeB 0b101#3 0b1100011#7 rs1 rs2 imm
  | .bltu rs1 rs2 imm => encodeB 0b110#3 0b1100011#7 rs1 rs2 imm
  | .bgeu rs1 rs2 imm => encodeB 0b111#3 0b1100011#7 rs1 rs2 imm
  | .lw rd rs1 imm => encodeI 0b010#3 0b0000011#7 rd rs1 imm
  | .lbu rd rs1 imm => encodeI 0b100#3 0b0000011#7 rd rs1 imm
  | .sw rs2 rs1 imm => encodeS 0b010#3 0b0100011#7 rs2 rs1 imm
  | .mul rd rs1 rs2 => encodeR 0b0000001#7 0b000#3 0b0110011#7 rd rs1 rs2
  | .mulh rd rs1 rs2 => encodeR 0b0000001#7 0b001#3 0b0110011#7 rd rs1 rs2
  | .mulhsu rd rs1 rs2 => encodeR 0b0000001#7 0b010#3 0b0110011#7 rd rs1 rs2
  | .mulhu rd rs1 rs2 => encodeR 0b0000001#7 0b011#3 0b0110011#7 rd rs1 rs2
  | .div rd rs1 rs2 => encodeR 0b0000001#7 0b100#3 0b0110011#7 rd rs1 rs2
  | .divu rd rs1 rs2 => encodeR 0b0000001#7 0b101#3 0b0110011#7 rd rs1 rs2
  | .rem rd rs1 rs2 => encodeR 0b0000001#7 0b110#3 0b0110011#7 rd rs1 rs2
  | .remu rd rs1 rs2 => encodeR 0b0000001#7 0b111#3 0b0110011#7 rd rs1 rs2
  | .ebreak => 0x00100073#32

end Sys2Proof
end

