-- ==== Sys2Proof/Config.lean ====
section
/-! DEFINITION. The parameters of a model instance (spec/00_scope.md R7, R8). They are plain data,
carried in the state and changed by no step, so that every statement holds for every value of them. -/

namespace Sys2Proof

/-- The four requesters of the common data bus (47 R470). -/
inductive Requester where
  | alu | load | mul | div
  deriving DecidableEq, Repr

/-- When a fatal condition stops the core (60 R603). -/
inductive FaultPolicy where
  | deferred | immediate
  deriving DecidableEq, Repr

/-- When counters and BTB are written (45 R358). -/
inductive PredictorUpdate where
  | onMispredict | everyResolution
  deriving DecidableEq, Repr

/-- The four states of a 2-bit counter, in the order 0, 1, 2, 3 (10 R47, 45 R354). -/
inductive Counter where
  | stronglyNotTaken | weaklyNotTaken | weaklyTaken | stronglyTaken
  deriving DecidableEq, Repr

/-- The parameters of R7, under the spec's names. -/
structure Config where
  /-- `ROB_SIZE` -/
  robSize : Nat
  /-- `RS_SIZE` -/
  rsSize : Nat
  /-- `LSQ_SIZE` -/
  lsqSize : Nat
  /-- `BHT_LOG_SIZE` -/
  bhtLogSize : Nat
  /-- `DEPTH_LOG` (OPEN in the spec) -/
  depthLog : Nat
  /-- `CODE_BASE` (OPEN in the spec) -/
  codeBase : Word
  /-- `DATA_BASE` (OPEN in the spec) -/
  dataBase : Word
  /-- `MUL_STAGES` -/
  mulStages : Nat
  /-- `DIV_STAGES` -/
  divStages : Nat
  /-- `CDB_PRIORITY`, highest first -/
  cdbPriority : List Requester
  /-- `FAULT_POLICY` -/
  faultPolicy : FaultPolicy
  /-- `PREDICTOR_UPDATE` -/
  predictorUpdate : PredictorUpdate
  /-- `CTR_RESET` -/
  ctrReset : Counter
  /-- `INIT_X`: the reset values of x1 .. x31, in that order -/
  initX : Vector Word 31
  /-- `INIT_FILL` -/
  initFill : Word
  deriving DecidableEq, Repr

namespace Config

/-- The defaults of R7. `DEPTH_LOG`, `CODE_BASE` and `DATA_BASE` are OPEN there and take the values
of the spec's examples, DESIGN CHOICE (log entry 2). -/
def standard : Config where
  robSize := 8
  rsSize := 8
  lsqSize := 8
  bhtLogSize := 6
  depthLog := 12
  codeBase := 0x00000000#32
  dataBase := 0x00002000#32
  mulStages := 3
  divStages := 4
  cdbPriority := [.alu, .load, .mul, .div]
  faultPolicy := .deferred
  predictorUpdate := .onMispredict
  ctrReset := .weaklyNotTaken
  initX := Vector.replicate 31 0#32
  initFill := 0x00000000#32

/-- The "legal values" column of R7. -/
def legal (c : Config) : Bool :=
  decide (2 ≤ c.robSize) && decide (1 ≤ c.rsSize) && decide (1 ≤ c.lsqSize)
    && decide (c.bhtLogSize ≤ 30) && decide (c.depthLog ≤ 30)
    && decide (c.codeBase.toNat % 4 = 0)
    && decide (1 ≤ c.mulStages) && decide (1 ≤ c.divStages)
    && decide (c.cdbPriority.length = 4)
    && [Requester.alu, .load, .mul, .div].all (fun r => c.cdbPriority.contains r)

/-- `MEMBYTES = 4 * 2^DEPTH_LOG`, the size in bytes of each of the two memories (20 R108). -/
def memBytes (c : Config) : Nat := 4 * 2 ^ c.depthLog

end Config

end Sys2Proof
end

