-- ==== Sys2Proof/Machine/State.lean ====
section
/-! DEFINITION. The state of the core as plain data (spec/10_state.md), and its value right after
reset (spec/70_reset_and_hazards.md R651). A ROB tag is a natural number `0 .. ROB_SIZE - 1` (00 R14,
glossary). -/

namespace Sys2Proof.Machine

/-- A memory: its bytes by address, in the canonical form `Memory.wf` (Ops.lean). An address the
list does not hold reads as the byte of `INIT_FILL` in its lane (70 R655; log entry 4). -/
abbrev Memory := List Host.Cell

/-- The access a misaligned access is qualified by (00 R16). -/
inductive Access where
  | fetch | load | store
  deriving DecidableEq, Repr

/-- The fault kinds (00 R16, 60 R601). -/
inductive FaultKind where
  | decodeError
  | outOfBoundsFetch
  | outOfBoundsMemoryAccess
  | misalignedAccess (hit : Access)
  deriving DecidableEq, Repr

/-- A fault kind with its address, as a ROB entry and a payload hold it (10 R50, R54). -/
structure FaultInfo where
  kind : FaultKind
  addr : Word
  deriving DecidableEq, Repr

/-- Halt status (10 R39, 60 R600). -/
inductive Halt where
  | running
  | halted
  | fatal (kind : FaultKind) (pc addr : Word)
  deriving DecidableEq, Repr

/-- One retire event of the commit trace (10 R41, 49 R558). -/
structure RetireEvent where
  cycle : Nat
  tag : Nat
  pc : Word
  value : Option Word
  deriving DecidableEq, Repr

/-- The fetch latch (10 R45). -/
structure FetchLatch where
  valid : Bool
  pc : Word
  word : Word
  fault : Option FaultKind
  predTaken : Bool
  predTarget : Word
  deriving DecidableEq, Repr

/-- One predictor and BTB entry (10 R47). The tag, 32 - BHT_LOG_SIZE bits wide, is kept in a word. -/
structure BpEntry where
  ctr : Counter
  tag : Word
  target : Word
  deriving DecidableEq, Repr

/-- One entry of the register alias table (10 R48). -/
inductive RatEntry where
  | committed
  | pending (t : Nat)
  deriving DecidableEq, Repr

/-- An operand slot: a resolved word, or the ROB tag it waits on (00 R15). -/
inductive Slot where
  | value (v : Word)
  | pending (t : Nat)
  deriving DecidableEq, Repr

/-- ROB entry kinds (10 R51). -/
inductive Kind where
  | alu | branch | jump | load | store | mulDiv | ebreak | fault
  deriving DecidableEq, Repr

/-- Opcode classes of the decoded record (30 R171). -/
inductive OpClass where
  | arithmetic | logical | shift | compare | branch | jump | load | store | upperImmediate
  | system | multiply | divide | remainder
  deriving DecidableEq, Repr

/-- The units that take their operations from the reservation station (47 R440). -/
inductive ExecUnit where
  | alu | mul | div
  deriving DecidableEq, Repr

/-- The decoded instruction record (30 R171); `dest` is the record's rd, a register or none. -/
structure Decoded where
  op : Op
  cls : OpClass
  rs1 : Reg
  rs2 : Reg
  dest : Option Reg
  imm : Word
  pc : Word
  predTaken : Bool
  predTarget : Word
  deriving DecidableEq, Repr

/-- A ROB entry (10 R50). `op` is none in an entry that never held an instruction and in a Fault. -/
structure RobEntry where
  kind : Kind
  op : Option Op
  dest : Option Reg
  value : Word
  ready : Bool
  pc : Word
  predTaken : Bool
  predTarget : Word
  actTaken : Bool
  actTarget : Word
  mispredict : Bool
  fault : Option FaultInfo
  deriving DecidableEq, Repr

/-- A reservation station entry (10 R52). -/
structure RsEntry where
  busy : Bool
  op : Op
  j : Slot
  k : Slot
  imm : Word
  pc : Word
  dest : Nat
  deriving DecidableEq, Repr

/-- A load/store queue entry (10 R53). -/
structure LsqEntry where
  busy : Bool
  tag : Nat
  op : Op
  base : Slot
  imm : Word
  data : Slot
  issued : Bool
  deriving DecidableEq, Repr

/-- The control outcome a Branch or Jump result carries (10 R54). -/
structure Ctrl where
  taken : Bool
  target : Word
  deriving DecidableEq, Repr

/-- A result on the common data bus (10 R54). -/
structure Payload where
  tag : Nat
  value : Word
  ctrl : Option Ctrl
  fault : Option FaultInfo
  deriving DecidableEq, Repr

/-- The load output latch: a payload with the LSQ index of its load (10 R55). -/
structure LoadOut where
  payload : Payload
  index : Nat
  deriving DecidableEq, Repr

/-- An operation in flight in the MUL or DIV pipeline (10 R56). -/
structure UnitOp where
  tag : Nat
  op : Op
  a : Word
  b : Word
  deriving DecidableEq, Repr

/-- Which of the spec's two levels `step` runs (00 R6): the clock cycle of the core (49 R570), or one
instruction of the sequential semantics (60 R610). The model's own field, DESIGN CHOICE (log
entry 1). -/
inductive Level where
  | cycle | instruction
  deriving DecidableEq, Repr

/-- The whole state of the core. -/
structure State where
  /-- The parameters of the instance (00 R7); no step changes them. -/
  cfg : Config
  /-- The model's own field (log entry 1). -/
  level : Level
  /-- The architectural register file (R30); its entry 0 is x0. -/
  x : Vector Word 32
  /-- `pc_f`, the fetch PC (R33). -/
  pcF : Word
  /-- Instruction memory (R38, 20 R101). -/
  imem : Memory
  /-- Data memory (R38, 20 R102). -/
  dmem : Memory
  /-- Halt status (R39). -/
  halt : Halt
  /-- The cycle counter (R40). -/
  cycle : Nat
  /-- The retire log, oldest event first (R41). -/
  log : List RetireEvent
  /-- The fetch latch (R45). -/
  fl : FetchLatch
  /-- Fetch is suppressed (R46). -/
  fetchStopped : Bool
  /-- The predictor and BTB table, 2^BHT_LOG_SIZE entries (R47). -/
  bp : List BpEntry
  /-- The register alias table (R48). -/
  rat : Vector RatEntry 32
  /-- The reorder buffer, ROB_SIZE entries (R49). -/
  rob : List RobEntry
  /-- The tag of the oldest entry (R49). -/
  robHead : Nat
  /-- The tag the next dispatch allocates (R49). -/
  robTail : Nat
  /-- The number of valid entries (R49). -/
  robCount : Nat
  /-- The reservation station, RS_SIZE entries (R52). -/
  rs : List RsEntry
  /-- The load/store queue, LSQ_SIZE entries (R53). -/
  lsq : List LsqEntry
  /-- The ALU output latch (R55). -/
  aluOut : Option Payload
  /-- The load output latch (R55). -/
  ldOut : Option LoadOut
  /-- `mul[1 .. MUL_STAGES]`, stage 1 first (R56). -/
  mul : List (Option UnitOp)
  /-- `div[1 .. DIV_STAGES]`, stage 1 first (R56). -/
  div : List (Option UnitOp)
  deriving DecidableEq, Repr

/-- Why a step could stop with a fault. It has no constructor: every fatal condition of the spec is a
status the machine is left in (60 R600), so it is a next state whose `halt` is `fatal`, and no
behaviour of the core is undefined (93, after I22). -/
inductive Fault
  deriving DecidableEq, Repr

/-- Why the model gives no meaning. -/
inductive Refusal where
  /-- Raised by `exec` for an instruction that has no meaning yet; safe. No arm raises it. -/
  | notModelled (mnemonic : String)
  /-- Raised by `State.boot` alone: the image is no workload of the core, and "A model must refuse to
  construct S0 for it" (70 R655, D59); safe. -/
  | imageDoesNotFit
  /-- Raised by `State.boot` alone: the parameters are outside the legal values of 00 R7; safe. -/
  | illegalConfig
  deriving DecidableEq, Repr

/-- The fetch latch at reset (70 R651). -/
def FetchLatch.reset : FetchLatch where
  valid := false
  pc := 0#32
  word := 0#32
  fault := none
  predTaken := false
  predTarget := 0#32

/-- A predictor entry at reset (70 R651). -/
def BpEntry.reset (ctr : Counter) : BpEntry where
  ctr := ctr
  tag := 0#32
  target := 0#32

/-- A ROB entry at reset: every field 0, false or none (70 R651); kind 0 is Alu, DESIGN CHOICE (log
entry 5). -/
def RobEntry.reset : RobEntry where
  kind := .alu
  op := none
  dest := none
  value := 0#32
  ready := false
  pc := 0#32
  predTaken := false
  predTarget := 0#32
  actTaken := false
  actTarget := 0#32
  mispredict := false
  fault := none

/-- An RS entry at reset: not busy, other fields 0 (70 R651); op 0 is the first mnemonic, DESIGN CHOICE
(log entry 5). -/
def RsEntry.reset : RsEntry where
  busy := false
  op := .lui
  j := .value 0#32
  k := .value 0#32
  imm := 0#32
  pc := 0#32
  dest := 0

/-- An LSQ entry at reset: not busy, other fields 0 (70 R651); op 0 is the first memory mnemonic,
DESIGN CHOICE (log entry 5). -/
def LsqEntry.reset : LsqEntry where
  busy := false
  tag := 0
  op := .lw
  base := .value 0#32
  imm := 0#32
  data := .value 0#32
  issued := false

/-- The registers at reset: x0 = 0, x1 to x31 = INIT_X (70 R651). -/
def registersAtReset (cfg : Config) : Vector Word 32 :=
  (Vector.append #v[0#32] cfg.initX).cast (by decide)

/-- `S0` of 70 R650 with nothing placed in the memories: every element at its reset value (R651). -/
def State.initial (cfg : Config) : State where
  cfg := cfg
  level := .cycle
  x := registersAtReset cfg
  pcF := cfg.codeBase
  imem := []
  dmem := []
  halt := .running
  cycle := 0
  log := []
  fl := .reset
  fetchStopped := false
  bp := List.replicate (2 ^ cfg.bhtLogSize) (.reset cfg.ctrReset)
  rat := Vector.replicate 32 .committed
  rob := List.replicate cfg.robSize .reset
  robHead := 0
  robTail := 0
  robCount := 0
  rs := List.replicate cfg.rsSize .reset
  lsq := List.replicate cfg.lsqSize .reset
  aluOut := none
  ldOut := none
  mul := List.replicate cfg.mulStages none
  div := List.replicate cfg.divStages none

/-- The machine right after reset, with the default parameters of 00 R7 (70 R650, R651). -/
def State.reset : State := State.initial .standard

end Sys2Proof.Machine
end

