-- ==== Sys2Proof/Machine/Ops.lean ====
section
/-! DEFINITION. The named operations over memories, registers and the program counter, the access
checks, and the fatal stop, which is what this core has in place of taking an exception
(spec/10_state.md, 20_memory.md, 60_exceptions.md). -/

namespace Sys2Proof.Machine

/-! ### Memories -/

/-- What a byte address reads as while no image and no store has given it another value: the byte of
`INIT_FILL` in the same lane (70 R655, D6). -/
def fillByte (fill : Word) (a : Nat) : Byte := byteLane fill (a % 4)

/-- The byte at an address. -/
def Memory.read (fill : Word) : Memory → Nat → Byte
  | [], a => fillByte fill a
  | (k, v) :: rest, a => if k = a then v else Memory.read fill rest a

/-- Set the byte at an address, keeping the canonical form `Memory.wf`. -/
def Memory.write (fill : Word) : Memory → Nat → Byte → Memory
  | [], a, b => if b = fillByte fill a then [] else [(a, b)]
  | (k, v) :: rest, a, b =>
    if k < a then (k, v) :: Memory.write fill rest a b
    else if k = a then (if b = fillByte fill a then rest else (a, b) :: rest)
    else if b = fillByte fill a then (k, v) :: rest else (a, b) :: (k, v) :: rest

/-- Every key is at least `lo`, keys rise strictly, and no entry equals what its address would read as
unlisted. -/
def Memory.wfFrom (fill : Word) : Nat → Memory → Bool
  | _, [] => true
  | lo, (k, v) :: rest =>
    decide (lo ≤ k) && decide (v ≠ fillByte fill k) && Memory.wfFrom fill (k + 1) rest

/-- The canonical form: equal memories are equal lists. -/
def Memory.wf (fill : Word) (m : Memory) : Bool := Memory.wfFrom fill 0 m

/-- The little-endian word at byte address `a` (20 R104). -/
def Memory.readWord (fill : Word) (m : Memory) (a : Nat) : Word :=
  wordOfBytes (m.read fill a) (m.read fill (a + 1)) (m.read fill (a + 2)) (m.read fill (a + 3))

/-- Store bytes at rising addresses from `a`. -/
def Memory.writeBytes (fill : Word) : Memory → Nat → List Byte → Memory
  | m, _, [] => m
  | m, a, b :: rest => Memory.writeBytes fill (m.write fill a b) (a + 1) rest

/-- `MemWrite(a, 4, v)`: all four bytes, little-endian (20 R104, R105). -/
def Memory.writeWord (fill : Word) (m : Memory) (a : Nat) (v : Word) : Memory :=
  m.writeBytes fill a (bytesOfWord v)

/-- `MemRead(a, n)` for the two widths of a load: a word, or a byte zero-extended (20 R104, R106). -/
def Memory.readSized (fill : Word) (m : Memory) (n a : Nat) : Word :=
  if n = 4 then m.readWord fill a else (m.read fill a).setWidth 32

/-- One byte of data memory. -/
def State.dmemByte (s : State) (a : Nat) : Byte := s.dmem.read s.cfg.initFill a

/-- One byte of instruction memory. -/
def State.imemByte (s : State) (a : Nat) : Byte := s.imem.read s.cfg.initFill a

/-- The instruction word at byte address `a`, `IMEM[a >> 2]` (20 R101). -/
def State.imemWord (s : State) (a : Word) : Word := s.imem.readWord s.cfg.initFill a.toNat

/-- Data memory after a word store. -/
def State.dmemStore (s : State) (a : Word) (v : Word) : Memory :=
  s.dmem.writeWord s.cfg.initFill a.toNat v

/-! ### Access checks -/

/-- Out of bounds: `a +int n > MEMBYTES`, in exact integers (20 R108). -/
def outOfBounds (cfg : Config) (n : Nat) (a : Word) : Bool := decide (cfg.memBytes < a.toNat + n)

/-- The fault an out-of-bounds access of a kind raises (20 R108). -/
def boundsKind : Access → FaultKind
  | .fetch => .outOfBoundsFetch
  | .load | .store => .outOfBoundsMemoryAccess

/-- The first failing check of an access of width `n` at `a`: alignment for the 4-byte accesses, then
bounds (20 R107 to R109, 60 R602). -/
def accessCheck (cfg : Config) (hit : Access) (n : Nat) (a : Word) : Option FaultKind :=
  if n = 4 ∧ a.toNat % 4 ≠ 0 then some (.misalignedAccess hit)
  else if outOfBounds cfg n a then some (boundsKind hit)
  else none

/-! ### Registers -/

/-- Read a general register: 0 for x0 (00 R12, 10 R31). -/
def readReg (x : Vector Word 32) (r : Reg) : Word := if r = 0 then 0 else x[r.toNat]'r.isLt

/-- Write a general register: discarded for x0 (00 R12, 10 R31). -/
def writeReg (x : Vector Word 32) (r : Reg) (v : Word) : Vector Word 32 :=
  if r = 0 then x else x.set r.toNat v r.isLt

/-- `x[i]` (00 R12). -/
def State.reg (s : State) (r : Reg) : Word := readReg s.x r

/-- The destination a register field names: none for x0 (10 R31, 30 R172). -/
def destOf (rd : Reg) : Option Reg := if rd = 0 then none else some rd

/-- Write the destination of an instruction, when it has one (49 R543). -/
def writeDest (x : Vector Word 32) (dest : Option Reg) (v : Word) : Vector Word 32 :=
  match dest with
  | none => x
  | some r => writeReg x r v

/-! ### Tags and the ROB -/

/-- The tag after `t`, modulo ROB_SIZE (49 R547). -/
def nextTag (cfg : Config) (t : Nat) : Nat := (t + 1) % cfg.robSize

/-- `age(t) = (t - rob_head) mod ROB_SIZE` (00 R14). -/
def State.age (s : State) (t : Nat) : Nat :=
  (t + (s.cfg.robSize - s.robHead % s.cfg.robSize)) % s.cfg.robSize

/-- `S.rob[t]`. A tag outside the ROB, which no reachable state holds, reads a reset entry (log
entry 9). -/
def State.robEntry (s : State) (t : Nat) : RobEntry := s.rob.getD t .reset

/-- The tag is in the valid range `[head, head + count)` (10 R49). -/
def State.validTag (s : State) (t : Nat) : Bool :=
  decide (t < s.cfg.robSize) && decide (s.age t < s.robCount)

/-! ### Program counter -/

/-- The pc of the oldest instruction not yet committed (10 R34). -/
def State.oldestPc (s : State) : Word :=
  if s.robCount ≠ 0 then (s.robEntry s.robHead).pc
  else if s.fl.valid then s.fl.pc
  else s.pcF

/-- The architectural pc `pc_a` (10 R34). After EBREAK has stopped the core it is the EBREAK's pc, the
pc of the last retire event (44 R340; DEDUCED, log entry 11). -/
def State.pcA (s : State) : Word :=
  match s.halt with
  | .halted =>
    match s.log.getLast? with
    | some e => e.pc
    | none => s.oldestPc
  | .running => s.oldestPc
  | .fatal _ _ _ => s.oldestPc

/-! ### Stops -/

/-- `raise F(info)`: the core stops with the fatal status and the raising instruction writes nothing
(00 R12, 60 R600). The core has no handler, so this is all that taking an exception is (60 R621), and
there is no return from it. -/
def State.raise (s : State) (kind : FaultKind) (pc addr : Word) : State :=
  { s with halt := .fatal kind pc addr }

/-- The numeric status code of 60 R601; none while the core runs. -/
def Halt.code : Halt → Option Nat
  | .running => none
  | .halted => some 0
  | .fatal .decodeError _ _ => some 1
  | .fatal .outOfBoundsFetch _ _ => some 2
  | .fatal .outOfBoundsMemoryAccess _ _ => some 3
  | .fatal (.misalignedAccess .fetch) _ _ => some 4
  | .fatal (.misalignedAccess .load) _ _ => some 5
  | .fatal (.misalignedAccess .store) _ _ => some 6

/-! ### Emptying the core -/

/-- Remove every in-flight instruction: the squash effects of 49 R551 on ROB, RS, LSQ, units, latches,
RAT and fetch latch. The next instruction gets tag `head` and is fetched from `pc`. -/
def State.flushTo (s : State) (head : Nat) (pc : Word) : State :=
  { s with
    robHead := head
    robTail := head
    robCount := 0
    rs := s.rs.map fun e => { e with busy := false }
    lsq := s.lsq.map fun e => { e with busy := false }
    aluOut := none
    ldOut := none
    mul := s.mul.map fun _ => none
    div := s.div.map fun _ => none
    rat := Vector.replicate 32 .committed
    fl := { s.fl with valid := false }
    fetchStopped := false
    pcF := pc }

/-- No instruction is in flight: the state right after a squash or at reset (49 R551, 70 R652). -/
def State.drained (s : State) : Bool :=
  decide (s.robCount = 0) && decide (s.robTail = s.robHead) && !s.fl.valid && !s.fetchStopped
    && s.rs.all (fun e => !e.busy) && s.lsq.all (fun e => !e.busy)
    && s.aluOut.isNone && s.ldOut.isNone
    && s.mul.all (fun e => e.isNone) && s.div.all (fun e => e.isNone)
    && decide (s.rat = Vector.replicate 32 .committed)

/-! ### Retirement -/

/-- The retire event of an instruction with tag `tag` at `pc`: its value when it has a destination
(49 R558). -/
def retireEvent (s : State) (tag : Nat) (pc : Word) (dest : Option Reg) (v : Word) : RetireEvent where
  cycle := s.cycle
  tag := tag
  pc := pc
  value := dest.map fun _ => v

/-- Complete the instruction at `pc_a` in the sequential semantics (60 R610): its destination is
written, its retire event emitted, and the pc set to `next`. Work in flight for younger instructions
is dropped, which changes no architectural state (49 R551; DESIGN CHOICE, log entries 6 and 7). -/
def State.complete (s : State) (dest : Option Reg) (v : Word) (next : Word) : State :=
  { s.flushTo (nextTag s.cfg s.robHead) next with
    x := writeDest s.x dest v
    log := s.log ++ [retireEvent s s.robHead s.pcA dest v] }

/-- Complete with a result for `rd` and next pc = pc + 4 (40 R200, 43 R300). -/
def State.completeResult (s : State) (rd : Reg) (v : Word) : State :=
  s.complete (destOf rd) v (s.pcA + 4)

/-- What is observed of a run (49 R572). -/
structure Observation where
  x : Vector Word 32
  dmem : Memory
  halt : Halt
  log : List RetireEvent
  cycle : Nat
  deriving DecidableEq, Repr

/-- The observation of a state (49 R572). -/
def State.observe (s : State) : Observation where
  x := s.x
  dmem := s.dmem
  halt := s.halt
  log := s.log
  cycle := s.cycle

end Sys2Proof.Machine
end

