-- ==== Sys2Proof/Machine/Boot.lean ====
section
/-! DEFINITION. Construction of the initial state from the parameters and the two images
(spec/70_reset_and_hazards.md R650, R655). -/

namespace Sys2Proof.Machine

/-- A data image given as words is the byte sequence of each word, lowest byte first (R655, D59). -/
def imageOfWords (ws : List Word) : List Byte := ws.flatMap bytesOfWord

/-- An image of `n` bytes at byte address `base` lies inside its memory (R655). -/
def imageFits (cfg : Config) (base : Word) (n : Nat) : Bool := decide (base.toNat + n ≤ cfg.memBytes)

/-- `S0`: the reset state with the executable image at CODE_BASE in IMEM and the data image at
DATA_BASE in DMEM; an image that does not fit, or parameters that are not legal, are refused
(R650, R655, 00 R7). -/
def State.boot (cfg : Config) (code : List Word) (data : List Byte) :
    Host.Outcome State Fault Refusal :=
  if cfg.legal = false then .refused .illegalConfig
  else if imageFits cfg cfg.codeBase (4 * code.length) && imageFits cfg cfg.dataBase data.length then
    .next { State.initial cfg with
            imem := Memory.writeBytes cfg.initFill [] cfg.codeBase.toNat (imageOfWords code)
            dmem := Memory.writeBytes cfg.initFill [] cfg.dataBase.toNat data }
  else .refused .imageDoesNotFit

end Sys2Proof.Machine
end

