-- ==== Sys2Proof/Machine/Operands.lean ====
section
/-! DEFINITION. What the fields of a decoded instruction mean: mnemonic, class, ROB kind, unit, source
and destination registers, immediate, effective address (spec/30_encoding.md R166 to R173,
10_state.md R51, 47 R440, 48 R501). -/

namespace Sys2Proof.Machine

/-- The class of a mnemonic (30 R171). -/
def opClass : Op → OpClass
  | .add | .sub | .addi => .arithmetic
  | .and | .or | .xor | .andi | .ori | .xori => .logical
  | .sll | .srl | .sra | .slli | .srli | .srai => .shift
  | .slt | .sltu | .slti | .sltiu => .compare
  | .beq | .bne | .blt | .bge | .bltu | .bgeu => .branch
  | .jal | .jalr => .jump
  | .lw | .lbu => .load
  | .sw => .store
  | .lui | .auipc => .upperImmediate
  | .ebreak => .system
  | .mul | .mulh | .mulhsu | .mulhu => .multiply
  | .div | .divu => .divide
  | .rem | .remu => .remainder

/-- The ROB kind of a class (10 R51). -/
def kindOfClass : OpClass → Kind
  | .arithmetic | .logical | .shift | .compare | .upperImmediate => .alu
  | .branch => .branch
  | .jump => .jump
  | .load => .load
  | .store => .store
  | .multiply | .divide | .remainder => .mulDiv
  | .system => .ebreak

/-- The ROB kind of a mnemonic (10 R51). -/
def opKind (op : Op) : Kind := kindOfClass (opClass op)

/-- The unit a class is routed to through the reservation station; none for memory operations, which go
through the LSQ, and for EBREAK (47 R440). -/
def unitOfClass : OpClass → Option ExecUnit
  | .arithmetic | .logical | .shift | .compare | .upperImmediate | .branch | .jump => some .alu
  | .multiply => some .mul
  | .divide | .remainder => some .div
  | .load | .store | .system => none

/-- The unit a mnemonic is routed to (47 R440). -/
def opUnit (op : Op) : Option ExecUnit := unitOfClass (opClass op)

/-- The mnemonic takes an LSQ entry (42 R280, 47 R440). -/
def opIsMemory (op : Op) : Bool := opKind op = .load || opKind op = .store

/-- The access width in bytes of a memory operation: 1 for LBU, 4 for LW and SW (20 R106, 48 R501). -/
def opWidth (op : Op) : Nat := if op = .lbu then 1 else 4

/-- The mnemonic of an instruction. -/
def instrOp : Instr → Op
  | .lui _ _ => .lui
  | .auipc _ _ => .auipc
  | .addi _ _ _ => .addi
  | .slti _ _ _ => .slti
  | .sltiu _ _ _ => .sltiu
  | .xori _ _ _ => .xori
  | .ori _ _ _ => .ori
  | .andi _ _ _ => .andi
  | .slli _ _ _ => .slli
  | .srli _ _ _ => .srli
  | .srai _ _ _ => .srai
  | .add _ _ _ => .add
  | .sub _ _ _ => .sub
  | .sll _ _ _ => .sll
  | .slt _ _ _ => .slt
  | .sltu _ _ _ => .sltu
  | .xor _ _ _ => .xor
  | .srl _ _ _ => .srl
  | .sra _ _ _ => .sra
  | .or _ _ _ => .or
  | .and _ _ _ => .and
  | .jal _ _ => .jal
  | .jalr _ _ _ => .jalr
  | .beq _ _ _ => .beq
  | .bne _ _ _ => .bne
  | .blt _ _ _ => .blt
  | .bge _ _ _ => .bge
  | .bltu _ _ _ => .bltu
  | .bgeu _ _ _ => .bgeu
  | .lw _ _ _ => .lw
  | .lbu _ _ _ => .lbu
  | .sw _ _ _ => .sw
  | .mul _ _ _ => .mul
  | .mulh _ _ _ => .mulh
  | .mulhsu _ _ _ => .mulhsu
  | .mulhu _ _ _ => .mulhu
  | .div _ _ _ => .div
  | .divu _ _ _ => .divu
  | .rem _ _ _ => .rem
  | .remu _ _ _ => .remu
  | .ebreak => .ebreak

/-- The register rs1 names, 0 for an instruction that reads none (30 R172, R173). -/
def instrRs1 : Instr → Reg
  | .lui _ _ | .auipc _ _ | .jal _ _ | .ebreak => 0
  | .addi _ rs1 _ | .slti _ rs1 _ | .sltiu _ rs1 _ | .xori _ rs1 _ | .ori _ rs1 _
  | .andi _ rs1 _ | .slli _ rs1 _ | .srli _ rs1 _ | .srai _ rs1 _ => rs1
  | .add _ rs1 _ | .sub _ rs1 _ | .sll _ rs1 _ | .slt _ rs1 _ | .sltu _ rs1 _ | .xor _ rs1 _
  | .srl _ rs1 _ | .sra _ rs1 _ | .or _ rs1 _ | .and _ rs1 _ => rs1
  | .jalr _ rs1 _ | .lw _ rs1 _ | .lbu _ rs1 _ | .sw _ rs1 _ => rs1
  | .beq rs1 _ _ | .bne rs1 _ _ | .blt rs1 _ _ | .bge rs1 _ _ | .bltu rs1 _ _
  | .bgeu rs1 _ _ => rs1
  | .mul _ rs1 _ | .mulh _ rs1 _ | .mulhsu _ rs1 _ | .mulhu _ rs1 _ | .div _ rs1 _
  | .divu _ rs1 _ | .rem _ rs1 _ | .remu _ rs1 _ => rs1

/-- The register rs2 names, 0 for an instruction that reads none (30 R172, R173). -/
def instrRs2 : Instr → Reg
  | .lui _ _ | .auipc _ _ | .jal _ _ | .ebreak => 0
  | .addi _ _ _ | .slti _ _ _ | .sltiu _ _ _ | .xori _ _ _ | .ori _ _ _ | .andi _ _ _
  | .slli _ _ _ | .srli _ _ _ | .srai _ _ _ | .jalr _ _ _ | .lw _ _ _ | .lbu _ _ _ => 0
  | .add _ _ rs2 | .sub _ _ rs2 | .sll _ _ rs2 | .slt _ _ rs2 | .sltu _ _ rs2 | .xor _ _ rs2
  | .srl _ _ rs2 | .sra _ _ rs2 | .or _ _ rs2 | .and _ _ rs2 => rs2
  | .beq _ rs2 _ | .bne _ rs2 _ | .blt _ rs2 _ | .bge _ rs2 _ | .bltu _ rs2 _
  | .bgeu _ rs2 _ => rs2
  | .sw rs2 _ _ => rs2
  | .mul _ _ rs2 | .mulh _ _ rs2 | .mulhsu _ _ rs2 | .mulhu _ _ rs2 | .div _ _ rs2
  | .divu _ _ rs2 | .rem _ _ rs2 | .remu _ _ rs2 => rs2

/-- The register rd names, 0 for an instruction without an rd field (30 R172). -/
def instrRd : Instr → Reg
  | .lui rd _ | .auipc rd _ | .jal rd _ => rd
  | .addi rd _ _ | .slti rd _ _ | .sltiu rd _ _ | .xori rd _ _ | .ori rd _ _ | .andi rd _ _
  | .slli rd _ _ | .srli rd _ _ | .srai rd _ _ | .jalr rd _ _ | .lw rd _ _ | .lbu rd _ _ => rd
  | .add rd _ _ | .sub rd _ _ | .sll rd _ _ | .slt rd _ _ | .sltu rd _ _ | .xor rd _ _
  | .srl rd _ _ | .sra rd _ _ | .or rd _ _ | .and rd _ _ => rd
  | .mul rd _ _ | .mulh rd _ _ | .mulhsu rd _ _ | .mulhu rd _ _ | .div rd _ _ | .divu rd _ _
  | .rem rd _ _ | .remu rd _ _ => rd
  | .beq _ _ _ | .bne _ _ _ | .blt _ _ _ | .bge _ _ _ | .bltu _ _ _ | .bgeu _ _ _
  | .sw _ _ _ | .ebreak => 0

/-- The immediate of an instruction, 0 for formats R and SYS (30 R172). -/
def instrImm : Instr → Word
  | .lui _ imm | .auipc _ imm | .jal _ imm => imm
  | .addi _ _ imm | .slti _ _ imm | .sltiu _ _ imm | .xori _ _ imm | .ori _ _ imm
  | .andi _ _ imm | .slli _ _ imm | .srli _ _ imm | .srai _ _ imm | .jalr _ _ imm
  | .lw _ _ imm | .lbu _ _ imm | .sw _ _ imm => imm
  | .beq _ _ imm | .bne _ _ imm | .blt _ _ imm | .bge _ _ imm | .bltu _ _ imm
  | .bgeu _ _ imm => imm
  | .add _ _ _ | .sub _ _ _ | .sll _ _ _ | .slt _ _ _ | .sltu _ _ _ | .xor _ _ _
  | .srl _ _ _ | .sra _ _ _ | .or _ _ _ | .and _ _ _ | .mul _ _ _ | .mulh _ _ _
  | .mulhsu _ _ _ | .mulhu _ _ _ | .div _ _ _ | .divu _ _ _ | .rem _ _ _ | .remu _ _ _
  | .ebreak => 0

/-- The decoded record of an instruction fetched at `pc` with a prediction (30 R171, R172). -/
def decodedOf (i : Instr) (pc : Word) (predTaken : Bool) (predTarget : Word) : Decoded where
  op := instrOp i
  cls := opClass (instrOp i)
  rs1 := instrRs1 i
  rs2 := instrRs2 i
  dest := destOf (instrRd i)
  imm := instrImm i
  pc := pc
  predTaken := predTaken
  predTarget := predTarget

/-- `decode(w, pc, pred_taken, pred_target)` of 30 R172; none is DecodeError. -/
def decodeRecord (w pc : Word) (predTaken : Bool) (predTarget : Word) : Option Decoded :=
  (decode w).map fun i => decodedOf i pc predTaken predTarget

/-- `ea = x[rs1] + imm`, modulo 2^32: the one addressing mode of memory operations (42 R280,
48 R501). -/
def effectiveAddress (base imm : Word) : Word := base + imm

end Sys2Proof.Machine
end

