-- ==== Sys2Proof/Machine/Flags.lean ====
section
/-! DEFINITION. Comparisons. The core has no flags, condition codes or predicates (spec/10_state.md
R35): a comparison writes a register (SLT, SLTU, SLTI, SLTIU) or decides a branch in the ALU. -/

namespace Sys2Proof.Machine

/-- `a <s b` (00 R10). -/
def ltSigned (a b : Word) : Bool := decide (s32 a < s32 b)

/-- `a <u b` (00 R10). -/
def ltUnsigned (a b : Word) : Bool := decide (a.toNat < b.toNat)

/-- The word 1 or 0 a comparison writes (40 R204, R205, R215, R216). -/
def boolWord (c : Bool) : Word := if c then 1 else 0

/-- `cond(op, a, b)` of the conditional branches (41 R253 to R258); false for every other mnemonic, for
which no rule asks it. -/
def branchCondition (op : Op) (a b : Word) : Bool :=
  match op with
  | .beq => decide (a = b)
  | .bne => decide (a ≠ b)
  | .blt => ltSigned a b
  | .bge => !ltSigned a b
  | .bltu => ltUnsigned a b
  | .bgeu => !ltUnsigned a b
  | .lui | .auipc | .addi | .slti | .sltiu | .xori | .ori | .andi | .slli | .srli | .srai
  | .add | .sub | .sll | .slt | .sltu | .xor | .srl | .sra | .or | .and | .jal | .jalr
  | .lw | .lbu | .sw | .mul | .mulh | .mulhsu | .mulhu | .div | .divu | .rem | .remu
  | .ebreak => false

end Sys2Proof.Machine
end

