-- ==== Sys2Proof/Machine/Values.lean ====
section
/-! DEFINITION. The result of every computational and control instruction as a function of its operand
values (spec/40_integer.md, 41_control.md, 43_muldiv.md). The sequential meanings and the units of the
core both take their results from here (40 R200, 47 R445, R460, R465). -/

namespace Sys2Proof.Machine

/-- The shift amount of the register shifts: `x[rs2][4:0]` (40 R214, R218, R219). -/
def shiftAmount (b : Word) : Nat := b.toNat % 32

/-- `alu(op, a, b, imm, pc)` of 40 R200: the right-hand sides of R201 to R221, with a = x[rs1] and
b = x[rs2]; 0 for mnemonics that are not of the family, for which no rule asks it. -/
def integerValue (op : Op) (a b imm pc : Word) : Word :=
  match op with
  | .lui => imm
  | .auipc => pc + imm
  | .addi => a + imm
  | .slti => boolWord (ltSigned a imm)
  | .sltiu => boolWord (ltUnsigned a imm)
  | .xori => a ^^^ imm
  | .ori => a ||| imm
  | .andi => a &&& imm
  | .slli => a <<< imm.toNat
  | .srli => a >>> imm.toNat
  | .srai => a.sshiftRight imm.toNat
  | .add => a + b
  | .sub => a - b
  | .sll => a <<< shiftAmount b
  | .slt => boolWord (ltSigned a b)
  | .sltu => boolWord (ltUnsigned a b)
  | .xor => a ^^^ b
  | .srl => a >>> shiftAmount b
  | .sra => a.sshiftRight (shiftAmount b)
  | .or => a ||| b
  | .and => a &&& b
  | .jal | .jalr | .beq | .bne | .blt | .bge | .bltu | .bgeu | .lw | .lbu | .sw
  | .mul | .mulh | .mulhsu | .mulhu | .div | .divu | .rem | .remu | .ebreak => 0

/-- The link value of JAL and JALR, pc + 4 (41 R251, R252). -/
def linkValue (pc : Word) : Word := pc + 4

/-- The target of a pc-relative transfer, pc + imm (41 R250, R251). -/
def relativeTarget (pc imm : Word) : Word := pc + imm

/-- The target of JALR, `(x[rs1] + imm) & ~1` (41 R252, D42). -/
def jalrTarget (a imm : Word) : Word := (a + imm) &&& ~~~(1#32)

/-- `(taken, target)` of a control transfer (41 R250, 47 R445); none for other mnemonics. -/
def controlOutcome (op : Op) (a b imm pc : Word) : Option Ctrl :=
  match op with
  | .jal => some ⟨true, relativeTarget pc imm⟩
  | .jalr => some ⟨true, jalrTarget a imm⟩
  | .beq | .bne | .blt | .bge | .bltu | .bgeu =>
    some ⟨branchCondition op a b, relativeTarget pc imm⟩
  | .lui | .auipc | .addi | .slti | .sltiu | .xori | .ori | .andi | .slli | .srli | .srai
  | .add | .sub | .sll | .slt | .sltu | .xor | .srl | .sra | .or | .and
  | .lw | .lbu | .sw | .mul | .mulh | .mulhsu | .mulhu | .div | .divu | .rem | .remu
  | .ebreak => none

/-- The value an ALU result carries: the rd value of an integer instruction, the link value of a jump,
0 for a branch (47 R445, D56). -/
def aluValue (op : Op) (a b imm pc : Word) : Word :=
  match opClass op with
  | .jump => linkValue pc
  | .branch => 0
  | .arithmetic | .logical | .shift | .compare | .upperImmediate | .load | .store | .system
  | .multiply | .divide | .remainder => integerValue op a b imm pc

/-- Next pc: the target when the transfer is taken, else pc + 4 (41 R250). -/
def nextPc (pc : Word) (c : Option Ctrl) : Word :=
  match c with
  | some c => if c.taken then c.target else pc + 4
  | none => pc + 4

/-- The signed-overflow case of DIV and REM: -2^31 by -1 (43 R305, R307). -/
def divOverflows (a b : Word) : Bool := decide (s32 a = -2147483648 ∧ s32 b = -1)

/-- MUL, the low word of the product (43 R301). -/
def mulValue (a b : Word) : Word := u32 (s32 a * s32 b)
/-- MULH, bits 63..32 of the signed product (43 R302). -/
def mulhValue (a b : Word) : Word := u32 (s32 a * s32 b / 4294967296)
/-- MULHSU, bits 63..32 of signed a by unsigned b (43 R303). -/
def mulhsuValue (a b : Word) : Word := u32 (s32 a * (b.toNat : Int) / 4294967296)
/-- MULHU, bits 63..32 of the unsigned product (43 R304). -/
def mulhuValue (a b : Word) : Word := u32 ((a.toNat : Int) * (b.toNat : Int) / 4294967296)
/-- DIV, the quotient rounded toward zero; all ones for b = 0, -2^31 on overflow (43 R305). -/
def divValue (a b : Word) : Word :=
  if b = 0 then 0xffffffff#32
  else if divOverflows a b then 0x80000000#32
  else u32 ((s32 a).tdiv (s32 b))
/-- DIVU; all ones for b = 0 (43 R306). -/
def divuValue (a b : Word) : Word :=
  if b = 0 then 0xffffffff#32 else BitVec.ofNat 32 (a.toNat / b.toNat)
/-- REM, with the sign of the dividend; a for b = 0, 0 on overflow (43 R307). -/
def remValue (a b : Word) : Word :=
  if b = 0 then a else if divOverflows a b then 0 else u32 ((s32 a).tmod (s32 b))
/-- REMU; a for b = 0 (43 R308). -/
def remuValue (a b : Word) : Word := if b = 0 then a else BitVec.ofNat 32 (a.toNat % b.toNat)

/-- `f(op, a, b)` of the MUL and DIV units (47 R460, R465); 0 for mnemonics of no such unit, for which
no rule asks it. -/
def mulDivValue (op : Op) (a b : Word) : Word :=
  match op with
  | .mul => mulValue a b
  | .mulh => mulhValue a b
  | .mulhsu => mulhsuValue a b
  | .mulhu => mulhuValue a b
  | .div => divValue a b
  | .divu => divuValue a b
  | .rem => remValue a b
  | .remu => remuValue a b
  | .lui | .auipc | .addi | .slti | .sltiu | .xori | .ori | .andi | .slli | .srli | .srai
  | .add | .sub | .sll | .slt | .sltu | .xor | .srl | .sra | .or | .and | .jal | .jalr
  | .beq | .bne | .blt | .bge | .bltu | .bgeu | .lw | .lbu | .sw | .ebreak => 0

/-- The value a load of a mnemonic takes from data memory (42 R281, R282; 48 R509). -/
def loadFromMemory (s : State) (op : Op) (ea : Word) : Word :=
  s.dmem.readSized s.cfg.initFill (opWidth op) ea.toNat

end Sys2Proof.Machine
end

