-- ==== Sys2Proof/Machine/Lsq.lean ====
section
/-! DEFINITION. The load/store queue: addresses, ordering, forwarding, the load port and store
readiness (spec/48_lsq.md R500 to R523). -/

namespace Sys2Proof.Machine

/-- An element with the smallest key, the first of several. -/
def leastBy {α : Type} (key : α → Nat) : List α → Option α
  | [] => none
  | c :: rest =>
    match leastBy key rest with
    | none => some c
    | some d => if key c ≤ key d then some c else some d

/-- An element with the largest key, the first of several. -/
def greatestBy {α : Type} (key : α → Nat) : List α → Option α
  | [] => none
  | c :: rest =>
    match greatestBy key rest with
    | none => some c
    | some d => if key d ≤ key c then some c else some d

/-- The word of a resolved slot (00 R15). -/
def Slot.value? : Slot → Option Word
  | .value v => some v
  | .pending _ => none

/-- `ea(X)`, known once the base is resolved (R501). -/
def lsqAddress (e : LsqEntry) : Option Word :=
  e.base.value?.map fun v => effectiveAddress v e.imm

/-- A busy entry of a load: LW or LBU (10 R53). -/
def isLoadEntry (e : LsqEntry) : Bool := e.busy && (e.op = .lw || e.op = .lbu)

/-- A busy entry of a store (10 R53). -/
def isStoreEntry (e : LsqEntry) : Bool := e.busy && e.op = .sw

/-- `lf(L)`, the first failing check of a load at `ea` (R502). -/
def loadCheck (cfg : Config) (op : Op) (ea : Word) : Option FaultKind :=
  accessCheck cfg .load (opWidth op) ea

/-- `older_stores(L)` of a load with tag `t` (R503). -/
def olderStores (s : State) (t : Nat) : List LsqEntry :=
  s.lsq.filter fun e => isStoreEntry e && decide (s.age e.tag < s.age t)

/-- The byte ranges of a store at `st` and a load of `n` bytes at `ld` intersect (R504). -/
def overlaps (st ld : Word) (n : Nat) : Bool :=
  decide (st.toNat < ld.toNat + n) && decide (ld.toNat < st.toNat + 4)

/-- The store at `st` covers every byte of a load of `n` bytes at `ld` (R504). -/
def containsLoad (st ld : Word) (n : Nat) : Bool :=
  decide (st.toNat ≤ ld.toNat) && decide (ld.toNat + n ≤ st.toNat + 4)

/-- A store entry with a known address that overlaps the load. -/
def overlapsEntry (ld : Word) (n : Nat) (e : LsqEntry) : Bool :=
  match lsqAddress e with
  | some st => overlaps st ld n
  | none => false

/-- `F`, the youngest older store that overlaps a load of `n` bytes at `ea` with tag `t` (R506). -/
def forwardingStore (s : State) (t : Nat) (ea : Word) (n : Nat) : Option LsqEntry :=
  greatestBy (fun e => s.age e.tag) ((olderStores s t).filter (overlapsEntry ea n))

/-- The value a load takes from a containing store at `st` with data `d`: the word, or the byte of lane
`ea - st` (R507). -/
def forwardedValue (op : Op) (st ea d : Word) : Word :=
  if op = .lbu then (byteLane d (ea.toNat - st.toNat)).setWidth 32 else d

/-- What a load can do in this cycle. -/
inductive LoadPlan where
  /-- Its base is unknown, or it waits by R505 or R508. -/
  | wait
  /-- Its own check fails (R502, R511). -/
  | fault (f : FaultInfo)
  /-- It has a value, forwarded (R507) or read (R509). -/
  | value (v : Word)
  deriving DecidableEq, Repr

/-- The plan of a load past its own check: wait on an unknown older store address, take the youngest
overlapping store's data when that store contains it, else read memory (R505 to R509). -/
def orderedPlan (s : State) (e : LsqEntry) (ea : Word) : LoadPlan :=
  if (olderStores s e.tag).any fun st => (lsqAddress st).isNone then .wait
  else
    match forwardingStore s e.tag ea (opWidth e.op) with
    | none => .value (loadFromMemory s e.op ea)
    | some f =>
      match lsqAddress f, f.data with
      | some st, .value d =>
        if containsLoad st ea (opWidth e.op) then .value (forwardedValue e.op st ea d) else .wait
      | _, _ => .wait

/-- The plan of a load entry (R502, R505 to R510). -/
def loadPlan (s : State) (e : LsqEntry) : LoadPlan :=
  match lsqAddress e with
  | none => .wait
  | some ea =>
    match loadCheck s.cfg e.op ea with
    | some kind => .fault ⟨kind, ea⟩
    | none => orderedPlan s e ea

/-- The payload of a plan, none while the load waits (R511). -/
def planPayload (t : Nat) : LoadPlan → Option Payload
  | .wait => none
  | .fault f => some { tag := t, value := 0, ctrl := none, fault := some f }
  | .value v => some { tag := t, value := v, ctrl := none, fault := none }

/-- The loads eligible in this cycle, with their LSQ indices and payloads (R510). -/
def eligibleLoads (s : State) : List LoadOut :=
  s.lsq.zipIdx.filterMap fun (e, i) =>
    if isLoadEntry e && !e.issued then
      (planPayload e.tag (loadPlan s e)).map fun p => { payload := p, index := i }
    else none

/-- The load the load port selects: the oldest eligible one, only when the load latch is empty (R510,
D35). -/
def selectLoad (s : State) : Option LoadOut :=
  if s.ldOut.isNone then leastBy (fun l => s.age l.payload.tag) (eligibleLoads s) else none

/-- A store ready to commit: its LSQ index, address and data. -/
structure ReadyStore where
  index : Nat
  ea : Word
  data : Word
  deriving DecidableEq, Repr

/-- The LSQ entry of the store with tag `h`, once its base and data are resolved (R520, R521). -/
def readyStore (s : State) (h : Nat) : Option ReadyStore :=
  match s.lsq.zipIdx.find? fun (e, _) => e.busy && e.tag = h with
  | none => none
  | some (e, i) =>
    match lsqAddress e, e.data with
    | some ea, .value d => some { index := i, ea := ea, data := d }
    | _, _ => none

end Sys2Proof.Machine
end

