-- ==== Sys2Proof/Machine/Issue.lean ====
section
/-! DEFINITION. Issue, the ALU, the MUL and DIV pipelines, the common data bus and the wakeup
(spec/47_issue_execute_cdb.md R440 to R476). -/

namespace Sys2Proof.Machine

/-- An RS entry leaving for its unit, with its operand values (R444). -/
structure Issued where
  index : Nat
  tag : Nat
  op : Op
  a : Word
  b : Word
  imm : Word
  pc : Word
  deriving DecidableEq, Repr

/-- RS entry `i` is eligible for unit `u`: busy, routed to it, both operands resolved (R441). -/
def eligibleEntry (u : ExecUnit) (e : RsEntry) (i : Nat) : Option Issued :=
  if e.busy && opUnit e.op = some u then
    match e.j, e.k with
    | .value a, .value b =>
      some { index := i, tag := e.dest, op := e.op, a := a, b := b, imm := e.imm, pc := e.pc }
    | _, _ => none
  else none

/-- The eligible entry with the smallest age (R442). -/
def selectRs (s : State) (u : ExecUnit) : Option Issued :=
  leastBy (fun c => s.age c.tag) (s.rs.zipIdx.filterMap fun (e, i) => eligibleEntry u e i)

/-- The ALU's selection: none while its latch is full (R443). -/
def selectAlu (s : State) : Option Issued := if s.aluOut.isNone then selectRs s .alu else none

/-- The ALU's result for an issue (R445). -/
def aluPayload (c : Issued) : Payload where
  tag := c.tag
  value := aluValue c.op c.a c.b c.imm c.pc
  ctrl := controlOutcome c.op c.a c.b c.imm c.pc
  fault := none

/-- The result of the operation in the last stage of MUL or DIV (R460, R465). -/
def unitPayload (u : UnitOp) : Payload where
  tag := u.tag
  value := mulDivValue u.op u.a u.b
  ctrl := none
  fault := none

/-- The operation in the last stage of a pipeline, if any (R456). -/
def lastStage (pipe : List (Option UnitOp)) : Option UnitOp :=
  match pipe.getLast? with
  | some u => u
  | none => none

/-- What each requester presents to the bus in this cycle (R470). -/
def request (s : State) (alu : Option Issued) (load : Option LoadOut) : Requester → Option Payload
  | .alu => if s.aluOut.isSome then s.aluOut else alu.map aluPayload
  | .load => if s.ldOut.isSome then s.ldOut.map LoadOut.payload else load.map LoadOut.payload
  | .mul => (lastStage s.mul).map unitPayload
  | .div => (lastStage s.div).map unitPayload

/-- The winner of the arbitration and its payload, the broadcast B (R470, R471). -/
def arbitrate (s : State) (alu : Option Issued) (load : Option LoadOut) :
    Option (Requester × Payload) :=
  s.cfg.cdbPriority.findSome? fun r => (request s alu load r).map fun p => (r, p)

/-- The bus was won by this requester. -/
def wonBy (win : Option (Requester × Payload)) (r : Requester) : Bool :=
  match win with
  | some (w, _) => decide (w = r)
  | none => false

/-- A pipeline advances when its last stage is empty or wins the bus (R456, R462). -/
def pipeAdvances (pipe : List (Option UnitOp)) (won : Bool) : Bool :=
  (lastStage pipe).isNone || won

/-- The operation an issue puts into stage 1 (R444, R456). -/
def issuedUnitOp (c : Issued) : UnitOp where
  tag := c.tag
  op := c.op
  a := c.a
  b := c.b

/-- The stages of a pipeline after the cycle: shifted with the new operation in stage 1, or frozen
(R456, R462). -/
def nextPipe (pipe : List (Option UnitOp)) (advances : Bool) (new : Option Issued) :
    List (Option UnitOp) :=
  if advances then (new.map issuedUnitOp :: pipe).dropLast else pipe

/-- The selections and the bus of a cycle: the same-cycle signals of 49 R570 steps 2 to 4. -/
structure Signals where
  alu : Option Issued
  load : Option LoadOut
  win : Option (Requester × Payload)
  mulAdvances : Bool
  divAdvances : Bool
  mul : Option Issued
  div : Option Issued
  deriving DecidableEq, Repr

/-- The signals of a cycle, all from the snapshot (49 R570). -/
def signals (s : State) : Signals :=
  let alu := selectAlu s
  let load := selectLoad s
  let win := arbitrate s alu load
  let mulAdvances := pipeAdvances s.mul (wonBy win .mul)
  let divAdvances := pipeAdvances s.div (wonBy win .div)
  { alu := alu
    load := load
    win := win
    mulAdvances := mulAdvances
    divAdvances := divAdvances
    mul := if mulAdvances then selectRs s .mul else none
    div := if divAdvances then selectRs s .div else none }

/-- The broadcast B of a cycle (R470). -/
def Signals.broadcast (g : Signals) : Option Payload := g.win.map Prod.snd

/-- The ALU latch after the cycle: a request that did not win stays or enters it (R472). -/
def nextAluOut (s : State) (g : Signals) : Option Payload :=
  if wonBy g.win .alu then none else request s g.alu g.load .alu

/-- The load latch after the cycle (R472). -/
def nextLdOut (s : State) (g : Signals) : Option LoadOut :=
  if wonBy g.win .load then none else if s.ldOut.isSome then s.ldOut else g.load

/-- A slot after the broadcast (R473). -/
def wakeSlot (b : Option Payload) : Slot → Slot
  | .value v => .value v
  | .pending t =>
    match b with
    | some b => if b.tag = t then .value b.value else .pending t
    | none => .pending t

/-- A busy RS entry after the broadcast (R473). -/
def wakeRs (b : Option Payload) (e : RsEntry) : RsEntry :=
  if e.busy then { e with j := wakeSlot b e.j, k := wakeSlot b e.k } else e

/-- A busy LSQ entry after the broadcast (R473). -/
def wakeLsq (b : Option Payload) (e : LsqEntry) : LsqEntry :=
  if e.busy then { e with base := wakeSlot b e.base, data := wakeSlot b e.data } else e

/-- Free the RS entry of an issue (R444). -/
def releaseRs (rs : List RsEntry) (c : Option Issued) : List RsEntry :=
  match c with
  | some c => rs.modify c.index fun e => { e with busy := false }
  | none => rs

/-- Free an LSQ entry (R512, R521). -/
def releaseLsq (lsq : List LsqEntry) (i : Nat) : List LsqEntry :=
  lsq.modify i fun e => { e with busy := false }

/-- The LSQ after the load port's turn: the load whose payload won is freed; a newly selected load that
lost is marked issued (R472, R512). -/
def loadPortLsq (s : State) (g : Signals) (lsq : List LsqEntry) : List LsqEntry :=
  match (if s.ldOut.isSome then s.ldOut else g.load) with
  | none => lsq
  | some l =>
    if wonBy g.win .load then releaseLsq lsq l.index
    else lsq.modify l.index fun e => { e with issued := true }

/-- `mispredicted(...)` of 49 R548. -/
def mispredicted (predTaken : Bool) (predTarget : Word) (actTaken : Bool) (actTarget : Word) : Bool :=
  decide (predTaken ≠ actTaken) || (actTaken && decide (predTarget ≠ actTarget))

/-- A ROB entry that receives the broadcast (R474). -/
def completeEntry (b : Payload) (e : RobEntry) : RobEntry :=
  match b.ctrl with
  | none => { e with value := b.value, ready := true, fault := b.fault }
  | some c =>
    { e with
      value := b.value
      ready := true
      fault := b.fault
      actTaken := c.taken
      actTarget := c.target
      mispredict := mispredicted e.predTaken e.predTarget c.taken c.target }

/-- The ROB after the broadcast (R474). -/
def broadcastRob (rob : List RobEntry) (b : Option Payload) : List RobEntry :=
  match b with
  | some b => rob.modify b.tag (completeEntry b)
  | none => rob

end Sys2Proof.Machine
end

