-- ==== Sys2Proof/Machine/Predictor.lean ====
section
/-! DEFINITION. The branch predictor and BTB: 2-bit saturating counters with a tagged target
(spec/45_fetch_predict.md R353 to R361). -/

namespace Sys2Proof.Machine

/-- The counter is in a "taken" state, 2 or 3 (R353, R354). -/
def counterPredictsTaken : Counter → Bool
  | .stronglyNotTaken | .weaklyNotTaken => false
  | .weaklyTaken | .stronglyTaken => true

/-- The number of a counter state (R354). -/
def counterValue : Counter → Nat
  | .stronglyNotTaken => 0
  | .weaklyNotTaken => 1
  | .weaklyTaken => 2
  | .stronglyTaken => 3

/-- One step toward the actual direction, saturating at 0 and 3 (R354, R358). -/
def counterStep (taken : Bool) : Counter → Counter
  | .stronglyNotTaken => if taken then .weaklyNotTaken else .stronglyNotTaken
  | .weaklyNotTaken => if taken then .weaklyTaken else .stronglyNotTaken
  | .weaklyTaken => if taken then .stronglyTaken else .weaklyNotTaken
  | .stronglyTaken => if taken then .stronglyTaken else .weaklyTaken

/-- `idx = pc mod 2^B` (R353, D16). -/
def bpIndex (cfg : Config) (pc : Word) : Nat := pc.toNat % 2 ^ cfg.bhtLogSize

/-- `pc >> B`, the remaining PC bits (R353). -/
def bpTag (cfg : Config) (pc : Word) : Word := pc >>> cfg.bhtLogSize

/-- The predictor entry of an address. -/
def State.bpEntry (s : State) (pc : Word) : BpEntry :=
  s.bp.getD (bpIndex s.cfg pc) (.reset s.cfg.ctrReset)

/-- `pt` of R353: the counter is in a taken state and the BTB tag matches. -/
def State.predictsTaken (s : State) (a : Word) : Bool :=
  counterPredictsTaken (s.bpEntry a).ctr && decide ((s.bpEntry a).tag = bpTag s.cfg a)

/-- `ptarget` of R353: the predicted next pc. -/
def State.predictedTarget (s : State) (a : Word) : Word :=
  if s.predictsTaken a then (s.bpEntry a).target else a + 4

/-- The predictor write of a committing entry (R358). -/
def bpUpdate (s : State) (e : RobEntry) : List BpEntry :=
  s.bp.set (bpIndex s.cfg e.pc)
    { ctr := counterStep e.actTaken (s.bpEntry e.pc).ctr
      tag := bpTag s.cfg e.pc
      target := e.actTarget }

/-- The commit of this entry writes the predictor: a Branch or Jump, or an instruction fetch wrongly
predicted taken; under OnMispredict only when it was mispredicted (R358, R361, 49 R549). -/
def updatesPredictor (cfg : Config) (e : RobEntry) : Bool :=
  match cfg.predictorUpdate with
  | .onMispredict => e.mispredict
  | .everyResolution => e.mispredict || e.kind = .branch || e.kind = .jump

end Sys2Proof.Machine
end

