-- ==== Sys2Proof/Machine/Commit.lean ====
section
/-! DEFINITION. Commit of the ROB head: what it may do, and its effects on the architectural state
(spec/49_rob_commit.md R540 to R558, 48_lsq.md R521, 60_exceptions.md R603). -/

namespace Sys2Proof.Machine

/-- A fatal stop: its kind, the failing pc and the faulting address (10 R39, 60 R601). -/
structure Stop where
  kind : FaultKind
  pc : Word
  addr : Word
  deriving DecidableEq, Repr

/-- A head that retires, with the store it performs when it is one. -/
structure Retirement where
  entry : RobEntry
  store : Option ReadyStore
  deriving DecidableEq, Repr

/-- The commit decision of a cycle (49 R570 step 1). -/
inductive CommitDecision where
  /-- The ROB is empty or its head not complete (R541). -/
  | wait
  /-- The head stops the core with a fatal status (R554). -/
  | stop (st : Stop)
  /-- The head is a complete EBREAK (R556). -/
  | ebreak (e : RobEntry)
  /-- The head retires (R542). -/
  | retire (r : Retirement)
  deriving DecidableEq, Repr

/-- The head entry `S.rob[S.rob_head]`. -/
def State.headEntry (s : State) : RobEntry := s.robEntry s.robHead

/-- A complete head of a kind that may carry a fault in its entry (R554). -/
def retireOrStop (e : RobEntry) : CommitDecision :=
  match e.fault with
  | some f => .stop ⟨f.kind, e.pc, f.addr⟩
  | none => .retire ⟨e, none⟩

/-- A Store head: waits until its LSQ entry is complete, stops on a failing check, else stores
(R541, R542, 48 R521). -/
def commitStore (s : State) (e : RobEntry) : CommitDecision :=
  match readyStore s s.robHead with
  | none => .wait
  | some st =>
    match accessCheck s.cfg .store 4 st.ea with
    | some kind => .stop ⟨kind, e.pc, st.ea⟩
    | none => .retire ⟨e, some st⟩

/-- What commit does in this cycle (R541, R542). A Fault entry without a fault, which no reachable state
holds, waits (log entry 9). -/
def commitDecision (s : State) : CommitDecision :=
  if s.robCount = 0 then .wait
  else
    match s.headEntry.kind with
    | .store => commitStore s s.headEntry
    | .fault =>
      match s.headEntry.ready, s.headEntry.fault with
      | true, some f => .stop ⟨f.kind, s.headEntry.pc, f.addr⟩
      | _, _ => .wait
    | .ebreak => if s.headEntry.ready then .ebreak s.headEntry else .wait
    | .load => if s.headEntry.ready then retireOrStop s.headEntry else .wait
    | .alu | .branch | .jump | .mulDiv =>
      if s.headEntry.ready then .retire ⟨s.headEntry, none⟩ else .wait

/-- The RAT after the clear of a retiring head: only a mapping to its own tag is cleared (R544). -/
def clearRat (s : State) (dest : Option Reg) : Vector RatEntry 32 :=
  match dest with
  | none => s.rat
  | some r =>
    if s.rat[r.toNat]'r.isLt = .pending s.robHead then s.rat.set r.toNat .committed r.isLt
    else s.rat

/-- Data memory after a retirement (R545, 48 R521). -/
def retireDmem (s : State) (store : Option ReadyStore) : Memory :=
  match store with
  | some st => s.dmemStore st.ea st.data
  | none => s.dmem

/-- The effects of a retirement on registers, memory, RAT, predictor and retire log (R542 to R545,
R549, R558). -/
def State.commitEffects (s : State) (r : Retirement) : State :=
  { s with
    x := writeDest s.x r.entry.dest r.entry.value
    rat := clearRat s r.entry.dest
    dmem := retireDmem s r.store
    bp := if updatesPredictor s.cfg r.entry then bpUpdate s r.entry else s.bp
    log := s.log ++ [retireEvent s s.robHead r.entry.pc r.entry.dest r.entry.value] }

/-- The correct next pc of a squashing instruction (R552). -/
def squashPc (e : RobEntry) : Word := if e.actTaken then e.actTarget else e.pc + 4

/-- The squash cycle: the retire effects stand, everything in flight is removed and fetch is redirected
(R551 to R553); a Store with the misprediction flag squashes too (R550; DEDUCED, log entry 18). -/
def State.squash (s : State) (r : Retirement) : State :=
  { (s.commitEffects r).flushTo (nextTag s.cfg s.robHead) (squashPc r.entry) with
    cycle := s.cycle + 1 }

/-- The halt cycle of an EBREAK: only its retirement and the halt (R556, R557). -/
def State.haltOnEbreak (s : State) (e : RobEntry) : State :=
  { s with
    halt := .halted
    robHead := nextTag s.cfg s.robHead
    robCount := s.robCount - 1
    log := s.log ++ [retireEvent s s.robHead e.pc e.dest e.value]
    cycle := s.cycle + 1 }

/-- The halt cycle of a fault: only the halt (R554, R557). -/
def State.haltOnFault (s : State) (st : Stop) : State :=
  { s.raise st.kind st.pc st.addr with cycle := s.cycle + 1 }

end Sys2Proof.Machine
end

