-- ==== Sys2Proof/Machine/Fetch.lean ====
section
/-! DEFINITION. Fetch: the access checks, the read, the prediction and the latch fill
(spec/45_fetch_predict.md R350 to R357), and the fetch of the sequential semantics
(60_exceptions.md R610). -/

namespace Sys2Proof.Machine

/-- The checks of a fetch address, alignment before bounds (R351). -/
def fetchCheck (cfg : Config) (a : Word) : Option FaultKind := accessCheck cfg .fetch 4 a

/-- The EBREAK word (30 R159). -/
def ebreakWord : Word := 0x00100073#32

/-- The words whose fetch stops fetching: EBREAK, and every word that is no instruction (R357). -/
def stopsFetch (w : Word) : Bool := decide (w = ebreakWord) || (decode w).isNone

/-- What a fetch writes: the latch, the fetch PC and, when it stops fetching, the stop flag. -/
structure FetchResult where
  fl : FetchLatch
  pcF : Word
  stop : Bool
  deriving DecidableEq, Repr

/-- The fetch at `pc_f`: a failing check fills the latch with the fault, else the word is read and
predicted (R351, R352, R357). -/
def fetchAccess (s : State) : FetchResult :=
  match fetchCheck s.cfg s.pcF with
  | some kind =>
    { fl := { valid := true, pc := s.pcF, word := 0, fault := some kind, predTaken := false
              predTarget := s.pcF + 4 }
      pcF := s.pcF
      stop := true }
  | none =>
    { fl := { valid := true, pc := s.pcF, word := s.imemWord s.pcF, fault := none
              predTaken := s.predictsTaken s.pcF, predTarget := s.predictedTarget s.pcF }
      pcF := s.predictedTarget s.pcF
      stop := stopsFetch (s.imemWord s.pcF) }

/-- Fetch runs in a cycle without squash: it is not stopped, and the latch is empty or consumed by this
cycle's dispatch (R350). -/
def fetchRuns (s : State) (dispatched : Bool) : Bool :=
  !s.fetchStopped && (!s.fl.valid || dispatched)

/-- What fetch and dispatch together leave of latch, fetch PC and stop flag (R350, 46 R414). -/
def fetchStage (s : State) (dispatched : Bool) : FetchResult :=
  if fetchRuns s dispatched then fetchAccess s
  else { fl := if dispatched then { s.fl with valid := false } else s.fl
         pcF := s.pcF
         stop := s.fetchStopped }

/-- The fetch of the sequential semantics: checks, then decoding (60 R602, R610). -/
def sequentialFetch (s : State) (pc : Word) : Except FaultKind Instr :=
  match fetchCheck s.cfg pc with
  | some kind => .error kind
  | none =>
    match decode (s.imemWord pc) with
    | none => .error .decodeError
    | some i => .ok i

end Sys2Proof.Machine
end

