-- ==== Sys2Proof/Machine/Rename.lean ====
section
/-! DEFINITION. Decode, rename and dispatch of the instruction in the fetch latch
(spec/46_rename_dispatch.md R400 to R415). -/

namespace Sys2Proof.Machine

/-- What the fetch latch holds once decoded: an instruction, or a fault that takes its place (R401). -/
inductive MicroOp where
  | instr (d : Decoded)
  | fault (f : FaultInfo)
  deriving DecidableEq, Repr

/-- The decode stage, applied to the latch in the dispatch cycle (R401). -/
def latchMicroOp (fl : FetchLatch) : MicroOp :=
  match fl.fault with
  | some kind => .fault ⟨kind, fl.pc⟩
  | none =>
    match decodeRecord fl.word fl.pc fl.predTaken fl.predTarget with
    | none => .fault ⟨.decodeError, fl.pc⟩
    | some d => .instr d

/-- `resolve(r)`: the committed value, the value already in the ROB, the value this cycle's broadcast
carries, or the tag to wait on; x0 is 0 whatever the state (R410, R412). -/
def resolveReg (s : State) (b : Option Payload) (r : Reg) : Slot :=
  if r = 0 then .value 0
  else
    match s.rat[r.toNat]'r.isLt with
    | .committed => .value (s.reg r)
    | .pending p =>
      if (s.robEntry p).ready then .value (s.robEntry p).value
      else
        match b with
        | some b => if b.tag = p then .value b.value else .pending p
        | none => .pending p

/-- What dispatch allocates: the ROB entry at the tail, an RS or LSQ entry or neither, and the register
that is renamed to the tag (R403, R405, R406). -/
structure Allocation where
  entry : RobEntry
  rs : Option (Nat × RsEntry)
  lsq : Option (Nat × LsqEntry)
  dest : Option Reg
  deriving DecidableEq, Repr

/-- The kind of ROB entry of a decoded latch (10 R51). -/
def MicroOp.kind : MicroOp → Kind
  | .instr d => kindOfClass d.cls
  | .fault _ => .fault

/-- The mnemonic; a Fault has none. -/
def MicroOp.op : MicroOp → Option Op
  | .instr d => some d.op
  | .fault _ => none

/-- The destination; a Fault has none (R405). -/
def MicroOp.dest : MicroOp → Option Reg
  | .instr d => d.dest
  | .fault _ => none

/-- The fault a Fault entry carries (R403). -/
def MicroOp.fault? : MicroOp → Option FaultInfo
  | .instr _ => none
  | .fault f => some f

/-- The ROB entry of a dispatch: ready at once for Ebreak and Fault, and already mispredicted when fetch
predicted a non-control instruction taken (R403, 45 R361). -/
def dispatchedEntry (fl : FetchLatch) (u : MicroOp) : RobEntry where
  kind := u.kind
  op := u.op
  dest := u.dest
  value := 0
  ready := u.kind = .ebreak || u.kind = .fault
  pc := fl.pc
  predTaken := fl.predTaken
  predTarget := fl.predTarget
  actTaken := false
  actTarget := fl.pc + 4
  mispredict := u.kind ≠ .branch && u.kind ≠ .jump && fl.predTaken
  fault := u.fault?

/-- The lowest-numbered free RS entry (R402, R403, D25). -/
def freeRs (s : State) : Option Nat := s.rs.findIdx? fun e => !e.busy

/-- The lowest-numbered free LSQ entry (R402, R403, D25). -/
def freeLsq (s : State) : Option Nat := s.lsq.findIdx? fun e => !e.busy

/-- The RS entry of a dispatch with tag `t`. A register field an instruction does not read is 0 in its
record, so its slot is `Value(0)` (R403, R411, 30 R173). -/
def dispatchedRs (s : State) (b : Option Payload) (d : Decoded) (t : Nat) : RsEntry where
  busy := true
  op := d.op
  j := resolveReg s b d.rs1
  k := resolveReg s b d.rs2
  imm := d.imm
  pc := s.fl.pc
  dest := t

/-- The LSQ entry of a dispatch with tag `t`: base from rs1, data from rs2 for SW and `Value(0)` for a
load, whose record has rs2 = 0 (R403, R411). -/
def dispatchedLsq (s : State) (b : Option Payload) (d : Decoded) (t : Nat) : LsqEntry where
  busy := true
  tag := t
  op := d.op
  base := resolveReg s b d.rs1
  imm := d.imm
  data := resolveReg s b d.rs2
  issued := false

/-- The allocation of a decoded latch, none when the ROB, the RS or the LSQ is full (R402 to R405). All
checks are on the snapshot (D19). -/
def allocate (s : State) (b : Option Payload) (u : MicroOp) : Option Allocation :=
  if s.robCount < s.cfg.robSize then
    match u with
    | .fault _ => some ⟨dispatchedEntry s.fl u, none, none, none⟩
    | .instr d =>
      match unitOfClass d.cls with
      | some _ =>
        (freeRs s).map fun i =>
          ⟨dispatchedEntry s.fl u, some (i, dispatchedRs s b d s.robTail), none, d.dest⟩
      | none =>
        if opIsMemory d.op then
          (freeLsq s).map fun i =>
            ⟨dispatchedEntry s.fl u, none, some (i, dispatchedLsq s b d s.robTail), d.dest⟩
        else some ⟨dispatchedEntry s.fl u, none, none, d.dest⟩
  else none

/-- Dispatch of a cycle with broadcast `b`: none when the latch is empty or a resource is missing (R400,
R402, R404). -/
def dispatch (s : State) (b : Option Payload) : Option Allocation :=
  if s.fl.valid then allocate s b (latchMicroOp s.fl) else none

end Sys2Proof.Machine
end

