-- ==== Sys2Proof/Machine/Cycle.lean ====
section
/-! DEFINITION. The clock cycle: all stages read the snapshot and write the next state
(spec/49_rob_commit.md R570, 60_exceptions.md R603). -/

namespace Sys2Proof.Machine

/-- The RAT after the cycle: commit's clear, then dispatch's rename, which wins (46 R406, R413). -/
def nextRat (s : State) (rat : Vector RatEntry 32) (a : Option Allocation) : Vector RatEntry 32 :=
  match a with
  | none => rat
  | some a =>
    match a.dest with
    | none => rat
    | some r => if r = 0 then rat else rat.set r.toNat (.pending s.robTail) r.isLt

/-- The reservation station after the cycle: wakeup, freed entries, the new entry (47 R444, R473,
46 R403). -/
def nextRs (s : State) (g : Signals) (a : Option Allocation) : List RsEntry :=
  let rs := s.rs.map (wakeRs g.broadcast)
  let rs := releaseRs (releaseRs (releaseRs rs g.alu) g.mul) g.div
  match a with
  | some { rs := some (i, e), .. } => rs.set i e
  | _ => rs

/-- The LSQ after the cycle: wakeup, the load port, the committing store, the new entry (47 R473, 48
R512, R521, 46 R403). -/
def nextLsq (s : State) (g : Signals) (a : Option Allocation) (r : Option Retirement) :
    List LsqEntry :=
  let lsq := loadPortLsq s g (s.lsq.map (wakeLsq g.broadcast))
  let lsq :=
    match r with
    | some { store := some st, .. } => releaseLsq lsq st.index
    | _ => lsq
  match a with
  | some { lsq := some (i, e), .. } => lsq.set i e
  | _ => lsq

/-- The ROB entries after the cycle: the broadcast, then the new entry at the tail (47 R474, 46
R403). -/
def nextRob (s : State) (g : Signals) (a : Option Allocation) : List RobEntry :=
  let rob := broadcastRob s.rob g.broadcast
  match a with
  | some a => rob.set s.robTail a.entry
  | none => rob

/-- The state after commit's effects, when the head retires. -/
def State.afterCommit (s : State) : Option Retirement → State
  | some r => s.commitEffects r
  | none => s

/-- A cycle without squash or halt (49 R570 steps 2 to 8, R547). -/
def State.advance (s : State) (r : Option Retirement) : State :=
  let g := signals s
  let a := dispatch s g.broadcast
  let f := fetchStage s a.isSome
  { s.afterCommit r with
    cycle := s.cycle + 1
    rat := nextRat s (s.afterCommit r).rat a
    rob := nextRob s g a
    robHead := if r.isSome then nextTag s.cfg s.robHead else s.robHead
    robTail := if a.isSome then nextTag s.cfg s.robTail else s.robTail
    robCount := s.robCount - (if r.isSome then 1 else 0) + (if a.isSome then 1 else 0)
    rs := nextRs s g a
    lsq := nextLsq s g a r
    aluOut := nextAluOut s g
    ldOut := nextLdOut s g
    mul := nextPipe s.mul g.mulAdvances g.mul
    div := nextPipe s.div g.divAdvances g.div
    fl := f.fl
    pcF := f.pcF
    fetchStopped := f.stop }

/-- The early stop of FAULT_POLICY = Immediate: the selected load's fault, else the fault the fetch
latch holds (60 R603; when both are there the older one, the load's, DESIGN CHOICE, log entry 8). -/
def immediateStop (s : State) : Option Stop :=
  match s.cfg.faultPolicy with
  | .deferred => none
  | .immediate =>
    match (selectLoad s).bind fun l => l.payload.fault.map fun f => (l.payload.tag, f) with
    | some (t, f) => some ⟨f.kind, (s.robEntry t).pc, f.addr⟩
    | none =>
      if s.fl.valid then
        match latchMicroOp s.fl with
        | .fault f => some ⟨f.kind, s.fl.pc, f.addr⟩
        | .instr _ => none
      else none

/-- Apply the early stop after every other effect of the cycle (60 R603). -/
def withImmediateStop (s n : State) : State :=
  match immediateStop s with
  | some st => n.raise st.kind st.pc st.addr
  | none => n

/-- One clock cycle of a running core (49 R570). -/
def State.clock (s : State) : State :=
  match commitDecision s with
  | .stop st => s.haltOnFault st
  | .ebreak e => s.haltOnEbreak e
  | .retire r =>
    if r.entry.mispredict then s.squash r else withImmediateStop s (s.advance (some r))
  | .wait => withImmediateStop s (s.advance none)

end Sys2Proof.Machine
end

