-- ==== Sys2Proof/Machine/Control.lean ====
section
/-! DEFINITION. The control transfer instructions in the sequential semantics (spec/41_control.md
R250 to R260). A transfer never checks its target: the next fetch does (R259). -/

namespace Sys2Proof.Machine

/-- The transfer completes: rd gets the link value when there is one, the next pc is the target when
taken, else pc + 4 (R250). -/
def completeControl (op : Op) (dest : Option Reg) (a b imm : Word) (s : State) :
    Host.Outcome State Fault Refusal :=
  .next (s.complete dest (aluValue op a b imm s.pcA)
    (nextPc s.pcA (controlOutcome op a b imm s.pcA)))

/-- JAL, jump and link (R251). -/
def execJal (rd : Reg) (imm : Word) (s : State) : Host.Outcome State Fault Refusal :=
  completeControl .jal (destOf rd) 0 0 imm s

/-- JALR, jump and link register (R252). -/
def execJalr (rd rs1 : Reg) (imm : Word) (s : State) : Host.Outcome State Fault Refusal :=
  completeControl .jalr (destOf rd) (s.reg rs1) 0 imm s

/-- BEQ, branch if equal (R253). -/
def execBeq (rs1 rs2 : Reg) (imm : Word) (s : State) : Host.Outcome State Fault Refusal :=
  completeControl .beq none (s.reg rs1) (s.reg rs2) imm s

/-- BNE, branch if not equal (R254). -/
def execBne (rs1 rs2 : Reg) (imm : Word) (s : State) : Host.Outcome State Fault Refusal :=
  completeControl .bne none (s.reg rs1) (s.reg rs2) imm s

/-- BLT, branch if less than, signed (R255). -/
def execBlt (rs1 rs2 : Reg) (imm : Word) (s : State) : Host.Outcome State Fault Refusal :=
  completeControl .blt none (s.reg rs1) (s.reg rs2) imm s

/-- BGE, branch if greater or equal, signed (R256). -/
def execBge (rs1 rs2 : Reg) (imm : Word) (s : State) : Host.Outcome State Fault Refusal :=
  completeControl .bge none (s.reg rs1) (s.reg rs2) imm s

/-- BLTU, branch if less than, unsigned (R257). -/
def execBltu (rs1 rs2 : Reg) (imm : Word) (s : State) : Host.Outcome State Fault Refusal :=
  completeControl .bltu none (s.reg rs1) (s.reg rs2) imm s

/-- BGEU, branch if greater or equal, unsigned (R258). -/
def execBgeu (rs1 rs2 : Reg) (imm : Word) (s : State) : Host.Outcome State Fault Refusal :=
  completeControl .bgeu none (s.reg rs1) (s.reg rs2) imm s

end Sys2Proof.Machine
end

