-- ==== Sys2Proof/Machine/Integer.lean ====
section
/-! DEFINITION. The integer computational instructions in the sequential semantics (spec/40_integer.md
R200 to R222): the result goes to rd, the next pc is pc + 4, nothing can fault. -/

namespace Sys2Proof.Machine

/-- The instruction completes with the integer result of `op` on operand values `a` and `b` (R200). -/
def completeInteger (op : Op) (rd : Reg) (a b imm : Word) (s : State) :
    Host.Outcome State Fault Refusal :=
  .next (s.completeResult rd (integerValue op a b imm s.pcA))

/-- LUI, load upper immediate (R201). -/
def execLui (rd : Reg) (imm : Word) (s : State) : Host.Outcome State Fault Refusal :=
  completeInteger .lui rd 0 0 imm s

/-- AUIPC, add upper immediate to pc (R202). -/
def execAuipc (rd : Reg) (imm : Word) (s : State) : Host.Outcome State Fault Refusal :=
  completeInteger .auipc rd 0 0 imm s

/-- ADDI, add immediate (R203). -/
def execAddi (rd rs1 : Reg) (imm : Word) (s : State) : Host.Outcome State Fault Refusal :=
  completeInteger .addi rd (s.reg rs1) 0 imm s

/-- SLTI, set if less than immediate, signed (R204). -/
def execSlti (rd rs1 : Reg) (imm : Word) (s : State) : Host.Outcome State Fault Refusal :=
  completeInteger .slti rd (s.reg rs1) 0 imm s

/-- SLTIU, set if less than immediate, unsigned (R205). -/
def execSltiu (rd rs1 : Reg) (imm : Word) (s : State) : Host.Outcome State Fault Refusal :=
  completeInteger .sltiu rd (s.reg rs1) 0 imm s

/-- XORI, exclusive or immediate (R206). -/
def execXori (rd rs1 : Reg) (imm : Word) (s : State) : Host.Outcome State Fault Refusal :=
  completeInteger .xori rd (s.reg rs1) 0 imm s

/-- ORI, or immediate (R207). -/
def execOri (rd rs1 : Reg) (imm : Word) (s : State) : Host.Outcome State Fault Refusal :=
  completeInteger .ori rd (s.reg rs1) 0 imm s

/-- ANDI, and immediate (R208). -/
def execAndi (rd rs1 : Reg) (imm : Word) (s : State) : Host.Outcome State Fault Refusal :=
  completeInteger .andi rd (s.reg rs1) 0 imm s

/-- SLLI, shift left logical immediate (R209). -/
def execSlli (rd rs1 : Reg) (shamt : Word) (s : State) : Host.Outcome State Fault Refusal :=
  completeInteger .slli rd (s.reg rs1) 0 shamt s

/-- SRLI, shift right logical immediate (R210). -/
def execSrli (rd rs1 : Reg) (shamt : Word) (s : State) : Host.Outcome State Fault Refusal :=
  completeInteger .srli rd (s.reg rs1) 0 shamt s

/-- SRAI, shift right arithmetic immediate (R211). -/
def execSrai (rd rs1 : Reg) (shamt : Word) (s : State) : Host.Outcome State Fault Refusal :=
  completeInteger .srai rd (s.reg rs1) 0 shamt s

/-- ADD, add (R212). -/
def execAdd (rd rs1 rs2 : Reg) (s : State) : Host.Outcome State Fault Refusal :=
  completeInteger .add rd (s.reg rs1) (s.reg rs2) 0 s

/-- SUB, subtract (R213). -/
def execSub (rd rs1 rs2 : Reg) (s : State) : Host.Outcome State Fault Refusal :=
  completeInteger .sub rd (s.reg rs1) (s.reg rs2) 0 s

/-- SLL, shift left logical (R214). -/
def execSll (rd rs1 rs2 : Reg) (s : State) : Host.Outcome State Fault Refusal :=
  completeInteger .sll rd (s.reg rs1) (s.reg rs2) 0 s

/-- SLT, set if less than, signed (R215). -/
def execSlt (rd rs1 rs2 : Reg) (s : State) : Host.Outcome State Fault Refusal :=
  completeInteger .slt rd (s.reg rs1) (s.reg rs2) 0 s

/-- SLTU, set if less than, unsigned (R216). -/
def execSltu (rd rs1 rs2 : Reg) (s : State) : Host.Outcome State Fault Refusal :=
  completeInteger .sltu rd (s.reg rs1) (s.reg rs2) 0 s

/-- XOR, exclusive or (R217). -/
def execXor (rd rs1 rs2 : Reg) (s : State) : Host.Outcome State Fault Refusal :=
  completeInteger .xor rd (s.reg rs1) (s.reg rs2) 0 s

/-- SRL, shift right logical (R218). -/
def execSrl (rd rs1 rs2 : Reg) (s : State) : Host.Outcome State Fault Refusal :=
  completeInteger .srl rd (s.reg rs1) (s.reg rs2) 0 s

/-- SRA, shift right arithmetic (R219). -/
def execSra (rd rs1 rs2 : Reg) (s : State) : Host.Outcome State Fault Refusal :=
  completeInteger .sra rd (s.reg rs1) (s.reg rs2) 0 s

/-- OR, or (R220). -/
def execOr (rd rs1 rs2 : Reg) (s : State) : Host.Outcome State Fault Refusal :=
  completeInteger .or rd (s.reg rs1) (s.reg rs2) 0 s

/-- AND, and (R221). -/
def execAnd (rd rs1 rs2 : Reg) (s : State) : Host.Outcome State Fault Refusal :=
  completeInteger .and rd (s.reg rs1) (s.reg rs2) 0 s

end Sys2Proof.Machine
end

