-- ==== Sys2Proof/Machine/LoadStore.lean ====
section
/-! DEFINITION. The loads and stores in the sequential semantics (spec/42_loadstore.md R280 to R283):
the access is checked, alignment before bounds, and a failing check stops the core. -/

namespace Sys2Proof.Machine

/-- A load at its effective address: stop on the first failing check, else rd gets the value read
(R280). -/
def completeLoad (op : Op) (rd : Reg) (ea : Word) (s : State) : Host.Outcome State Fault Refusal :=
  match accessCheck s.cfg .load (opWidth op) ea with
  | some kind => .next (s.raise kind s.pcA ea)
  | none => .next (s.completeResult rd (loadFromMemory s op ea))

/-- A word store at its effective address: stop on the first failing check, else DMEM gets the word
(R280, R283). -/
def completeStore (ea v : Word) (s : State) : Host.Outcome State Fault Refusal :=
  match accessCheck s.cfg .store 4 ea with
  | some kind => .next (s.raise kind s.pcA ea)
  | none => .next { s.complete none 0 (s.pcA + 4) with dmem := s.dmemStore ea v }

/-- LW, load word (R281). -/
def execLw (rd rs1 : Reg) (imm : Word) (s : State) : Host.Outcome State Fault Refusal :=
  completeLoad .lw rd (effectiveAddress (s.reg rs1) imm) s

/-- LBU, load byte unsigned (R282). -/
def execLbu (rd rs1 : Reg) (imm : Word) (s : State) : Host.Outcome State Fault Refusal :=
  completeLoad .lbu rd (effectiveAddress (s.reg rs1) imm) s

/-- SW, store word (R283). -/
def execSw (rs2 rs1 : Reg) (imm : Word) (s : State) : Host.Outcome State Fault Refusal :=
  completeStore (effectiveAddress (s.reg rs1) imm) (s.reg rs2) s

end Sys2Proof.Machine
end

