-- ==== Sys2Proof/Machine/MulDiv.lean ====
section
/-! DEFINITION. The multiply and divide instructions in the sequential semantics (spec/43_muldiv.md
R300 to R309): the result goes to rd, the next pc is pc + 4, nothing can fault. -/

namespace Sys2Proof.Machine

/-- The instruction completes with the multiply or divide result of `op` (R300). -/
def completeMulDiv (op : Op) (rd rs1 rs2 : Reg) (s : State) : Host.Outcome State Fault Refusal :=
  .next (s.completeResult rd (mulDivValue op (s.reg rs1) (s.reg rs2)))

/-- MUL, multiply, low word (R301). -/
def execMul (rd rs1 rs2 : Reg) (s : State) : Host.Outcome State Fault Refusal :=
  completeMulDiv .mul rd rs1 rs2 s

/-- MULH, multiply high, signed by signed (R302). -/
def execMulh (rd rs1 rs2 : Reg) (s : State) : Host.Outcome State Fault Refusal :=
  completeMulDiv .mulh rd rs1 rs2 s

/-- MULHSU, multiply high, signed rs1 by unsigned rs2 (R303). -/
def execMulhsu (rd rs1 rs2 : Reg) (s : State) : Host.Outcome State Fault Refusal :=
  completeMulDiv .mulhsu rd rs1 rs2 s

/-- MULHU, multiply high, unsigned by unsigned (R304). -/
def execMulhu (rd rs1 rs2 : Reg) (s : State) : Host.Outcome State Fault Refusal :=
  completeMulDiv .mulhu rd rs1 rs2 s

/-- DIV, divide, signed (R305). -/
def execDiv (rd rs1 rs2 : Reg) (s : State) : Host.Outcome State Fault Refusal :=
  completeMulDiv .div rd rs1 rs2 s

/-- DIVU, divide, unsigned (R306). -/
def execDivu (rd rs1 rs2 : Reg) (s : State) : Host.Outcome State Fault Refusal :=
  completeMulDiv .divu rd rs1 rs2 s

/-- REM, remainder, signed (R307). -/
def execRem (rd rs1 rs2 : Reg) (s : State) : Host.Outcome State Fault Refusal :=
  completeMulDiv .rem rd rs1 rs2 s

/-- REMU, remainder, unsigned (R308). -/
def execRemu (rd rs1 rs2 : Reg) (s : State) : Host.Outcome State Fault Refusal :=
  completeMulDiv .remu rd rs1 rs2 s

end Sys2Proof.Machine
end

