-- ==== Sys2Proof/Machine/System.lean ====
section
/-! DEFINITION. EBREAK, the only system instruction, in the sequential semantics (spec/44_system.md
R340). Every other SYSTEM word is a DecodeError (R341 to R343). -/

namespace Sys2Proof.Machine

/-- EBREAK retires with its event and the core halts; the pc stays the EBREAK's (R340). -/
def execEbreak (s : State) : Host.Outcome State Fault Refusal :=
  .next { s.complete none 0 s.pcA with halt := .halted }

end Sys2Proof.Machine
end

