-- ==== Sys2Proof/Machine/Step.lean ====
section
/-! DEFINITION. The step of the machine, at the level the state selects: one clock cycle of the core
(spec/49_rob_commit.md R570) or one instruction of the sequential semantics (60_exceptions.md R610). -/

namespace Sys2Proof.Machine

/-- One iteration of the loop of 60 R610. -/
def instructionStep (s : State) : Host.Outcome State Fault Refusal :=
  match sequentialFetch s s.pcA with
  | .error kind => .next (s.raise kind s.pcA s.pcA)
  | .ok i => exec i s

/-- The step function. Once the core has stopped it is the identity (49 R560). -/
def step (s : State) : Host.Outcome State Fault Refusal :=
  match s.halt with
  | .halted | .fatal _ _ _ => .next s
  | .running =>
    match s.level with
    | .cycle => .next s.clock
    | .instruction => instructionStep s

/-- `s` with the low `nbits` bits of `w` stored as the instruction word at `pc_a` and the instruction
level selected, so that the next step runs exactly that instruction (log entry 1). -/
def State.withFetchWord (s : State) (nbits w : Nat) : State :=
  { s with
    level := .instruction
    imem := s.imem.writeWord s.cfg.initFill s.pcA.toNat (BitVec.ofNat 32 (w % 2 ^ nbits)) }

end Sys2Proof.Machine
end

