-- ==== Sys2Proof/Machine/RestoringDivision.lean ====
section
/-! DEFINITION. The algorithm the source assigns to the stages of the DIV unit
(spec/47_issue_execute_cdb.md R461, R465, R466). Its intermediate values are internal: the DIV registers
of the state carry the operands unchanged (10 R56), and the result they present is `mulDivValue`; this
file is what that result must equal. -/

namespace Sys2Proof.Machine

/-- The quantities a division carries from stage to stage: the partial remainder, one bit wider than a
word, and the dividend bits not yet used with the quotient bits already found. -/
structure DivIteration where
  rem : BitVec 33
  num : Word
  deriving DecidableEq, Repr

/-- One restoring iteration: shift one dividend bit in, subtract the divisor when it fits, and record
the quotient bit. -/
def divIterate (divisor : Word) (d : DivIteration) : DivIteration :=
  let r := (d.rem <<< 1) ||| (d.num.extractLsb' 31 1).setWidth 33
  let v := divisor.setWidth 33
  if v ≤ r then { rem := r - v, num := (d.num <<< 1) ||| 1#32 }
  else { rem := r, num := d.num <<< 1 }

/-- `n` iterations, half of the 32 in each of stages 2 and 3. -/
def divIterations (divisor : Word) : Nat → DivIteration → DivIteration
  | 0, d => d
  | n + 1, d => divIterations divisor n (divIterate divisor d)

/-- DIV and REM take signed operands. -/
def divIsSigned (op : Op) : Bool := op = .div || op = .rem

/-- The magnitude stage 1 extracts. -/
def divMagnitude (signed : Bool) (v : Word) : Word := if signed && v.msb then 0 - v else v

/-- Negate when asked: the sign correction of stage 4. -/
def divNegate (negative : Bool) (v : Word) : Word := if negative then 0 - v else v

/-- Stages 2 and 3 on the magnitudes: the quotient in `num`, the remainder in `rem`. -/
def divMiddleStages (signed : Bool) (a b : Word) : DivIteration :=
  divIterations (divMagnitude signed b) 16
    (divIterations (divMagnitude signed b) 16 { rem := 0, num := divMagnitude signed a })

/-- Stage 4: the quotient is negative when the operand signs differ, the remainder when the dividend
is; DIV and DIVU select the quotient, the others the remainder. -/
def divFinalStage (op : Op) (a b : Word) (d : DivIteration) : Word :=
  if op = .div || op = .divu then divNegate (divIsSigned op && (a.msb != b.msb)) d.num
  else divNegate (divIsSigned op && a.msb) (d.rem.setWidth 32)

/-- The result of the four stages; stage 1 detects a zero divisor and selects its defined result
(R466). -/
def divStagesValue (op : Op) (a b : Word) : Word :=
  if b = 0 then (if op = .div || op = .divu then 0xffffffff#32 else a)
  else divFinalStage op a b (divMiddleStages (divIsSigned op) a b)

end Sys2Proof.Machine
end

