-- ==== Sys2Proof/Safety.lean ====
section
/-! DEFINITION. The terms claims are made in: runs, safe states, and the invariants of the state
(spec/10_state.md R57, 00_scope.md R17, 49_rob_commit.md R559). -/

namespace Sys2Proof.Machine

/-! ### Runs -/

/-- The state after `n` steps, at the level the state selects. Every step answers a next state. -/
def steps : Nat → State → State
  | 0, s => s
  | n + 1, s =>
    match step s with
    | .next t => steps n t
    | .fault _ => s
    | .refused _ => s

/-- `s` set to run the clock cycles of the core. -/
def State.atCycles (s : State) : State := { s with level := .cycle }

/-- `s` set to run the sequential semantics. -/
def State.atInstructions (s : State) : State := { s with level := .instruction }

/-- The retire events without cycle and tag, as 00 R17 compares them. -/
def State.retired (s : State) : List (Word × Option Word) := s.log.map fun e => (e.pc, e.value)

/-- The core has not stopped with a fatal status (60 R600). -/
def State.safe (s : State) : Prop := ∀ kind pc addr, s.halt ≠ .fatal kind pc addr

/-- The core and a run of the sequential semantics agree where 00 R17 compares them: retire events without
cycle and tag, registers, data memory, halt status and architectural pc. -/
structure State.AgreesWith (core run : State) : Prop where
  retired : core.retired = run.retired
  x : core.x = run.x
  dmem : core.dmem = run.dmem
  halt : core.halt = run.halt
  pcA : core.pcA = run.pcA

/-! ### Shape: sizes, pointers, hard-wired values and canonical memories -/

/-- The state has the sizes its parameters name, the ROB pointers agree (10 R49), x0 and its RAT entry
are hard-wired (R31, R48), BTB tags have their width (R47), and both memories are canonical and in
bounds (20 R101, R102). -/
structure State.Shape (s : State) : Prop where
  legal : s.cfg.legal = true
  bp_length : s.bp.length = 2 ^ s.cfg.bhtLogSize
  bp_tags : ∀ e ∈ s.bp, e.tag.toNat < 2 ^ (32 - s.cfg.bhtLogSize)
  rob_length : s.rob.length = s.cfg.robSize
  rs_length : s.rs.length = s.cfg.rsSize
  lsq_length : s.lsq.length = s.cfg.lsqSize
  mul_length : s.mul.length = s.cfg.mulStages
  div_length : s.div.length = s.cfg.divStages
  head_lt : s.robHead < s.cfg.robSize
  count_le : s.robCount ≤ s.cfg.robSize
  tail_eq : s.robTail = (s.robHead + s.robCount) % s.cfg.robSize
  x0_zero : s.x[0] = 0
  rat0_committed : s.rat[0] = .committed
  imem_wf : s.imem.wf s.cfg.initFill = true
  dmem_wf : s.dmem.wf s.cfg.initFill = true
  imem_bound : ∀ c ∈ s.imem, c.1 < s.cfg.memBytes
  dmem_bound : ∀ c ∈ s.dmem, c.1 < s.cfg.memBytes

/-! ### Tags in flight (10 R57) -/

/-- How many of the two values are true of an option, 0 or 1. -/
def countIf (c : Bool) : Nat := if c then 1 else 0

/-- A busy RS entry that produces tag `t`. -/
def rsProduces (t : Nat) (e : RsEntry) : Bool := e.busy && decide (e.dest = t)

/-- A load entry that still has to produce tag `t` (10 R57 (b)). -/
def lsqProduces (t : Nat) (e : LsqEntry) : Bool := isLoadEntry e && !e.issued && decide (e.tag = t)

/-- A pipeline stage that holds tag `t`. -/
def stageProduces (t : Nat) (u : Option UnitOp) : Bool :=
  match u with
  | some u => decide (u.tag = t)
  | none => false

/-- The number of holders of tag `t` as destination: RS entries, loads not issued, MUL and DIV stages,
and the two output latches (10 R57 (b)). -/
def State.producers (s : State) (t : Nat) : Nat :=
  s.rs.countP (rsProduces t) + s.lsq.countP (lsqProduces t)
    + s.mul.countP (stageProduces t) + s.div.countP (stageProduces t)
    + countIf (decide (s.aluOut.map Payload.tag = some t))
    + countIf (decide (s.ldOut.map (fun l => l.payload.tag) = some t))

/-- The kinds whose entries become ready by a broadcast (47 R475). -/
def kindBroadcasts : Kind → Bool
  | .alu | .branch | .jump | .load | .mulDiv => true
  | .store | .ebreak | .fault => false

/-- A valid, not-ready entry that is not Store, Ebreak or Fault (10 R57 (b)). -/
def State.awaited (s : State) (t : Nat) : Bool :=
  s.validTag t && !(s.robEntry t).ready && kindBroadcasts (s.robEntry t).kind

/-- The slot of an instruction with tag `own` waits on nothing, or on a valid, not-ready, older entry
that writes a register (10 R57 (d)). -/
def State.slotOk (s : State) (own : Nat) (slot : Slot) : Prop :=
  match slot with
  | .value _ => True
  | .pending t =>
    s.validTag t = true ∧ (s.robEntry t).ready = false ∧ s.age t < s.age own
      ∧ (s.robEntry t).dest ≠ none

/-- The invariants of 10 R57 with what makes them inductive: (a) is `Shape`. -/
structure State.InFlight (s : State) : Prop where
  shape : s.Shape
  /-- (b): a tag has exactly one producer while it is awaited and none otherwise. -/
  producers : ∀ t, s.producers t = countIf (s.awaited t)
  /-- An issued load waits in the load latch. -/
  issued_latched : ∀ (i : Nat) e, s.lsq[i]? = some e → isLoadEntry e = true → e.issued = true →
    ∃ l, s.ldOut = some l ∧ l.index = i ∧ l.payload.tag = e.tag
  /-- The load latch holds the result of an issued load. -/
  latched_issued : ∀ l, s.ldOut = some l →
    ∃ e, s.lsq[l.index]? = some e ∧ isLoadEntry e = true ∧ e.issued = true ∧ e.tag = l.payload.tag
  /-- Every Store in the ROB has one LSQ entry, and every store entry is such a Store's. -/
  stores : ∀ t, s.lsq.countP (fun e => isStoreEntry e && decide (e.tag = t))
    = countIf (s.validTag t && decide ((s.robEntry t).kind = .store))
  /-- A busy LSQ entry is a load or a store. -/
  lsq_ops : ∀ e ∈ s.lsq, e.busy = true → isLoadEntry e = true ∨ isStoreEntry e = true
  /-- (c): a pending RAT entry names the youngest valid entry that writes its register. -/
  rat_pending : ∀ (r : Fin 32) t, s.rat[r] = .pending t →
    s.validTag t = true ∧ (s.robEntry t).dest = some (BitVec.ofFin r)
      ∧ ∀ u, s.validTag u = true → (s.robEntry u).dest = some (BitVec.ofFin r) → s.age u ≤ s.age t
  /-- A register some valid entry writes is pending. -/
  rat_committed : ∀ (r : Fin 32), s.rat[r] = .committed →
    ∀ u, s.validTag u = true → (s.robEntry u).dest ≠ some (BitVec.ofFin r)
  /-- (d) for the reservation station. -/
  rs_slots : ∀ e ∈ s.rs, e.busy = true → s.slotOk e.dest e.j ∧ s.slotOk e.dest e.k
  /-- (d) for the LSQ. -/
  lsq_slots : ∀ e ∈ s.lsq, e.busy = true → s.slotOk e.tag e.base ∧ s.slotOk e.tag e.data
  /-- Only the kinds that write a register have a destination, and it is not x0 (10 R31, R51). -/
  dests : ∀ t, s.validTag t = true → ∀ r, (s.robEntry t).dest = some r →
    r ≠ 0 ∧ ((s.robEntry t).kind = .alu ∨ (s.robEntry t).kind = .jump
      ∨ (s.robEntry t).kind = .load ∨ (s.robEntry t).kind = .mulDiv)
  /-- Fault entries are ready and carry their fault; Ebreak entries are ready (46 R405). -/
  ready_at_dispatch : ∀ t, s.validTag t = true →
    ((s.robEntry t).kind = .fault → (s.robEntry t).ready = true ∧ (s.robEntry t).fault ≠ none)
      ∧ ((s.robEntry t).kind = .ebreak → (s.robEntry t).ready = true)

/-! ### Commit order (49 R559) -/

/-- Successive retire events have successive tags, modulo ROB_SIZE, and the next to retire is the
head. -/
def tagsFollow (cfg : Config) (head : Nat) : List RetireEvent → Prop
  | [] => True
  | [e] => nextTag cfg e.tag = head
  | e :: f :: rest => nextTag cfg e.tag = f.tag ∧ tagsFollow cfg head (f :: rest)

/-! ### Completion and frame of an instruction (60 R610) -/

/-- The instruction at `pc_a` of `s` completes and leaves `t`: `rd` gets `v` unless it is x0, every other
register keeps its value, data memory reads as `mem`, one retire event is emitted, the next pc is `next`,
and halt status, instruction memory and parameters are unchanged (60 R610, 10 R31). -/
structure Completes (s t : State) (rd : Reg) (v next : Word) (mem : Nat → Byte) : Prop where
  regs : ∀ q, t.reg q = if q = rd ∧ rd ≠ 0 then v else s.reg q
  dmem : ∀ a, t.dmemByte a = mem a
  pc : t.pcA = next
  retired : t.retired = s.retired ++ [(s.pcA, if rd = 0 then none else some v)]
  halt : t.halt = s.halt
  imem : t.imem = s.imem
  cfg : t.cfg = s.cfg

/-! ### The cycle -/

/-- The core runs and its steps are clock cycles (49 R570). -/
def State.Clocked (s : State) : Prop := s.halt = .running ∧ s.level = .cycle

/-- The head retires in this cycle and the core goes on (49 R541, R542). -/
def State.retires (s : State) : Bool :=
  match commitDecision s with
  | .retire _ => true
  | .stop _ | .ebreak _ | .wait => false

/-- The cycle squashes (49 R550). -/
def State.squashes (s : State) : Bool :=
  match commitDecision s with
  | .retire r => r.entry.mispredict
  | .stop _ | .ebreak _ | .wait => false

/-- Commit halts the core in this cycle (49 R557). -/
def State.halts (s : State) : Bool :=
  match commitDecision s with
  | .stop _ | .ebreak _ => true
  | .retire _ | .wait => false

/-- The cycle neither squashes nor halts at commit, so every stage's effects stand (49 R553, R557). -/
def State.flows (s : State) : Bool := !s.squashes && !s.halts

/-- The broadcast `B` of the cycle (47 R470). -/
def State.broadcast (s : State) : Option Payload := (signals s).broadcast

/-- Dispatch consumes the latch in this cycle (46 R414). -/
def State.dispatches (s : State) : Bool := (dispatch s s.broadcast).isSome

/-- The load that requests the bus in this cycle: the latched one, else the selected one (47 R470). -/
def State.loadRequest (s : State) : Option LoadOut :=
  if s.ldOut.isSome then s.ldOut else selectLoad s

/-- The entry at place `i` of the RS issues to some unit in this cycle (47 R444). -/
def State.issuesFrom (s : State) (i : Nat) : Bool :=
  [(signals s).alu, (signals s).mul, (signals s).div].any
    fun c => decide (c.map Issued.index = some i)

/-- The LSQ place of the load that wins the bus, whose entry is freed (48 R512). -/
def State.loadFreed (s : State) : Option Nat :=
  if wonBy (signals s).win .load then s.loadRequest.map LoadOut.index else none

/-- The LSQ place of the load that requests the bus and loses, whose entry is marked issued (47 R472). -/
def State.loadHeld (s : State) : Option Nat :=
  if wonBy (signals s).win .load then none else s.loadRequest.map LoadOut.index

/-- The LSQ place of the store that commits, whose entry is freed (48 R521). -/
def State.storeFreed (s : State) : Option Nat :=
  match commitDecision s with
  | .retire r => r.store.map ReadyStore.index
  | .stop _ | .ebreak _ | .wait => none

/-- The resources the latched instruction needs are free (46 R402). -/
def State.resourcesFree (s : State) : Prop :=
  s.robCount < s.cfg.robSize ∧
    ∀ d, latchMicroOp s.fl = .instr d →
      ((unitOfClass d.cls).isSome = true → ∃ e ∈ s.rs, e.busy = false) ∧
      (opIsMemory d.op = true → ∃ e ∈ s.lsq, e.busy = false)

/-- Data memory with the word `d` written over the four bytes at `ea` (20 R104, R105). -/
def overlayWord (mem : Nat → Byte) (ea d : Word) (a : Nat) : Byte :=
  if ea.toNat ≤ a ∧ a < ea.toNat + 4 then byteLane d (a - ea.toNat) else mem a

end Sys2Proof.Machine
end

