-- ==== Sys2Proof/Certificates/Slice0/Obligations.lean ====
section
/-! DEFINITION. The statements for the provers, in the order of OBLIGATIONS.json. Where a statement has
an invariant as a premise (`Shape`, `InFlight`, a canonical memory), that the invariant holds at reset and
is kept by every step is a statement of its own. -/

section Statements
open Sys2Proof Sys2Proof.Machine

/-! ### Encoding (spec/30_encoding.md) -/

/-- Every well-formed instruction, with every operand its encoding admits, decodes from its word, also
when the word stands as bytes before other bytes. -/
def Obligations.DecodeEncode : Prop :=
  ∀ i : Instr, i.wellFormed = true →
    decode (encode i) = some i ∧
      ∀ rest : List Byte, decodeBytes (bytesOfWord (encode i) ++ rest) = .ok (i, rest)

/-- Every word that decodes is the word of its instruction, which is well formed: no bit of an admitted
word is ignored. -/
def Obligations.EncodeDecode : Prop :=
  ∀ (w : Word) (i : Instr), decode w = some i → i.wellFormed = true ∧ encode i = w

/-- R174: a word that matches no row is a DecodeError, and each kind of word the rule lists is one. -/
def Obligations.DecodeErrorSpace : Prop :=
  ∀ w : Word,
    let opcode := w.extractLsb' 0 7
    let funct3 := w.extractLsb' 12 3
    let funct7 := w.extractLsb' 25 7
    (decode w = none ↔ ∀ row ∈ opcodeTable, w &&& row.mask ≠ row.pattern) ∧
    (w.extractLsb' 0 2 ≠ 0b11#2 → decode w = none) ∧
    (opcode ∉ [0b0110111#7, 0b0010111#7, 0b1101111#7, 0b1100111#7, 0b1100011#7, 0b0000011#7,
        0b0100011#7, 0b0010011#7, 0b0110011#7, 0b1110011#7] → decode w = none) ∧
    (opcode = 0b1100011#7 → funct3 ∈ [0b010#3, 0b011#3] → decode w = none) ∧
    (opcode = 0b1100111#7 → funct3 ≠ 0b000#3 → decode w = none) ∧
    (opcode = 0b0000011#7 → funct3 ∉ [0b010#3, 0b100#3] → decode w = none) ∧
    (opcode = 0b0100011#7 → funct3 ≠ 0b010#3 → decode w = none) ∧
    (opcode = 0b0010011#7 → funct3 = 0b001#3 → funct7 ≠ 0b0000000#7 → decode w = none) ∧
    (opcode = 0b0010011#7 → funct3 = 0b101#3 → funct7 ∉ [0b0000000#7, 0b0100000#7] →
      decode w = none) ∧
    (opcode = 0b0110011#7 → funct7 ∉ [0b0000000#7, 0b0100000#7, 0b0000001#7] → decode w = none) ∧
    (opcode = 0b0110011#7 → funct7 = 0b0100000#7 → funct3 ∉ [0b000#3, 0b101#3] →
      decode w = none) ∧
    (opcode = 0b1110011#7 → w ≠ 0x00100073#32 → decode w = none) ∧
    decode 0x00000000#32 = none

/-- Words written out from the encodings of the spec decode to their instructions, and the SYSTEM and
narrow-access words it names do not decode. -/
def Obligations.KnownWords : Prop :=
  decode 0x123452b7#32 = some (.lui 5 0x12345000#32) ∧
  decode 0xfff08113#32 = some (.addi 2 1 0xffffffff#32) ∧
  decode 0x4040d193#32 = some (.srai 3 1 4#32) ∧
  decode 0x402081b3#32 = some (.sub 3 1 2) ∧
  decode 0x008000ef#32 = some (.jal 1 8#32) ∧
  decode 0xfe208ce3#32 = some (.beq 1 2 0xfffffff8#32) ∧
  decode 0x0042a383#32 = some (.lw 7 5 4#32) ∧
  decode 0x0062a223#32 = some (.sw 6 5 4#32) ∧
  decode 0x022081b3#32 = some (.mul 3 1 2) ∧
  decode 0x0220c1b3#32 = some (.div 3 1 2) ∧
  decode 0x00100073#32 = some .ebreak ∧
  decode 0x00000073#32 = none ∧
  decode 0x30200073#32 = none ∧
  decode 0x10200073#32 = none ∧
  decode 0x10500073#32 = none

/-- R172: the record of a word that matches a row, field by field from the row's format, whichever
matching row is taken; so at most one row matches. -/
def Obligations.DecodedRecord : Prop :=
  ∀ (w pc target : Word) (taken : Bool),
    (∀ row ∈ opcodeTable, w &&& row.mask = row.pattern →
      decodeRecord w pc taken target = some
        { op := row.op
          cls := opClass row.op
          rs1 := match row.format with
            | .r | .i | .iShift | .s | .b => w.extractLsb' 15 5
            | .u | .j | .sys => 0
          rs2 := match row.format with
            | .r | .s | .b => w.extractLsb' 20 5
            | .i | .iShift | .u | .j | .sys => 0
          dest := match row.format with
            | .r | .i | .iShift | .u | .j =>
              if w.extractLsb' 7 5 = 0 then none else some (w.extractLsb' 7 5)
            | .s | .b | .sys => none
          imm := match row.format with
            | .i => immI w
            | .iShift => shamtField w
            | .s => immS w
            | .b => immB w
            | .u => immU w
            | .j => immJ w
            | .r | .sys => 0
          pc := pc
          predTaken := taken
          predTarget := target }) ∧
    ((∀ row ∈ opcodeTable, w &&& row.mask ≠ row.pattern) → decodeRecord w pc taken target = none)

/-! ### The integer instructions (spec/40_integer.md) -/

/-- R201 to R203, R212, R213. -/
def Obligations.UpperImmediateAndAddResults : Prop :=
  ∀ (s : State) (rd rs1 rs2 : Reg) (imm : Word), s.halt = .running →
    (∃ t, exec (.lui rd imm) s = .next t ∧ Completes s t rd imm (s.pcA + 4) s.dmemByte) ∧
    (∃ t, exec (.auipc rd imm) s = .next t ∧
      Completes s t rd (s.pcA + imm) (s.pcA + 4) s.dmemByte) ∧
    (∃ t, exec (.addi rd rs1 imm) s = .next t ∧
      Completes s t rd (s.reg rs1 + imm) (s.pcA + 4) s.dmemByte) ∧
    (∃ t, exec (.add rd rs1 rs2) s = .next t ∧
      Completes s t rd (s.reg rs1 + s.reg rs2) (s.pcA + 4) s.dmemByte) ∧
    (∃ t, exec (.sub rd rs1 rs2) s = .next t ∧
      Completes s t rd (s.reg rs1 - s.reg rs2) (s.pcA + 4) s.dmemByte)

/-- R204, R205, R215, R216: signed and unsigned comparisons, in integers. -/
def Obligations.CompareResults : Prop :=
  ∀ (s : State) (rd rs1 rs2 : Reg) (imm : Word), s.halt = .running →
    (∃ t, exec (.slti rd rs1 imm) s = .next t ∧
      Completes s t rd (if (s.reg rs1).toInt < imm.toInt then 1 else 0) (s.pcA + 4) s.dmemByte) ∧
    (∃ t, exec (.sltiu rd rs1 imm) s = .next t ∧
      Completes s t rd (if (s.reg rs1).toNat < imm.toNat then 1 else 0) (s.pcA + 4) s.dmemByte) ∧
    (∃ t, exec (.slt rd rs1 rs2) s = .next t ∧
      Completes s t rd (if (s.reg rs1).toInt < (s.reg rs2).toInt then 1 else 0) (s.pcA + 4)
        s.dmemByte) ∧
    (∃ t, exec (.sltu rd rs1 rs2) s = .next t ∧
      Completes s t rd (if (s.reg rs1).toNat < (s.reg rs2).toNat then 1 else 0) (s.pcA + 4)
        s.dmemByte)

/-- R206 to R208, R217, R220, R221. -/
def Obligations.LogicalResults : Prop :=
  ∀ (s : State) (rd rs1 rs2 : Reg) (imm : Word), s.halt = .running →
    (∃ t, exec (.xori rd rs1 imm) s = .next t ∧
      Completes s t rd (s.reg rs1 ^^^ imm) (s.pcA + 4) s.dmemByte) ∧
    (∃ t, exec (.ori rd rs1 imm) s = .next t ∧
      Completes s t rd (s.reg rs1 ||| imm) (s.pcA + 4) s.dmemByte) ∧
    (∃ t, exec (.andi rd rs1 imm) s = .next t ∧
      Completes s t rd (s.reg rs1 &&& imm) (s.pcA + 4) s.dmemByte) ∧
    (∃ t, exec (.xor rd rs1 rs2) s = .next t ∧
      Completes s t rd (s.reg rs1 ^^^ s.reg rs2) (s.pcA + 4) s.dmemByte) ∧
    (∃ t, exec (.or rd rs1 rs2) s = .next t ∧
      Completes s t rd (s.reg rs1 ||| s.reg rs2) (s.pcA + 4) s.dmemByte) ∧
    (∃ t, exec (.and rd rs1 rs2) s = .next t ∧
      Completes s t rd (s.reg rs1 &&& s.reg rs2) (s.pcA + 4) s.dmemByte)

/-- R209 to R211, for every shift amount an instruction can hold: a left shift multiplies by a power of
two, a logical right shift divides the unsigned value, an arithmetic one the signed value, rounding
down. -/
def Obligations.ShiftImmediateResults : Prop :=
  ∀ (s : State) (rd rs1 : Reg) (shamt : Word), s.halt = .running → shamt.toNat < 32 →
    (∃ t, exec (.slli rd rs1 shamt) s = .next t ∧
      Completes s t rd (BitVec.ofNat 32 ((s.reg rs1).toNat * 2 ^ shamt.toNat)) (s.pcA + 4)
        s.dmemByte) ∧
    (∃ t, exec (.srli rd rs1 shamt) s = .next t ∧
      Completes s t rd (BitVec.ofNat 32 ((s.reg rs1).toNat / 2 ^ shamt.toNat)) (s.pcA + 4)
        s.dmemByte) ∧
    (∃ t, exec (.srai rd rs1 shamt) s = .next t ∧
      Completes s t rd (BitVec.ofInt 32 ((s.reg rs1).toInt / 2 ^ shamt.toNat)) (s.pcA + 4)
        s.dmemByte)

/-- R214, R218, R219: as the immediate shifts, by the low five bits of rs2. -/
def Obligations.ShiftRegisterResults : Prop :=
  ∀ (s : State) (rd rs1 rs2 : Reg), s.halt = .running →
    let n := ((s.reg rs2).extractLsb' 0 5).toNat
    (∃ t, exec (.sll rd rs1 rs2) s = .next t ∧
      Completes s t rd (BitVec.ofNat 32 ((s.reg rs1).toNat * 2 ^ n)) (s.pcA + 4) s.dmemByte) ∧
    (∃ t, exec (.srl rd rs1 rs2) s = .next t ∧
      Completes s t rd (BitVec.ofNat 32 ((s.reg rs1).toNat / 2 ^ n)) (s.pcA + 4) s.dmemByte) ∧
    (∃ t, exec (.sra rd rs1 rs2) s = .next t ∧
      Completes s t rd (BitVec.ofInt 32 ((s.reg rs1).toInt / 2 ^ n)) (s.pcA + 4) s.dmemByte)

/-! ### Control transfers (spec/41_control.md) -/

/-- R251, R252: the link value and the target; JALR clears bit 0 of the sum, and reads rs1 before rd is
written, also when they are the same register. -/
def Obligations.JumpResults : Prop :=
  ∀ (s : State) (rd rs1 : Reg) (imm : Word), s.halt = .running →
    (∃ t, exec (.jal rd imm) s = .next t ∧
      Completes s t rd (s.pcA + 4) (s.pcA + imm) s.dmemByte) ∧
    (∃ t, exec (.jalr rd rs1 imm) s = .next t ∧
      Completes s t rd (s.pcA + 4)
        (BitVec.ofNat 32 (2 * ((s.reg rs1 + imm).toNat / 2))) s.dmemByte)

/-- R253 to R258: a branch writes no register and goes to pc + imm exactly when its condition holds. -/
def Obligations.BranchResults : Prop :=
  ∀ (s : State) (rs1 rs2 : Reg) (imm : Word), s.halt = .running →
    let a := s.reg rs1
    let b := s.reg rs2
    (∃ t, exec (.beq rs1 rs2 imm) s = .next t ∧
      Completes s t 0 0 (if a = b then s.pcA + imm else s.pcA + 4) s.dmemByte) ∧
    (∃ t, exec (.bne rs1 rs2 imm) s = .next t ∧
      Completes s t 0 0 (if a ≠ b then s.pcA + imm else s.pcA + 4) s.dmemByte) ∧
    (∃ t, exec (.blt rs1 rs2 imm) s = .next t ∧
      Completes s t 0 0 (if a.toInt < b.toInt then s.pcA + imm else s.pcA + 4) s.dmemByte) ∧
    (∃ t, exec (.bge rs1 rs2 imm) s = .next t ∧
      Completes s t 0 0 (if b.toInt ≤ a.toInt then s.pcA + imm else s.pcA + 4) s.dmemByte) ∧
    (∃ t, exec (.bltu rs1 rs2 imm) s = .next t ∧
      Completes s t 0 0 (if a.toNat < b.toNat then s.pcA + imm else s.pcA + 4) s.dmemByte) ∧
    (∃ t, exec (.bgeu rs1 rs2 imm) s = .next t ∧
      Completes s t 0 0 (if b.toNat ≤ a.toNat then s.pcA + imm else s.pcA + 4) s.dmemByte)

/-! ### Loads and stores (spec/42_loadstore.md) -/

/-- R281, R282: the checks in order, and the value read, little-endian. -/
def Obligations.LoadResults : Prop :=
  ∀ (s : State) (rd rs1 : Reg) (imm : Word), s.halt = .running →
    let ea := s.reg rs1 + imm
    (ea.toNat % 4 ≠ 0 →
      exec (.lw rd rs1 imm) s =
        .next { s with halt := .fatal (.misalignedAccess .load) s.pcA ea }) ∧
    (ea.toNat % 4 = 0 → s.cfg.memBytes < ea.toNat + 4 →
      exec (.lw rd rs1 imm) s =
        .next { s with halt := .fatal .outOfBoundsMemoryAccess s.pcA ea }) ∧
    (ea.toNat % 4 = 0 → ea.toNat + 4 ≤ s.cfg.memBytes →
      ∃ t, exec (.lw rd rs1 imm) s = .next t ∧
        Completes s t rd
          (BitVec.ofNat 32 ((s.dmemByte ea.toNat).toNat + 256 * (s.dmemByte (ea.toNat + 1)).toNat
            + 65536 * (s.dmemByte (ea.toNat + 2)).toNat
            + 16777216 * (s.dmemByte (ea.toNat + 3)).toNat))
          (s.pcA + 4) s.dmemByte) ∧
    (s.cfg.memBytes < ea.toNat + 1 →
      exec (.lbu rd rs1 imm) s =
        .next { s with halt := .fatal .outOfBoundsMemoryAccess s.pcA ea }) ∧
    (ea.toNat + 1 ≤ s.cfg.memBytes →
      ∃ t, exec (.lbu rd rs1 imm) s = .next t ∧
        Completes s t rd (BitVec.ofNat 32 (s.dmemByte ea.toNat).toNat) (s.pcA + 4) s.dmemByte)

/-- R283: the checks in order, and the four bytes stored at ea = x[rs1] + imm; every other byte and every
register keeps its value. -/
def Obligations.StoreResult : Prop :=
  ∀ (s : State) (rs2 rs1 : Reg) (imm : Word), s.halt = .running →
    s.dmem.wf s.cfg.initFill = true →
    let ea := s.reg rs1 + imm
    (ea.toNat % 4 ≠ 0 →
      exec (.sw rs2 rs1 imm) s =
        .next { s with halt := .fatal (.misalignedAccess .store) s.pcA ea }) ∧
    (ea.toNat % 4 = 0 → s.cfg.memBytes < ea.toNat + 4 →
      exec (.sw rs2 rs1 imm) s =
        .next { s with halt := .fatal .outOfBoundsMemoryAccess s.pcA ea }) ∧
    (ea.toNat % 4 = 0 → ea.toNat + 4 ≤ s.cfg.memBytes →
      ∃ t, exec (.sw rs2 rs1 imm) s = .next t ∧
        Completes s t 0 0 (s.pcA + 4)
          (fun a =>
            if ea.toNat ≤ a ∧ a < ea.toNat + 4 then
              (s.reg rs2).extractLsb' (8 * (a - ea.toNat)) 8
            else s.dmemByte a))

/-- A word stored is the word loaded back from the same address, and each of its bytes is its lane. -/
def Obligations.StoreThenLoad : Prop :=
  ∀ (s : State) (rs2 rs1 rd base : Reg) (imm imm' : Word) (k : Nat), s.halt = .running →
    s.dmem.wf s.cfg.initFill = true →
    (s.reg rs1 + imm).toNat % 4 = 0 → (s.reg rs1 + imm).toNat + 4 ≤ s.cfg.memBytes →
    rd ≠ 0 → k < 4 → s.reg base + imm' = s.reg rs1 + imm + BitVec.ofNat 32 k →
    ∃ t, exec (.sw rs2 rs1 imm) s = .next t ∧
      (∃ u, exec (.lw rd rs1 imm) t = .next u ∧ u.reg rd = s.reg rs2) ∧
      (∃ u, exec (.lbu rd base imm') t = .next u ∧
        u.reg rd = ((s.reg rs2).extractLsb' (8 * k) 8).setWidth 32)

/-! ### Multiply and divide (spec/43_muldiv.md) -/

/-- R301 to R304: the low and high words of the 64-bit products, each operand extended to 64 bits as the
instruction says. -/
def Obligations.MultiplyResults : Prop :=
  ∀ (s : State) (rd rs1 rs2 : Reg), s.halt = .running →
    let a := s.reg rs1
    let b := s.reg rs2
    (∃ t, exec (.mul rd rs1 rs2) s = .next t ∧
      Completes s t rd ((a.signExtend 64 * b.signExtend 64).extractLsb' 0 32) (s.pcA + 4)
        s.dmemByte) ∧
    (∃ t, exec (.mulh rd rs1 rs2) s = .next t ∧
      Completes s t rd ((a.signExtend 64 * b.signExtend 64).extractLsb' 32 32) (s.pcA + 4)
        s.dmemByte) ∧
    (∃ t, exec (.mulhsu rd rs1 rs2) s = .next t ∧
      Completes s t rd ((a.signExtend 64 * b.setWidth 64).extractLsb' 32 32) (s.pcA + 4)
        s.dmemByte) ∧
    (∃ t, exec (.mulhu rd rs1 rs2) s = .next t ∧
      Completes s t rd ((a.setWidth 64 * b.setWidth 64).extractLsb' 32 32) (s.pcA + 4)
        s.dmemByte)

/-- R305 to R308: the quotient rounded toward zero and the remainder with the dividend's sign, and the
defined results for a zero divisor and for signed overflow. -/
def Obligations.DivideResults : Prop :=
  ∀ (s : State) (rd rs1 rs2 : Reg), s.halt = .running →
    let a := s.reg rs1
    let b := s.reg rs2
    (∃ t v, exec (.div rd rs1 rs2) s = .next t ∧
      Completes s t rd v (s.pcA + 4) s.dmemByte ∧
      (b = 0 → v = 0xffffffff#32) ∧
      (a.toInt = -2147483648 → b.toInt = -1 → v = 0x80000000#32) ∧
      (b ≠ 0 → ¬(a.toInt = -2147483648 ∧ b.toInt = -1) → v.toInt = a.toInt.tdiv b.toInt)) ∧
    (∃ t v, exec (.divu rd rs1 rs2) s = .next t ∧
      Completes s t rd v (s.pcA + 4) s.dmemByte ∧
      (b = 0 → v = 0xffffffff#32) ∧ (b ≠ 0 → v.toNat = a.toNat / b.toNat)) ∧
    (∃ t v, exec (.rem rd rs1 rs2) s = .next t ∧
      Completes s t rd v (s.pcA + 4) s.dmemByte ∧
      (b = 0 → v = a) ∧
      (a.toInt = -2147483648 → b.toInt = -1 → v = 0) ∧
      (b ≠ 0 → ¬(a.toInt = -2147483648 ∧ b.toInt = -1) →
        v.toInt = a.toInt - b.toInt * a.toInt.tdiv b.toInt)) ∧
    (∃ t v, exec (.remu rd rs1 rs2) s = .next t ∧
      Completes s t rd v (s.pcA + 4) s.dmemByte ∧
      (b = 0 → v = a) ∧ (b ≠ 0 → v.toNat = a.toNat % b.toNat))

/-- R309: the laws of the family, for all words. -/
def Obligations.DivisionLaws : Prop :=
  ∀ a b : Word,
    (b ≠ 0 → ¬(a.toInt = -2147483648 ∧ b.toInt = -1) →
      a.toInt = b.toInt * (mulDivValue .div a b).toInt + (mulDivValue .rem a b).toInt ∧
      (mulDivValue .rem a b).toInt.natAbs < b.toInt.natAbs) ∧
    (b ≠ 0 →
      a.toNat = b.toNat * (mulDivValue .divu a b).toNat + (mulDivValue .remu a b).toNat ∧
      (mulDivValue .remu a b).toNat < b.toNat) ∧
    mulDivValue .mul a b = BitVec.ofNat 32 (a.toNat * b.toNat) ∧
    mulDivValue .mul a b = BitVec.ofInt 32 (a.toInt * b.toInt) ∧
    mulDivValue .mulh a b = (a.signExtend 64 * b.signExtend 64).extractLsb' 32 32 ∧
    mulDivValue .mulhsu a b = (a.signExtend 64 * b.setWidth 64).extractLsb' 32 32 ∧
    mulDivValue .mulhu a b = (a.setWidth 64 * b.setWidth 64).extractLsb' 32 32

/-- The four stages of the DIV unit, with their 32 restoring iterations on magnitudes, compute the
results of DIV, DIVU, REM and REMU for all operands. The stage algorithm as a definition is the model's,
DEDUCED from R461 (log entry 16). -/
def Obligations.RestoringDivision : Prop :=
  ∀ a b : Word,
    divStagesValue .div a b = mulDivValue .div a b ∧
    divStagesValue .divu a b = mulDivValue .divu a b ∧
    divStagesValue .rem a b = mulDivValue .rem a b ∧
    divStagesValue .remu a b = mulDivValue .remu a b

/-! ### EBREAK and the sequential step (spec/44_system.md, 60_exceptions.md) -/

/-- EBREAK retires and halts; the pc stays the EBREAK's, registers and memory keep their values. -/
def Obligations.EbreakHalts : Prop :=
  ∀ s : State, s.halt = .running →
    ∃ t, exec .ebreak s = .next t ∧ t.halt = .halted ∧ t.pcA = s.pcA ∧
      (∀ q, t.reg q = s.reg q) ∧ (∀ a, t.dmemByte a = s.dmemByte a) ∧
      t.retired = s.retired ++ [(s.pcA, none)] ∧ t.imem = s.imem ∧ t.cfg = s.cfg

/-- What the sequential semantics leaves of the rest of the core, the model's choice (log entries 6 and
7): cycle counter, predictor and ROB entries as they were, and unless the instruction stops the core with
a fault, nothing in flight, one retire event with the head's tag, and the head moved on by one. -/
def Obligations.SequentialFrame : Prop :=
  ∀ (i : Instr) (s : State), s.halt = .running →
    ∃ t, exec i s = .next t ∧ t.level = s.level ∧ t.cfg = s.cfg ∧ t.imem = s.imem ∧
      t.cycle = s.cycle ∧ t.bp = s.bp ∧ t.rob = s.rob ∧
      ((∃ kind addr, t = { s with halt := .fatal kind s.pcA addr }) ∨
        (t.drained = true ∧ t.robHead = nextTag s.cfg s.robHead ∧
          ∃ v, t.log = s.log ++ [{ cycle := s.cycle, tag := s.robHead, pc := s.pcA, value := v }]))

/-- R560: a stopped core does not change. -/
def Obligations.StoppedCoreStays : Prop :=
  ∀ s : State, s.halt ≠ .running → step s = .next s

/-- One iteration of the loop of R610, at the instruction level: the fetch checks in order, decoding, and
then the instruction's own meaning. -/
def Obligations.SequentialStep : Prop :=
  ∀ s : State, s.halt = .running → s.level = .instruction →
    (s.pcA.toNat % 4 ≠ 0 →
      step s = .next { s with halt := .fatal (.misalignedAccess .fetch) s.pcA s.pcA }) ∧
    (s.pcA.toNat % 4 = 0 → s.cfg.memBytes < s.pcA.toNat + 4 →
      step s = .next { s with halt := .fatal .outOfBoundsFetch s.pcA s.pcA }) ∧
    (s.pcA.toNat % 4 = 0 → s.pcA.toNat + 4 ≤ s.cfg.memBytes →
      (decode (s.imemWord s.pcA) = none →
        step s = .next { s with halt := .fatal .decodeError s.pcA s.pcA }) ∧
      ∀ i, decode (s.imemWord s.pcA) = some i → step s = exec i s)

/-- The next step after `withFetchWord` runs the instruction whose word was placed (log entry 1). -/
def Obligations.PlacedWordRuns : Prop :=
  ∀ (s : State) (i : Instr), s.halt = .running → s.imem.wf s.cfg.initFill = true →
    s.pcA.toNat % 4 = 0 → s.pcA.toNat + 4 ≤ s.cfg.memBytes → i.wellFormed = true →
    step (s.withFetchWord 32 (encode i).toNat) = exec i (s.withFetchWord 32 (encode i).toNat)

/-- No step changes the parameters or instruction memory. That no step changes the level, and that every
step answers a next state, are the model's (log entry 1, DESIGN CHOICE; log entry 10, DEDUCED). -/
def Obligations.ParametersAndCodeFixed : Prop :=
  ∀ s : State, ∃ t, step s = .next t ∧ t.cfg = s.cfg ∧ t.level = s.level ∧ t.imem = s.imem

/-! ### Reset and loading (spec/70_reset_and_hazards.md) -/

/-- R651: the reset value of every element, for every choice of the parameters. -/
def Obligations.ResetValues : Prop :=
  ∀ cfg : Config,
    let s := State.initial cfg
    s.x[0] = 0 ∧ (∀ i : Fin 31, s.x[i.val + 1]'(by omega) = cfg.initX[i.val]) ∧
    s.pcF = cfg.codeBase ∧
    (∀ a, s.imemByte a = cfg.initFill.extractLsb' (8 * (a % 4)) 8) ∧
    (∀ a, s.dmemByte a = cfg.initFill.extractLsb' (8 * (a % 4)) 8) ∧
    s.halt = .running ∧ s.cycle = 0 ∧ s.log = [] ∧
    s.fl = { valid := false, pc := 0, word := 0, fault := none, predTaken := false,
             predTarget := 0 } ∧
    s.fetchStopped = false ∧
    s.bp.length = 2 ^ cfg.bhtLogSize ∧
    (∀ e ∈ s.bp, e = { ctr := cfg.ctrReset, tag := 0, target := 0 }) ∧
    (∀ r : Fin 32, s.rat[r] = .committed) ∧
    s.robHead = 0 ∧ s.robTail = 0 ∧ s.robCount = 0 ∧
    s.rob.length = cfg.robSize ∧
    (∀ e ∈ s.rob, e.value = 0 ∧ e.ready = false ∧ e.pc = 0 ∧ e.predTaken = false ∧
      e.predTarget = 0 ∧ e.actTaken = false ∧ e.actTarget = 0 ∧ e.mispredict = false ∧
      e.dest = none ∧ e.fault = none) ∧
    s.rs.length = cfg.rsSize ∧
    (∀ e ∈ s.rs, e.busy = false ∧ e.j = .value 0 ∧ e.k = .value 0 ∧ e.imm = 0 ∧ e.pc = 0 ∧
      e.dest = 0) ∧
    s.lsq.length = cfg.lsqSize ∧
    (∀ e ∈ s.lsq, e.busy = false ∧ e.tag = 0 ∧ e.base = .value 0 ∧ e.imm = 0 ∧
      e.data = .value 0 ∧ e.issued = false) ∧
    s.aluOut = none ∧ s.ldOut = none ∧
    s.mul.length = cfg.mulStages ∧ (∀ u ∈ s.mul, u = none) ∧
    s.div.length = cfg.divStages ∧ (∀ u ∈ s.div, u = none)

/-- Images are placed at CODE_BASE and DATA_BASE over INIT_FILL and nothing else of the reset state
changes; an image that does not fit is refused. -/
def Obligations.ImagesPlaced : Prop :=
  ∀ (cfg : Config) (code : List Word) (data : List Byte), cfg.legal = true →
    (cfg.codeBase.toNat + 4 * code.length ≤ cfg.memBytes →
      cfg.dataBase.toNat + data.length ≤ cfg.memBytes →
      ∃ s, State.boot cfg code data = .next s ∧
        s = { State.initial cfg with imem := s.imem, dmem := s.dmem } ∧
        (∀ (k : Nat) (h : k < code.length),
          s.imemWord (cfg.codeBase + BitVec.ofNat 32 (4 * k)) = code[k]) ∧
        (∀ (j : Nat) (h : j < data.length), s.dmemByte (cfg.dataBase.toNat + j) = data[j]) ∧
        (∀ a, (a < cfg.codeBase.toNat ∨ cfg.codeBase.toNat + 4 * code.length ≤ a) →
          s.imemByte a = cfg.initFill.extractLsb' (8 * (a % 4)) 8) ∧
        (∀ a, (a < cfg.dataBase.toNat ∨ cfg.dataBase.toNat + data.length ≤ a) →
          s.dmemByte a = cfg.initFill.extractLsb' (8 * (a % 4)) 8)) ∧
    ((cfg.memBytes < cfg.codeBase.toNat + 4 * code.length ∨
        cfg.memBytes < cfg.dataBase.toNat + data.length) →
      State.boot cfg code data = .refused .imageDoesNotFit)

/-- R652: every state a workload starts in satisfies the invariants of R57 and the shape. -/
def Obligations.InvariantsAtReset : Prop :=
  ∀ (cfg : Config) (code : List Word) (data : List Byte) (s : State),
    State.boot cfg code data = .next s → s.InFlight ∧ s.drained = true ∧ tagsFollow cfg s.robHead s.log

/-! ### Invariants every step keeps -/

/-- Sizes, ROB pointers, the hard-wired x0, BTB tag widths and the canonical, bounded memories. -/
def Obligations.ShapeKept : Prop :=
  ∀ s t : State, s.Shape → step s = .next t → t.Shape

/-- R57: contiguity, the single producer, the youngest producer in the RAT, pending slots on older
unfinished instructions; with what makes them inductive. -/
def Obligations.InFlightKept : Prop :=
  ∀ s t : State, s.InFlight → step s = .next t → t.InFlight

/-- Commit order: retire events carry successive tags modulo ROB_SIZE with no gap and no repeat, also
across squashes, and the next to retire is the head. -/
def Obligations.CommitOrder : Prop :=
  ∀ s t : State, tagsFollow s.cfg s.robHead s.log → step s = .next t →
    tagsFollow t.cfg t.robHead t.log

/-! ### Fetch and prediction (spec/45_fetch_predict.md) -/

/-- What fetch writes when it runs: the checks in order, the read, the prediction, the stop. -/
def Obligations.FetchFillsTheLatch : Prop :=
  ∀ s : State, s.Clocked → s.Shape → s.flows = true → s.fetchStopped = false →
    (s.fl.valid = false ∨ s.dispatches = true) →
    ∃ t, step s = .next t ∧
      let a := s.pcF
      (a.toNat % 4 ≠ 0 →
        t.fl = { valid := true, pc := a, word := 0, fault := some (.misalignedAccess .fetch),
                 predTaken := false, predTarget := a + 4 } ∧
        t.fetchStopped = true ∧ t.pcF = a) ∧
      (a.toNat % 4 = 0 → s.cfg.memBytes < a.toNat + 4 →
        t.fl = { valid := true, pc := a, word := 0, fault := some .outOfBoundsFetch,
                 predTaken := false, predTarget := a + 4 } ∧
        t.fetchStopped = true ∧ t.pcF = a) ∧
      (a.toNat % 4 = 0 → a.toNat + 4 ≤ s.cfg.memBytes →
        ∃ (e : BpEntry) (taken : Bool),
          s.bp[a.toNat % 2 ^ s.cfg.bhtLogSize]? = some e ∧
          (taken = true ↔
            (e.ctr = .weaklyTaken ∨ e.ctr = .stronglyTaken) ∧ e.tag = a >>> s.cfg.bhtLogSize) ∧
          t.fl = { valid := true, pc := a, word := s.imemWord a, fault := none,
                   predTaken := taken, predTarget := if taken then e.target else a + 4 } ∧
          t.pcF = (if taken then e.target else a + 4) ∧
          (t.fetchStopped = true ↔
            s.imemWord a = 0x00100073#32 ∨ decode (s.imemWord a) = none))

/-- R356: the fetch PC changes by a successful fetch or a squash, which has priority, and in no other
cycle. -/
def Obligations.FetchPcChanges : Prop :=
  ∀ s : State, s.Clocked →
    let fetches := s.flows = true ∧ s.fetchStopped = false ∧
      (s.fl.valid = false ∨ s.dispatches = true) ∧
      s.pcF.toNat % 4 = 0 ∧ s.pcF.toNat + 4 ≤ s.cfg.memBytes
    ∃ t, step s = .next t ∧
      (s.squashes = true →
        t.pcF = if s.headEntry.actTaken then s.headEntry.actTarget else s.headEntry.pc + 4) ∧
      (fetches → t.fl.valid = true ∧ t.fl.pc = s.pcF ∧ t.pcF = t.fl.predTarget) ∧
      (s.squashes = false → ¬fetches → t.pcF = s.pcF)

/-- R354: a counter moves at commit only, by one step at most, between 0 and 3. -/
def Obligations.CountersMoveByOneStep : Prop :=
  (∀ c : Counter, counterPredictsTaken c = true ↔ 2 ≤ counterValue c) ∧
  (∀ c : Counter, counterValue c ≤ 3) ∧
  ∀ s : State, s.Clocked →
    ∃ t, step s = .next t ∧ t.bp.length = s.bp.length ∧
      ∀ (i : Nat) (e f : BpEntry), s.bp[i]? = some e → t.bp[i]? = some f →
        counterValue f.ctr ≤ counterValue e.ctr + 1 ∧
        counterValue e.ctr ≤ counterValue f.ctr + 1 ∧
        (f ≠ e → s.retires = true ∧
          i = s.headEntry.pc.toNat % 2 ^ s.cfg.bhtLogSize)

/-- R358: when and what the predictor is written. -/
def Obligations.PredictorUpdates : Prop :=
  ∀ s : State, s.Clocked → s.Shape →
    let e := s.headEntry
    let writes := s.retires = true ∧
      (e.mispredict = true ∨
        (s.cfg.predictorUpdate = .everyResolution ∧ (e.kind = .branch ∨ e.kind = .jump)))
    ∃ t, step s = .next t ∧
      (¬writes → t.bp = s.bp) ∧
      (writes → ∃ old new : BpEntry,
        s.bp[e.pc.toNat % 2 ^ s.cfg.bhtLogSize]? = some old ∧
        t.bp[e.pc.toNat % 2 ^ s.cfg.bhtLogSize]? = some new ∧
        counterValue new.ctr =
          (if e.actTaken then min 3 (counterValue old.ctr + 1) else counterValue old.ctr - 1) ∧
        new.tag = e.pc >>> s.cfg.bhtLogSize ∧ new.target = e.actTarget ∧
        ∀ i, i ≠ e.pc.toNat % 2 ^ s.cfg.bhtLogSize → t.bp[i]? = s.bp[i]?)

/-! ### Dispatch (spec/46_rename_dispatch.md) -/

/-- R410, R412: how a source register resolves. -/
def Obligations.OperandResolution : Prop :=
  ∀ (s : State) (b : Option Payload) (r : Reg),
    (r = 0 → resolveReg s b r = .value 0) ∧
    (r ≠ 0 →
      (s.rat[r.toNat]'r.isLt = .committed → resolveReg s b r = .value (s.reg r)) ∧
      ∀ p, s.rat[r.toNat]'r.isLt = .pending p →
        ((s.robEntry p).ready = true → resolveReg s b r = .value (s.robEntry p).value) ∧
        ((s.robEntry p).ready = false →
          (∀ q, b = some q → q.tag = p → resolveReg s b r = .value q.value) ∧
          ((∀ q, b = some q → q.tag ≠ p) → resolveReg s b r = .pending p)))

/-- R404: with a resource missing dispatch writes nothing; the latch, and with it fetch, waits. Whatever
changes in the ROB, RS, LSQ and RAT is the work of the other stages: the broadcast, the issues, the load
port and the retiring head. -/
def Obligations.DispatchStalls : Prop :=
  ∀ s : State, s.Clocked → s.flows = true → s.fl.valid = true → ¬s.resourcesFree →
    ∃ t, step s = .next t ∧ t.fl = s.fl ∧ t.pcF = s.pcF ∧ t.fetchStopped = s.fetchStopped ∧
      t.robTail = s.robTail ∧ t.robCount = s.robCount - (if s.retires then 1 else 0) ∧
      t.rob = broadcastRob s.rob s.broadcast ∧
      (∀ i : Nat, t.rs[i]? = (s.rs[i]?).map fun e =>
        { wakeRs s.broadcast e with busy := e.busy && !s.issuesFrom i }) ∧
      (∀ i : Nat, t.lsq[i]? = (s.lsq[i]?).map fun e =>
        { wakeLsq s.broadcast e with
          busy := e.busy && decide (s.loadFreed ≠ some i ∧ s.storeFreed ≠ some i)
          issued := e.issued || decide (s.loadHeld = some i) }) ∧
      (∀ r : Fin 32, t.rat[r] =
        if s.retires = true ∧ s.headEntry.dest = some (BitVec.ofFin r) ∧
            s.rat[r] = .pending s.robHead then .committed
        else s.rat[r])

/-- R403: what dispatch writes when every resource is free. -/
def Obligations.DispatchAllocates : Prop :=
  ∀ s : State, s.Clocked → s.Shape → s.flows = true → s.fl.valid = true → s.resourcesFree →
    ∃ t, step s = .next t ∧
      t.robTail = (s.robTail + 1) % s.cfg.robSize ∧
      t.robCount = s.robCount - (if s.retires then 1 else 0) + 1 ∧
      (∀ f, latchMicroOp s.fl = .fault f →
        t.robEntry s.robTail =
          { kind := .fault, op := none, dest := none, value := 0, ready := true, pc := s.fl.pc,
            predTaken := s.fl.predTaken, predTarget := s.fl.predTarget, actTaken := false,
            actTarget := s.fl.pc + 4, mispredict := s.fl.predTaken, fault := some f }) ∧
      ∀ d, latchMicroOp s.fl = .instr d →
        t.robEntry s.robTail =
          { kind := kindOfClass d.cls, op := some d.op, dest := d.dest, value := 0,
            ready := decide (d.cls = .system), pc := s.fl.pc, predTaken := s.fl.predTaken,
            predTarget := s.fl.predTarget, actTaken := false, actTarget := s.fl.pc + 4,
            mispredict := decide (d.cls ≠ .branch ∧ d.cls ≠ .jump) && s.fl.predTaken,
            fault := none } ∧
        (∀ r, d.dest = some r → t.rat[r.toNat]'r.isLt = .pending s.robTail) ∧
        (unitOfClass d.cls ≠ none → ∃ i : Nat,
          (∃ f, s.rs[i]? = some f ∧ f.busy = false) ∧
          (∀ (j : Nat) f, j < i → s.rs[j]? = some f → f.busy = true) ∧
          t.rs[i]? = some
            { busy := true, op := d.op, j := resolveReg s s.broadcast d.rs1,
              k := resolveReg s s.broadcast d.rs2, imm := d.imm, pc := s.fl.pc,
              dest := s.robTail }) ∧
        (d.cls = .load ∨ d.cls = .store → ∃ i : Nat,
          (∃ f, s.lsq[i]? = some f ∧ f.busy = false) ∧
          (∀ (j : Nat) f, j < i → s.lsq[j]? = some f → f.busy = true) ∧
          t.lsq[i]? = some
            { busy := true, tag := s.robTail, op := d.op,
              base := resolveReg s s.broadcast d.rs1, imm := d.imm,
              data := resolveReg s s.broadcast d.rs2, issued := false })

/-- R413: an instruction dispatched in the cycle its producer commits gets the committed value, and the
RAT entry is cleared unless that dispatch renames the register, when its write stands. -/
def Obligations.CommitBypass : Prop :=
  ∀ (s : State) (r : Reg), s.Clocked → s.InFlight → s.flows = true → s.retires = true →
    s.headEntry.dest = some r → s.rat[r.toNat]'r.isLt = .pending s.robHead →
    (∀ b, resolveReg s b r = .value s.headEntry.value) ∧
    ∃ t, step s = .next t ∧ t.reg r = s.headEntry.value ∧
      t.rat[r.toNat]'r.isLt =
        if s.dispatches = true ∧ (latchMicroOp s.fl).dest = some r then .pending s.robTail
        else .committed

/-! ### Issue, units and the bus (spec/47_issue_execute_cdb.md) -/

/-- R441, R442: the oldest eligible entry is the one selected for a unit. -/
def Obligations.OldestEligibleIsSelected : Prop :=
  ∀ (s : State) (u : ExecUnit),
    let eligible : RsEntry → Prop := fun e =>
      e.busy = true ∧ opUnit e.op = some u ∧ ∃ a b, e.j = .value a ∧ e.k = .value b
    (∀ c, selectRs s u = some c →
      (∃ e, s.rs[c.index]? = some e ∧ e.busy = true ∧ opUnit e.op = some u ∧
        e.j = .value c.a ∧ e.k = .value c.b ∧ c.tag = e.dest ∧ c.op = e.op ∧ c.imm = e.imm ∧
        c.pc = e.pc) ∧
      ∀ e ∈ s.rs, eligible e → s.age c.tag ≤ s.age e.dest) ∧
    (selectRs s u = none ↔ ∀ e ∈ s.rs, ¬eligible e)

/-- An entry that issues in a cycle is freed in it, for each unit, also when a pipeline advances because
its last stage wins the bus; with a full ALU latch, or a pipeline that freezes, no entry of that unit is
freed, and no entry that waits on an operand ever is. -/
def Obligations.IssueFreesTheEntry : Prop :=
  ∀ s : State, s.Clocked → s.flows = true →
    let g := signals s
    let mulGoes := lastStage s.mul = none ∨ wonBy g.win .mul = true
    let divGoes := lastStage s.div = none ∨ wonBy g.win .div = true
    ∃ t, step s = .next t ∧
      (s.aluOut = none → ∀ c, selectRs s .alu = some c →
        ∃ e, t.rs[c.index]? = some e ∧ e.busy = false) ∧
      (mulGoes → ∀ c, selectRs s .mul = some c →
        (∃ e, t.rs[c.index]? = some e ∧ e.busy = false) ∧
        (t.mul = [] ∨ t.mul.head? = some (some ⟨c.tag, c.op, c.a, c.b⟩))) ∧
      (divGoes → ∀ c, selectRs s .div = some c →
        (∃ e, t.rs[c.index]? = some e ∧ e.busy = false) ∧
        (t.div = [] ∨ t.div.head? = some (some ⟨c.tag, c.op, c.a, c.b⟩))) ∧
      (¬mulGoes → t.mul = s.mul) ∧ (¬divGoes → t.div = s.div) ∧
      (∀ (i : Nat) e, s.rs[i]? = some e → e.busy = true →
        (∃ p, e.j = .pending p ∨ e.k = .pending p) ∨
          (opUnit e.op = some .alu ∧ s.aluOut ≠ none) ∨
          (opUnit e.op = some .mul ∧ ¬mulGoes) ∨ (opUnit e.op = some .div ∧ ¬divGoes) →
        ∃ f, t.rs[i]? = some f ∧ f.busy = true ∧ f.dest = e.dest ∧ f.op = e.op)

/-- The results of the three units are the sequential results: value and next pc of every instruction
they take. -/
def Obligations.UnitsAgreeWithExec : Prop :=
  ∀ (i : Instr) (s : State) (p : Payload), s.halt = .running →
    let a := s.reg (instrRs1 i)
    let b := s.reg (instrRs2 i)
    (opUnit (instrOp i) = some .alu ∧
        p = aluPayload ⟨0, 0, instrOp i, a, b, instrImm i, s.pcA⟩ ∨
      (opUnit (instrOp i) = some .mul ∨ opUnit (instrOp i) = some .div) ∧
        p = unitPayload ⟨0, instrOp i, a, b⟩) →
    p.fault = none ∧
    ∃ t, exec i s = .next t ∧
      t.retired = s.retired ++ [(s.pcA, if instrRd i = 0 then none else some p.value)] ∧
      t.pcA = match p.ctrl with
        | none => s.pcA + 4
        | some c => if c.taken then c.target else s.pcA + 4

/-- R471: the bus goes to the requester that comes first in CDB_PRIORITY, and to none exactly when none
requests it. -/
def Obligations.BusArbitration : Prop :=
  ∀ (s : State) (alu : Option Issued) (load : Option LoadOut), s.cfg.legal = true →
    (∀ r p, arbitrate s alu load = some (r, p) →
      request s alu load r = some p ∧
        ∀ r', (request s alu load r').isSome = true →
          s.cfg.cdbPriority.idxOf r ≤ s.cfg.cdbPriority.idxOf r') ∧
    (arbitrate s alu load = none ↔ ∀ r, request s alu load r = none) ∧
    Config.standard.cdbPriority = [.alu, .load, .mul, .div]

/-- R472: a requester that loses the bus holds its result; a winning latch empties. -/
def Obligations.LosersHold : Prop :=
  ∀ s : State, s.Clocked → s.InFlight → s.flows = true →
    let g := signals s
    ∃ t, step s = .next t ∧
      (∀ p, request s g.alu g.load .alu = some p →
        t.aluOut = if wonBy g.win .alu then none else some p) ∧
      (∀ l, s.loadRequest = some l →
        t.ldOut = (if wonBy g.win .load then none else some l) ∧
        ∃ e, t.lsq[l.index]? = some e ∧
          (if wonBy g.win .load then e.busy = false
           else e.busy = true ∧ e.issued = true ∧ e.tag = l.payload.tag)) ∧
      (∀ p, request s g.alu g.load .mul = some p → wonBy g.win .mul = false → t.mul = s.mul) ∧
      (∀ p, request s g.alu g.load .div = some p → wonBy g.win .div = false → t.div = s.div)

/-- R456, R462: a pipeline advances when its last stage is empty or wins the bus, else it freezes
whole. -/
def Obligations.PipelinesAdvanceOrFreeze : Prop :=
  ∀ s : State, s.Clocked → s.Shape → s.flows = true →
    let g := signals s
    ∃ t, step s = .next t ∧
      (if s.mul[s.cfg.mulStages - 1]? = some none ∨ wonBy g.win .mul = true then
        (∀ k, k + 1 < s.cfg.mulStages → t.mul[k + 1]? = s.mul[k]?) ∧
        t.mul[0]? = some ((selectRs s .mul).map fun c => ⟨c.tag, c.op, c.a, c.b⟩)
       else t.mul = s.mul) ∧
      (if s.div[s.cfg.divStages - 1]? = some none ∨ wonBy g.win .div = true then
        (∀ k, k + 1 < s.cfg.divStages → t.div[k + 1]? = s.div[k]?) ∧
        t.div[0]? = some ((selectRs s .div).map fun c => ⟨c.tag, c.op, c.a, c.b⟩)
       else t.div = s.div)

/-- R473: every slot that waited on the broadcast has its value after the cycle, and no slot waits on it
any more, the slots of the instruction dispatched in the cycle among them. -/
def Obligations.Wakeup : Prop :=
  ∀ (s : State) (b : Payload), s.Clocked → s.InFlight → s.flows = true → s.broadcast = some b →
    ∃ t, step s = .next t ∧
      (∀ (i : Nat) e f, s.rs[i]? = some e → e.busy = true → t.rs[i]? = some f → f.busy = true →
        (e.j = .pending b.tag → f.j = .value b.value) ∧
        (e.k = .pending b.tag → f.k = .value b.value)) ∧
      (∀ (i : Nat) e f, s.lsq[i]? = some e → e.busy = true → t.lsq[i]? = some f → f.busy = true →
        (e.base = .pending b.tag → f.base = .value b.value) ∧
        (e.data = .pending b.tag → f.data = .value b.value)) ∧
      (∀ f ∈ t.rs, f.busy = true → f.j ≠ .pending b.tag ∧ f.k ≠ .pending b.tag) ∧
      (∀ f ∈ t.lsq, f.busy = true → f.base ≠ .pending b.tag ∧ f.data ≠ .pending b.tag)

/-- R474: what the broadcast writes into its ROB entry. -/
def Obligations.BroadcastCompletesTheEntry : Prop :=
  ∀ (s : State) (b : Payload), s.Clocked → s.InFlight → s.flows = true → s.broadcast = some b →
    ∃ t, step s = .next t ∧
      (s.robEntry b.tag).ready = false ∧
      (b.ctrl = none →
        t.robEntry b.tag =
          { s.robEntry b.tag with value := b.value, ready := true, fault := b.fault }) ∧
      (∀ c, b.ctrl = some c →
        t.robEntry b.tag =
          { s.robEntry b.tag with
            value := b.value
            ready := true
            fault := b.fault
            actTaken := c.taken
            actTarget := c.target
            mispredict := decide ((s.robEntry b.tag).predTaken ≠ c.taken ∨
              (c.taken = true ∧ (s.robEntry b.tag).predTarget ≠ c.target)) })

/-! ### The load/store queue (spec/48_lsq.md, 20_memory.md) -/

/-- The value a load gets, forwarded or read, is that of data memory with every older store in the queue
applied in program order: for every order by age of those stores, and whatever the data still pending
among them turns out to be. -/
def Obligations.LoadSeesOlderStores : Prop :=
  ∀ (s : State) (e : LsqEntry) (v : Word) (order : List LsqEntry) (addr data : LsqEntry → Word),
    loadPlan s e = .value v →
    order.Perm (olderStores s e.tag) →
    order.Pairwise (fun p q => s.age p.tag < s.age q.tag) →
    (∀ st ∈ order, ∀ base, st.base = .value base → addr st = base + st.imm) →
    (∀ st ∈ order, ∀ d, st.data = .value d → data st = d) →
    ∃ base, e.base = .value base ∧
      let ea := base + e.imm
      let mem := order.foldl (fun m st => overlayWord m (addr st) (data st)) s.dmemByte
      if e.op = .lbu then
        ea.toNat + 1 ≤ s.cfg.memBytes ∧ v = (mem ea.toNat).setWidth 32
      else
        ea.toNat % 4 = 0 ∧ ea.toNat + 4 ≤ s.cfg.memBytes ∧
          v = mem (ea.toNat + 3) ++ mem (ea.toNat + 2) ++ mem (ea.toNat + 1) ++ mem ea.toNat

/-- R521: a store at the head, with its one LSQ entry: waits while base or data is pending, stops the core
on a failing check, else writes its word and frees its entry. -/
def Obligations.StoreCommit : Prop :=
  ∀ (s : State) (i : Nat) (e : LsqEntry), s.Clocked → s.dmem.wf s.cfg.initFill = true →
    s.robCount ≠ 0 → s.headEntry.kind = .store → s.lsq[i]? = some e → e.busy = true →
    e.tag = s.robHead →
    (∀ (j : Nat) f, s.lsq[j]? = some f → f.busy = true → f.tag = s.robHead → j = i) →
    ∃ t, step s = .next t ∧
      ((∃ p, e.base = .pending p ∨ e.data = .pending p) →
        t.robHead = s.robHead ∧ t.log = s.log ∧ t.dmem = s.dmem ∧ t.x = s.x) ∧
      ∀ base d, e.base = .value base → e.data = .value d →
        let ea := base + e.imm
        (ea.toNat % 4 ≠ 0 →
          t = { s with halt := .fatal (.misalignedAccess .store) s.headEntry.pc ea
                       cycle := s.cycle + 1 }) ∧
        (ea.toNat % 4 = 0 → s.cfg.memBytes < ea.toNat + 4 →
          t = { s with halt := .fatal .outOfBoundsMemoryAccess s.headEntry.pc ea
                       cycle := s.cycle + 1 }) ∧
        (ea.toNat % 4 = 0 → ea.toNat + 4 ≤ s.cfg.memBytes →
          (∀ a, t.dmemByte a = overlayWord s.dmemByte ea d a) ∧
          t.robHead = (s.robHead + 1) % s.cfg.robSize ∧
          ∃ f, t.lsq[i]? = some f ∧ f.busy = false)

/-- R114: a cycle changes data memory only by committing the store at the head. -/
def Obligations.OnlyCommittingStoresWrite : Prop :=
  ∀ s : State, s.Clocked →
    ∃ t, step s = .next t ∧
      (t.dmem ≠ s.dmem →
        s.robCount ≠ 0 ∧ s.headEntry.kind = .store ∧ s.retires = true ∧
        ∃ e ∈ s.lsq, ∃ base d, e.busy = true ∧ e.tag = s.robHead ∧ e.base = .value base ∧
          e.data = .value d ∧ (base + e.imm).toNat % 4 = 0 ∧
          (base + e.imm).toNat + 4 ≤ s.cfg.memBytes ∧
          t.dmem = s.dmem.writeWord s.cfg.initFill (base + e.imm).toNat d)

/-! ### Commit, squash and halt (spec/49_rob_commit.md, 60_exceptions.md) -/

/-- R543: the only register write of a cycle is the retiring head's destination. -/
def Obligations.OneRegisterWrite : Prop :=
  ∀ s : State, s.Clocked →
    ∃ t, step s = .next t ∧
      (∀ q, q ≠ 0 → t.reg q =
        if s.retires = true ∧ s.headEntry.dest = some q then s.headEntry.value else s.reg q) ∧
      t.x[0] = s.x[0]

/-- R558, R546: the retire events of a cycle: one when the head retires, EBREAK included, else none. -/
def Obligations.RetireEvents : Prop :=
  ∀ s : State, s.Clocked →
    ∃ t, step s = .next t ∧
      t.cycle = s.cycle + 1 ∧
      ((∃ e, commitDecision s = .ebreak e) ∨ s.retires = true →
        t.log = s.log ++ [{ cycle := s.cycle, tag := s.robHead, pc := s.headEntry.pc,
                            value := if s.headEntry.dest = none then none
                                     else some s.headEntry.value }]) ∧
      ((∀ e, commitDecision s ≠ .ebreak e) → s.retires = false → t.log = s.log)

/-- R551, R552: a squash leaves nothing in flight and redirects fetch to the correct next address. -/
def Obligations.SquashClears : Prop :=
  ∀ s : State, s.Clocked → s.squashes = true →
    ∃ t, step s = .next t ∧
      t.robCount = 0 ∧ t.robHead = (s.robHead + 1) % s.cfg.robSize ∧ t.robTail = t.robHead ∧
      (∀ e ∈ t.rs, e.busy = false) ∧ (∀ e ∈ t.lsq, e.busy = false) ∧
      t.aluOut = none ∧ t.ldOut = none ∧ (∀ u ∈ t.mul, u = none) ∧ (∀ u ∈ t.div, u = none) ∧
      (∀ r : Fin 32, t.rat[r] = .committed) ∧
      t.fl.valid = false ∧ t.fetchStopped = false ∧
      t.pcF = if s.headEntry.actTaken then s.headEntry.actTarget else s.headEntry.pc + 4

/-- R554, R556, R557: a complete EBREAK at the head halts the core after its event; a complete Fault
entry, a complete Load with a fault, or a Store whose commit check fails, stops it without one; nothing
else changes in that cycle. -/
def Obligations.HaltCycles : Prop :=
  ∀ s : State, s.Clocked → s.robCount ≠ 0 →
    (s.headEntry.ready = true → s.headEntry.kind = .ebreak →
      step s = .next
        { s with
          halt := .halted
          robHead := (s.robHead + 1) % s.cfg.robSize
          robCount := s.robCount - 1
          log := s.log ++ [{ cycle := s.cycle, tag := s.robHead, pc := s.headEntry.pc,
                             value := if s.headEntry.dest = none then none
                                      else some s.headEntry.value }]
          cycle := s.cycle + 1 }) ∧
    (∀ f : FaultInfo, s.headEntry.ready = true →
      s.headEntry.kind = .fault ∨ s.headEntry.kind = .load → s.headEntry.fault = some f →
      step s = .next
        { s with halt := .fatal f.kind s.headEntry.pc f.addr, cycle := s.cycle + 1 }) ∧
    (∀ (i : Nat) (e : LsqEntry) (base d : Word), s.headEntry.kind = .store →
      s.lsq[i]? = some e → e.busy = true → e.tag = s.robHead →
      (∀ (j : Nat) f, s.lsq[j]? = some f → f.busy = true → f.tag = s.robHead → j = i) →
      e.base = .value base → e.data = .value d →
      let ea := base + e.imm
      (ea.toNat % 4 ≠ 0 →
        step s = .next { s with halt := .fatal (.misalignedAccess .store) s.headEntry.pc ea
                                cycle := s.cycle + 1 }) ∧
      (ea.toNat % 4 = 0 → s.cfg.memBytes < ea.toNat + 4 →
        step s = .next { s with halt := .fatal .outOfBoundsMemoryAccess s.headEntry.pc ea
                                cycle := s.cycle + 1 }))

/-- Under Deferred, a fatal stop is always the head's own fault: a Fault entry, a faulting load, or a
store whose check fails at commit, at the address its own LSQ entry has; registers, memory and log keep
their values. -/
def Obligations.DeferredStopsAreTheHeads : Prop :=
  ∀ s : State, s.Clocked → s.cfg.faultPolicy = .deferred →
    ∃ t, step s = .next t ∧
      ∀ kind pc addr, t.halt = .fatal kind pc addr →
        s.robCount ≠ 0 ∧ pc = s.headEntry.pc ∧ t.x = s.x ∧ t.dmem = s.dmem ∧ t.log = s.log ∧
        ((s.headEntry.kind = .fault ∨ s.headEntry.kind = .load) ∧ s.headEntry.ready = true ∧
            s.headEntry.fault = some ⟨kind, addr⟩ ∨
          s.headEntry.kind = .store ∧
            (∃ e ∈ s.lsq, ∃ base d, e.busy = true ∧ e.tag = s.robHead ∧ e.base = .value base ∧
              e.data = .value d ∧ addr = base + e.imm) ∧
            (kind = .misalignedAccess .store ∧ addr.toNat % 4 ≠ 0 ∨
              kind = .outOfBoundsMemoryAccess ∧ addr.toNat % 4 = 0 ∧
                s.cfg.memBytes < addr.toNat + 4))

/-- Under Immediate, in a cycle that neither squashes nor halts at commit, a fetch fault or DecodeError in
the latch, or a fault of the load the load port selects, stops the core at once with its own pc and
address, every other effect of the cycle being that of the Deferred cycle; with neither, the cycle is the
Deferred one. With both, the load's fault stops the core: that is the model's choice (log entry 8). -/
def Obligations.ImmediateStops : Prop :=
  ∀ s u : State, s.Clocked → s.cfg.faultPolicy = .immediate → s.flows = true →
    step { s with cfg := { s.cfg with faultPolicy := .deferred } } = .next u →
    (∀ l f, selectLoad s = some l → l.payload.fault = some f →
      step s = .next
        { u with halt := .fatal f.kind (s.robEntry l.payload.tag).pc f.addr, cfg := s.cfg }) ∧
    ((∀ l, selectLoad s = some l → l.payload.fault = none) →
      (∀ f, s.fl.valid = true → latchMicroOp s.fl = .fault f →
        step s = .next { u with halt := .fatal f.kind s.fl.pc f.addr, cfg := s.cfg }) ∧
      ((s.fl.valid = false ∨ ∃ d, latchMicroOp s.fl = .instr d) →
        step s = .next { u with cfg := s.cfg }))

/-! ### The core against the sequential semantics (spec/00_scope.md R17) -/

/-- The first cycles: an integer computational instruction at CODE_BASE commits in cycle 3, its event
stamped 3, with its sequential effect on the registers. -/
def Obligations.FirstInstructionCommitsInCycleThree : Prop :=
  ∀ (cfg : Config) (code : List Word) (data : List Byte) (s : State) (w : Word) (i : Instr),
    cfg.faultPolicy = .deferred → State.boot cfg code data = .next s → code[0]? = some w →
    decode w = some i → opKind (instrOp i) = .alu →
    (steps 3 s).log = [] ∧
    ∃ t, exec i s = .next t ∧ (steps 4 s).retired = t.retired ∧ (steps 4 s).x = t.x ∧
      (steps 4 s).log.map RetireEvent.cycle = [3]

/-- The sizes, priorities, pipeline depths, predictor and fault policy have no part in the sequential
semantics: two instances that agree on the memories and the initial registers run alike, instruction by
instruction. -/
def Obligations.SequentialIgnoresMicroarchitecture : Prop :=
  ∀ (cfg cfg' : Config) (code : List Word) (data : List Byte) (s s' : State) (n : Nat),
    cfg'.depthLog = cfg.depthLog → cfg'.codeBase = cfg.codeBase →
    cfg'.dataBase = cfg.dataBase → cfg'.initX = cfg.initX → cfg'.initFill = cfg.initFill →
    State.boot cfg code data = .next s → State.boot cfg' code data = .next s' →
    let a := steps n s.atInstructions
    let b := steps n s'.atInstructions
    b.x = a.x ∧ b.dmem = a.dmem ∧ b.halt = a.halt ∧ b.pcA = a.pcA ∧ b.retired = a.retired

/-- The safety half of R17, for every workload, every legal choice of the parameters with Deferred faults,
and every number of cycles: the core has retired exactly the instructions of a run of the sequential
semantics, with the same values, and its registers, data memory, halt status and architectural pc are
those of that run. -/
def Obligations.CorrectnessContract : Prop :=
  ∀ (cfg : Config) (code : List Word) (data : List Byte) (s : State) (n : Nat),
    cfg.faultPolicy = .deferred → State.boot cfg code data = .next s →
    ∃ m, (steps n s).AgreesWith (steps m s.atInstructions)

/-- The progress half of R17 (with R675): whatever the sequential semantics does, the core gets there.
After some number of cycles it has retired the instructions of the first `m` sequential steps and no
others, and when that run has stopped the core has stopped with the same status. -/
def Obligations.EverySequentialStepIsReached : Prop :=
  ∀ (cfg : Config) (code : List Word) (data : List Byte) (s : State) (m : Nat),
    cfg.faultPolicy = .deferred → State.boot cfg code data = .next s →
    ∃ n, (steps n s).AgreesWith (steps m s.atInstructions)

end Statements
end

