-- ==== Sys2Proof/Laws/State.lean ====
section
/-! SUPPORT. One lemma per field per update of the state, so that no later proof unfolds a record
update. -/

namespace Sys2Proof.Machine

/-! ### raise -/

@[simp] theorem State.raise_cfg (s : State) (k : FaultKind) (pc a : Word) :
    (s.raise k pc a).cfg = s.cfg := rfl
@[simp] theorem State.raise_level (s : State) (k : FaultKind) (pc a : Word) :
    (s.raise k pc a).level = s.level := rfl
@[simp] theorem State.raise_x (s : State) (k : FaultKind) (pc a : Word) :
    (s.raise k pc a).x = s.x := rfl
@[simp] theorem State.raise_pcF (s : State) (k : FaultKind) (pc a : Word) :
    (s.raise k pc a).pcF = s.pcF := rfl
@[simp] theorem State.raise_imem (s : State) (k : FaultKind) (pc a : Word) :
    (s.raise k pc a).imem = s.imem := rfl
@[simp] theorem State.raise_dmem (s : State) (k : FaultKind) (pc a : Word) :
    (s.raise k pc a).dmem = s.dmem := rfl
@[simp] theorem State.raise_halt (s : State) (k : FaultKind) (pc a : Word) :
    (s.raise k pc a).halt = .fatal k pc a := rfl
@[simp] theorem State.raise_cycle (s : State) (k : FaultKind) (pc a : Word) :
    (s.raise k pc a).cycle = s.cycle := rfl
@[simp] theorem State.raise_log (s : State) (k : FaultKind) (pc a : Word) :
    (s.raise k pc a).log = s.log := rfl
@[simp] theorem State.raise_fl (s : State) (k : FaultKind) (pc a : Word) :
    (s.raise k pc a).fl = s.fl := rfl
@[simp] theorem State.raise_fetchStopped (s : State) (k : FaultKind) (pc a : Word) :
    (s.raise k pc a).fetchStopped = s.fetchStopped := rfl
@[simp] theorem State.raise_bp (s : State) (k : FaultKind) (pc a : Word) :
    (s.raise k pc a).bp = s.bp := rfl
@[simp] theorem State.raise_rat (s : State) (k : FaultKind) (pc a : Word) :
    (s.raise k pc a).rat = s.rat := rfl
@[simp] theorem State.raise_rob (s : State) (k : FaultKind) (pc a : Word) :
    (s.raise k pc a).rob = s.rob := rfl
@[simp] theorem State.raise_robHead (s : State) (k : FaultKind) (pc a : Word) :
    (s.raise k pc a).robHead = s.robHead := rfl
@[simp] theorem State.raise_robTail (s : State) (k : FaultKind) (pc a : Word) :
    (s.raise k pc a).robTail = s.robTail := rfl
@[simp] theorem State.raise_robCount (s : State) (k : FaultKind) (pc a : Word) :
    (s.raise k pc a).robCount = s.robCount := rfl
@[simp] theorem State.raise_rs (s : State) (k : FaultKind) (pc a : Word) :
    (s.raise k pc a).rs = s.rs := rfl
@[simp] theorem State.raise_lsq (s : State) (k : FaultKind) (pc a : Word) :
    (s.raise k pc a).lsq = s.lsq := rfl
@[simp] theorem State.raise_aluOut (s : State) (k : FaultKind) (pc a : Word) :
    (s.raise k pc a).aluOut = s.aluOut := rfl
@[simp] theorem State.raise_ldOut (s : State) (k : FaultKind) (pc a : Word) :
    (s.raise k pc a).ldOut = s.ldOut := rfl
@[simp] theorem State.raise_mul (s : State) (k : FaultKind) (pc a : Word) :
    (s.raise k pc a).mul = s.mul := rfl
@[simp] theorem State.raise_div (s : State) (k : FaultKind) (pc a : Word) :
    (s.raise k pc a).div = s.div := rfl

/-! ### flushTo -/

@[simp] theorem State.flushTo_cfg (s : State) (h : Nat) (pc : Word) :
    (s.flushTo h pc).cfg = s.cfg := rfl
@[simp] theorem State.flushTo_level (s : State) (h : Nat) (pc : Word) :
    (s.flushTo h pc).level = s.level := rfl
@[simp] theorem State.flushTo_x (s : State) (h : Nat) (pc : Word) : (s.flushTo h pc).x = s.x := rfl
@[simp] theorem State.flushTo_pcF (s : State) (h : Nat) (pc : Word) :
    (s.flushTo h pc).pcF = pc := rfl
@[simp] theorem State.flushTo_imem (s : State) (h : Nat) (pc : Word) :
    (s.flushTo h pc).imem = s.imem := rfl
@[simp] theorem State.flushTo_dmem (s : State) (h : Nat) (pc : Word) :
    (s.flushTo h pc).dmem = s.dmem := rfl
@[simp] theorem State.flushTo_halt (s : State) (h : Nat) (pc : Word) :
    (s.flushTo h pc).halt = s.halt := rfl
@[simp] theorem State.flushTo_cycle (s : State) (h : Nat) (pc : Word) :
    (s.flushTo h pc).cycle = s.cycle := rfl
@[simp] theorem State.flushTo_log (s : State) (h : Nat) (pc : Word) :
    (s.flushTo h pc).log = s.log := rfl
@[simp] theorem State.flushTo_fl (s : State) (h : Nat) (pc : Word) :
    (s.flushTo h pc).fl = { s.fl with valid := false } := rfl
@[simp] theorem State.flushTo_fetchStopped (s : State) (h : Nat) (pc : Word) :
    (s.flushTo h pc).fetchStopped = false := rfl
@[simp] theorem State.flushTo_bp (s : State) (h : Nat) (pc : Word) :
    (s.flushTo h pc).bp = s.bp := rfl
@[simp] theorem State.flushTo_rat (s : State) (h : Nat) (pc : Word) :
    (s.flushTo h pc).rat = Vector.replicate 32 .committed := rfl
@[simp] theorem State.flushTo_rob (s : State) (h : Nat) (pc : Word) :
    (s.flushTo h pc).rob = s.rob := rfl
@[simp] theorem State.flushTo_robHead (s : State) (h : Nat) (pc : Word) :
    (s.flushTo h pc).robHead = h := rfl
@[simp] theorem State.flushTo_robTail (s : State) (h : Nat) (pc : Word) :
    (s.flushTo h pc).robTail = h := rfl
@[simp] theorem State.flushTo_robCount (s : State) (h : Nat) (pc : Word) :
    (s.flushTo h pc).robCount = 0 := rfl
@[simp] theorem State.flushTo_rs (s : State) (h : Nat) (pc : Word) :
    (s.flushTo h pc).rs = s.rs.map fun e => { e with busy := false } := rfl
@[simp] theorem State.flushTo_lsq (s : State) (h : Nat) (pc : Word) :
    (s.flushTo h pc).lsq = s.lsq.map fun e => { e with busy := false } := rfl
@[simp] theorem State.flushTo_aluOut (s : State) (h : Nat) (pc : Word) :
    (s.flushTo h pc).aluOut = none := rfl
@[simp] theorem State.flushTo_ldOut (s : State) (h : Nat) (pc : Word) :
    (s.flushTo h pc).ldOut = none := rfl
@[simp] theorem State.flushTo_mul (s : State) (h : Nat) (pc : Word) :
    (s.flushTo h pc).mul = s.mul.map fun _ => none := rfl
@[simp] theorem State.flushTo_div (s : State) (h : Nat) (pc : Word) :
    (s.flushTo h pc).div = s.div.map fun _ => none := rfl

/-! ### complete -/

@[simp] theorem State.complete_cfg (s : State) (d : Option Reg) (v n : Word) :
    (s.complete d v n).cfg = s.cfg := rfl
@[simp] theorem State.complete_level (s : State) (d : Option Reg) (v n : Word) :
    (s.complete d v n).level = s.level := rfl
@[simp] theorem State.complete_x (s : State) (d : Option Reg) (v n : Word) :
    (s.complete d v n).x = writeDest s.x d v := rfl
@[simp] theorem State.complete_pcF (s : State) (d : Option Reg) (v n : Word) :
    (s.complete d v n).pcF = n := rfl
@[simp] theorem State.complete_imem (s : State) (d : Option Reg) (v n : Word) :
    (s.complete d v n).imem = s.imem := rfl
@[simp] theorem State.complete_dmem (s : State) (d : Option Reg) (v n : Word) :
    (s.complete d v n).dmem = s.dmem := rfl
@[simp] theorem State.complete_halt (s : State) (d : Option Reg) (v n : Word) :
    (s.complete d v n).halt = s.halt := rfl
@[simp] theorem State.complete_cycle (s : State) (d : Option Reg) (v n : Word) :
    (s.complete d v n).cycle = s.cycle := rfl
@[simp] theorem State.complete_log (s : State) (d : Option Reg) (v n : Word) :
    (s.complete d v n).log = s.log ++ [retireEvent s s.robHead s.pcA d v] := rfl
@[simp] theorem State.complete_fl (s : State) (d : Option Reg) (v n : Word) :
    (s.complete d v n).fl = { s.fl with valid := false } := rfl
@[simp] theorem State.complete_fetchStopped (s : State) (d : Option Reg) (v n : Word) :
    (s.complete d v n).fetchStopped = false := rfl
@[simp] theorem State.complete_bp (s : State) (d : Option Reg) (v n : Word) :
    (s.complete d v n).bp = s.bp := rfl
@[simp] theorem State.complete_rat (s : State) (d : Option Reg) (v n : Word) :
    (s.complete d v n).rat = Vector.replicate 32 .committed := rfl
@[simp] theorem State.complete_rob (s : State) (d : Option Reg) (v n : Word) :
    (s.complete d v n).rob = s.rob := rfl
@[simp] theorem State.complete_robHead (s : State) (d : Option Reg) (v n : Word) :
    (s.complete d v n).robHead = nextTag s.cfg s.robHead := rfl
@[simp] theorem State.complete_robTail (s : State) (d : Option Reg) (v n : Word) :
    (s.complete d v n).robTail = nextTag s.cfg s.robHead := rfl
@[simp] theorem State.complete_robCount (s : State) (d : Option Reg) (v n : Word) :
    (s.complete d v n).robCount = 0 := rfl
@[simp] theorem State.complete_rs (s : State) (d : Option Reg) (v n : Word) :
    (s.complete d v n).rs = s.rs.map fun e => { e with busy := false } := rfl
@[simp] theorem State.complete_lsq (s : State) (d : Option Reg) (v n : Word) :
    (s.complete d v n).lsq = s.lsq.map fun e => { e with busy := false } := rfl
@[simp] theorem State.complete_aluOut (s : State) (d : Option Reg) (v n : Word) :
    (s.complete d v n).aluOut = none := rfl
@[simp] theorem State.complete_ldOut (s : State) (d : Option Reg) (v n : Word) :
    (s.complete d v n).ldOut = none := rfl
@[simp] theorem State.complete_mul (s : State) (d : Option Reg) (v n : Word) :
    (s.complete d v n).mul = s.mul.map fun _ => none := rfl
@[simp] theorem State.complete_div (s : State) (d : Option Reg) (v n : Word) :
    (s.complete d v n).div = s.div.map fun _ => none := rfl

/-! ### commitEffects -/

@[simp] theorem State.commitEffects_cfg (s : State) (r : Retirement) :
    (s.commitEffects r).cfg = s.cfg := rfl
@[simp] theorem State.commitEffects_level (s : State) (r : Retirement) :
    (s.commitEffects r).level = s.level := rfl
@[simp] theorem State.commitEffects_x (s : State) (r : Retirement) :
    (s.commitEffects r).x = writeDest s.x r.entry.dest r.entry.value := rfl
@[simp] theorem State.commitEffects_pcF (s : State) (r : Retirement) :
    (s.commitEffects r).pcF = s.pcF := rfl
@[simp] theorem State.commitEffects_imem (s : State) (r : Retirement) :
    (s.commitEffects r).imem = s.imem := rfl
@[simp] theorem State.commitEffects_dmem (s : State) (r : Retirement) :
    (s.commitEffects r).dmem = retireDmem s r.store := rfl
@[simp] theorem State.commitEffects_halt (s : State) (r : Retirement) :
    (s.commitEffects r).halt = s.halt := rfl
@[simp] theorem State.commitEffects_cycle (s : State) (r : Retirement) :
    (s.commitEffects r).cycle = s.cycle := rfl
@[simp] theorem State.commitEffects_log (s : State) (r : Retirement) :
    (s.commitEffects r).log =
      s.log ++ [retireEvent s s.robHead r.entry.pc r.entry.dest r.entry.value] := rfl
@[simp] theorem State.commitEffects_fl (s : State) (r : Retirement) :
    (s.commitEffects r).fl = s.fl := rfl
@[simp] theorem State.commitEffects_fetchStopped (s : State) (r : Retirement) :
    (s.commitEffects r).fetchStopped = s.fetchStopped := rfl
@[simp] theorem State.commitEffects_bp (s : State) (r : Retirement) :
    (s.commitEffects r).bp =
      if updatesPredictor s.cfg r.entry then bpUpdate s r.entry else s.bp := rfl
@[simp] theorem State.commitEffects_rat (s : State) (r : Retirement) :
    (s.commitEffects r).rat = clearRat s r.entry.dest := rfl
@[simp] theorem State.commitEffects_rob (s : State) (r : Retirement) :
    (s.commitEffects r).rob = s.rob := rfl
@[simp] theorem State.commitEffects_robHead (s : State) (r : Retirement) :
    (s.commitEffects r).robHead = s.robHead := rfl
@[simp] theorem State.commitEffects_robTail (s : State) (r : Retirement) :
    (s.commitEffects r).robTail = s.robTail := rfl
@[simp] theorem State.commitEffects_robCount (s : State) (r : Retirement) :
    (s.commitEffects r).robCount = s.robCount := rfl
@[simp] theorem State.commitEffects_rs (s : State) (r : Retirement) :
    (s.commitEffects r).rs = s.rs := rfl
@[simp] theorem State.commitEffects_lsq (s : State) (r : Retirement) :
    (s.commitEffects r).lsq = s.lsq := rfl
@[simp] theorem State.commitEffects_aluOut (s : State) (r : Retirement) :
    (s.commitEffects r).aluOut = s.aluOut := rfl
@[simp] theorem State.commitEffects_ldOut (s : State) (r : Retirement) :
    (s.commitEffects r).ldOut = s.ldOut := rfl
@[simp] theorem State.commitEffects_mul (s : State) (r : Retirement) :
    (s.commitEffects r).mul = s.mul := rfl
@[simp] theorem State.commitEffects_div (s : State) (r : Retirement) :
    (s.commitEffects r).div = s.div := rfl

/-! ### squash -/

@[simp] theorem State.squash_cfg (s : State) (r : Retirement) : (s.squash r).cfg = s.cfg := rfl
@[simp] theorem State.squash_level (s : State) (r : Retirement) :
    (s.squash r).level = s.level := rfl
@[simp] theorem State.squash_x (s : State) (r : Retirement) :
    (s.squash r).x = writeDest s.x r.entry.dest r.entry.value := rfl
@[simp] theorem State.squash_pcF (s : State) (r : Retirement) :
    (s.squash r).pcF = squashPc r.entry := rfl
@[simp] theorem State.squash_imem (s : State) (r : Retirement) : (s.squash r).imem = s.imem := rfl
@[simp] theorem State.squash_dmem (s : State) (r : Retirement) :
    (s.squash r).dmem = retireDmem s r.store := rfl
@[simp] theorem State.squash_halt (s : State) (r : Retirement) : (s.squash r).halt = s.halt := rfl
@[simp] theorem State.squash_cycle (s : State) (r : Retirement) :
    (s.squash r).cycle = s.cycle + 1 := rfl
@[simp] theorem State.squash_log (s : State) (r : Retirement) :
    (s.squash r).log =
      s.log ++ [retireEvent s s.robHead r.entry.pc r.entry.dest r.entry.value] := rfl
@[simp] theorem State.squash_fl (s : State) (r : Retirement) :
    (s.squash r).fl = { s.fl with valid := false } := rfl
@[simp] theorem State.squash_fetchStopped (s : State) (r : Retirement) :
    (s.squash r).fetchStopped = false := rfl
@[simp] theorem State.squash_bp (s : State) (r : Retirement) :
    (s.squash r).bp = if updatesPredictor s.cfg r.entry then bpUpdate s r.entry else s.bp := rfl
@[simp] theorem State.squash_rat (s : State) (r : Retirement) :
    (s.squash r).rat = Vector.replicate 32 .committed := rfl
@[simp] theorem State.squash_rob (s : State) (r : Retirement) : (s.squash r).rob = s.rob := rfl
@[simp] theorem State.squash_robHead (s : State) (r : Retirement) :
    (s.squash r).robHead = nextTag s.cfg s.robHead := rfl
@[simp] theorem State.squash_robTail (s : State) (r : Retirement) :
    (s.squash r).robTail = nextTag s.cfg s.robHead := rfl
@[simp] theorem State.squash_robCount (s : State) (r : Retirement) :
    (s.squash r).robCount = 0 := rfl
@[simp] theorem State.squash_rs (s : State) (r : Retirement) :
    (s.squash r).rs = s.rs.map fun e => { e with busy := false } := rfl
@[simp] theorem State.squash_lsq (s : State) (r : Retirement) :
    (s.squash r).lsq = s.lsq.map fun e => { e with busy := false } := rfl
@[simp] theorem State.squash_aluOut (s : State) (r : Retirement) :
    (s.squash r).aluOut = none := rfl
@[simp] theorem State.squash_ldOut (s : State) (r : Retirement) : (s.squash r).ldOut = none := rfl
@[simp] theorem State.squash_mul (s : State) (r : Retirement) :
    (s.squash r).mul = s.mul.map fun _ => none := rfl
@[simp] theorem State.squash_div (s : State) (r : Retirement) :
    (s.squash r).div = s.div.map fun _ => none := rfl

/-! ### haltOnEbreak -/

@[simp] theorem State.haltOnEbreak_cfg (s : State) (e : RobEntry) :
    (s.haltOnEbreak e).cfg = s.cfg := rfl
@[simp] theorem State.haltOnEbreak_level (s : State) (e : RobEntry) :
    (s.haltOnEbreak e).level = s.level := rfl
@[simp] theorem State.haltOnEbreak_x (s : State) (e : RobEntry) : (s.haltOnEbreak e).x = s.x := rfl
@[simp] theorem State.haltOnEbreak_pcF (s : State) (e : RobEntry) :
    (s.haltOnEbreak e).pcF = s.pcF := rfl
@[simp] theorem State.haltOnEbreak_imem (s : State) (e : RobEntry) :
    (s.haltOnEbreak e).imem = s.imem := rfl
@[simp] theorem State.haltOnEbreak_dmem (s : State) (e : RobEntry) :
    (s.haltOnEbreak e).dmem = s.dmem := rfl
@[simp] theorem State.haltOnEbreak_halt (s : State) (e : RobEntry) :
    (s.haltOnEbreak e).halt = .halted := rfl
@[simp] theorem State.haltOnEbreak_cycle (s : State) (e : RobEntry) :
    (s.haltOnEbreak e).cycle = s.cycle + 1 := rfl
@[simp] theorem State.haltOnEbreak_log (s : State) (e : RobEntry) :
    (s.haltOnEbreak e).log = s.log ++ [retireEvent s s.robHead e.pc e.dest e.value] := rfl
@[simp] theorem State.haltOnEbreak_fl (s : State) (e : RobEntry) :
    (s.haltOnEbreak e).fl = s.fl := rfl
@[simp] theorem State.haltOnEbreak_fetchStopped (s : State) (e : RobEntry) :
    (s.haltOnEbreak e).fetchStopped = s.fetchStopped := rfl
@[simp] theorem State.haltOnEbreak_bp (s : State) (e : RobEntry) :
    (s.haltOnEbreak e).bp = s.bp := rfl
@[simp] theorem State.haltOnEbreak_rat (s : State) (e : RobEntry) :
    (s.haltOnEbreak e).rat = s.rat := rfl
@[simp] theorem State.haltOnEbreak_rob (s : State) (e : RobEntry) :
    (s.haltOnEbreak e).rob = s.rob := rfl
@[simp] theorem State.haltOnEbreak_robHead (s : State) (e : RobEntry) :
    (s.haltOnEbreak e).robHead = nextTag s.cfg s.robHead := rfl
@[simp] theorem State.haltOnEbreak_robTail (s : State) (e : RobEntry) :
    (s.haltOnEbreak e).robTail = s.robTail := rfl
@[simp] theorem State.haltOnEbreak_robCount (s : State) (e : RobEntry) :
    (s.haltOnEbreak e).robCount = s.robCount - 1 := rfl
@[simp] theorem State.haltOnEbreak_rs (s : State) (e : RobEntry) :
    (s.haltOnEbreak e).rs = s.rs := rfl
@[simp] theorem State.haltOnEbreak_lsq (s : State) (e : RobEntry) :
    (s.haltOnEbreak e).lsq = s.lsq := rfl
@[simp] theorem State.haltOnEbreak_aluOut (s : State) (e : RobEntry) :
    (s.haltOnEbreak e).aluOut = s.aluOut := rfl
@[simp] theorem State.haltOnEbreak_ldOut (s : State) (e : RobEntry) :
    (s.haltOnEbreak e).ldOut = s.ldOut := rfl
@[simp] theorem State.haltOnEbreak_mul (s : State) (e : RobEntry) :
    (s.haltOnEbreak e).mul = s.mul := rfl
@[simp] theorem State.haltOnEbreak_div (s : State) (e : RobEntry) :
    (s.haltOnEbreak e).div = s.div := rfl

/-! ### haltOnFault -/

@[simp] theorem State.haltOnFault_cfg (s : State) (st : Stop) :
    (s.haltOnFault st).cfg = s.cfg := rfl
@[simp] theorem State.haltOnFault_level (s : State) (st : Stop) :
    (s.haltOnFault st).level = s.level := rfl
@[simp] theorem State.haltOnFault_x (s : State) (st : Stop) : (s.haltOnFault st).x = s.x := rfl
@[simp] theorem State.haltOnFault_pcF (s : State) (st : Stop) :
    (s.haltOnFault st).pcF = s.pcF := rfl
@[simp] theorem State.haltOnFault_imem (s : State) (st : Stop) :
    (s.haltOnFault st).imem = s.imem := rfl
@[simp] theorem State.haltOnFault_dmem (s : State) (st : Stop) :
    (s.haltOnFault st).dmem = s.dmem := rfl
@[simp] theorem State.haltOnFault_halt (s : State) (st : Stop) :
    (s.haltOnFault st).halt = .fatal st.kind st.pc st.addr := rfl
@[simp] theorem State.haltOnFault_cycle (s : State) (st : Stop) :
    (s.haltOnFault st).cycle = s.cycle + 1 := rfl
@[simp] theorem State.haltOnFault_log (s : State) (st : Stop) :
    (s.haltOnFault st).log = s.log := rfl
@[simp] theorem State.haltOnFault_fl (s : State) (st : Stop) : (s.haltOnFault st).fl = s.fl := rfl
@[simp] theorem State.haltOnFault_fetchStopped (s : State) (st : Stop) :
    (s.haltOnFault st).fetchStopped = s.fetchStopped := rfl
@[simp] theorem State.haltOnFault_bp (s : State) (st : Stop) : (s.haltOnFault st).bp = s.bp := rfl
@[simp] theorem State.haltOnFault_rat (s : State) (st : Stop) :
    (s.haltOnFault st).rat = s.rat := rfl
@[simp] theorem State.haltOnFault_rob (s : State) (st : Stop) :
    (s.haltOnFault st).rob = s.rob := rfl
@[simp] theorem State.haltOnFault_robHead (s : State) (st : Stop) :
    (s.haltOnFault st).robHead = s.robHead := rfl
@[simp] theorem State.haltOnFault_robTail (s : State) (st : Stop) :
    (s.haltOnFault st).robTail = s.robTail := rfl
@[simp] theorem State.haltOnFault_robCount (s : State) (st : Stop) :
    (s.haltOnFault st).robCount = s.robCount := rfl
@[simp] theorem State.haltOnFault_rs (s : State) (st : Stop) : (s.haltOnFault st).rs = s.rs := rfl
@[simp] theorem State.haltOnFault_lsq (s : State) (st : Stop) :
    (s.haltOnFault st).lsq = s.lsq := rfl
@[simp] theorem State.haltOnFault_aluOut (s : State) (st : Stop) :
    (s.haltOnFault st).aluOut = s.aluOut := rfl
@[simp] theorem State.haltOnFault_ldOut (s : State) (st : Stop) :
    (s.haltOnFault st).ldOut = s.ldOut := rfl
@[simp] theorem State.haltOnFault_mul (s : State) (st : Stop) :
    (s.haltOnFault st).mul = s.mul := rfl
@[simp] theorem State.haltOnFault_div (s : State) (st : Stop) :
    (s.haltOnFault st).div = s.div := rfl

/-! ### advance -/

@[simp] theorem State.advance_cfg (s : State) (r : Option Retirement) :
    (s.advance r).cfg = (s.afterCommit r).cfg := rfl
@[simp] theorem State.advance_level (s : State) (r : Option Retirement) :
    (s.advance r).level = (s.afterCommit r).level := rfl
@[simp] theorem State.advance_x (s : State) (r : Option Retirement) :
    (s.advance r).x = (s.afterCommit r).x := rfl
@[simp] theorem State.advance_pcF (s : State) (r : Option Retirement) :
    (s.advance r).pcF = (fetchStage s (dispatch s (signals s).broadcast).isSome).pcF := rfl
@[simp] theorem State.advance_imem (s : State) (r : Option Retirement) :
    (s.advance r).imem = (s.afterCommit r).imem := rfl
@[simp] theorem State.advance_dmem (s : State) (r : Option Retirement) :
    (s.advance r).dmem = (s.afterCommit r).dmem := rfl
@[simp] theorem State.advance_halt (s : State) (r : Option Retirement) :
    (s.advance r).halt = (s.afterCommit r).halt := rfl
@[simp] theorem State.advance_cycle (s : State) (r : Option Retirement) :
    (s.advance r).cycle = s.cycle + 1 := rfl
@[simp] theorem State.advance_log (s : State) (r : Option Retirement) :
    (s.advance r).log = (s.afterCommit r).log := rfl
@[simp] theorem State.advance_fl (s : State) (r : Option Retirement) :
    (s.advance r).fl = (fetchStage s (dispatch s (signals s).broadcast).isSome).fl := rfl
@[simp] theorem State.advance_fetchStopped (s : State) (r : Option Retirement) :
    (s.advance r).fetchStopped =
      (fetchStage s (dispatch s (signals s).broadcast).isSome).stop := rfl
@[simp] theorem State.advance_bp (s : State) (r : Option Retirement) :
    (s.advance r).bp = (s.afterCommit r).bp := rfl
@[simp] theorem State.advance_rat (s : State) (r : Option Retirement) :
    (s.advance r).rat = nextRat s (s.afterCommit r).rat (dispatch s (signals s).broadcast) := rfl
@[simp] theorem State.advance_rob (s : State) (r : Option Retirement) :
    (s.advance r).rob = nextRob s (signals s) (dispatch s (signals s).broadcast) := rfl
@[simp] theorem State.advance_robHead (s : State) (r : Option Retirement) :
    (s.advance r).robHead = if r.isSome then nextTag s.cfg s.robHead else s.robHead := rfl
@[simp] theorem State.advance_robTail (s : State) (r : Option Retirement) :
    (s.advance r).robTail =
      if (dispatch s (signals s).broadcast).isSome then nextTag s.cfg s.robTail else s.robTail := rfl
@[simp] theorem State.advance_robCount (s : State) (r : Option Retirement) :
    (s.advance r).robCount =
      s.robCount - (if r.isSome then 1 else 0) + (if (dispatch s (signals s).broadcast).isSome then 1 else 0) := rfl
@[simp] theorem State.advance_rs (s : State) (r : Option Retirement) :
    (s.advance r).rs = nextRs s (signals s) (dispatch s (signals s).broadcast) := rfl
@[simp] theorem State.advance_lsq (s : State) (r : Option Retirement) :
    (s.advance r).lsq = nextLsq s (signals s) (dispatch s (signals s).broadcast) r := rfl
@[simp] theorem State.advance_aluOut (s : State) (r : Option Retirement) :
    (s.advance r).aluOut = nextAluOut s (signals s) := rfl
@[simp] theorem State.advance_ldOut (s : State) (r : Option Retirement) :
    (s.advance r).ldOut = nextLdOut s (signals s) := rfl
@[simp] theorem State.advance_mul (s : State) (r : Option Retirement) :
    (s.advance r).mul = nextPipe s.mul (signals s).mulAdvances (signals s).mul := rfl
@[simp] theorem State.advance_div (s : State) (r : Option Retirement) :
    (s.advance r).div = nextPipe s.div (signals s).divAdvances (signals s).div := rfl

/-! ### withFetchWord -/

@[simp] theorem State.withFetchWord_cfg (s : State) (n w : Nat) :
    (s.withFetchWord n w).cfg = s.cfg := rfl
@[simp] theorem State.withFetchWord_level (s : State) (n w : Nat) :
    (s.withFetchWord n w).level = .instruction := rfl
@[simp] theorem State.withFetchWord_x (s : State) (n w : Nat) :
    (s.withFetchWord n w).x = s.x := rfl
@[simp] theorem State.withFetchWord_pcF (s : State) (n w : Nat) :
    (s.withFetchWord n w).pcF = s.pcF := rfl
@[simp] theorem State.withFetchWord_imem (s : State) (n w : Nat) :
    (s.withFetchWord n w).imem =
      s.imem.writeWord s.cfg.initFill s.pcA.toNat (BitVec.ofNat 32 (w % 2 ^ n)) := rfl
@[simp] theorem State.withFetchWord_dmem (s : State) (n w : Nat) :
    (s.withFetchWord n w).dmem = s.dmem := rfl
@[simp] theorem State.withFetchWord_halt (s : State) (n w : Nat) :
    (s.withFetchWord n w).halt = s.halt := rfl
@[simp] theorem State.withFetchWord_cycle (s : State) (n w : Nat) :
    (s.withFetchWord n w).cycle = s.cycle := rfl
@[simp] theorem State.withFetchWord_log (s : State) (n w : Nat) :
    (s.withFetchWord n w).log = s.log := rfl
@[simp] theorem State.withFetchWord_fl (s : State) (n w : Nat) :
    (s.withFetchWord n w).fl = s.fl := rfl
@[simp] theorem State.withFetchWord_fetchStopped (s : State) (n w : Nat) :
    (s.withFetchWord n w).fetchStopped = s.fetchStopped := rfl
@[simp] theorem State.withFetchWord_bp (s : State) (n w : Nat) :
    (s.withFetchWord n w).bp = s.bp := rfl
@[simp] theorem State.withFetchWord_rat (s : State) (n w : Nat) :
    (s.withFetchWord n w).rat = s.rat := rfl
@[simp] theorem State.withFetchWord_rob (s : State) (n w : Nat) :
    (s.withFetchWord n w).rob = s.rob := rfl
@[simp] theorem State.withFetchWord_robHead (s : State) (n w : Nat) :
    (s.withFetchWord n w).robHead = s.robHead := rfl
@[simp] theorem State.withFetchWord_robTail (s : State) (n w : Nat) :
    (s.withFetchWord n w).robTail = s.robTail := rfl
@[simp] theorem State.withFetchWord_robCount (s : State) (n w : Nat) :
    (s.withFetchWord n w).robCount = s.robCount := rfl
@[simp] theorem State.withFetchWord_rs (s : State) (n w : Nat) :
    (s.withFetchWord n w).rs = s.rs := rfl
@[simp] theorem State.withFetchWord_lsq (s : State) (n w : Nat) :
    (s.withFetchWord n w).lsq = s.lsq := rfl
@[simp] theorem State.withFetchWord_aluOut (s : State) (n w : Nat) :
    (s.withFetchWord n w).aluOut = s.aluOut := rfl
@[simp] theorem State.withFetchWord_ldOut (s : State) (n w : Nat) :
    (s.withFetchWord n w).ldOut = s.ldOut := rfl
@[simp] theorem State.withFetchWord_mul (s : State) (n w : Nat) :
    (s.withFetchWord n w).mul = s.mul := rfl
@[simp] theorem State.withFetchWord_div (s : State) (n w : Nat) :
    (s.withFetchWord n w).div = s.div := rfl

/-! ### atCycles -/

@[simp] theorem State.atCycles_cfg (s : State) : (s.atCycles).cfg = s.cfg := rfl
@[simp] theorem State.atCycles_level (s : State) : (s.atCycles).level = .cycle := rfl
@[simp] theorem State.atCycles_x (s : State) : (s.atCycles).x = s.x := rfl
@[simp] theorem State.atCycles_pcF (s : State) : (s.atCycles).pcF = s.pcF := rfl
@[simp] theorem State.atCycles_imem (s : State) : (s.atCycles).imem = s.imem := rfl
@[simp] theorem State.atCycles_dmem (s : State) : (s.atCycles).dmem = s.dmem := rfl
@[simp] theorem State.atCycles_halt (s : State) : (s.atCycles).halt = s.halt := rfl
@[simp] theorem State.atCycles_cycle (s : State) : (s.atCycles).cycle = s.cycle := rfl
@[simp] theorem State.atCycles_log (s : State) : (s.atCycles).log = s.log := rfl
@[simp] theorem State.atCycles_fl (s : State) : (s.atCycles).fl = s.fl := rfl
@[simp] theorem State.atCycles_fetchStopped (s : State) :
    (s.atCycles).fetchStopped = s.fetchStopped := rfl
@[simp] theorem State.atCycles_bp (s : State) : (s.atCycles).bp = s.bp := rfl
@[simp] theorem State.atCycles_rat (s : State) : (s.atCycles).rat = s.rat := rfl
@[simp] theorem State.atCycles_rob (s : State) : (s.atCycles).rob = s.rob := rfl
@[simp] theorem State.atCycles_robHead (s : State) : (s.atCycles).robHead = s.robHead := rfl
@[simp] theorem State.atCycles_robTail (s : State) : (s.atCycles).robTail = s.robTail := rfl
@[simp] theorem State.atCycles_robCount (s : State) : (s.atCycles).robCount = s.robCount := rfl
@[simp] theorem State.atCycles_rs (s : State) : (s.atCycles).rs = s.rs := rfl
@[simp] theorem State.atCycles_lsq (s : State) : (s.atCycles).lsq = s.lsq := rfl
@[simp] theorem State.atCycles_aluOut (s : State) : (s.atCycles).aluOut = s.aluOut := rfl
@[simp] theorem State.atCycles_ldOut (s : State) : (s.atCycles).ldOut = s.ldOut := rfl
@[simp] theorem State.atCycles_mul (s : State) : (s.atCycles).mul = s.mul := rfl
@[simp] theorem State.atCycles_div (s : State) : (s.atCycles).div = s.div := rfl

/-! ### atInstructions -/

@[simp] theorem State.atInstructions_cfg (s : State) : (s.atInstructions).cfg = s.cfg := rfl
@[simp] theorem State.atInstructions_level (s : State) :
    (s.atInstructions).level = .instruction := rfl
@[simp] theorem State.atInstructions_x (s : State) : (s.atInstructions).x = s.x := rfl
@[simp] theorem State.atInstructions_pcF (s : State) : (s.atInstructions).pcF = s.pcF := rfl
@[simp] theorem State.atInstructions_imem (s : State) : (s.atInstructions).imem = s.imem := rfl
@[simp] theorem State.atInstructions_dmem (s : State) : (s.atInstructions).dmem = s.dmem := rfl
@[simp] theorem State.atInstructions_halt (s : State) : (s.atInstructions).halt = s.halt := rfl
@[simp] theorem State.atInstructions_cycle (s : State) : (s.atInstructions).cycle = s.cycle := rfl
@[simp] theorem State.atInstructions_log (s : State) : (s.atInstructions).log = s.log := rfl
@[simp] theorem State.atInstructions_fl (s : State) : (s.atInstructions).fl = s.fl := rfl
@[simp] theorem State.atInstructions_fetchStopped (s : State) :
    (s.atInstructions).fetchStopped = s.fetchStopped := rfl
@[simp] theorem State.atInstructions_bp (s : State) : (s.atInstructions).bp = s.bp := rfl
@[simp] theorem State.atInstructions_rat (s : State) : (s.atInstructions).rat = s.rat := rfl
@[simp] theorem State.atInstructions_rob (s : State) : (s.atInstructions).rob = s.rob := rfl
@[simp] theorem State.atInstructions_robHead (s : State) :
    (s.atInstructions).robHead = s.robHead := rfl
@[simp] theorem State.atInstructions_robTail (s : State) :
    (s.atInstructions).robTail = s.robTail := rfl
@[simp] theorem State.atInstructions_robCount (s : State) :
    (s.atInstructions).robCount = s.robCount := rfl
@[simp] theorem State.atInstructions_rs (s : State) : (s.atInstructions).rs = s.rs := rfl
@[simp] theorem State.atInstructions_lsq (s : State) : (s.atInstructions).lsq = s.lsq := rfl
@[simp] theorem State.atInstructions_aluOut (s : State) :
    (s.atInstructions).aluOut = s.aluOut := rfl
@[simp] theorem State.atInstructions_ldOut (s : State) : (s.atInstructions).ldOut = s.ldOut := rfl
@[simp] theorem State.atInstructions_mul (s : State) : (s.atInstructions).mul = s.mul := rfl
@[simp] theorem State.atInstructions_div (s : State) : (s.atInstructions).div = s.div := rfl

/-! ### afterCommit -/

@[simp] theorem State.afterCommit_none (s : State) : s.afterCommit none = s := rfl
@[simp] theorem State.afterCommit_some (s : State) (r : Retirement) :
    s.afterCommit (some r) = s.commitEffects r := rfl

end Sys2Proof.Machine
end

