-- ==== Sys2Proof/Laws/Memory.lean ====
section
/-! SUPPORT. The laws of the canonical memory: read after write, other addresses untouched, and every
operation keeps the canonical form. -/

namespace Sys2Proof.Machine

theorem Memory.read_write_same (fill : Word) (m : Memory) (a : Nat) (b : Byte)
    (h : m.wf fill = true) : (m.write fill a b).read fill a = b := by
  have key : ∀ (m : Memory) (lo : Nat), m.wfFrom fill lo = true →
      (m.write fill a b).read fill a = b := by
    intro m
    induction m with
    | nil =>
      intro lo _
      by_cases hb : b = fillByte fill a <;> simp [Memory.write, Memory.read, hb]
    | cons c rest ih =>
      obtain ⟨k, v⟩ := c
      intro lo hw
      simp only [Memory.wfFrom, Bool.and_eq_true, decide_eq_true_eq] at hw
      obtain ⟨⟨_, _⟩, hr⟩ := hw
      have absent : ∀ (l : Memory) (lo : Nat), l.wfFrom fill lo = true → a < lo →
          l.read fill a = fillByte fill a := by
        intro l
        induction l with
        | nil => intro _ _ _; rfl
        | cons c' rest' ih' =>
          obtain ⟨k', v'⟩ := c'
          intro lo' hl hlt
          simp only [Memory.wfFrom, Bool.and_eq_true, decide_eq_true_eq] at hl
          have hne : k' ≠ a := by omega
          simp only [Memory.read, hne, if_false]
          exact ih' _ hl.2 (by omega)
      simp only [Memory.write]
      by_cases h1 : k < a
      · simp only [h1, if_true, Memory.read]
        have hne : k ≠ a := by omega
        simp only [hne, if_false]
        exact ih _ hr
      · by_cases h2 : k = a
        · subst h2
          by_cases hb : b = fillByte fill k
          · simp only [h1, if_false, if_true, hb]
            exact absent rest _ hr (by omega)
          · simp [hb, Memory.read]
        · by_cases hb : b = fillByte fill a
          · simp only [h1, h2, if_false, if_true, hb, Memory.read]
            exact absent rest _ hr (by omega)
          · simp [h1, h2, hb, Memory.read]
  exact key m 0 h

theorem Memory.read_write_other (fill : Word) (m : Memory) (a a' : Nat) (b : Byte) (h : a' ≠ a) :
    (m.write fill a b).read fill a' = m.read fill a' := by
  induction m with
  | nil =>
    have h' : a ≠ a' := fun e => h e.symm
    by_cases hb : b = fillByte fill a <;> simp [Memory.write, Memory.read, hb, h']
  | cons c rest ih =>
    obtain ⟨k, v⟩ := c
    have h' : a ≠ a' := fun e => h e.symm
    simp only [Memory.write]
    split
    · simp only [Memory.read, ih]
    · split
      · rename_i hk
        subst hk
        split <;> simp [Memory.read, h']
      · split <;> simp [Memory.read, h']

/-- The read of one byte after the write of one byte. -/
theorem Memory.read_write (fill : Word) (m : Memory) (a a' : Nat) (b : Byte)
    (h : m.wf fill = true) :
    (m.write fill a b).read fill a' = if a' = a then b else m.read fill a' := by
  by_cases e : a' = a
  · subst e; simp [Memory.read_write_same fill m a' b h]
  · simp [e, Memory.read_write_other fill m a a' b e]

theorem Memory.wfFrom_write (fill : Word) (m : Memory) (lo a : Nat) (b : Byte) (hlo : lo ≤ a)
    (h : m.wfFrom fill lo = true) : (m.write fill a b).wfFrom fill lo = true := by
  induction m generalizing lo with
  | nil =>
    by_cases hb : b = fillByte fill a <;> simp [Memory.write, Memory.wfFrom, hb, hlo]
  | cons c rest ih =>
    obtain ⟨k, v⟩ := c
    simp only [Memory.wfFrom, Bool.and_eq_true, decide_eq_true_eq] at h
    obtain ⟨⟨hk, hv⟩, hr⟩ := h
    have weaken : ∀ (l : Memory) (p q : Nat), q ≤ p → l.wfFrom fill p = true →
        l.wfFrom fill q = true := by
      intro l
      cases l with
      | nil => intro _ _ _ _; rfl
      | cons c' rest' =>
        obtain ⟨k', v'⟩ := c'
        intro p q hpq hl
        simp only [Memory.wfFrom, Bool.and_eq_true, decide_eq_true_eq] at hl ⊢
        exact ⟨⟨by omega, hl.1.2⟩, hl.2⟩
    simp only [Memory.write]
    split
    · rename_i hka
      simp only [Memory.wfFrom, Bool.and_eq_true, decide_eq_true_eq]
      exact ⟨⟨hk, hv⟩, ih (k + 1) (by omega) hr⟩
    · split
      · rename_i hka
        subst hka
        split
        · exact weaken rest (k + 1) lo (by omega) hr
        · rename_i hb
          simp only [Memory.wfFrom, Bool.and_eq_true, decide_eq_true_eq]
          exact ⟨⟨hk, hb⟩, hr⟩
      · rename_i h1 h2
        split
        · simp only [Memory.wfFrom, Bool.and_eq_true, decide_eq_true_eq]
          exact ⟨⟨hk, hv⟩, hr⟩
        · rename_i hb
          simp only [Memory.wfFrom, Bool.and_eq_true, decide_eq_true_eq]
          exact ⟨⟨hlo, hb⟩, ⟨by omega, hv⟩, hr⟩

theorem Memory.wf_write (fill : Word) (m : Memory) (a : Nat) (b : Byte) (h : m.wf fill = true) :
    (m.write fill a b).wf fill = true :=
  Memory.wfFrom_write fill m 0 a b (Nat.zero_le a) h

theorem Memory.wf_writeBytes (fill : Word) (bs : List Byte) (m : Memory) (a : Nat)
    (h : m.wf fill = true) : (m.writeBytes fill a bs).wf fill = true := by
  induction bs generalizing m a with
  | nil => exact h
  | cons b rest ih => exact ih _ _ (Memory.wf_write fill m a b h)

theorem Memory.wf_writeWord (fill : Word) (m : Memory) (a : Nat) (v : Word)
    (h : m.wf fill = true) : (m.writeWord fill a v).wf fill = true :=
  Memory.wf_writeBytes fill _ m a h

/-- A byte outside the written range reads as before. -/
theorem Memory.read_writeBytes_outside (fill : Word) (bs : List Byte) (m : Memory) (a a' : Nat)
    (h : a' < a ∨ a + bs.length ≤ a') : (m.writeBytes fill a bs).read fill a' = m.read fill a' := by
  induction bs generalizing m a with
  | nil => rfl
  | cons b rest ih =>
    simp only [List.length_cons] at h
    rw [Memory.writeBytes, ih _ _ (by omega), Memory.read_write_other fill m a a' b (by omega)]

/-- A byte inside the written range reads as written. -/
theorem Memory.read_writeBytes_inside (fill : Word) (bs : List Byte) (m : Memory) (a i : Nat)
    (h : m.wf fill = true) (hi : i < bs.length) :
    (m.writeBytes fill a bs).read fill (a + i) = bs[i] := by
  induction bs generalizing m a i with
  | nil => simp at hi
  | cons b rest ih =>
    cases i with
    | zero =>
      rw [Memory.writeBytes, Memory.read_writeBytes_outside fill rest _ (a + 1) (a + 0) (by omega)]
      simpa using Memory.read_write_same fill m a b h
    | succ j =>
      have hj : j < rest.length := by simpa using hi
      have := ih (m.write fill a b) (a + 1) j (Memory.wf_write fill m a b h) hj
      rw [Memory.writeBytes, show a + (j + 1) = a + 1 + j by omega, this]
      rfl

/-- A word store changes the four bytes of its word and no other. -/
theorem Memory.read_writeWord (fill : Word) (m : Memory) (a a' : Nat) (v : Word)
    (h : m.wf fill = true) :
    (m.writeWord fill a v).read fill a' =
      if a ≤ a' ∧ a' < a + 4 then byteLane v (a' - a) else m.read fill a' := by
  by_cases hc : a ≤ a' ∧ a' < a + 4
  · simp only [hc, and_self, if_true]
    obtain ⟨i, rfl⟩ : ∃ i, a' = a + i := ⟨a' - a, by omega⟩
    have hi : i < (bytesOfWord v).length := by simp [bytesOfWord]; omega
    rw [Memory.writeWord, Memory.read_writeBytes_inside fill _ m a i h hi]
    have : i = 0 ∨ i = 1 ∨ i = 2 ∨ i = 3 := by omega
    rcases this with rfl | rfl | rfl | rfl <;> simp [bytesOfWord]
  · simp only [hc, if_false]
    exact Memory.read_writeBytes_outside fill _ m a a' (by simp [bytesOfWord]; omega)

theorem Memory.keys_write (fill : Word) (m : Memory) (a : Nat) (b : Byte) (c : Host.Cell)
    (h : c ∈ m.write fill a b) : c ∈ m ∨ c.1 = a := by
  induction m with
  | nil =>
    simp only [Memory.write] at h
    split at h
    · simp at h
    · simp only [List.mem_singleton] at h; exact .inr (by rw [h])
  | cons d rest ih =>
    obtain ⟨k, v⟩ := d
    simp only [Memory.write] at h
    split at h
    · rcases List.mem_cons.mp h with rfl | h
      · exact .inl (by simp)
      · rcases ih h with h | h
        · exact .inl (by simp [h])
        · exact .inr h
    · split at h
      · split at h
        · exact .inl (by simp [h])
        · rcases List.mem_cons.mp h with rfl | h
          · exact .inr rfl
          · exact .inl (by simp [h])
      · split at h
        · exact .inl h
        · rcases List.mem_cons.mp h with rfl | h
          · exact .inr rfl
          · exact .inl h

/-- A write below a bound keeps every key below it. -/
theorem Memory.bound_writeBytes (fill : Word) (bs : List Byte) (m : Memory) (a n : Nat)
    (hm : ∀ c ∈ m, c.1 < n) (ha : a + bs.length ≤ n) :
    ∀ c ∈ m.writeBytes fill a bs, c.1 < n := by
  induction bs generalizing m a with
  | nil => exact hm
  | cons b rest ih =>
    simp only [List.length_cons] at ha
    refine ih (m.write fill a b) (a + 1) ?_ (by omega)
    intro c hc
    rcases Memory.keys_write fill m a b c hc with h | h
    · exact hm c h
    · omega

/-- Two canonical memories that read alike everywhere are the same list. -/
theorem Memory.ext_of_wf (fill : Word) (m m' : Memory) (h : m.wf fill = true)
    (h' : m'.wf fill = true) (hr : ∀ a, m.read fill a = m'.read fill a) : m = m' := by
  have below : ∀ (l : Memory) (lo a : Nat), l.wfFrom fill lo = true → a < lo →
      l.read fill a = fillByte fill a := by
    intro l
    induction l with
    | nil => intro _ _ _ _; rfl
    | cons c rest ih =>
      obtain ⟨k, v⟩ := c
      intro lo a hl hlt
      simp only [Memory.wfFrom, Bool.and_eq_true, decide_eq_true_eq] at hl
      have hne : k ≠ a := by omega
      simp only [Memory.read, hne, if_false]
      exact ih _ _ hl.2 (by omega)
  have key : ∀ (m m' : Memory) (lo : Nat), m.wfFrom fill lo = true → m'.wfFrom fill lo = true →
      (∀ a, m.read fill a = m'.read fill a) → m = m' := by
    intro m
    induction m with
    | nil =>
      intro m' lo _ hm' hr
      cases m' with
      | nil => rfl
      | cons c rest =>
        obtain ⟨k, v⟩ := c
        simp only [Memory.wfFrom, Bool.and_eq_true, decide_eq_true_eq] at hm'
        have := hr k
        simp only [Memory.read, if_true] at this
        exact absurd this.symm hm'.1.2
    | cons c rest ih =>
      obtain ⟨k, v⟩ := c
      intro m' lo hm hm' hr
      have hm0 := hm
      have hm0' := hm'
      simp only [Memory.wfFrom, Bool.and_eq_true, decide_eq_true_eq] at hm
      cases m' with
      | nil =>
        have := hr k
        simp only [Memory.read, if_true] at this
        exact absurd this hm.1.2
      | cons c' rest' =>
        obtain ⟨k', v'⟩ := c'
        simp only [Memory.wfFrom, Bool.and_eq_true, decide_eq_true_eq] at hm'
        have hk : k = k' := by
          rcases Nat.lt_trichotomy k k' with hlt | heq | hgt
          · have h1 := hr k
            have hne : k' ≠ k := by omega
            simp only [Memory.read, if_true, hne, if_false] at h1
            rw [below rest' (k' + 1) k hm'.2 (by omega)] at h1
            exact absurd h1 hm.1.2
          · exact heq
          · have h1 := hr k'
            have hne : k ≠ k' := by omega
            simp only [Memory.read, if_true, hne, if_false] at h1
            rw [below rest (k + 1) k' hm.2 (by omega)] at h1
            exact absurd h1.symm hm'.1.2
        subst hk
        have hv : v = v' := by simpa [Memory.read] using hr k
        subst hv
        have : rest = rest' := by
          refine ih rest' (k + 1) hm.2 hm'.2 ?_
          intro a
          by_cases ha : k = a
          · subst ha
            rw [below rest (k + 1) k hm.2 (by omega), below rest' (k + 1) k hm'.2 (by omega)]
          · have := hr a
            simpa [Memory.read, ha] using this
        rw [this]
  exact key m m' 0 h h' hr

end Sys2Proof.Machine
end

