-- ==== Sys2Proof/Laws/Registers.lean ====
section
/-! SUPPORT. The laws of the registers, the program counter and the completion of an instruction. -/

namespace Sys2Proof.Machine

@[simp] theorem readReg_zero (x : Vector Word 32) : readReg x 0 = 0 := rfl

/-- x0 reads as 0 in every state (10 R31). -/
@[simp] theorem State.reg_zero (s : State) : s.reg 0 = 0 := rfl

@[simp] theorem destOf_zero : destOf 0 = none := rfl

theorem destOf_of_ne {rd : Reg} (h : rd ≠ 0) : destOf rd = some rd := if_neg h

/-- Reading after writing: the written register, unless it is x0. -/
theorem readReg_writeReg (x : Vector Word 32) (r q : Reg) (v : Word) :
    readReg (writeReg x r v) q = if q = r ∧ r ≠ 0 then v else readReg x q := by
  unfold readReg writeReg
  by_cases hr : r = 0
  · simp [hr]
  · by_cases hq : q = r
    · subst hq
      simp only [hr, if_false, ne_eq, not_false_eq_true, and_self, if_true]
      simp
    · by_cases hq0 : q = 0
      · rw [if_pos hq0, if_pos hq0, if_neg (fun h => hq h.1)]
      · have hne : r.toNat ≠ q.toNat := fun h => hq (BitVec.eq_of_toNat_eq h.symm)
        simp only [hr, hq, hq0, if_false, false_and]
        rw [Vector.getElem_set_ne]
        exact hne

theorem readReg_writeDest (x : Vector Word 32) (rd q : Reg) (v : Word) :
    readReg (writeDest x (destOf rd) v) q = if q = rd ∧ rd ≠ 0 then v else readReg x q := by
  by_cases h : rd = 0
  · subst h; simp [writeDest, destOf]
  · rw [destOf_of_ne h]; exact readReg_writeReg x rd q v

/-- No write reaches the entry of x0. -/
theorem writeReg_entry_zero (x : Vector Word 32) (r : Reg) (v : Word) :
    (writeReg x r v)[0] = x[0] := by
  unfold writeReg
  by_cases hr : r = 0
  · simp [hr]
  · have hne : r.toNat ≠ 0 := fun h => hr (BitVec.eq_of_toNat_eq (by simpa using h))
    simp only [hr, if_false]
    rw [Vector.getElem_set_ne]
    exact hne

theorem writeDest_entry_zero (x : Vector Word 32) (d : Option Reg) (v : Word) :
    (writeDest x d v)[0] = x[0] := by
  cases d with
  | none => rfl
  | some r => exact writeReg_entry_zero x r v

/-- What a completed instruction leaves in the registers. -/
theorem State.reg_complete (s : State) (rd q : Reg) (v n : Word) :
    (s.complete (destOf rd) v n).reg q = if q = rd ∧ rd ≠ 0 then v else s.reg q :=
  readReg_writeDest s.x rd q v

theorem State.reg_complete_none (s : State) (q : Reg) (v n : Word) :
    (s.complete none v n).reg q = s.reg q := rfl

/-- A completed instruction sets the architectural pc (60 R610). -/
theorem State.pcA_complete (s : State) (d : Option Reg) (v n : Word) (h : s.halt = .running) :
    (s.complete d v n).pcA = n := by
  simp [State.pcA, h, State.oldestPc]

/-- A completed instruction leaves nothing in flight (49 R551). -/
theorem State.drained_complete (s : State) (d : Option Reg) (v n : Word) :
    (s.complete d v n).drained = true := by
  simp [State.drained]

/-- On a drained state the architectural pc is the fetch PC (10 R34). -/
theorem State.pcA_of_drained (s : State) (hd : s.drained = true) (h : s.halt = .running) :
    s.pcA = s.pcF := by
  simp only [State.drained, Bool.and_eq_true, decide_eq_true_eq, Bool.not_eq_true'] at hd
  simp [State.pcA, h, State.oldestPc, hd]

theorem nextTag_lt (cfg : Config) (t : Nat) (h : 0 < cfg.robSize) : nextTag cfg t < cfg.robSize :=
  Nat.mod_lt _ h

/-- Tags inside the ROB are no further from the head than its size. -/
theorem State.age_lt (s : State) (t : Nat) (h : 0 < s.cfg.robSize) : s.age t < s.cfg.robSize :=
  Nat.mod_lt _ h

end Sys2Proof.Machine
end

