-- ==== Sys2Proof/Laws/Exec.lean ====
section
/-! SUPPORT. What the meanings can answer: one equation per shared operation, and the fact that every
instruction answers a next state. -/

namespace Sys2Proof.Machine

theorem completeInteger_eq (op : Op) (rd : Reg) (a b imm : Word) (s : State) :
    completeInteger op rd a b imm s =
      .next (s.complete (destOf rd) (integerValue op a b imm s.pcA) (s.pcA + 4)) := rfl

theorem completeMulDiv_eq (op : Op) (rd rs1 rs2 : Reg) (s : State) :
    completeMulDiv op rd rs1 rs2 s =
      .next (s.complete (destOf rd) (mulDivValue op (s.reg rs1) (s.reg rs2)) (s.pcA + 4)) := rfl

theorem completeControl_eq (op : Op) (d : Option Reg) (a b imm : Word) (s : State) :
    completeControl op d a b imm s =
      .next (s.complete d (aluValue op a b imm s.pcA)
        (nextPc s.pcA (controlOutcome op a b imm s.pcA))) := rfl

/-- A load either stops on its failing check or completes with the value it reads. -/
theorem completeLoad_cases (op : Op) (rd : Reg) (ea : Word) (s : State) :
    (∃ k, accessCheck s.cfg .load (opWidth op) ea = some k ∧
      completeLoad op rd ea s = .next (s.raise k s.pcA ea)) ∨
    (accessCheck s.cfg .load (opWidth op) ea = none ∧
      completeLoad op rd ea s =
        .next (s.complete (destOf rd) (loadFromMemory s op ea) (s.pcA + 4))) := by
  unfold completeLoad
  cases h : accessCheck s.cfg .load (opWidth op) ea with
  | some k => exact .inl ⟨k, rfl, rfl⟩
  | none => exact .inr ⟨rfl, rfl⟩

/-- A store either stops on its failing check or writes its word. -/
theorem completeStore_cases (ea v : Word) (s : State) :
    (∃ k, accessCheck s.cfg .store 4 ea = some k ∧
      completeStore ea v s = .next (s.raise k s.pcA ea)) ∨
    (accessCheck s.cfg .store 4 ea = none ∧
      completeStore ea v s =
        .next { s.complete none 0 (s.pcA + 4) with dmem := s.dmemStore ea v }) := by
  unfold completeStore
  cases h : accessCheck s.cfg .store 4 ea with
  | some k => exact .inl ⟨k, rfl, rfl⟩
  | none => exact .inr ⟨rfl, rfl⟩

/-- When an access check passes: aligned if it is a word access, and in bounds. -/
theorem accessCheck_eq_none (cfg : Config) (hit : Access) (n : Nat) (a : Word) :
    accessCheck cfg hit n a = none ↔
      (n = 4 → a.toNat % 4 = 0) ∧ a.toNat + n ≤ cfg.memBytes := by
  unfold accessCheck outOfBounds
  split_ifs with h1 h2
  · simp only [false_iff]
    rintro ⟨h, _⟩
    exact h1.2 (h h1.1)
  · simp only [false_iff]
    rintro ⟨_, h⟩
    have := of_decide_eq_true h2
    omega
  · simp only [true_iff]
    have : ¬ cfg.memBytes < a.toNat + n := fun h => h2 (decide_eq_true h)
    exact ⟨fun hn => by_contra fun hc => h1 ⟨hn, hc⟩, by omega⟩

end Sys2Proof.Machine
end

