-- ==== Sys2Proof/Laws/Step.lean ====
section
/-! SUPPORT. What a step and a clock cycle can do, said once. -/

namespace Sys2Proof.Machine

theorem step_of_stopped (s : State) (h : s.halt ≠ .running) : step s = .next s := by
  unfold step
  cases hs : s.halt with
  | running => exact absurd hs h
  | halted => rfl
  | fatal k p a => rfl

theorem step_at_cycles (s : State) (h : s.halt = .running) (hl : s.level = .cycle) :
    step s = .next s.clock := by
  simp [step, h, hl]

theorem step_at_instructions (s : State) (h : s.halt = .running) (hl : s.level = .instruction) :
    step s = instructionStep s := by
  simp [step, h, hl]

/-- The three things a step can be. -/
theorem step_cases (s : State) :
    (s.halt ≠ .running ∧ step s = .next s) ∨
    (s.halt = .running ∧ s.level = .cycle ∧ step s = .next s.clock) ∨
    (s.halt = .running ∧ s.level = .instruction ∧ step s = instructionStep s) := by
  by_cases h : s.halt = .running
  · cases hl : s.level with
    | cycle => exact .inr (.inl ⟨h, rfl, step_at_cycles s h hl⟩)
    | instruction => exact .inr (.inr ⟨h, rfl, step_at_instructions s h hl⟩)
  · exact .inl ⟨h, step_of_stopped s h⟩

/-- The two things a step of the sequential semantics can be. -/
theorem instructionStep_cases (s : State) :
    (∃ k, sequentialFetch s s.pcA = .error k ∧ instructionStep s = .next (s.raise k s.pcA s.pcA)) ∨
    (∃ i, sequentialFetch s s.pcA = .ok i ∧ instructionStep s = exec i s) := by
  unfold instructionStep
  cases sequentialFetch s s.pcA with
  | error k => exact .inl ⟨k, rfl, rfl⟩
  | ok i => exact .inr ⟨i, rfl, rfl⟩

/-- The early stop changes the halt status only. -/
theorem withImmediateStop_cases (s n : State) :
    withImmediateStop s n = n ∨
      ∃ st, immediateStop s = some st ∧ withImmediateStop s n = n.raise st.kind st.pc st.addr := by
  unfold withImmediateStop
  cases h : immediateStop s with
  | none => exact .inl rfl
  | some st => exact .inr ⟨st, rfl, rfl⟩

theorem immediateStop_deferred (s : State) (h : s.cfg.faultPolicy = .deferred) :
    immediateStop s = none := by
  simp [immediateStop, h]

/-- The five things a clock cycle can be. -/
theorem clock_cases (s : State) :
    (∃ st, commitDecision s = .stop st ∧ s.clock = s.haltOnFault st) ∨
    (∃ e, commitDecision s = .ebreak e ∧ s.clock = s.haltOnEbreak e) ∨
    (∃ r, commitDecision s = .retire r ∧ r.entry.mispredict = true ∧ s.clock = s.squash r) ∨
    (∃ r, commitDecision s = .retire r ∧ r.entry.mispredict = false ∧
      s.clock = withImmediateStop s (s.advance (some r))) ∨
    (commitDecision s = .wait ∧ s.clock = withImmediateStop s (s.advance none)) := by
  unfold State.clock
  cases commitDecision s with
  | stop st => exact .inl ⟨st, rfl, rfl⟩
  | ebreak e => exact .inr (.inl ⟨e, rfl, rfl⟩)
  | retire r =>
    cases hm : r.entry.mispredict with
    | true => exact .inr (.inr (.inl ⟨r, rfl, hm, by simp [hm]⟩))
    | false => exact .inr (.inr (.inr (.inl ⟨r, rfl, hm, by simp [hm]⟩)))
  | wait => exact .inr (.inr (.inr (.inr ⟨rfl, rfl⟩)))

theorem commitStore_cases (s : State) (e : RobEntry) :
    (readyStore s s.robHead = none ∧ commitStore s e = .wait) ∨
    (∃ st k, readyStore s s.robHead = some st ∧ accessCheck s.cfg .store 4 st.ea = some k ∧
      commitStore s e = .stop ⟨k, e.pc, st.ea⟩) ∨
    (∃ st, readyStore s s.robHead = some st ∧ accessCheck s.cfg .store 4 st.ea = none ∧
      commitStore s e = .retire ⟨e, some st⟩) := by
  unfold commitStore
  cases hr : readyStore s s.robHead with
  | none => exact .inl ⟨rfl, rfl⟩
  | some st =>
    cases hc : accessCheck s.cfg .store 4 st.ea with
    | none => exact .inr (.inr ⟨st, rfl, hc, by simp [hc]⟩)
    | some k => exact .inr (.inl ⟨st, k, rfl, hc, by simp [hc]⟩)

/-- When a head retires it is the valid head, and it is a ready non-store without fault or a store
whose access passes its check. -/
theorem commitDecision_retire {s : State} {r : Retirement} (h : commitDecision s = .retire r) :
    s.robCount ≠ 0 ∧ r.entry = s.headEntry ∧
    ((r.store = none ∧ s.headEntry.ready = true ∧
        (s.headEntry.kind = .alu ∨ s.headEntry.kind = .branch ∨ s.headEntry.kind = .jump ∨
          s.headEntry.kind = .mulDiv ∨ (s.headEntry.kind = .load ∧ s.headEntry.fault = none))) ∨
      (∃ st, r.store = some st ∧ s.headEntry.kind = .store ∧
        readyStore s s.robHead = some st ∧ accessCheck s.cfg .store 4 st.ea = none)) := by
  unfold commitDecision at h
  by_cases hc : s.robCount = 0
  · simp [hc] at h
  · simp only [hc, if_false] at h
    refine ⟨hc, ?_⟩
    cases hk : s.headEntry.kind with
    | store =>
      simp only [hk] at h
      rcases commitStore_cases s s.headEntry with ⟨_, e⟩ | ⟨st, k, _, _, e⟩ | ⟨st, h1, h2, e⟩
      · simp [e] at h
      · simp [e] at h
      · rw [e] at h
        cases h
        exact ⟨rfl, .inr ⟨st, rfl, rfl, h1, h2⟩⟩
    | fault =>
      simp only [hk] at h
      split at h <;> simp at h
    | ebreak =>
      simp only [hk] at h
      split at h <;> simp at h
    | load =>
      simp only [hk] at h
      cases hr : s.headEntry.ready with
      | false => simp [hr] at h
      | true =>
        simp only [hr, if_true, retireOrStop] at h
        cases hf : s.headEntry.fault with
        | some f => simp [hf] at h
        | none => simp only [hf] at h; cases h; exact ⟨rfl, .inl ⟨rfl, rfl, by simp⟩⟩
    | alu | branch | jump | mulDiv =>
      simp only [hk] at h
      cases hr : s.headEntry.ready with
      | false => simp [hr] at h
      | true => simp only [hr, if_true] at h; cases h; exact ⟨rfl, .inl ⟨rfl, rfl, by simp⟩⟩

end Sys2Proof.Machine
end

