-- ==== Sys2Proof/Laws/Invariants.lean ====
section
/-! SUPPORT. A check of the invariants on a concrete state, bounded so that it can be evaluated, and its
soundness. -/

namespace Sys2Proof.Machine

/-- Every field of `Shape`, evaluated. -/
def shapeCheck (s : State) : Bool :=
  s.cfg.legal && decide (s.bp.length = 2 ^ s.cfg.bhtLogSize)
    && s.bp.all (fun e => decide (e.tag.toNat < 2 ^ (32 - s.cfg.bhtLogSize)))
    && decide (s.rob.length = s.cfg.robSize) && decide (s.rs.length = s.cfg.rsSize)
    && decide (s.lsq.length = s.cfg.lsqSize) && decide (s.mul.length = s.cfg.mulStages)
    && decide (s.div.length = s.cfg.divStages) && decide (s.robHead < s.cfg.robSize)
    && decide (s.robCount ≤ s.cfg.robSize)
    && decide (s.robTail = (s.robHead + s.robCount) % s.cfg.robSize)
    && decide (s.x[0] = 0) && decide (s.rat[0] = .committed)
    && s.imem.wf s.cfg.initFill && s.dmem.wf s.cfg.initFill
    && s.imem.all (fun c => decide (c.1 < s.cfg.memBytes))
    && s.dmem.all (fun c => decide (c.1 < s.cfg.memBytes))

theorem shape_of_check (s : State) (h : shapeCheck s = true) : s.Shape := by
  simp only [shapeCheck, Bool.and_eq_true, decide_eq_true_eq, List.all_eq_true] at h
  obtain ⟨⟨⟨⟨⟨⟨⟨⟨⟨⟨⟨⟨⟨⟨⟨⟨h1, h2⟩, h3⟩, h4⟩, h5⟩, h6⟩, h7⟩, h8⟩, h9⟩, h10⟩, h11⟩, h12⟩, h13⟩,
    h14⟩, h15⟩, h16⟩, h17⟩ := h
  exact ⟨h1, h2, h3, h4, h5, h6, h7, h8, h9, h10, h11, h12, h13, h14, h15, h16, h17⟩

/-- Every tag some unit, queue or latch holds as destination is a tag of the ROB. -/
def tagsInRange (s : State) : Bool :=
  s.rs.all (fun e => decide (e.dest < s.cfg.robSize)) &&
    s.lsq.all (fun e => decide (e.tag < s.cfg.robSize)) &&
    s.mul.all (fun u => u.all fun u => decide (u.tag < s.cfg.robSize)) &&
    s.div.all (fun u => u.all fun u => decide (u.tag < s.cfg.robSize)) &&
    s.aluOut.all (fun p => decide (p.tag < s.cfg.robSize)) &&
    s.ldOut.all (fun l => decide (l.payload.tag < s.cfg.robSize))

/-- A slot is as 10 R57 (d) asks, evaluated. -/
def slotCheck (s : State) (own : Nat) : Slot → Bool
  | .value _ => true
  | .pending t =>
    s.validTag t && !(s.robEntry t).ready && decide (s.age t < s.age own)
      && (s.robEntry t).dest.isSome

theorem slotOk_of_check (s : State) (own : Nat) (slot : Slot) (h : slotCheck s own slot = true) :
    s.slotOk own slot := by
  cases slot with
  | value v => trivial
  | pending t =>
    simp only [slotCheck, Bool.and_eq_true, Bool.not_eq_true', decide_eq_true_eq] at h
    exact ⟨h.1.1.1, h.1.1.2, h.1.2, by intro hn; simp [hn] at h⟩

/-- An issued load entry and the load latch name each other, evaluated. -/
def latchCheck (s : State) : Bool :=
  s.lsq.zipIdx.all (fun (e, i) =>
    !(isLoadEntry e && e.issued) ||
      s.ldOut.any fun l => decide (l.index = i) && decide (l.payload.tag = e.tag)) &&
  s.ldOut.all (fun l =>
    s.lsq[l.index]?.any fun e => isLoadEntry e && e.issued && decide (e.tag = l.payload.tag))

/-- The RAT entry of one register, evaluated. -/
def ratCheck (s : State) (r : Fin 32) : Bool :=
  match s.rat[r] with
  | .pending t =>
    s.validTag t && decide ((s.robEntry t).dest = some (BitVec.ofFin r)) &&
      (List.range s.cfg.robSize).all fun u =>
        !(s.validTag u && decide ((s.robEntry u).dest = some (BitVec.ofFin r)))
          || decide (s.age u ≤ s.age t)
  | .committed =>
    (List.range s.cfg.robSize).all fun u =>
      !(s.validTag u && decide ((s.robEntry u).dest = some (BitVec.ofFin r)))

/-- One valid ROB entry, evaluated. -/
def entryCheck (e : RobEntry) : Bool :=
  (match e.dest with
    | none => true
    | some r => decide (r ≠ 0) && (e.kind = .alu || e.kind = .jump || e.kind = .load || e.kind = .mulDiv))
  && (!decide (e.kind = .fault) || (e.ready && e.fault.isSome))
  && (!decide (e.kind = .ebreak) || e.ready)

/-- Every field of `InFlight`, evaluated. -/
def inFlightCheck (s : State) : Bool :=
  shapeCheck s && tagsInRange s
    && (List.range s.cfg.robSize).all (fun t =>
        decide (s.producers t = countIf (s.awaited t))
          && decide (s.lsq.countP (fun e => isStoreEntry e && decide (e.tag = t))
            = countIf (s.validTag t && decide ((s.robEntry t).kind = .store)))
          && (!s.validTag t || entryCheck (s.robEntry t)))
    && latchCheck s
    && s.lsq.all (fun e => !e.busy || ((isLoadEntry e || isStoreEntry e)
        && slotCheck s e.tag e.base && slotCheck s e.tag e.data))
    && s.rs.all (fun e => !e.busy || (slotCheck s e.dest e.j && slotCheck s e.dest e.k))
    && (List.finRange 32).all (ratCheck s)

theorem validTag_lt {s : State} {t : Nat} (h : s.validTag t = true) : t < s.cfg.robSize := by
  simp only [State.validTag, Bool.and_eq_true, decide_eq_true_eq] at h
  exact h.1

/-- No tag outside the ROB is held. -/
theorem producers_out_of_range {s : State} (h : tagsInRange s = true) {t : Nat}
    (ht : s.cfg.robSize ≤ t) : s.producers t = 0 := by
  simp only [tagsInRange, Bool.and_eq_true, List.all_eq_true, decide_eq_true_eq] at h
  obtain ⟨⟨⟨⟨⟨hrs, hlsq⟩, hmul⟩, hdiv⟩, halu⟩, hld⟩ := h
  have stage : ∀ l : List (Option UnitOp),
      (∀ u ∈ l, u.all (fun u => decide (u.tag < s.cfg.robSize)) = true) →
      l.countP (stageProduces t) = 0 := by
    intro l hl
    rw [List.countP_eq_zero]
    intro u hu
    cases u with
    | none => simp [stageProduces]
    | some v =>
      have := hl _ hu
      simp only [Option.all_some, decide_eq_true_eq] at this
      simp only [stageProduces, decide_eq_true_eq]
      omega
  have h1 : s.rs.countP (rsProduces t) = 0 := by
    rw [List.countP_eq_zero]
    intro e he
    have := hrs e he
    simp only [rsProduces, Bool.and_eq_true, decide_eq_true_eq, not_and]
    omega
  have h2 : s.lsq.countP (lsqProduces t) = 0 := by
    rw [List.countP_eq_zero]
    intro e he
    have := hlsq e he
    simp only [lsqProduces, Bool.and_eq_true, decide_eq_true_eq, not_and]
    omega
  have h5 : countIf (decide (s.aluOut.map Payload.tag = some t)) = 0 := by
    cases ha : s.aluOut with
    | none => simp [countIf]
    | some p =>
      rw [ha] at halu
      simp only [Option.all_some, decide_eq_true_eq] at halu
      have : p.tag ≠ t := by omega
      simp [countIf, this]
  have h6 : countIf (decide (s.ldOut.map (fun l => l.payload.tag) = some t)) = 0 := by
    cases ha : s.ldOut with
    | none => simp [countIf]
    | some p =>
      rw [ha] at hld
      simp only [Option.all_some, decide_eq_true_eq] at hld
      have : p.payload.tag ≠ t := by omega
      simp [countIf, this]
  unfold State.producers
  rw [h1, h2, stage _ hmul, stage _ hdiv, h5, h6]

theorem validTag_false {s : State} {t : Nat} (ht : s.cfg.robSize ≤ t) : s.validTag t = false := by
  cases h : s.validTag t with
  | false => rfl
  | true => have := validTag_lt h; omega

/-- A state that passes the check meets the invariant. -/
theorem inFlight_of_check (s : State) (h : inFlightCheck s = true) : s.InFlight := by
  simp only [inFlightCheck, Bool.and_eq_true, List.all_eq_true, List.mem_range, decide_eq_true_eq,
    Bool.or_eq_true, Bool.not_eq_true'] at h
  obtain ⟨⟨⟨⟨⟨⟨hshape, htags⟩, htag⟩, hlatch⟩, hlsq⟩, hrs⟩, hrat⟩ := h
  simp only [latchCheck, Bool.and_eq_true, List.all_eq_true] at hlatch
  have entry : ∀ t, s.validTag t = true → entryCheck (s.robEntry t) = true := by
    intro t ht
    rcases (htag t (validTag_lt ht)).2 with h | h
    · rw [ht] at h; cases h
    · exact h
  refine
    { shape := shape_of_check s hshape
      producers := ?_, issued_latched := ?_, latched_issued := ?_, stores := ?_, lsq_ops := ?_,
      rat_pending := ?_, rat_committed := ?_, rs_slots := ?_, lsq_slots := ?_, dests := ?_,
      ready_at_dispatch := ?_ }
  · intro t
    by_cases ht : t < s.cfg.robSize
    · exact (htag t ht).1.1
    · have hv := validTag_false (s := s) (Nat.le_of_not_lt ht)
      rw [producers_out_of_range htags (Nat.le_of_not_lt ht)]
      simp [State.awaited, hv, countIf]
  · intro i e he hl hi
    have := hlatch.1 (e, i) (List.mem_zipIdx_iff_getElem?.mpr he)
    simp only [hl, hi, Bool.and_self, Bool.not_true, Bool.false_or] at this
    cases hld : s.ldOut with
    | none => rw [hld] at this; cases this
    | some l =>
      rw [hld] at this
      simp only [Option.any_some, Bool.and_eq_true, decide_eq_true_eq] at this
      exact ⟨l, rfl, this.1, this.2⟩
  · intro l hl
    have := hlatch.2
    rw [hl] at this
    simp only [Option.all_some] at this
    cases he : s.lsq[l.index]? with
    | none => rw [he] at this; cases this
    | some e =>
      rw [he] at this
      simp only [Option.any_some, Bool.and_eq_true, decide_eq_true_eq] at this
      exact ⟨e, rfl, this.1.1, this.1.2, this.2⟩
  · intro t
    by_cases ht : t < s.cfg.robSize
    · exact (htag t ht).1.2
    · have hv := validTag_false (s := s) (Nat.le_of_not_lt ht)
      simp only [hv, Bool.false_and, countIf, Bool.false_eq_true, if_false]
      rw [List.countP_eq_zero]
      intro e he
      simp only [tagsInRange, Bool.and_eq_true, List.all_eq_true, decide_eq_true_eq] at htags
      have := htags.1.1.1.1.2 e he
      simp only [Bool.and_eq_true, decide_eq_true_eq, not_and]
      omega
  · intro e he hb
    rcases hlsq e he with h | h
    · rw [hb] at h; cases h
    · exact h.1.1
  · intro r t hr
    have := hrat r (List.mem_finRange r)
    unfold ratCheck at this
    rw [hr] at this
    simp only [Bool.and_eq_true, decide_eq_true_eq, List.all_eq_true, List.mem_range, Bool.or_eq_true,
      Bool.not_eq_true'] at this
    refine ⟨this.1.1, this.1.2, fun u hu hd => ?_⟩
    rcases this.2 u (validTag_lt hu) with h | h
    · simp [hu, hd] at h
    · exact h
  · intro r hr u hu hd
    have := hrat r (List.mem_finRange r)
    unfold ratCheck at this
    rw [hr] at this
    simp only [List.all_eq_true, List.mem_range, Bool.not_eq_true'] at this
    have := this u (validTag_lt hu)
    simp [hu, hd] at this
  · intro e he hb
    rcases hrs e he with h | h
    · rw [hb] at h; cases h
    · exact ⟨slotOk_of_check _ _ _ h.1, slotOk_of_check _ _ _ h.2⟩
  · intro e he hb
    rcases hlsq e he with h | h
    · rw [hb] at h; cases h
    · exact ⟨slotOk_of_check _ _ _ h.1.2, slotOk_of_check _ _ _ h.2⟩
  · intro t ht r hr
    have := entry t ht
    simp only [entryCheck, hr, Bool.and_eq_true, Bool.or_eq_true, decide_eq_true_eq] at this
    obtain ⟨⟨⟨h0, hk⟩, _⟩, _⟩ := this
    exact ⟨h0, by tauto⟩
  · intro t ht
    have := entry t ht
    simp only [entryCheck, Bool.and_eq_true, Bool.or_eq_true, Bool.not_eq_true', decide_eq_false_iff_not]
      at this
    obtain ⟨⟨_, hf⟩, he⟩ := this
    refine ⟨fun hk => ?_, fun hk => ?_⟩
    · rcases hf with h | ⟨h1, h2⟩
      · exact absurd hk h
      · exact ⟨h1, by intro hn; simp [hn] at h2⟩
    · rcases he with h | h
      · exact absurd hk h
      · exact h

end Sys2Proof.Machine
end

