-- ==== Sys2Proof/Laws/Queues.lean ====
section
/-! SUPPORT. What selection, arbitration, wakeup and release can do, said once. -/

namespace Sys2Proof.Machine

/-! ### Selection by age -/

theorem leastBy_eq_none {α : Type} (key : α → Nat) (l : List α) : leastBy key l = none ↔ l = [] := by
  cases l with
  | nil => simp [leastBy]
  | cons c rest =>
    simp only [leastBy]
    cases leastBy key rest with
    | none => simp
    | some d => by_cases h : key c ≤ key d <;> simp [h]

/-- The least element is of the list, and no key is below its key. -/
theorem leastBy_spec {α : Type} (key : α → Nat) :
    ∀ (l : List α) (c : α), leastBy key l = some c → c ∈ l ∧ ∀ d ∈ l, key c ≤ key d
  | [], c, h => by simp [leastBy] at h
  | a :: rest, c, h => by
    simp only [leastBy] at h
    cases hr : leastBy key rest with
    | none =>
      rw [hr] at h
      cases h
      simp [(leastBy_eq_none key rest).1 hr]
    | some d =>
      obtain ⟨hm, hle⟩ := leastBy_spec key rest d hr
      rw [hr] at h
      by_cases hk : key a ≤ key d
      · simp only [hk, if_true, Option.some.injEq] at h
        subst h
        refine ⟨List.mem_cons_self, fun e he => ?_⟩
        rcases List.mem_cons.1 he with rfl | he
        · exact Nat.le_refl _
        · exact Nat.le_trans hk (hle e he)
      · simp only [hk, if_false, Option.some.injEq] at h
        subst h
        refine ⟨List.mem_cons_of_mem _ hm, fun e he => ?_⟩
        rcases List.mem_cons.1 he with rfl | he
        · omega
        · exact hle e he

theorem greatestBy_eq_none {α : Type} (key : α → Nat) (l : List α) :
    greatestBy key l = none ↔ l = [] := by
  cases l with
  | nil => simp [greatestBy]
  | cons c rest =>
    simp only [greatestBy]
    cases greatestBy key rest with
    | none => simp
    | some d => by_cases h : key d ≤ key c <;> simp [h]

/-- The greatest element is of the list, and no key is above its key. -/
theorem greatestBy_spec {α : Type} (key : α → Nat) :
    ∀ (l : List α) (c : α), greatestBy key l = some c → c ∈ l ∧ ∀ d ∈ l, key d ≤ key c
  | [], c, h => by simp [greatestBy] at h
  | a :: rest, c, h => by
    simp only [greatestBy] at h
    cases hr : greatestBy key rest with
    | none =>
      rw [hr] at h
      cases h
      simp [(greatestBy_eq_none key rest).1 hr]
    | some d =>
      obtain ⟨hm, hle⟩ := greatestBy_spec key rest d hr
      rw [hr] at h
      by_cases hk : key d ≤ key a
      · simp only [hk, if_true, Option.some.injEq] at h
        subst h
        refine ⟨List.mem_cons_self, fun e he => ?_⟩
        rcases List.mem_cons.1 he with rfl | he
        · exact Nat.le_refl _
        · exact Nat.le_trans (hle e he) hk
      · simp only [hk, if_false, Option.some.injEq] at h
        subst h
        refine ⟨List.mem_cons_of_mem _ hm, fun e he => ?_⟩
        rcases List.mem_cons.1 he with rfl | he
        · omega
        · exact hle e he

/-! ### Issue -/

/-- What an eligible entry is. -/
theorem eligibleEntry_eq_some (u : ExecUnit) (e : RsEntry) (i : Nat) (c : Issued) :
    eligibleEntry u e i = some c ↔
      e.busy = true ∧ opUnit e.op = some u ∧ e.j = .value c.a ∧ e.k = .value c.b ∧
        c = ⟨i, e.dest, e.op, c.a, c.b, e.imm, e.pc⟩ := by
  unfold eligibleEntry
  cases c
  cases e.busy <;> by_cases hu : opUnit e.op = some u <;> cases e.j <;> cases e.k <;>
    simp [hu, eq_comm, and_left_comm, and_comm]

/-- The selected entry is busy, of the unit, resolved, and no eligible entry is older. -/
theorem selectRs_spec (s : State) (u : ExecUnit) (c : Issued) (h : selectRs s u = some c) :
    (∃ e, s.rs[c.index]? = some e ∧ eligibleEntry u e c.index = some c) ∧
      ∀ (i : Nat) e d, s.rs[i]? = some e → eligibleEntry u e i = some d →
        s.age c.tag ≤ s.age d.tag := by
  obtain ⟨hm, hle⟩ := leastBy_spec _ _ _ h
  obtain ⟨⟨e, i⟩, hmem, he⟩ := List.mem_filterMap.1 hm
  have hi : c.index = i := by
    have := (eligibleEntry_eq_some u e i c).1 he
    rw [this.2.2.2.2]
  subst hi
  refine ⟨⟨e, List.mem_zipIdx_iff_getElem?.1 hmem, he⟩, fun j f d hj hf => ?_⟩
  exact hle d (List.mem_filterMap.2 ⟨(f, j), List.mem_zipIdx_iff_getElem?.2 hj, hf⟩)

/-! ### The bus -/

/-- The winner is a requester that presented the broadcast. -/
theorem arbitrate_request (s : State) (alu : Option Issued) (load : Option LoadOut) (r : Requester)
    (p : Payload) (h : arbitrate s alu load = some (r, p)) :
    r ∈ s.cfg.cdbPriority ∧ request s alu load r = some p := by
  obtain ⟨q, hq, hp⟩ := List.exists_of_findSome?_eq_some h
  obtain ⟨p', hp', heq⟩ := Option.map_eq_some_iff.1 hp
  cases heq
  exact ⟨hq, hp'⟩

/-! ### Wakeup -/

@[simp] theorem wakeSlot_none (slot : Slot) : wakeSlot none slot = slot := by cases slot <;> rfl

@[simp] theorem wakeSlot_value (b : Option Payload) (v : Word) :
    wakeSlot b (.value v) = .value v := rfl

theorem wakeSlot_pending (b : Payload) (t : Nat) :
    wakeSlot (some b) (.pending t) = if b.tag = t then .value b.value else .pending t := rfl

/-- After the broadcast no slot waits on its tag. -/
theorem wakeSlot_ne_pending (b : Payload) (slot : Slot) :
    wakeSlot (some b) slot ≠ .pending b.tag := by
  cases slot with
  | value v => simp
  | pending t =>
    rw [wakeSlot_pending]
    by_cases h : b.tag = t
    · simp [h]
    · simp [h]
      exact fun e => h e.symm

@[simp] theorem wakeRs_busy (b : Option Payload) (e : RsEntry) : (wakeRs b e).busy = e.busy := by
  unfold wakeRs; split <;> rfl
@[simp] theorem wakeRs_dest (b : Option Payload) (e : RsEntry) : (wakeRs b e).dest = e.dest := by
  unfold wakeRs; split <;> rfl
@[simp] theorem wakeRs_op (b : Option Payload) (e : RsEntry) : (wakeRs b e).op = e.op := by
  unfold wakeRs; split <;> rfl
@[simp] theorem wakeLsq_busy (b : Option Payload) (e : LsqEntry) : (wakeLsq b e).busy = e.busy := by
  unfold wakeLsq; split <;> rfl
@[simp] theorem wakeLsq_tag (b : Option Payload) (e : LsqEntry) : (wakeLsq b e).tag = e.tag := by
  unfold wakeLsq; split <;> rfl
@[simp] theorem wakeLsq_op (b : Option Payload) (e : LsqEntry) : (wakeLsq b e).op = e.op := by
  unfold wakeLsq; split <;> rfl
@[simp] theorem wakeLsq_issued (b : Option Payload) (e : LsqEntry) :
    (wakeLsq b e).issued = e.issued := by
  unfold wakeLsq; split <;> rfl

/-! ### Sizes -/

@[simp] theorem releaseRs_length (rs : List RsEntry) (c : Option Issued) :
    (releaseRs rs c).length = rs.length := by
  cases c <;> simp [releaseRs]

@[simp] theorem releaseLsq_length (lsq : List LsqEntry) (i : Nat) :
    (releaseLsq lsq i).length = lsq.length := by simp [releaseLsq]

@[simp] theorem loadPortLsq_length (s : State) (g : Signals) (lsq : List LsqEntry) :
    (loadPortLsq s g lsq).length = lsq.length := by
  unfold loadPortLsq
  repeat' split
  all_goals simp

@[simp] theorem broadcastRob_length (rob : List RobEntry) (b : Option Payload) :
    (broadcastRob rob b).length = rob.length := by
  cases b <;> simp [broadcastRob]

theorem nextPipe_length (pipe : List (Option UnitOp)) (adv : Bool) (new : Option Issued) :
    (nextPipe pipe adv new).length = pipe.length := by
  cases adv <;> simp [nextPipe]

/-! ### Release -/

theorem releaseRs_getElem? (rs : List RsEntry) (c : Issued) (i : Nat) :
    (releaseRs rs (some c))[i]? =
      (rs[i]?).map fun e => if c.index = i then { e with busy := false } else e := by
  simp only [releaseRs, List.getElem?_modify]
  cases rs[i]? <;> by_cases h : c.index = i <;> simp [h]

theorem releaseLsq_getElem? (lsq : List LsqEntry) (k i : Nat) :
    (releaseLsq lsq k)[i]? =
      (lsq[i]?).map fun e => if k = i then { e with busy := false } else e := by
  simp only [releaseLsq, List.getElem?_modify]
  cases lsq[i]? <;> by_cases h : k = i <;> simp [h]

theorem broadcastRob_getElem? (rob : List RobEntry) (b : Payload) (i : Nat) :
    (broadcastRob rob (some b))[i]? =
      (rob[i]?).map fun e => if b.tag = i then completeEntry b e else e := by
  simp only [broadcastRob, List.getElem?_modify]
  cases rob[i]? <;> by_cases h : b.tag = i <;> simp [h]

end Sys2Proof.Machine
end

