-- ==== Sys2Proof/Tests/Slice0.lean ====
section
/-! SUPPORT. The model's own tests. Expected values come from the tables and worked examples of
spec/95_test_vectors.md and of the rules named at each test, or are worked out by hand from the encoding
formats of spec/30_encoding.md. The last part shows, for every statement with hypotheses, a concrete
state and operands that meet them. -/

namespace Sys2Proof.Tests
open Sys2Proof.Machine

/-! ### WellFormed: an ill-formed term for each check is refused -/

theorem test_illFormed_imm12_high : (Instr.addi 1 2 2048#32).wellFormed = false := by decide
theorem test_illFormed_imm12_low : (Instr.sw 1 2 0xfffff7ff#32).wellFormed = false := by decide
theorem test_illFormed_immB_odd : (Instr.beq 1 2 3#32).wellFormed = false := by decide
theorem test_illFormed_immB_far : (Instr.bgeu 1 2 4096#32).wellFormed = false := by decide
theorem test_illFormed_immU : (Instr.lui 1 0x00001001#32).wellFormed = false := by decide
theorem test_illFormed_immJ_odd : (Instr.jal 1 1#32).wellFormed = false := by decide
theorem test_illFormed_immJ_far : (Instr.jal 1 1048576#32).wellFormed = false := by decide
theorem test_illFormed_shamt : (Instr.slli 1 2 32#32).wellFormed = false := by decide
theorem test_wellFormed_bounds :
    [Instr.addi 1 2 2047#32, .lw 1 2 0xfffff800#32, .beq 1 2 4094#32, .bne 1 2 0xfffff000#32,
      .lui 1 0xfffff000#32, .jal 1 1048574#32, .jal 1 0xfff00000#32, .srai 1 2 31#32].all
      Instr.wellFormed = true := by decide

/-! ### Decoding: every row, its word written out field by field (30 R152 to R159, R170) -/

theorem test_decode_upper :
    [decode (0b10000000000000000001#20 ++ 0b10011#5 ++ 0b0110111#7),
      decode (0b10000000000000000001#20 ++ 0b10011#5 ++ 0b0010111#7)] =
    [some (.lui 19 0x80001000#32),
      some (.auipc 19 0x80001000#32)] := by decide

theorem test_decode_immediate :
    [decode (0b100000000101#12 ++ 0b01110#5 ++ 0b000#3 ++ 0b10011#5 ++ 0b0010011#7),
      decode (0b100000000101#12 ++ 0b01110#5 ++ 0b010#3 ++ 0b10011#5 ++ 0b0010011#7),
      decode (0b100000000101#12 ++ 0b01110#5 ++ 0b011#3 ++ 0b10011#5 ++ 0b0010011#7),
      decode (0b100000000101#12 ++ 0b01110#5 ++ 0b100#3 ++ 0b10011#5 ++ 0b0010011#7),
      decode (0b100000000101#12 ++ 0b01110#5 ++ 0b110#3 ++ 0b10011#5 ++ 0b0010011#7),
      decode (0b100000000101#12 ++ 0b01110#5 ++ 0b111#3 ++ 0b10011#5 ++ 0b0010011#7)] =
    [some (.addi 19 14 0xfffff805#32),
      some (.slti 19 14 0xfffff805#32),
      some (.sltiu 19 14 0xfffff805#32),
      some (.xori 19 14 0xfffff805#32),
      some (.ori 19 14 0xfffff805#32),
      some (.andi 19 14 0xfffff805#32)] := by decide

theorem test_decode_shift_immediate :
    [decode (0b0000000#7 ++ 0b10111#5 ++ 0b01110#5 ++ 0b001#3 ++ 0b10011#5 ++ 0b0010011#7),
      decode (0b0000000#7 ++ 0b10111#5 ++ 0b01110#5 ++ 0b101#3 ++ 0b10011#5 ++ 0b0010011#7),
      decode (0b0100000#7 ++ 0b10111#5 ++ 0b01110#5 ++ 0b101#3 ++ 0b10011#5 ++ 0b0010011#7)] =
    [some (.slli 19 14 23#32),
      some (.srli 19 14 23#32),
      some (.srai 19 14 23#32)] := by decide

theorem test_decode_register :
    [decode (0b0000000#7 ++ 0b11001#5 ++ 0b01110#5 ++ 0b000#3 ++ 0b10011#5 ++ 0b0110011#7),
      decode (0b0100000#7 ++ 0b11001#5 ++ 0b01110#5 ++ 0b000#3 ++ 0b10011#5 ++ 0b0110011#7),
      decode (0b0000000#7 ++ 0b11001#5 ++ 0b01110#5 ++ 0b001#3 ++ 0b10011#5 ++ 0b0110011#7),
      decode (0b0000000#7 ++ 0b11001#5 ++ 0b01110#5 ++ 0b010#3 ++ 0b10011#5 ++ 0b0110011#7),
      decode (0b0000000#7 ++ 0b11001#5 ++ 0b01110#5 ++ 0b011#3 ++ 0b10011#5 ++ 0b0110011#7),
      decode (0b0000000#7 ++ 0b11001#5 ++ 0b01110#5 ++ 0b100#3 ++ 0b10011#5 ++ 0b0110011#7),
      decode (0b0000000#7 ++ 0b11001#5 ++ 0b01110#5 ++ 0b101#3 ++ 0b10011#5 ++ 0b0110011#7),
      decode (0b0100000#7 ++ 0b11001#5 ++ 0b01110#5 ++ 0b101#3 ++ 0b10011#5 ++ 0b0110011#7),
      decode (0b0000000#7 ++ 0b11001#5 ++ 0b01110#5 ++ 0b110#3 ++ 0b10011#5 ++ 0b0110011#7),
      decode (0b0000000#7 ++ 0b11001#5 ++ 0b01110#5 ++ 0b111#3 ++ 0b10011#5 ++ 0b0110011#7)] =
    [some (.add 19 14 25),
      some (.sub 19 14 25),
      some (.sll 19 14 25),
      some (.slt 19 14 25),
      some (.sltu 19 14 25),
      some (.xor 19 14 25),
      some (.srl 19 14 25),
      some (.sra 19 14 25),
      some (.or 19 14 25),
      some (.and 19 14 25)] := by decide

theorem test_decode_jump :
    [decode (0b1#1 ++ 0b0000000110#10 ++ 0b1#1 ++ 0b00000001#8 ++ 0b10011#5 ++ 0b1101111#7),
      decode (0b100000000101#12 ++ 0b01110#5 ++ 0b000#3 ++ 0b10011#5 ++ 0b1100111#7)] =
    [some (.jal 19 0xfff0180c#32),
      some (.jalr 19 14 0xfffff805#32)] := by decide

theorem test_decode_branch :
    [decode (0b1#1 ++ 0b000001#6 ++ 0b11001#5 ++ 0b01110#5 ++ 0b000#3 ++ 0b0110#4 ++ 0b0#1 ++ 0b1100011#7),
      decode (0b1#1 ++ 0b000001#6 ++ 0b11001#5 ++ 0b01110#5 ++ 0b001#3 ++ 0b0110#4 ++ 0b0#1 ++ 0b1100011#7),
      decode (0b1#1 ++ 0b000001#6 ++ 0b11001#5 ++ 0b01110#5 ++ 0b100#3 ++ 0b0110#4 ++ 0b0#1 ++ 0b1100011#7),
      decode (0b1#1 ++ 0b000001#6 ++ 0b11001#5 ++ 0b01110#5 ++ 0b101#3 ++ 0b0110#4 ++ 0b0#1 ++ 0b1100011#7),
      decode (0b1#1 ++ 0b000001#6 ++ 0b11001#5 ++ 0b01110#5 ++ 0b110#3 ++ 0b0110#4 ++ 0b0#1 ++ 0b1100011#7),
      decode (0b1#1 ++ 0b000001#6 ++ 0b11001#5 ++ 0b01110#5 ++ 0b111#3 ++ 0b0110#4 ++ 0b0#1 ++ 0b1100011#7)] =
    [some (.beq 14 25 0xfffff02c#32),
      some (.bne 14 25 0xfffff02c#32),
      some (.blt 14 25 0xfffff02c#32),
      some (.bge 14 25 0xfffff02c#32),
      some (.bltu 14 25 0xfffff02c#32),
      some (.bgeu 14 25 0xfffff02c#32)] := by decide

theorem test_decode_memory :
    [decode (0b100000000101#12 ++ 0b01110#5 ++ 0b010#3 ++ 0b10011#5 ++ 0b0000011#7),
      decode (0b100000000101#12 ++ 0b01110#5 ++ 0b100#3 ++ 0b10011#5 ++ 0b0000011#7),
      decode (0b1000000#7 ++ 0b11001#5 ++ 0b01110#5 ++ 0b010#3 ++ 0b00101#5 ++ 0b0100011#7)] =
    [some (.lw 19 14 0xfffff805#32),
      some (.lbu 19 14 0xfffff805#32),
      some (.sw 25 14 0xfffff805#32)] := by decide

theorem test_decode_muldiv :
    [decode (0b0000001#7 ++ 0b11001#5 ++ 0b01110#5 ++ 0b000#3 ++ 0b10011#5 ++ 0b0110011#7),
      decode (0b0000001#7 ++ 0b11001#5 ++ 0b01110#5 ++ 0b001#3 ++ 0b10011#5 ++ 0b0110011#7),
      decode (0b0000001#7 ++ 0b11001#5 ++ 0b01110#5 ++ 0b010#3 ++ 0b10011#5 ++ 0b0110011#7),
      decode (0b0000001#7 ++ 0b11001#5 ++ 0b01110#5 ++ 0b011#3 ++ 0b10011#5 ++ 0b0110011#7),
      decode (0b0000001#7 ++ 0b11001#5 ++ 0b01110#5 ++ 0b100#3 ++ 0b10011#5 ++ 0b0110011#7),
      decode (0b0000001#7 ++ 0b11001#5 ++ 0b01110#5 ++ 0b101#3 ++ 0b10011#5 ++ 0b0110011#7),
      decode (0b0000001#7 ++ 0b11001#5 ++ 0b01110#5 ++ 0b110#3 ++ 0b10011#5 ++ 0b0110011#7),
      decode (0b0000001#7 ++ 0b11001#5 ++ 0b01110#5 ++ 0b111#3 ++ 0b10011#5 ++ 0b0110011#7)] =
    [some (.mul 19 14 25),
      some (.mulh 19 14 25),
      some (.mulhsu 19 14 25),
      some (.mulhu 19 14 25),
      some (.div 19 14 25),
      some (.divu 19 14 25),
      some (.rem 19 14 25),
      some (.remu 19 14 25)] := by decide

theorem test_decode_system :
    decode (0b000000000001#12 ++ 0b00000#5 ++ 0b000#3 ++ 0b00000#5 ++ 0b1110011#7) = some .ebreak := by decide

/-- V-ENC1. -/
theorem test_encodings_of_the_vectors :
    [encode (.add 3 1 2), encode (.sub 3 1 2), encode (.addi 1 0 0xffffffff#32),
      encode (.srai 5 6 3#32), encode (.lui 5 0x2000#32), encode (.lw 7 5 0#32),
      encode (.lbu 8 5 1#32), encode (.sw 6 5 8#32), encode (.beq 3 0 0xfffffff4#32),
      encode (.bne 2 3 0xfffffff8#32), encode (.jal 1 2048#32), encode (.jalr 0 1 0#32),
      encode (.mul 5 1 2), encode (.divu 5 1 0), encode (.remu 3 1 2), encode .ebreak] =
    [0x002081b3#32, 0x402081b3#32, 0xfff00093#32, 0x40335293#32, 0x000022b7#32, 0x0002a383#32,
      0x0012c403#32, 0x0062a423#32, 0xfe018ae3#32, 0xfe311ce3#32, 0x001000ef#32, 0x00008067#32,
      0x022082b3#32, 0x0200d2b3#32, 0x0220f1b3#32, 0x00100073#32] := by decide

/-- V-ENC2, the words that are no instruction. -/
theorem test_decode_errors :
    [0x00000000#32, 0xffffffff#32, 0x00000073#32, 0x00200073#32, 0x30200073#32, 0x00002073#32,
      0x0000000f#32, 0x00000003#32, 0x00001003#32, 0x00005003#32, 0x00000023#32, 0x00001023#32,
      0x02005013#32, 0x40001013#32, 0x42005013#32, 0x40007033#32, 0x00001067#32, 0x0000a063#32,
      0x0000000b#32, 0x0200202f#32].all (fun w => decode w = none) = true := by decide

/-- V-ENC2, the words that are instructions; for 0x0000206f the immediate is that of 30 R158 and R164
(log entry 17). -/
theorem test_decode_vectors :
    [decode 0x00000013#32, decode 0x02000033#32, decode 0x0000206f#32] =
      [some (.addi 0 0 0#32), some (.mul 0 0 0), some (.jal 0 8192#32)] := by decide

theorem test_decodeBytes_truncated : decodeBytes [0x13#8, 0x00#8, 0x00#8] = .error .truncated := rfl
theorem test_decodeTableWord : decodeTableWord 32 0x002081b3 = some (.add 3 1 2) := by decide
theorem test_decodeTableWord_refuses : decodeTableWord 32 0x00000073 = none := by decide

/-! ### Results (vectors V-INT, V-CTL, V-LS, V-MD) -/

/-- A running state at pc 0x40 with x1 = a and x2 = b, MEMBYTES = 0x4000 and the word 0x11223344 at
0x2000. -/
def at40 (a b : Word) : State :=
  { State.reset with
    x := (State.reset.x.set 1 a).set 2 b
    pcF := 0x40#32
    dmem := Memory.writeWord 0#32 [] 0x2000 0x11223344#32 }

/-- The state after an instruction; the same state when it has none. -/
def ran (i : Instr) (s : State) : State :=
  match exec i s with
  | .next t => t
  | .fault _ | .refused _ => s

/-- x3 after an instruction on operand values a and b. -/
def x3 (i : Instr) (a b : Word) : Word := (ran i (at40 a b)).reg 3

/-- V-INT1. -/
theorem test_add_sub :
    [x3 (.add 3 1 2) 0x7fffffff#32 1#32, x3 (.add 3 1 2) 0xffffffff#32 1#32,
      x3 (.sub 3 1 2) 0#32 1#32, x3 (.sub 3 1 2) 0x80000000#32 1#32] =
    [0x80000000#32, 0#32, 0xffffffff#32, 0x7fffffff#32] := by decide

theorem test_shifts :
    [x3 (.sll 3 1 2) 1#32 0x1f#32, x3 (.sll 3 1 2) 1#32 0x20#32,
      x3 (.sll 3 1 2) 0x12345678#32 0x24#32, x3 (.srl 3 1 2) 0x80000000#32 0x1f#32,
      x3 (.sra 3 1 2) 0x80000000#32 0x3f#32, x3 (.srl 3 1 2) 0xf0000000#32 4#32,
      x3 (.sra 3 1 2) 0xf0000000#32 4#32, x3 (.slli 3 1 31#32) 1#32 0#32,
      x3 (.srli 3 1 31#32) 0x80000000#32 0#32, x3 (.srai 3 1 31#32) 0x80000000#32 0#32,
      x3 (.srai 3 1 30#32) 0x7fffffff#32 0#32] =
    [0x80000000#32, 1#32, 0x23456780#32, 1#32, 0xffffffff#32, 0x0f000000#32, 0xff000000#32,
      0x80000000#32, 1#32, 0xffffffff#32, 1#32] := by decide

theorem test_compares :
    [x3 (.slt 3 1 2) 0xffffffff#32 1#32, x3 (.sltu 3 1 2) 0xffffffff#32 1#32,
      x3 (.slt 3 1 2) 1#32 0xffffffff#32, x3 (.sltu 3 1 2) 1#32 0xffffffff#32,
      x3 (.slt 3 1 2) 5#32 5#32, x3 (.slti 3 1 0#32) 0xffffffff#32 0#32,
      x3 (.slti 3 1 0xffffffff#32) 0#32 0#32, x3 (.sltiu 3 1 0xffffffff#32) 0xfffffffe#32 0#32,
      x3 (.sltiu 3 1 0xffffffff#32) 0xffffffff#32 0#32, x3 (.sltiu 3 1 1#32) 0#32 0#32] =
    [1#32, 0#32, 0#32, 1#32, 0#32, 1#32, 0#32, 1#32, 0#32, 1#32] := by decide

theorem test_logical :
    [x3 (.xor 3 1 2) 0xff00ff00#32 0x0ff00ff0#32, x3 (.or 3 1 2) 0xff00ff00#32 0x0ff00ff0#32,
      x3 (.and 3 1 2) 0xff00ff00#32 0x0ff00ff0#32, x3 (.xori 3 1 0xffffffff#32) 0x12345678#32 0#32,
      x3 (.ori 3 1 0x678#32) 0x12340000#32 0#32,
      x3 (.andi 3 1 0xfffffff0#32) 0x12345678#32 0#32] =
    [0xf0f0f0f0#32, 0xfff0fff0#32, 0x0f000f00#32, 0xedcba987#32, 0x12340678#32, 0x12345670#32] := by
  decide

/-- V-INT2, V-INT3, V-INT4. -/
theorem test_addi_upper_x0 :
    [x3 (.addi 3 1 0xffffffff#32) 5#32 0#32, x3 (.addi 3 1 0xfffff800#32) 0#32 0#32,
      x3 (.lui 3 0xfffff000#32) 0#32 0#32, x3 (.auipc 3 0xfffff000#32) 0#32 0#32,
      (ran (.add 0 1 2) (at40 5#32 6#32)).reg 0] =
    [4#32, 0xfffff800#32, 0xfffff000#32, 0xfffff040#32, 0#32] := by decide

theorem test_x0_event :
    (ran (.add 0 1 2) (at40 5#32 6#32)).retired = [(0x40#32, none)] := by decide

/-- The next pc of an instruction at 0x40. -/
def pcAfter (i : Instr) (a b : Word) : Word := (ran i (at40 a b)).pcA

/-- V-CTL1, offset -16. -/
theorem test_branches :
    [pcAfter (.beq 1 2 0xfffffff0#32) 5#32 5#32, pcAfter (.beq 1 2 0xfffffff0#32) 5#32 6#32,
      pcAfter (.bne 1 2 0xfffffff0#32) 5#32 6#32,
      pcAfter (.blt 1 2 0xfffffff0#32) 0xffffffff#32 0#32,
      pcAfter (.bltu 1 2 0xfffffff0#32) 0xffffffff#32 0#32,
      pcAfter (.bge 1 2 0xfffffff0#32) 0#32 0xffffffff#32,
      pcAfter (.bgeu 1 2 0xfffffff0#32) 0#32 0xffffffff#32,
      pcAfter (.bge 1 2 0xfffffff0#32) 7#32 7#32, pcAfter (.bgeu 1 2 0xfffffff0#32) 7#32 7#32] =
    [0x30#32, 0x44#32, 0x30#32, 0x30#32, 0x44#32, 0x30#32, 0x44#32, 0x30#32, 0x30#32] := by decide

/-- V-CTL2. -/
theorem test_jumps :
    [pcAfter (.jal 3 0x10#32) 0#32 0#32, pcAfter (.jal 3 0xfffffffc#32) 0#32 0#32,
      pcAfter (.jalr 3 1 0#32) 0x103#32 0#32, pcAfter (.jalr 3 1 0xfffffff1#32) 0x100#32 0#32,
      x3 (.jalr 3 1 0#32) 0x102#32 0#32, pcAfter (.jalr 1 1 0#32) 0x102#32 0#32] =
    [0x50#32, 0x3c#32, 0x102#32, 0xf0#32, 0x44#32, 0x102#32] := by decide

/-- V-LS1. -/
theorem test_loads :
    [x3 (.lw 3 1 0#32) 0x2000#32 0#32, x3 (.lbu 3 1 0#32) 0x2000#32 0#32,
      x3 (.lbu 3 1 1#32) 0x2000#32 0#32, x3 (.lbu 3 1 2#32) 0x2000#32 0#32,
      x3 (.lbu 3 1 3#32) 0x2000#32 0#32] =
    [0x11223344#32, 0x44#32, 0x33#32, 0x22#32, 0x11#32] := by decide

theorem test_store_then_byte :
    (ran (.lbu 3 1 3#32) (ran (.sw 2 1 0#32) (at40 0x2000#32 0xaabbccdd#32))).reg 3 = 0xaa#32 := by
  decide

/-- 42 R280, R281, R283: the failing checks, alignment before bounds, MEMBYTES = 0x4000. -/
theorem test_access_faults :
    [(ran (.lw 3 1 2#32) (at40 0x4000#32 0#32)).halt, (ran (.lw 3 1 0#32) (at40 0x4000#32 0#32)).halt,
      (ran (.sw 2 1 1#32) (at40 0#32 0#32)).halt, (ran (.lbu 3 1 0#32) (at40 0x4000#32 0#32)).halt,
      (ran (.lbu 3 1 0#32) (at40 0x3fff#32 0#32)).halt] =
    [.fatal (.misalignedAccess .load) 0x40#32 0x4002#32,
      .fatal .outOfBoundsMemoryAccess 0x40#32 0x4000#32,
      .fatal (.misalignedAccess .store) 0x40#32 1#32,
      .fatal .outOfBoundsMemoryAccess 0x40#32 0x4000#32, .running] := by decide

/-- The examples of 43 R301 to R308. -/
theorem test_multiply :
    [x3 (.mul 3 1 2) 0xfffffff9#32 2#32, x3 (.mul 3 1 2) 0x80000000#32 0xffffffff#32,
      x3 (.mulh 3 1 2) 0xfffffff9#32 2#32, x3 (.mulh 3 1 2) 0x80000000#32 0x80000000#32,
      x3 (.mulhsu 3 1 2) 0x80000000#32 0x80000000#32, x3 (.mulhsu 3 1 2) 7#32 0xfffffffe#32,
      x3 (.mulhu 3 1 2) 0xffffffff#32 0xffffffff#32, x3 (.mulhu 3 1 2) 0xfffffff9#32 2#32] =
    [0xfffffff2#32, 0x80000000#32, 0xffffffff#32, 0x40000000#32, 0xc0000000#32, 6#32,
      0xfffffffe#32, 1#32] := by decide

theorem test_divide :
    [x3 (.div 3 1 2) 0xfffffff9#32 2#32, x3 (.div 3 1 2) 5#32 0#32,
      x3 (.div 3 1 2) 0x80000000#32 0xffffffff#32, x3 (.divu 3 1 2) 0xfffffff9#32 2#32,
      x3 (.divu 3 1 2) 7#32 0#32, x3 (.rem 3 1 2) 0xfffffff9#32 2#32,
      x3 (.rem 3 1 2) 0x80000000#32 0xffffffff#32, x3 (.rem 3 1 2) 0xfffffff9#32 0#32,
      x3 (.remu 3 1 2) 2#32 0#32, x3 (.remu 3 1 2) 0xfffffff9#32 2#32] =
    [0xfffffffd#32, 0xffffffff#32, 0x80000000#32, 0x7ffffffc#32, 0xffffffff#32, 0xffffffff#32,
      0#32, 0xfffffff9#32, 2#32, 1#32] := by decide

theorem test_ebreak :
    (ran .ebreak (at40 0#32 0#32)).halt = .halted ∧ (ran .ebreak (at40 0#32 0#32)).pcA = 0x40#32 := by
  decide

/-- 47 R465: the check on the signed-overflow result, through the stages. -/
theorem test_division_stages :
    [divStagesValue .div 0x80000000#32 0xffffffff#32, divStagesValue .rem 0x80000000#32 0xffffffff#32,
      divStagesValue .div 0xfffffff9#32 2#32, divStagesValue .rem 0xfffffff9#32 2#32] =
    [0x80000000#32, 0#32, 0xfffffffd#32, 0xffffffff#32] := by decide +kernel

/-! ### The core by cycles, on a small instance -/

/-- ROB 4, RS 2, LSQ 2, four predictor entries, 16 words of each memory, one stage each in MUL and
DIV. -/
def small : Config :=
  { Config.standard with
    robSize := 4, rsSize := 2, lsqSize := 2, bhtLogSize := 2, depthLog := 4, dataBase := 0#32,
    mulStages := 1, divStages := 1 }

/-- The same with the bus priorities turned around. -/
def smallReversed : Config := { small with cdbPriority := [.div, .mul, .load, .alu] }

/-- The same with the early stop. -/
def smallImmediate : Config := { small with faultPolicy := .immediate }

/-- The start state of a program. -/
def booted (cfg : Config) (code : List Instr) : State :=
  match State.boot cfg (code.map encode) [] with
  | .next s => s
  | .fault _ | .refused _ => .reset

/-- The state after `n` cycles of a program. -/
def after (n : Nat) (cfg : Config) (code : List Instr) : State := steps n (booted cfg code)

/-- 70 R657, 49 R571: the first instruction commits in cycle 3, the next one behind it. -/
theorem test_first_commits :
    (after 5 small [.addi 1 0 5#32, .add 2 1 1, .ebreak]).log =
      [⟨3, 0, 0#32, some 5#32⟩, ⟨4, 1, 4#32, some 10#32⟩] := by decide

theorem test_halt_cycle :
    (after 6 small [.addi 1 0 5#32, .add 2 1 1, .ebreak]).halt = .halted ∧
    (after 6 small [.addi 1 0 5#32, .add 2 1 1, .ebreak]).cycle = 6 := by decide

/-- A jump is mispredicted on its first execution and squashes when it commits (45 R353, 49 R550). -/
theorem test_jump_squashes :
    (after 4 small [.jal 1 8#32, .addi 2 0 1#32, .ebreak]).drained = true ∧
    (after 4 small [.jal 1 8#32, .addi 2 0 1#32, .ebreak]).pcF = 8#32 := by decide

/-- A load forwards from the older store before that store commits (48 R507). -/
theorem test_forwarding :
    (selectLoad (after 4 small [.addi 1 0 0x7f#32, .sw 1 0 8#32, .lbu 2 0 8#32, .ebreak])).map
        (fun l => l.payload.value) = some 0x7f#32 ∧
    (after 4 small [.addi 1 0 0x7f#32, .sw 1 0 8#32, .lbu 2 0 8#32, .ebreak]).dmemByte 8 = 0#8 ∧
    (after 6 small [.addi 1 0 0x7f#32, .sw 1 0 8#32, .lbu 2 0 8#32, .ebreak]).reg 2 = 0x7f#32 := by
  decide

/-- The undecodable word after a taken jump never stops the core (60 R603 Deferred), and stops it under
Immediate. -/
theorem test_fault_policies :
    (after 20 small [.jal 0 8#32, .jal 0 8#32, .ebreak]).halt = .halted ∧
    (after 20 smallImmediate [.jal 0 12#32]).halt = .fatal .decodeError 4#32 4#32 := by decide

theorem test_boot_refuses_image :
    (match State.boot { small with depthLog := 0 } [0#32, 0#32] [] with
      | .refused r => decide (r = .imageDoesNotFit)
      | .next _ | .fault _ => false) = true := by decide

theorem test_boot_refuses_config :
    (match State.boot { small with robSize := 1 } [] [] with
      | .refused r => decide (r = .illegalConfig)
      | .next _ | .fault _ => false) = true := by decide

theorem test_reset_invariants : State.reset.InFlight := inFlight_of_check _ (by decide)

theorem test_memory_canonical :
    Memory.write 0#32 (Memory.write 0#32 [] 8 5#8) 8 0#8 = [] := by decide

/-! ### Witnesses: states and operands that meet the hypotheses of the statements -/

theorem witness_DecodeEncode : (Instr.sw 31 1 0xfffff800#32).wellFormed = true := by decide

theorem witness_EncodeDecode : decode 0xfe018ae3#32 = some (.beq 3 0 0xfffffff4#32) := by decide

/-- One word for each clause: low bits, opcode, BRANCH, JALR, LOAD, STORE, the shifts, OP, SYSTEM. -/
theorem witness_DecodeErrorSpace :
    (0x00000012#32).extractLsb' 0 2 ≠ 0b11#2 ∧
    (0x0000000f#32).extractLsb' 0 7 = 0b0001111#7 ∧
    ((0x00002063#32).extractLsb' 0 7 = 0b1100011#7 ∧ (0x00002063#32).extractLsb' 12 3 = 0b010#3) ∧
    ((0x00001067#32).extractLsb' 0 7 = 0b1100111#7 ∧ (0x00001067#32).extractLsb' 12 3 ≠ 0b000#3) ∧
    ((0x00000003#32).extractLsb' 0 7 = 0b0000011#7 ∧ (0x00000003#32).extractLsb' 12 3 = 0b000#3) ∧
    ((0x00000023#32).extractLsb' 0 7 = 0b0100011#7 ∧ (0x00000023#32).extractLsb' 12 3 ≠ 0b010#3) ∧
    ((0x40001013#32).extractLsb' 12 3 = 0b001#3 ∧ (0x40001013#32).extractLsb' 25 7 ≠ 0b0000000#7) ∧
    ((0x02005013#32).extractLsb' 12 3 = 0b101#3 ∧ (0x02005013#32).extractLsb' 25 7 = 0b0000001#7) ∧
    (0x04000033#32).extractLsb' 25 7 = 0b0000010#7 ∧
    ((0x40007033#32).extractLsb' 25 7 = 0b0100000#7 ∧ (0x40007033#32).extractLsb' 12 3 = 0b111#3) ∧
    (0x00000073#32).extractLsb' 0 7 = 0b1110011#7 := by decide

/-- A word of a row, and one of none. -/
theorem witness_DecodedRecord :
    (∃ row ∈ opcodeTable, 0x002081b3#32 &&& row.mask = row.pattern) ∧
    ∀ row ∈ opcodeTable, 0x00000000#32 &&& row.mask ≠ row.pattern := by decide

theorem witness_UpperImmediateAndAddResults : State.reset.halt = .running := rfl
theorem witness_CompareResults : (at40 1#32 2#32).halt = .running := rfl
theorem witness_LogicalResults : (at40 3#32 5#32).halt = .running := rfl
theorem witness_ShiftImmediateResults :
    (at40 1#32 2#32).halt = .running ∧ (31#32).toNat < 32 := by decide
theorem witness_ShiftRegisterResults : (at40 1#32 32#32).halt = .running := rfl
theorem witness_JumpResults : (at40 0x103#32 0#32).halt = .running := rfl
theorem witness_BranchResults : (at40 5#32 5#32).halt = .running := rfl

/-- The last word, its neighbour past the end, and a misaligned address; the last byte and the next. -/
theorem witness_LoadResults :
    let s := at40 0x3ffc#32 0#32
    s.halt = .running ∧
    ((s.reg 1 + 0#32).toNat % 4 = 0 ∧ (s.reg 1 + 0#32).toNat + 4 ≤ s.cfg.memBytes) ∧
    ((s.reg 1 + 4#32).toNat % 4 = 0 ∧ s.cfg.memBytes < (s.reg 1 + 4#32).toNat + 4) ∧
    (s.reg 1 + 3#32).toNat % 4 ≠ 0 ∧
    (s.reg 1 + 3#32).toNat + 1 ≤ s.cfg.memBytes ∧
    s.cfg.memBytes < (s.reg 1 + 4#32).toNat + 1 := by decide

theorem witness_StoreResult :
    let s := at40 0x3ffc#32 7#32
    s.halt = .running ∧ s.dmem.wf s.cfg.initFill = true ∧
    ((s.reg 1 + 0#32).toNat % 4 = 0 ∧ (s.reg 1 + 0#32).toNat + 4 ≤ s.cfg.memBytes) ∧
    ((s.reg 1 + 4#32).toNat % 4 = 0 ∧ s.cfg.memBytes < (s.reg 1 + 4#32).toNat + 4) ∧
    (s.reg 1 + 1#32).toNat % 4 ≠ 0 := by decide

theorem witness_StoreThenLoad :
    let s := at40 0x3ffc#32 7#32
    s.halt = .running ∧ s.dmem.wf s.cfg.initFill = true ∧ (s.reg 1 + 0#32).toNat % 4 = 0 ∧
    (s.reg 1 + 0#32).toNat + 4 ≤ s.cfg.memBytes ∧ (3 : Reg) ≠ 0 ∧ 3 < 4 ∧
    s.reg 1 + 3#32 = s.reg 1 + 0#32 + BitVec.ofNat 32 3 := by decide

theorem witness_MultiplyResults : (at40 0x80000000#32 0xffffffff#32).halt = .running := rfl

/-- A zero divisor, the overflow operands, and operands that are neither. -/
theorem witness_DivideResults :
    (at40 5#32 0#32).reg 2 = 0 ∧
    ((at40 0x80000000#32 0xffffffff#32).reg 1).toInt = -2147483648 ∧
    ((at40 0x80000000#32 0xffffffff#32).reg 2).toInt = -1 ∧
    ((at40 0x80000000#32 1#32).reg 2 ≠ 0 ∧
      ¬(((at40 0x80000000#32 1#32).reg 1).toInt = -2147483648 ∧
        ((at40 0x80000000#32 1#32).reg 2).toInt = -1)) := by decide

theorem witness_DivisionLaws :
    (0xffffffff#32 ≠ 0 ∧ ¬((7#32).toInt = -2147483648 ∧ (0xffffffff#32).toInt = -1)) := by decide

theorem witness_EbreakHalts : (at40 0#32 0#32).halt = .running := rfl
theorem witness_SequentialFrame : (after 3 small [.addi 1 0 5#32]).halt = .running := by decide
theorem witness_StoppedCoreStays : (after 4 small [.ebreak]).halt ≠ .running := by decide

/-- A start state at the instruction level with another pc. -/
def atPc (pc : Word) (code : List Instr) : State :=
  { booted small code with level := .instruction, pcF := pc }

/-- Misaligned, past the end, undecodable at the last word, and an instruction. -/
theorem witness_SequentialStep :
    ((atPc 62#32 []).halt = .running ∧ (atPc 62#32 []).level = .instruction ∧
      (atPc 62#32 []).pcA.toNat % 4 ≠ 0) ∧
    ((atPc 64#32 []).pcA.toNat % 4 = 0 ∧ small.memBytes < (atPc 64#32 []).pcA.toNat + 4) ∧
    ((atPc 60#32 []).pcA.toNat % 4 = 0 ∧ (atPc 60#32 []).pcA.toNat + 4 ≤ small.memBytes ∧
      decode ((atPc 60#32 []).imemWord 60#32) = none) ∧
    decode ((atPc 4#32 [.ebreak, .add 3 1 2]).imemWord 4#32) = some (.add 3 1 2) := by decide

theorem witness_PlacedWordRuns :
    State.reset.halt = .running ∧ State.reset.imem.wf State.reset.cfg.initFill = true ∧
    State.reset.pcA.toNat % 4 = 0 ∧ State.reset.pcA.toNat + 4 ≤ State.reset.cfg.memBytes ∧
    (Instr.jal 1 0xfff00000#32).wellFormed = true := by decide

/-- Images that fill their memories exactly, and images one word or one byte too long. -/
theorem witness_ImagesPlaced :
    small.legal = true ∧
    (small.codeBase.toNat + 4 * (List.replicate 16 0#32).length ≤ small.memBytes ∧
      small.dataBase.toNat + (List.replicate 64 0#8).length ≤ small.memBytes) ∧
    small.memBytes < small.codeBase.toNat + 4 * (List.replicate 17 0#32).length ∧
    small.memBytes < small.dataBase.toNat + (List.replicate 65 0#8).length := by decide

/-- A state that loading answers. -/
theorem boot_of_booted (cfg : Config) (code : List Instr)
    (h : (cfg.legal && (imageFits cfg cfg.codeBase (4 * (code.map encode).length)
      && imageFits cfg cfg.dataBase ([] : List Byte).length)) = true) :
    State.boot cfg (code.map encode) [] = .next (booted cfg code) := by
  obtain ⟨hl, hf⟩ := Bool.and_eq_true_iff.mp h
  unfold booted State.boot
  rw [if_neg (by rw [hl]; decide), if_pos hf]

theorem witness_InvariantsAtReset :
    State.boot small ([Instr.ebreak].map encode) [] = .next (booted small [.ebreak]) :=
  boot_of_booted _ _ (by decide)

/-- A multiply in flight, its consumer in the reservation station, and a store in the queue. -/
def busyProgram : List Instr := [.mul 1 2 3, .add 4 1 1, .sw 1 1 0#32, .ebreak]

theorem witness_ShapeKept :
    (after 3 small busyProgram).Shape ∧
      step (after 3 small busyProgram) = .next (after 3 small busyProgram).clock :=
  ⟨shape_of_check _ (by decide), step_at_cycles _ (by decide) (by decide)⟩

theorem witness_InFlightKept :
    (after 3 small busyProgram).InFlight ∧
      step (after 3 small busyProgram) = .next (after 3 small busyProgram).clock :=
  ⟨inFlight_of_check _ (by decide), step_at_cycles _ (by decide) (by decide)⟩

theorem witness_CommitOrder :
    let s := after 5 small [.addi 1 0 5#32, .addi 2 0 6#32, .ebreak]
    s.log.length = 2 ∧ tagsFollow s.cfg s.robHead s.log ∧ step s = .next s.clock := by
  exact ⟨by decide, ⟨by decide, show nextTag _ _ = _ by decide⟩,
    step_at_cycles _ (by decide) (by decide)⟩

/-- The latch is empty: the last word, a misaligned address, an address past the end, and a predicted
address; or it is consumed by dispatch. -/
theorem witness_FetchFillsTheLatch :
    (∀ pc ∈ [60#32, 62#32, 64#32],
      let s := { booted small [.ebreak] with pcF := pc }
      s.Clocked ∧ s.Shape ∧ s.flows = true ∧ s.fetchStopped = false ∧ s.fl.valid = false) ∧
    (let s := { booted small [] with bp := List.replicate 4 ⟨.weaklyTaken, 0#32, 12#32⟩ }
     s.Clocked ∧ s.Shape ∧ s.flows = true ∧ s.fetchStopped = false ∧ s.fl.valid = false ∧
      s.predictsTaken s.pcF = true) ∧
    (let s := after 1 small [.addi 1 0 5#32]
     s.Clocked ∧ s.Shape ∧ s.flows = true ∧ s.fetchStopped = false ∧ s.dispatches = true) := by
  refine ⟨?_, ?_, ?_⟩
  · intro pc hpc
    simp only [List.mem_cons, List.not_mem_nil, or_false] at hpc
    rcases hpc with rfl | rfl | rfl <;>
      exact ⟨⟨by decide, by decide⟩, shape_of_check _ (by decide), by decide, by decide, by decide⟩
  · exact ⟨⟨by decide, by decide⟩, shape_of_check _ (by decide), by decide⟩
  · exact ⟨⟨by decide, by decide⟩, shape_of_check _ (by decide), by decide, by decide, by decide⟩

/-- A fetch, a squash, and a cycle with neither. -/
theorem witness_FetchPcChanges :
    (let s := booted small [.ebreak]
     s.Clocked ∧ s.flows = true ∧ s.fetchStopped = false ∧ s.fl.valid = false ∧
      s.pcF.toNat % 4 = 0 ∧ s.pcF.toNat + 4 ≤ s.cfg.memBytes) ∧
    (let s := after 3 small [.jal 1 8#32]
     s.Clocked ∧ s.squashes = true) ∧
    (let s := after 1 small [.ebreak]
     s.Clocked ∧ s.squashes = false ∧ s.fetchStopped = true) := by
  refine ⟨⟨⟨by decide, by decide⟩, by decide⟩, ⟨⟨by decide, by decide⟩, by decide⟩,
    ⟨⟨by decide, by decide⟩, by decide⟩⟩

theorem witness_CountersMoveByOneStep :
    let s := after 3 small [.jal 1 8#32]
    s.Clocked ∧ s.clock.bp ≠ s.bp := ⟨⟨by decide, by decide⟩, by decide⟩

/-- A cycle that writes the predictor, and one that does not. -/
theorem witness_PredictorUpdates :
    (let s := after 3 small [.jal 1 8#32]
     s.Clocked ∧ s.Shape ∧ s.retires = true ∧ s.headEntry.mispredict = true) ∧
    (let s := after 3 small [.addi 1 0 5#32]
     s.Clocked ∧ s.Shape ∧ s.retires = true ∧ s.headEntry.mispredict = false ∧
      s.cfg.predictorUpdate = .onMispredict) := by
  refine ⟨⟨⟨by decide, by decide⟩, shape_of_check _ (by decide), by decide⟩,
    ⟨⟨by decide, by decide⟩, shape_of_check _ (by decide), by decide⟩⟩

/-- Each case of resolution: x0, a committed register, a ready producer, a producer on the bus, and one
to wait for. -/
theorem witness_OperandResolution :
    (booted small []).rat[5] = .committed ∧
    ((after 3 small [.addi 5 0 7#32]).rat[5] = .pending 0 ∧
      ((after 3 small [.addi 5 0 7#32]).robEntry 0).ready = true) ∧
    ((after 2 small [.addi 5 0 7#32]).rat[5] = .pending 0 ∧
      ((after 2 small [.addi 5 0 7#32]).robEntry 0).ready = false ∧
      (after 2 small [.addi 5 0 7#32]).broadcast.map Payload.tag = some 0) := by decide

/-- A start state with an instruction in the latch. -/
def latched (i : Instr) : State := after 1 small [i]

/-- The ROB full, the reservation station full for an ALU instruction, the queue full for a load. -/
theorem witness_DispatchStalls :
    (let s := { latched (.add 3 1 2) with robCount := 4 }
     s.Clocked ∧ s.flows = true ∧ s.fl.valid = true ∧ ¬s.resourcesFree) ∧
    (let s := { latched (.add 3 1 2) with
                rs := List.replicate 2 { RsEntry.reset with busy := true } }
     s.Clocked ∧ s.flows = true ∧ s.fl.valid = true ∧ ¬s.resourcesFree) ∧
    (let s := { latched (.lw 3 1 0#32) with
                lsq := List.replicate 2 { LsqEntry.reset with busy := true } }
     s.Clocked ∧ s.flows = true ∧ s.fl.valid = true ∧ ¬s.resourcesFree) := by
  refine ⟨⟨⟨by decide, by decide⟩, by decide, by decide, fun h => absurd h.1 (by decide)⟩,
    ⟨⟨by decide, by decide⟩, by decide, by decide, fun h => ?_⟩,
    ⟨⟨by decide, by decide⟩, by decide, by decide, fun h => ?_⟩⟩
  · exact absurd ((h.2 (decodedOf (.add 3 1 2) 0 false 4) (by decide)).1 (by decide)) (by decide)
  · exact absurd ((h.2 (decodedOf (.lw 3 1 0) 0 false 4) (by decide)).2 (by decide)) (by decide)

/-- The resources are free when ROB, RS and LSQ each have a free entry. -/
theorem resourcesFree_of_free (s : State)
    (h : s.robCount < s.cfg.robSize ∧ (∃ e ∈ s.rs, e.busy = false) ∧ ∃ e ∈ s.lsq, e.busy = false) :
    s.resourcesFree := ⟨h.1, fun _ _ => ⟨fun _ => h.2.1, fun _ => h.2.2⟩⟩

/-- A fault, an instruction of the reservation station, a load, and EBREAK in the latch. -/
theorem witness_DispatchAllocates :
    (let s := after 1 small []
     s.Clocked ∧ s.Shape ∧ s.flows = true ∧ s.fl.valid = true ∧ s.resourcesFree ∧
      latchMicroOp s.fl = .fault ⟨.decodeError, 0#32⟩) ∧
    ∀ i ∈ [Instr.div 3 1 2, .lw 3 1 4#32, .sw 3 1 4#32, .ebreak],
      let s := latched i
      s.Clocked ∧ s.Shape ∧ s.flows = true ∧ s.fl.valid = true ∧ s.resourcesFree ∧
        latchMicroOp s.fl = .instr (decodedOf i 0 false 4) := by
  refine ⟨⟨⟨by decide, by decide⟩, shape_of_check _ (by decide), by decide, by decide,
    resourcesFree_of_free _ (by decide), by decide⟩, ?_⟩
  intro i hi
  simp only [List.mem_cons, List.not_mem_nil, or_false] at hi
  rcases hi with rfl | rfl | rfl | rfl <;>
    exact ⟨⟨by decide, by decide⟩, shape_of_check _ (by decide), by decide, by decide,
      resourcesFree_of_free _ (by decide), by decide⟩

/-- The producer commits while its consumer, and a second writer of the register, is in the latch; while
the latched consumer writes another register; and while nothing dispatches. -/
theorem witness_CommitBypass :
    (let s := after 3 small [.addi 1 0 5#32, .addi 2 0 6#32, .add 1 1 1]
     s.Clocked ∧ s.InFlight ∧ s.flows = true ∧ s.retires = true ∧ s.headEntry.dest = some 1 ∧
      s.rat[1] = .pending s.robHead ∧ s.dispatches = true ∧
      (latchMicroOp s.fl).dest = some 1) ∧
    (let s := after 3 small [.addi 1 0 5#32, .addi 2 0 6#32, .add 3 1 1]
     s.Clocked ∧ s.InFlight ∧ s.flows = true ∧ s.retires = true ∧ s.headEntry.dest = some 1 ∧
      s.rat[1] = .pending s.robHead ∧ s.dispatches = true ∧
      (latchMicroOp s.fl).dest = some 3) ∧
    (let s := after 3 small [.addi 1 0 5#32, .ebreak]
     s.Clocked ∧ s.InFlight ∧ s.flows = true ∧ s.retires = true ∧ s.headEntry.dest = some 1 ∧
      s.rat[1] = .pending s.robHead ∧ s.dispatches = false) := by
  refine ⟨?_, ?_, ?_⟩ <;>
    exact ⟨⟨by decide, by decide⟩, inFlight_of_check _ (by decide), by decide⟩

/-- Two eligible entries, the older in the higher place. -/
theorem witness_OldestEligibleIsSelected :
    (selectRs { booted small [] with
        rs := [{ RsEntry.reset with busy := true, dest := 1 },
               { RsEntry.reset with busy := true, dest := 0, imm := 7#32 }] } .alu).map Issued.index =
      some 1 ∧ selectRs (booted small []) .alu = none := by decide

/-- An entry for each unit, also behind a result that wins the bus; one that waits on an operand; and one
behind a full ALU latch, a frozen MUL and a frozen DIV pipeline. -/
theorem witness_IssueFreesTheEntry :
    (let s := after 2 small [.addi 1 0 5#32]
     s.Clocked ∧ s.flows = true ∧ s.aluOut = none ∧ (selectRs s .alu).isSome = true) ∧
    (let s := after 2 small [.mul 1 2 3]
     s.Clocked ∧ s.flows = true ∧ lastStage s.mul = none ∧ (selectRs s .mul).isSome = true) ∧
    (let s := after 2 small [.div 1 2 3]
     s.Clocked ∧ s.flows = true ∧ lastStage s.div = none ∧ (selectRs s .div).isSome = true) ∧
    (let s := after 3 small [.mul 1 2 3, .mul 4 2 3]
     s.Clocked ∧ s.flows = true ∧ lastStage s.mul ≠ none ∧ wonBy (signals s).win .mul = true ∧
      (selectRs s .mul).isSome = true) ∧
    (let s := after 3 small [.div 1 2 3, .div 4 2 3]
     s.Clocked ∧ s.flows = true ∧ lastStage s.div ≠ none ∧ wonBy (signals s).win .div = true ∧
      (selectRs s .div).isSome = true) ∧
    (let s := after 3 small busyProgram
     s.Clocked ∧ s.flows = true ∧
      ∃ e ∈ s.rs, e.busy = true ∧ e.j = .pending 0) ∧
    (let s := after 4 smallReversed [.mul 1 2 3, .addi 2 0 6#32, .addi 4 0 7#32]
     s.Clocked ∧ s.flows = true ∧ s.aluOut ≠ none ∧
      ∃ e ∈ s.rs, e.busy = true ∧ opUnit e.op = some .alu) ∧
    (let s := { after 3 small [.mul 1 2 3, .mul 4 2 3] with aluOut := some ⟨2, 6#32, none, none⟩ }
     s.Clocked ∧ s.flows = true ∧ lastStage s.mul ≠ none ∧ wonBy (signals s).win .mul = false ∧
      ∃ e ∈ s.rs, e.busy = true ∧ opUnit e.op = some .mul) ∧
    (let s := { after 3 small [.div 1 2 3, .div 4 2 3] with aluOut := some ⟨2, 6#32, none, none⟩ }
     s.Clocked ∧ s.flows = true ∧ lastStage s.div ≠ none ∧ wonBy (signals s).win .div = false ∧
      ∃ e ∈ s.rs, e.busy = true ∧ opUnit e.op = some .div) := by
  refine ⟨?_, ?_, ?_, ?_, ?_, ?_, ?_, ?_, ?_⟩ <;> exact ⟨⟨by decide, by decide⟩, by decide⟩

/-- An instruction of each unit. -/
theorem witness_UnitsAgreeWithExec :
    (at40 5#32 6#32).halt = .running ∧ opUnit (instrOp (.jalr 3 1 1#32)) = some .alu ∧
    opUnit (instrOp (.mulhsu 3 1 2)) = some .mul ∧ opUnit (instrOp (.rem 3 1 2)) = some .div := by
  decide

/-- A multiply and an ALU instruction on the bus in one cycle, and a cycle without request. -/
theorem witness_BusArbitration :
    small.legal = true ∧
    (let s := after 3 small [.mul 1 2 3, .addi 2 0 6#32]
     (arbitrate s (selectAlu s) (selectLoad s)).map Prod.fst = some .alu ∧
      (request s (selectAlu s) (selectLoad s) .mul).isSome = true) ∧
    arbitrate (booted small []) none none = none := by decide

/-- A multiply that loses to an ALU instruction, a divide that loses to a load, and with the priorities
turned around an ALU instruction and a load that lose. -/
theorem witness_LosersHold :
    (let s := after 3 small [.mul 1 2 3, .addi 2 0 6#32]
     s.Clocked ∧ s.InFlight ∧ s.flows = true ∧
      (request s (signals s).alu (signals s).load .mul).isSome = true ∧
      wonBy (signals s).win .mul = false ∧ wonBy (signals s).win .alu = true) ∧
    (let s := after 3 small [.div 1 2 3, .lw 2 0 0#32]
     s.Clocked ∧ s.InFlight ∧ s.flows = true ∧
      (request s (signals s).alu (signals s).load .div).isSome = true ∧
      wonBy (signals s).win .div = false ∧ wonBy (signals s).win .load = true) ∧
    (let s := after 3 smallReversed [.mul 1 2 3, .addi 2 0 6#32]
     s.Clocked ∧ s.InFlight ∧ s.flows = true ∧
      (request s (signals s).alu (signals s).load .alu).isSome = true ∧
      wonBy (signals s).win .alu = false) ∧
    (let s := after 3 smallReversed [.div 1 2 3, .lw 2 0 0#32]
     s.Clocked ∧ s.InFlight ∧ s.flows = true ∧ s.loadRequest.isSome = true ∧
      wonBy (signals s).win .load = false) := by
  refine ⟨?_, ?_, ?_, ?_⟩ <;>
    exact ⟨⟨by decide, by decide⟩, inFlight_of_check _ (by decide), by decide⟩

/-- Pipelines that advance, because empty or because they win, and one that freezes. -/
theorem witness_PipelinesAdvanceOrFreeze :
    (let s := after 2 small [.mul 1 2 3]
     s.Clocked ∧ s.Shape ∧ s.flows = true ∧ s.mul[s.cfg.mulStages - 1]? = some none) ∧
    (let s := after 3 small [.div 1 2 3]
     s.Clocked ∧ s.Shape ∧ s.flows = true ∧ wonBy (signals s).win .div = true) ∧
    (let s := after 3 small [.mul 1 2 3, .addi 2 0 6#32]
     s.Clocked ∧ s.Shape ∧ s.flows = true ∧
      ¬(s.mul[s.cfg.mulStages - 1]? = some none ∨ wonBy (signals s).win .mul = true)) := by
  refine ⟨?_, ?_, ?_⟩ <;>
    exact ⟨⟨by decide, by decide⟩, shape_of_check _ (by decide), by decide⟩

/-- The multiply broadcasts while an RS entry, and an LSQ entry, waits on it. -/
theorem witness_Wakeup :
    (let s := after 3 small busyProgram
     s.Clocked ∧ s.InFlight ∧ s.flows = true ∧ s.broadcast.map Payload.tag = some 0 ∧
      ∃ e ∈ s.rs, e.busy = true ∧ e.j = .pending 0 ∧ e.k = .pending 0) ∧
    (let s := after 3 small [.mul 1 2 3, .sw 1 1 0#32]
     s.Clocked ∧ s.InFlight ∧ s.flows = true ∧ s.broadcast.map Payload.tag = some 0 ∧
      ∃ e ∈ s.lsq, e.busy = true ∧ e.base = .pending 0 ∧ e.data = .pending 0) := by
  refine ⟨?_, ?_⟩ <;>
    exact ⟨⟨by decide, by decide⟩, inFlight_of_check _ (by decide), by decide⟩

/-- A result without and one with a control outcome. -/
theorem witness_BroadcastCompletesTheEntry :
    (let s := after 2 small [.addi 1 0 5#32]
     s.Clocked ∧ s.InFlight ∧ s.flows = true ∧ s.broadcast = some ⟨0, 5#32, none, none⟩) ∧
    (let s := after 2 small [.jal 1 8#32]
     s.Clocked ∧ s.InFlight ∧ s.flows = true ∧
      s.broadcast = some ⟨0, 4#32, some ⟨true, 8#32⟩, none⟩) := by
  refine ⟨?_, ?_⟩ <;>
    exact ⟨⟨by decide, by decide⟩, inFlight_of_check _ (by decide), by decide⟩

/-- A store entry at 8 of tag `t` with data `d`. -/
def storeAt8 (t : Nat) (d : Slot) : LsqEntry :=
  { LsqEntry.reset with busy := true, tag := t, op := .sw, imm := 8#32, data := d }

/-- A byte load at 9 of tag 2. -/
def loadAt9 : LsqEntry := { LsqEntry.reset with busy := true, tag := 2, op := .lbu, imm := 9#32 }

/-- The load takes the byte of the younger of two older stores; the older one's data is still
pending. -/
theorem witness_LoadSeesOlderStores :
    let s := { booted small [] with
               robCount := 3, robTail := 3
               lsq := [storeAt8 1 (.value 0x00007f00#32), storeAt8 0 (.pending 3), loadAt9] }
    let order := [storeAt8 0 (.pending 3), storeAt8 1 (.value 0x00007f00#32)]
    loadPlan s loadAt9 = .value 0x7f#32 ∧ order.Perm (olderStores s loadAt9.tag) ∧
    order.Pairwise (fun p q => s.age p.tag < s.age q.tag) ∧
    (∀ st ∈ order, ∀ base, st.base = .value base → (8#32 : Word) = base + st.imm) ∧
    (∀ st ∈ order, ∀ d, st.data = .value d → (0x00007f00#32 : Word) = d) := by
  refine ⟨by decide, by decide, by decide, ?_, ?_⟩
  · intro st hst base hb
    simp only [List.mem_cons, List.not_mem_nil, or_false] at hst
    rcases hst with rfl | rfl <;> cases hb <;> rfl
  · intro st hst d hd
    simp only [List.mem_cons, List.not_mem_nil, or_false] at hst
    rcases hst with rfl | rfl <;> cases hd
    rfl

/-- A store at the head: at the last word, past the end, misaligned; and one that waits. -/
theorem witness_StoreCommit :
    (∀ imm ∈ [60#32, 64#32, 62#32],
      let s := after 2 small [.sw 1 0 imm]
      s.Clocked ∧ s.dmem.wf s.cfg.initFill = true ∧ s.robCount ≠ 0 ∧ s.headEntry.kind = .store ∧
        ∃ e, s.lsq[0]? = some e ∧ e.busy = true ∧ e.tag = s.robHead ∧
          e.base = .value 0 ∧ e.imm = imm ∧ (s.lsq[1]?.map LsqEntry.busy) = some false) ∧
    (let s := { after 2 small [.sw 1 0 60#32] with lsq := [storeAt8 0 (.pending 3)] }
     s.Clocked ∧ s.dmem.wf s.cfg.initFill = true ∧ s.robCount ≠ 0 ∧ s.headEntry.kind = .store ∧
      s.lsq[0]? = some (storeAt8 0 (.pending 3)) ∧ s.robHead = 0) := by
  refine ⟨?_, ⟨⟨by decide, by decide⟩, by decide⟩⟩
  intro imm himm
  simp only [List.mem_cons, List.not_mem_nil, or_false] at himm
  rcases himm with rfl | rfl | rfl <;>
    exact ⟨⟨by decide, by decide⟩, by decide, by decide, by decide, _, rfl, by decide⟩

theorem witness_OnlyCommittingStoresWrite :
    let s := { after 2 small [.sw 1 0 60#32] with lsq := [storeAt8 0 (.value 5#32)] }
    s.Clocked ∧ s.clock.dmem ≠ s.dmem := ⟨⟨by decide, by decide⟩, by decide⟩

/-- A cycle that writes a register, and one that writes none. -/
theorem witness_OneRegisterWrite :
    (let s := after 3 small [.addi 1 0 5#32]
     s.Clocked ∧ s.retires = true ∧ s.headEntry.dest = some 1) ∧
    (booted small []).Clocked := ⟨⟨⟨by decide, by decide⟩, by decide⟩, ⟨by decide, by decide⟩⟩

/-- A retiring head, an EBREAK at the head, and neither. -/
theorem witness_RetireEvents :
    (let s := after 3 small [.addi 1 0 5#32]
     s.Clocked ∧ s.retires = true) ∧
    (let s := after 2 small [.ebreak]
     s.Clocked ∧ commitDecision s = .ebreak s.headEntry) ∧
    (let s := booted small []
     s.Clocked ∧ commitDecision s = .wait ∧ s.retires = false) :=
  ⟨⟨⟨by decide, by decide⟩, by decide⟩, ⟨⟨by decide, by decide⟩, by decide⟩,
    ⟨⟨by decide, by decide⟩, by decide⟩⟩

theorem witness_SquashClears :
    let s := after 3 small [.jal 1 8#32]
    s.Clocked ∧ s.squashes = true := ⟨⟨by decide, by decide⟩, by decide⟩

/-- EBREAK, a Fault entry, a faulting load, and a store whose check fails, misaligned or past the end, at
the head. -/
theorem witness_HaltCycles :
    (let s := after 2 small [.ebreak]
     s.Clocked ∧ s.robCount ≠ 0 ∧ s.headEntry.ready = true ∧ s.headEntry.kind = .ebreak) ∧
    (let s := after 2 small []
     s.Clocked ∧ s.robCount ≠ 0 ∧ s.headEntry.ready = true ∧ s.headEntry.kind = .fault ∧
      s.headEntry.fault = some ⟨.decodeError, 0#32⟩) ∧
    (let s := after 3 small [.lw 1 0 2#32]
     s.Clocked ∧ s.robCount ≠ 0 ∧ s.headEntry.ready = true ∧ s.headEntry.kind = .load ∧
      s.headEntry.fault = some ⟨.misalignedAccess .load, 2#32⟩) ∧
    (∀ imm ∈ [62#32, 64#32],
      let s := after 2 small [.sw 1 0 imm]
      s.Clocked ∧ s.robCount ≠ 0 ∧ s.headEntry.kind = .store ∧
        ∃ e d, s.lsq[0]? = some e ∧ e.busy = true ∧ e.tag = s.robHead ∧ e.base = .value 0 ∧
          e.imm = imm ∧ e.data = .value d ∧ (s.lsq[1]?.map LsqEntry.busy) = some false) := by
  refine ⟨⟨⟨by decide, by decide⟩, by decide⟩, ⟨⟨by decide, by decide⟩, by decide⟩,
    ⟨⟨by decide, by decide⟩, by decide⟩, ?_⟩
  intro imm himm
  simp only [List.mem_cons, List.not_mem_nil, or_false] at himm
  rcases himm with rfl | rfl <;>
    exact ⟨⟨by decide, by decide⟩, by decide, by decide, _, 0#32, rfl, by decide⟩

/-- A Fault entry, a faulting load and the two failing checks of a store stop the core. -/
theorem witness_DeferredStopsAreTheHeads :
    (let s := after 2 small []
     s.Clocked ∧ s.cfg.faultPolicy = .deferred ∧ s.clock.halt = .fatal .decodeError 0#32 0#32) ∧
    (let s := after 3 small [.lw 1 0 2#32]
     s.Clocked ∧ s.clock.halt = .fatal (.misalignedAccess .load) 0#32 2#32) ∧
    (let s := after 2 small [.sw 1 0 62#32]
     s.Clocked ∧ s.clock.halt = .fatal (.misalignedAccess .store) 0#32 62#32) ∧
    (let s := after 2 small [.sw 1 0 64#32]
     s.Clocked ∧ s.clock.halt = .fatal .outOfBoundsMemoryAccess 0#32 64#32) :=
  ⟨⟨⟨by decide, by decide⟩, by decide⟩, ⟨⟨by decide, by decide⟩, by decide⟩,
    ⟨⟨by decide, by decide⟩, by decide⟩, ⟨⟨by decide, by decide⟩, by decide⟩⟩

/-- A state of the early stop and its Deferred counterpart, as the statement needs them. -/
theorem deferred_steps (n : Nat) (code : List Instr)
    (h : (after n smallImmediate code).halt = .running)
    (hl : (after n smallImmediate code).level = .cycle) :
    let s := after n smallImmediate code
    let d := { s with cfg := { s.cfg with faultPolicy := .deferred } }
    s.Clocked ∧ step d = .next d.clock := ⟨⟨h, hl⟩, step_at_cycles _ h hl⟩

/-- A fault in the latch alone, of the selected load alone, of both, and of neither. -/
theorem witness_ImmediateStops :
    (let s := after 1 smallImmediate []
     s.cfg.faultPolicy = .immediate ∧ s.flows = true ∧ s.fl.valid = true ∧
      latchMicroOp s.fl = .fault ⟨.decodeError, 0#32⟩ ∧ selectLoad s = none) ∧
    (let s := after 2 smallImmediate [.lw 1 0 2#32, .addi 2 0 6#32]
     s.cfg.faultPolicy = .immediate ∧ s.flows = true ∧
      latchMicroOp s.fl = .instr (decodedOf (.addi 2 0 6#32) 4 false 8) ∧
      (selectLoad s).bind (fun l => l.payload.fault) = some ⟨.misalignedAccess .load, 2#32⟩) ∧
    (let s := after 2 smallImmediate [.lw 1 0 2#32]
     s.flows = true ∧ latchMicroOp s.fl = .fault ⟨.decodeError, 4#32⟩ ∧
      (selectLoad s).bind (fun l => l.payload.fault) = some ⟨.misalignedAccess .load, 2#32⟩) ∧
    (let s := after 2 smallImmediate [.lw 1 0 4#32, .addi 2 0 6#32]
     s.flows = true ∧ (selectLoad s).map (fun l => l.payload.fault) = some none ∧
      latchMicroOp s.fl = .instr (decodedOf (.addi 2 0 6#32) 4 false 8)) ∧
    (∀ run ∈ [(1, []), (2, [Instr.lw 1 0 2#32, .addi 2 0 6#32]), (2, [.lw 1 0 2#32]),
        (2, [.lw 1 0 4#32, .addi 2 0 6#32])],
      let s := after run.1 smallImmediate run.2
      let d := { s with cfg := { s.cfg with faultPolicy := .deferred } }
      s.Clocked ∧ step d = .next d.clock) := by
  refine ⟨by decide, by decide, by decide, by decide, ?_⟩
  intro run hrun
  simp only [List.mem_cons, List.not_mem_nil, or_false] at hrun
  rcases hrun with rfl | rfl | rfl | rfl <;> exact deferred_steps _ _ (by decide) (by decide)

theorem witness_FirstInstructionCommitsInCycleThree :
    small.faultPolicy = .deferred ∧
    State.boot small ([Instr.auipc 5 0x1000#32].map encode) [] =
      .next (booted small [.auipc 5 0x1000#32]) ∧
    ([Instr.auipc 5 0x1000#32].map encode)[0]? = some 0x00001297#32 ∧
    decode 0x00001297#32 = some (.auipc 5 0x1000#32) ∧
    opKind (instrOp (.auipc 5 0x1000#32)) = .alu :=
  ⟨by decide, boot_of_booted _ _ (by decide), by decide, by decide, by decide⟩

/-- Another instance with the same memories and registers. -/
def other : Config :=
  { Config.standard with depthLog := 4, dataBase := 0#32, faultPolicy := .immediate }

theorem witness_SequentialIgnoresMicroarchitecture :
    other.depthLog = small.depthLog ∧ other.codeBase = small.codeBase ∧
    other.dataBase = small.dataBase ∧ other.initX = small.initX ∧
    other.initFill = small.initFill ∧
    State.boot small ([Instr.addi 1 0 5#32].map encode) [] =
      .next (booted small [.addi 1 0 5#32]) ∧
    State.boot other ([Instr.addi 1 0 5#32].map encode) [] =
      .next (booted other [.addi 1 0 5#32]) :=
  ⟨by decide, by decide, by decide, by decide, by decide, boot_of_booted _ _ (by decide),
    boot_of_booted _ _ (by decide)⟩

theorem witness_CorrectnessContract :
    small.faultPolicy = .deferred ∧
    State.boot small (busyProgram.map encode) [] = .next (booted small busyProgram) :=
  ⟨by decide, boot_of_booted _ _ (by decide)⟩

theorem witness_EverySequentialStepIsReached :
    small.faultPolicy = .deferred ∧
    State.boot small (busyProgram.map encode) [] = .next (booted small busyProgram) ∧
    (steps 5 (booted small busyProgram).atInstructions).halt = .halted :=
  ⟨by decide, boot_of_booted _ _ (by decide), by decide⟩

/-- The contract on one run: registers, memory, events and status of the two levels. -/
theorem test_contract_on_one_run :
    (after 12 small busyProgram).halt = .halted ∧
    (after 12 small busyProgram).AgreesWith
      (steps 5 (booted small busyProgram).atInstructions) :=
  ⟨by decide, by decide, by decide, by decide, by decide, by decide⟩

end Sys2Proof.Tests
end

