-- ==== Sys2Proof/Proofs/Sequential.lean ====
section
/-! PROOF. The sequential semantics as one function of the instruction's kind, and the statements about
a single step. -/

namespace Sys2Proof.Machine

/-- The payload the units owe the instruction `i` at `pc_a` of `σ` under tag `t`: what the sequential
semantics says about its value, its control transfer and its fault (60 R610, 10 R54). -/
def seqPayload (σ : State) (t : Nat) (i : Instr) : Payload :=
  match opKind (instrOp i) with
  | .alu | .branch | .jump =>
    aluPayload ⟨0, t, instrOp i, σ.reg (instrRs1 i), σ.reg (instrRs2 i), instrImm i, σ.pcA⟩
  | .mulDiv => unitPayload ⟨t, instrOp i, σ.reg (instrRs1 i), σ.reg (instrRs2 i)⟩
  | .load =>
    match loadCheck σ.cfg (instrOp i) (effectiveAddress (σ.reg (instrRs1 i)) (instrImm i)) with
    | some kind =>
      { tag := t, value := 0, ctrl := none
        fault := some ⟨kind, effectiveAddress (σ.reg (instrRs1 i)) (instrImm i)⟩ }
    | none =>
      { tag := t
        value := loadFromMemory σ (instrOp i) (effectiveAddress (σ.reg (instrRs1 i)) (instrImm i))
        ctrl := none, fault := none }
  | .store | .ebreak | .fault => { tag := t, value := 0, ctrl := none, fault := none }

/-- The state one instruction leaves, by its kind. -/
def seqResult (σ : State) (i : Instr) : State :=
  match opKind (instrOp i) with
  | .store =>
    match accessCheck σ.cfg .store 4 (effectiveAddress (σ.reg (instrRs1 i)) (instrImm i)) with
    | some kind => σ.raise kind σ.pcA (effectiveAddress (σ.reg (instrRs1 i)) (instrImm i))
    | none =>
      { σ.complete none 0 (σ.pcA + 4) with
        dmem := σ.dmemStore (effectiveAddress (σ.reg (instrRs1 i)) (instrImm i))
          (σ.reg (instrRs2 i)) }
  | .ebreak => { σ.complete none 0 σ.pcA with halt := .halted }
  | .alu | .branch | .jump | .load | .mulDiv | .fault =>
    match (seqPayload σ 0 i).fault with
    | some f => σ.raise f.kind σ.pcA f.addr
    | none =>
      σ.complete (destOf (instrRd i)) (seqPayload σ 0 i).value
        (nextPc σ.pcA (seqPayload σ 0 i).ctrl)

/-- A load is its payload: the fault stops the core, the value goes to the destination. -/
theorem completeLoad_eq (i : Instr) (σ : State) (h : opKind (instrOp i) = .load) :
    completeLoad (instrOp i) (instrRd i) (effectiveAddress (σ.reg (instrRs1 i)) (instrImm i)) σ =
      .next (seqResult σ i) := by
  simp only [seqResult, seqPayload, h, completeLoad, loadCheck]
  cases accessCheck σ.cfg .load (opWidth (instrOp i))
    (effectiveAddress (σ.reg (instrRs1 i)) (instrImm i)) <;> rfl

theorem completeStore_eq (i : Instr) (σ : State) (h : opKind (instrOp i) = .store) :
    completeStore (effectiveAddress (σ.reg (instrRs1 i)) (instrImm i)) (σ.reg (instrRs2 i)) σ =
      .next (seqResult σ i) := by
  simp only [seqResult, h, completeStore]
  cases accessCheck σ.cfg .store 4
    (effectiveAddress (σ.reg (instrRs1 i)) (instrImm i)) <;> rfl

/-- Every arm of `exec` answers the result of its kind. -/
theorem exec_eq (i : Instr) (σ : State) : exec i σ = .next (seqResult σ i) := by
  cases i with
  | lw rd rs1 imm => exact completeLoad_eq (.lw rd rs1 imm) σ rfl
  | lbu rd rs1 imm => exact completeLoad_eq (.lbu rd rs1 imm) σ rfl
  | sw rs2 rs1 imm => exact completeStore_eq (.sw rs2 rs1 imm) σ rfl
  | _ => rfl

/-- One iteration of the loop of 60 R610 as a function of the state. -/
def seqNext (σ : State) : State :=
  match sequentialFetch σ σ.pcA with
  | .error kind => σ.raise kind σ.pcA σ.pcA
  | .ok i => seqResult σ i

theorem instructionStep_eq (σ : State) : instructionStep σ = .next (seqNext σ) := by
  unfold instructionStep seqNext
  cases sequentialFetch σ σ.pcA with
  | error kind => rfl
  | ok i => exact exec_eq i σ

/-! ### What the result of an instruction can be -/

/-- The instruction stops the core with a fault, stores, halts, or completes with its payload. -/
theorem seqResult_cases (σ : State) (i : Instr) :
    (∃ kind addr, seqResult σ i = σ.raise kind σ.pcA addr) ∨
    (∃ ea v, accessCheck σ.cfg .store 4 ea = none ∧ seqResult σ i =
      { σ.complete none 0 (σ.pcA + 4) with dmem := σ.dmemStore ea v }) ∨
    seqResult σ i = { σ.complete none 0 σ.pcA with halt := .halted } ∨
    (∃ v next, seqResult σ i = σ.complete (destOf (instrRd i)) v next) := by
  unfold seqResult
  cases opKind (instrOp i) with
  | store =>
    cases h : accessCheck σ.cfg .store 4 (effectiveAddress (σ.reg (instrRs1 i)) (instrImm i)) with
    | some kind => exact .inl ⟨kind, _, rfl⟩
    | none => exact .inr (.inl ⟨_, _, h, rfl⟩)
  | ebreak => exact .inr (.inr (.inl rfl))
  | _ =>
    cases (seqPayload σ 0 i).fault with
    | some f => exact .inl ⟨f.kind, f.addr, rfl⟩
    | none => exact .inr (.inr (.inr ⟨_, _, rfl⟩))

/-- An instruction changes none of parameters, level and instruction memory. -/
theorem seqResult_frame (σ : State) (i : Instr) :
    (seqResult σ i).cfg = σ.cfg ∧ (seqResult σ i).level = σ.level ∧
      (seqResult σ i).imem = σ.imem := by
  obtain ⟨k, a, h⟩ | ⟨ea, v, -, h⟩ | h | ⟨v, next, h⟩ := seqResult_cases σ i <;> rw [h] <;>
    exact ⟨rfl, rfl, rfl⟩

theorem seqNext_frame (σ : State) :
    (seqNext σ).cfg = σ.cfg ∧ (seqNext σ).level = σ.level ∧ (seqNext σ).imem = σ.imem := by
  unfold seqNext
  cases sequentialFetch σ σ.pcA with
  | error kind => exact ⟨rfl, rfl, rfl⟩
  | ok i => exact seqResult_frame σ i

/-! ### The clock cycle's frame -/

theorem withImmediateStop_frame (s n : State) :
    (withImmediateStop s n).cfg = n.cfg ∧ (withImmediateStop s n).level = n.level ∧
      (withImmediateStop s n).imem = n.imem := by
  obtain h | ⟨st, -, h⟩ := withImmediateStop_cases s n <;> rw [h] <;> exact ⟨rfl, rfl, rfl⟩

/-- A clock cycle changes none of parameters, level and instruction memory. -/
theorem clock_frame (s : State) :
    s.clock.cfg = s.cfg ∧ s.clock.level = s.level ∧ s.clock.imem = s.imem := by
  obtain ⟨st, -, h⟩ | ⟨e, -, h⟩ | ⟨r, -, -, h⟩ | ⟨r, -, -, h⟩ | ⟨-, h⟩ := clock_cases s
  · rw [h]; exact ⟨rfl, rfl, rfl⟩
  · rw [h]; exact ⟨rfl, rfl, rfl⟩
  · rw [h]; exact ⟨rfl, rfl, rfl⟩
  · rw [h]; exact withImmediateStop_frame s (s.advance (some r))
  · rw [h]; exact withImmediateStop_frame s (s.advance none)

/-- Settles O25: the three things a step can be each answer a state with the same parameters, level and
instruction memory. -/
theorem parametersAndCodeFixed : Obligations.ParametersAndCodeFixed := by
  intro s
  obtain ⟨-, h⟩ | ⟨-, -, h⟩ | ⟨-, -, h⟩ := step_cases s
  · exact ⟨s, h, rfl, rfl, rfl⟩
  · exact ⟨s.clock, h, clock_frame s⟩
  · exact ⟨seqNext s, h.trans (instructionStep_eq s), seqNext_frame s⟩

end Sys2Proof.Machine
end


-- ==== Sys2Proof/Proofs/Runs.lean ====
section
/-! PROOF. Runs of either level, one step at a time. -/

namespace Sys2Proof.Machine

theorem steps_succ_of_next {s t : State} (n : Nat) (h : step s = .next t) :
    steps (n + 1) s = steps n t := by
  simp only [steps, h]

/-- Every step answers a next state, so a run is extended at its end. -/
theorem steps_succ (n : Nat) (s : State) : step (steps n s) = .next (steps (n + 1) s) := by
  induction n generalizing s with
  | zero =>
    obtain ⟨t, ht, -⟩ := parametersAndCodeFixed s
    rw [steps_succ_of_next 0 ht]
    exact ht
  | succ n ih =>
    obtain ⟨t, ht, -⟩ := parametersAndCodeFixed s
    rw [steps_succ_of_next n ht, steps_succ_of_next (n + 1) ht]
    exact ih t

theorem steps_add (m n : Nat) (s : State) : steps (m + n) s = steps n (steps m s) := by
  induction m generalizing s with
  | zero => rw [Nat.zero_add]; rfl
  | succ m ih =>
    obtain ⟨t, ht, -⟩ := parametersAndCodeFixed s
    rw [Nat.add_right_comm, steps_succ_of_next _ ht, steps_succ_of_next _ ht, ih]

theorem steps_succ_of_stopped {n : Nat} {s : State} (h : (steps n s).halt ≠ .running) :
    steps (n + 1) s = steps n s :=
  Host.Outcome.next.inj ((steps_succ n s).symm.trans (step_of_stopped _ h))

/-- No run changes parameters, level or instruction memory. -/
theorem steps_frame (n : Nat) (s : State) :
    (steps n s).cfg = s.cfg ∧ (steps n s).level = s.level ∧ (steps n s).imem = s.imem := by
  induction n with
  | zero => exact ⟨rfl, rfl, rfl⟩
  | succ n ih =>
    obtain ⟨t, ht, hc, hl, hi⟩ := parametersAndCodeFixed (steps n s)
    obtain rfl := Host.Outcome.next.inj ((steps_succ n s).symm.trans ht)
    exact ⟨hc.trans ih.1, hl.trans ih.2.1, hi.trans ih.2.2⟩

theorem steps_succ_clock {n : Nat} {s : State} (hl : s.level = .cycle)
    (h : (steps n s).halt = .running) : steps (n + 1) s = (steps n s).clock :=
  Host.Outcome.next.inj
    ((steps_succ n s).symm.trans (step_at_cycles _ h ((steps_frame n s).2.1.trans hl)))

theorem steps_succ_seqNext {n : Nat} {s : State} (hl : s.level = .instruction)
    (h : (steps n s).halt = .running) : steps (n + 1) s = seqNext (steps n s) :=
  Host.Outcome.next.inj ((steps_succ n s).symm.trans
    ((step_at_instructions _ h ((steps_frame n s).2.1.trans hl)).trans (instructionStep_eq _)))

/-! ### What the sequential semantics reads -/

/-- Two states the sequential semantics cannot tell apart: everything 60 R610 reads is the same. -/
structure State.SeqAlike (a b : State) : Prop where
  depthLog : b.cfg.depthLog = a.cfg.depthLog
  initFill : b.cfg.initFill = a.cfg.initFill
  level : b.level = a.level
  imem : b.imem = a.imem
  x : b.x = a.x
  dmem : b.dmem = a.dmem
  halt : b.halt = a.halt
  pcA : b.pcA = a.pcA
  retired : b.retired = a.retired

/-- Of the parameters an access check reads the memory size only. -/
theorem accessCheck_congr {c c' : Config} (h : c'.depthLog = c.depthLog) (hit : Access) (n : Nat)
    (a : Word) : accessCheck c' hit n a = accessCheck c hit n a := by
  have hb : c'.memBytes = c.memBytes := by simp only [Config.memBytes, h]
  unfold accessCheck outOfBounds
  rw [hb]

section
variable {a b : State}

theorem State.SeqAlike.reg (h : a.SeqAlike b) (r : Reg) : b.reg r = a.reg r := by
  simp only [State.reg, h.x]

theorem State.SeqAlike.accessCheck (h : a.SeqAlike b) (hit : Access) (n : Nat) (v : Word) :
    accessCheck b.cfg hit n v = accessCheck a.cfg hit n v :=
  accessCheck_congr h.depthLog hit n v

theorem State.SeqAlike.sequentialFetch (h : a.SeqAlike b) (pc : Word) :
    sequentialFetch b pc = sequentialFetch a pc := by
  simp only [Machine.sequentialFetch, fetchCheck, h.accessCheck, State.imemWord, h.imem, h.initFill]

theorem State.SeqAlike.seqPayload (h : a.SeqAlike b) (t : Nat) (i : Instr) :
    seqPayload b t i = seqPayload a t i := by
  simp only [Machine.seqPayload, h.reg, h.pcA, loadCheck, h.accessCheck, loadFromMemory, h.dmem,
    h.initFill]

theorem retired_append (s : State) (e : RetireEvent) (t : State) (h : t.log = s.log ++ [e]) :
    t.retired = s.retired ++ [(e.pc, e.value)] := by
  simp [State.retired, h]

theorem retired_complete (s : State) (d : Option Reg) (v n : Word) :
    (s.complete d v n).retired = s.retired ++ [(s.pcA, d.map fun _ => v)] :=
  retired_append s (retireEvent s s.robHead s.pcA d v) _ rfl

theorem pcA_raise (s : State) (k : FaultKind) (pc addr : Word) (hs : s.halt = .running) :
    (s.raise k pc addr).pcA = s.pcA := by
  simp only [State.pcA, State.raise_halt, hs]
  rfl

/-- After EBREAK the architectural pc is that of the last event (44 R340). -/
theorem pcA_of_last_event (s : State) (l : List RetireEvent) (e : RetireEvent)
    (hh : s.halt = .halted) (hl : s.log = l ++ [e]) : s.pcA = e.pc := by
  simp [State.pcA, hh, hl]

theorem pcA_ebreak (s : State) :
    ({ s.complete none 0 s.pcA with halt := .halted } : State).pcA = s.pcA :=
  pcA_of_last_event _ s.log (retireEvent s s.robHead s.pcA none 0) rfl rfl

theorem State.SeqAlike.raise (h : a.SeqAlike b) (hr : a.halt = .running) (k : FaultKind)
    (addr : Word) : (a.raise k a.pcA addr).SeqAlike (b.raise k b.pcA addr) where
  depthLog := h.depthLog
  initFill := h.initFill
  level := h.level
  imem := h.imem
  x := h.x
  dmem := h.dmem
  halt := by rw [State.raise_halt, State.raise_halt, h.pcA]
  pcA := by rw [pcA_raise _ _ _ _ hr, pcA_raise _ _ _ _ (h.halt.trans hr), h.pcA]
  retired := h.retired

theorem State.SeqAlike.complete (h : a.SeqAlike b) (hr : a.halt = .running) (d : Option Reg)
    (v n : Word) : (a.complete d v n).SeqAlike (b.complete d v n) where
  depthLog := h.depthLog
  initFill := h.initFill
  level := h.level
  imem := h.imem
  x := by rw [State.complete_x, State.complete_x, h.x]
  dmem := h.dmem
  halt := h.halt
  pcA := by rw [State.pcA_complete _ _ _ _ hr, State.pcA_complete _ _ _ _ (h.halt.trans hr)]
  retired := by rw [retired_complete, retired_complete, h.retired, h.pcA]

theorem State.SeqAlike.store (h : a.SeqAlike b) (hr : a.halt = .running) (n : Word) (m : Memory) :
    ({ a.complete none 0 n with dmem := m } : State).SeqAlike
      { b.complete none 0 n with dmem := m } :=
  { h.complete hr none 0 n with dmem := rfl }

theorem State.SeqAlike.ebreak (h : a.SeqAlike b) (hr : a.halt = .running) :
    ({ a.complete none 0 a.pcA with halt := .halted } : State).SeqAlike
      { b.complete none 0 b.pcA with halt := .halted } :=
  { h.complete hr none 0 a.pcA with
    halt := rfl
    pcA := by rw [pcA_ebreak, pcA_ebreak, h.pcA]
    retired := by
      change (b.complete none 0 b.pcA).retired = (a.complete none 0 a.pcA).retired
      rw [retired_complete, retired_complete, h.retired, h.pcA] }

theorem State.SeqAlike.seqResult (h : a.SeqAlike b) (hr : a.halt = .running) (i : Instr) :
    (seqResult a i).SeqAlike (seqResult b i) := by
  unfold Machine.seqResult
  rw [h.seqPayload, h.reg, h.reg, h.accessCheck]
  have hstore : ∀ ea v, b.dmemStore ea v = a.dmemStore ea v := by
    intro ea v; simp only [State.dmemStore, h.dmem, h.initFill]
  cases opKind (instrOp i) with
  | store =>
    cases Machine.accessCheck a.cfg .store 4 (effectiveAddress (a.reg (instrRs1 i)) (instrImm i)) with
    | some kind => exact h.raise hr kind _
    | none => simp only [hstore, h.pcA]; exact h.store hr _ _
  | ebreak => exact h.ebreak hr
  | _ =>
    cases (Machine.seqPayload a 0 i).fault with
    | some f => exact h.raise hr f.kind f.addr
    | none => simp only [h.pcA]; exact h.complete hr _ _ _

theorem State.SeqAlike.seqNext (h : a.SeqAlike b) (hr : a.halt = .running) :
    (seqNext a).SeqAlike (seqNext b) := by
  unfold Machine.seqNext
  rw [h.pcA, h.sequentialFetch]
  cases Machine.sequentialFetch a a.pcA with
  | error kind =>
    have := h.raise hr kind a.pcA
    rwa [h.pcA] at this
  | ok i => exact h.seqResult hr i

/-- Runs of the sequential semantics from states it cannot tell apart stay so. -/
theorem State.SeqAlike.steps (h : a.SeqAlike b) (hl : a.level = .instruction) (n : Nat) :
    (steps n a).SeqAlike (steps n b) := by
  induction n with
  | zero => exact h
  | succ n ih =>
    by_cases hr : (Machine.steps n a).halt = .running
    · rw [steps_succ_seqNext hl hr, steps_succ_seqNext (h.level.trans hl) (ih.halt.trans hr)]
      exact ih.seqNext hr
    · rw [steps_succ_of_stopped hr, steps_succ_of_stopped (ih.halt.symm ▸ hr)]
      exact ih

end

/-! ### Start states -/

/-- What a workload starts from: the reset state with the two images placed (70 R655). -/
theorem boot_eq_next {cfg : Config} {code : List Word} {data : List Byte} {s : State}
    (h : State.boot cfg code data = .next s) :
    cfg.legal = true ∧ imageFits cfg cfg.codeBase (4 * code.length) = true ∧
      imageFits cfg cfg.dataBase data.length = true ∧
      s = { State.initial cfg with
            imem := Memory.writeBytes cfg.initFill [] cfg.codeBase.toNat (imageOfWords code)
            dmem := Memory.writeBytes cfg.initFill [] cfg.dataBase.toNat data } := by
  unfold State.boot at h
  split_ifs at h with hlegal hfit
  rw [Bool.and_eq_true] at hfit
  cases h
  exact ⟨by simpa using hlegal, hfit.1, hfit.2, rfl⟩

/-- Settles O58: the start states are alike for the sequential semantics, and it keeps them so. -/
theorem sequentialIgnoresMicroarchitecture : Obligations.SequentialIgnoresMicroarchitecture := by
  intro cfg cfg' code data s s' n hdepth hcode hdata hx hfill hs hs'
  obtain ⟨-, -, -, rfl⟩ := boot_eq_next hs
  obtain ⟨-, -, -, rfl⟩ := boot_eq_next hs'
  have hstart : State.SeqAlike
      (State.atInstructions { State.initial cfg with
        imem := Memory.writeBytes cfg.initFill [] cfg.codeBase.toNat (imageOfWords code)
        dmem := Memory.writeBytes cfg.initFill [] cfg.dataBase.toNat data })
      (State.atInstructions { State.initial cfg' with
        imem := Memory.writeBytes cfg'.initFill [] cfg'.codeBase.toNat (imageOfWords code)
        dmem := Memory.writeBytes cfg'.initFill [] cfg'.dataBase.toNat data }) :=
    { depthLog := hdepth
      initFill := hfill
      level := rfl
      imem := by simp only [State.atInstructions_imem, hfill, hcode]
      x := by simp only [State.atInstructions_x, State.initial, registersAtReset, hx]
      dmem := by simp only [State.atInstructions_dmem, hfill, hdata]
      halt := rfl
      pcA := hcode
      retired := rfl }
  have hend := hstart.steps rfl n
  exact ⟨hend.x, hend.dmem, hend.halt, hend.pcA, hend.retired⟩

end Sys2Proof.Machine
end


-- ==== Sys2Proof/Proofs/Tags.lean ====
section
/-! PROOF. Tags and ages as natural numbers (00 R14, 49 R547), and counting in lists with one entry
changed. -/

namespace Sys2Proof.Machine

/-! ### Tags and ages -/

section
variable {s : State}

/-- The distance from the head, without `mod`. -/
theorem age_eq (hh : s.robHead < s.cfg.robSize) {t : Nat} (ht : t < s.cfg.robSize) :
    s.age t = if s.robHead ≤ t then t - s.robHead else t + s.cfg.robSize - s.robHead := by
  unfold State.age
  rw [Nat.mod_eq_of_lt hh]
  split
  · rw [show t + (s.cfg.robSize - s.robHead) = t - s.robHead + s.cfg.robSize by omega,
      Nat.add_mod_right, Nat.mod_eq_of_lt (by omega)]
  · rw [Nat.mod_eq_of_lt (by omega)]
    omega

theorem nextTag_eq {cfg : Config} {t : Nat} (ht : t < cfg.robSize) :
    nextTag cfg t = if t + 1 = cfg.robSize then 0 else t + 1 := by
  unfold nextTag
  split
  · rw [‹t + 1 = cfg.robSize›, Nat.mod_self]
  · exact Nat.mod_eq_of_lt (by omega)

/-- The tag `k` places behind the head. -/
def State.tagAt (s : State) (k : Nat) : Nat := (s.robHead + k) % s.cfg.robSize

theorem tagAt_eq (hh : s.robHead < s.cfg.robSize) {k : Nat} (hk : k ≤ s.cfg.robSize) :
    s.tagAt k =
      if s.robHead + k < s.cfg.robSize then s.robHead + k else s.robHead + k - s.cfg.robSize := by
  unfold State.tagAt
  split
  · exact Nat.mod_eq_of_lt ‹_›
  · rw [Nat.mod_eq_sub_mod (by omega), Nat.mod_eq_of_lt (by omega)]

theorem tagAt_lt (hh : s.robHead < s.cfg.robSize) (k : Nat) : s.tagAt k < s.cfg.robSize :=
  Nat.mod_lt _ (by omega)

theorem tagAt_zero (hh : s.robHead < s.cfg.robSize) : s.tagAt 0 = s.robHead :=
  Nat.mod_eq_of_lt hh

theorem age_tagAt (hh : s.robHead < s.cfg.robSize) {k : Nat} (hk : k < s.cfg.robSize) :
    s.age (s.tagAt k) = k := by
  rw [age_eq hh (tagAt_lt hh k), tagAt_eq hh (by omega)]
  split_ifs <;> omega

theorem tagAt_age (hh : s.robHead < s.cfg.robSize) {t : Nat} (ht : t < s.cfg.robSize) :
    s.tagAt (s.age t) = t := by
  rw [tagAt_eq hh (s.age_lt t (by omega)).le, age_eq hh ht]
  split_ifs <;> omega

theorem age_head (hh : s.robHead < s.cfg.robSize) : s.age s.robHead = 0 := by
  rw [age_eq hh hh]; simp

theorem age_inj (hh : s.robHead < s.cfg.robSize) {t u : Nat} (ht : t < s.cfg.robSize)
    (hu : u < s.cfg.robSize) (h : s.age t = s.age u) : t = u := by
  rw [← tagAt_age hh ht, ← tagAt_age hh hu, h]

theorem validTag_iff {t : Nat} :
    s.validTag t = true ↔ t < s.cfg.robSize ∧ s.age t < s.robCount := by
  simp [State.validTag]

theorem validTag_tagAt (hh : s.robHead < s.cfg.robSize) (hc : s.robCount ≤ s.cfg.robSize) {k : Nat}
    (hk : k < s.robCount) : s.validTag (s.tagAt k) = true :=
  validTag_iff.2 ⟨tagAt_lt hh k, by rw [age_tagAt hh (by omega)]; exact hk⟩

end

/-! ### One bit as a number -/

@[simp] theorem countIf_true : countIf true = 1 := rfl
@[simp] theorem countIf_false : countIf false = 0 := rfl

theorem countIf_pos {c : Bool} : 0 < countIf c ↔ c = true := by cases c <;> simp

/-! ### Counting after one entry changed -/

theorem countP_set_getElem? {α : Type} (p : α → Bool) {l : List α} {i : Nat} {e : α} (a : α)
    (h : l[i]? = some e) :
    (l.set i a).countP p + countIf (p e) = l.countP p + countIf (p a) := by
  obtain ⟨hi, rfl⟩ := List.getElem?_eq_some_iff.1 h
  rw [List.countP_set hi]
  have hpos : p l[i] = true → 0 < l.countP p :=
    fun hp => List.countP_pos_iff.2 ⟨_, List.getElem_mem hi, hp⟩
  cases hp : p l[i] <;> cases p a <;> simp
  all_goals have := hpos hp; omega

theorem countP_modify_getElem? {α : Type} (p : α → Bool) {l : List α} {i : Nat} {e : α} (f : α → α)
    (h : l[i]? = some e) :
    (l.modify i f).countP p + countIf (p e) = l.countP p + countIf (p (f e)) := by
  rw [List.modify_eq_set_getElem?, h]
  exact countP_set_getElem? p (f e) h

theorem countP_map_eq {α : Type} (p : α → Bool) (f : α → α) (l : List α)
    (h : ∀ e, p (f e) = p e) : (l.map f).countP p = l.countP p := by
  rw [List.countP_map]
  exact List.countP_congr fun e _ => by simp [h]

/-- Counting in a list shifted by one place. -/
theorem countP_shift {α : Type} (p : α → Bool) (a : α) (l : List α) (z : α)
    (h : l.getLast? = some z) :
    ((a :: l).dropLast).countP p + countIf (p z) = l.countP p + countIf (p a) := by
  obtain ⟨l', rfl⟩ := List.getLast?_eq_some_iff.1 h
  rw [← List.cons_append, List.dropLast_concat, List.countP_cons, List.countP_append]
  cases hz : p z <;> cases ha : p a <;> simp [hz]

end Sys2Proof.Machine
end


-- ==== Sys2Proof/Proofs/Signals.lean ====
section
/-! PROOF. The same-cycle signals and dispatch: where a selection, a request and an allocation come
from. -/

namespace Sys2Proof.Machine

section
variable {s : State}

/-! ### The signals -/

@[simp] theorem signals_alu (s : State) : (signals s).alu = selectAlu s := rfl
@[simp] theorem signals_load (s : State) : (signals s).load = selectLoad s := rfl
theorem signals_win (s : State) : (signals s).win = arbitrate s (selectAlu s) (selectLoad s) := rfl
theorem signals_mul (s : State) :
    (signals s).mul = if (signals s).mulAdvances then selectRs s .mul else none := rfl
theorem signals_div (s : State) :
    (signals s).div = if (signals s).divAdvances then selectRs s .div else none := rfl

/-- The request of a requester in this cycle. -/
abbrev State.requests (s : State) (r : Requester) : Option Payload :=
  request s (selectAlu s) (selectLoad s) r

/-- The bus has no winner and no broadcast, or one winner whose request is the broadcast. -/
theorem win_cases (s : State) :
    ((∀ r, wonBy (signals s).win r = false) ∧ (signals s).broadcast = none) ∨
    ∃ r p, s.requests r = some p ∧ (signals s).broadcast = some p ∧
      ∀ q, wonBy (signals s).win q = decide (r = q) := by
  cases h : (signals s).win with
  | none => exact .inl ⟨fun r => rfl, by simp [Signals.broadcast, h]⟩
  | some rp =>
    obtain ⟨r, p⟩ := rp
    exact .inr ⟨r, p, (arbitrate_request s _ _ r p h).2, by simp [Signals.broadcast, h],
      fun q => rfl⟩

/-- What an issue from the reservation station to the unit `u` is: a busy entry of that unit with both
operands resolved. -/
structure IssuedFrom (rs : List RsEntry) (u : ExecUnit) (c : Issued) (e : RsEntry) : Prop where
  at_index : rs[c.index]? = some e
  busy : e.busy = true
  unit : opUnit e.op = some u
  j : e.j = .value c.a
  k : e.k = .value c.b
  tag : c.tag = e.dest
  op : c.op = e.op
  imm : c.imm = e.imm
  pc : c.pc = e.pc

theorem selectRs_issued {u : ExecUnit} {c : Issued} (h : selectRs s u = some c) :
    ∃ e, IssuedFrom s.rs u c e := by
  obtain ⟨⟨e, he, hel⟩, -⟩ := selectRs_spec s u c h
  obtain ⟨hb, hu, hj, hk, hc⟩ := (eligibleEntry_eq_some u e c.index c).1 hel
  exact ⟨e, he, hb, hu, hj, hk, by rw [hc], by rw [hc], by rw [hc], by rw [hc]⟩

theorem selectAlu_issued {c : Issued} (h : selectAlu s = some c) :
    s.aluOut = none ∧ ∃ e, IssuedFrom s.rs .alu c e := by
  unfold selectAlu at h
  split_ifs at h with ho
  exact ⟨Option.isNone_iff_eq_none.1 ho, selectRs_issued h⟩

theorem signals_mul_issued {c : Issued} (h : (signals s).mul = some c) :
    ∃ e, IssuedFrom s.rs .mul c e := by
  rw [signals_mul] at h
  split_ifs at h
  exact selectRs_issued h

theorem signals_div_issued {c : Issued} (h : (signals s).div = some c) :
    ∃ e, IssuedFrom s.rs .div c e := by
  rw [signals_div] at h
  split_ifs at h
  exact selectRs_issued h

/-- What the load port selects: a load not yet issued that has a plan other than to wait (48 R510). -/
theorem selectLoad_eligible {l : LoadOut} (h : selectLoad s = some l) :
    s.ldOut = none ∧ ∃ e, s.lsq[l.index]? = some e ∧ isLoadEntry e = true ∧ e.issued = false ∧
      planPayload e.tag (loadPlan s e) = some l.payload := by
  unfold selectLoad at h
  split_ifs at h with ho
  refine ⟨Option.isNone_iff_eq_none.1 ho, ?_⟩
  obtain ⟨⟨e, i⟩, hmem, hl⟩ := List.mem_filterMap.1 (leastBy_spec _ _ _ h).1
  simp only [Option.ite_none_right_eq_some, Bool.and_eq_true, Bool.not_eq_true',
    Option.map_eq_some_iff] at hl
  obtain ⟨⟨hload, hi⟩, p, hp, rfl⟩ := hl
  exact ⟨e, List.mem_zipIdx_iff_getElem?.1 hmem, hload, hi, hp⟩

theorem planPayload_tag {t : Nat} {plan : LoadPlan} {p : Payload} (h : planPayload t plan = some p) :
    p.tag = t := by
  cases plan <;> cases h <;> rfl

/-! ### Dispatch -/

/-- An instruction in the latch is the record of a decoded one, fetched without fault. -/
theorem latchMicroOp_instr {fl : FetchLatch} {d : Decoded} (h : latchMicroOp fl = .instr d) :
    fl.fault = none ∧ ∃ i, decode fl.word = some i ∧
      d = decodedOf i fl.pc fl.predTaken fl.predTarget := by
  unfold latchMicroOp decodeRecord at h
  cases hf : fl.fault with
  | some k => simp [hf] at h
  | none =>
    cases hd : decode fl.word with
    | none => simp [hf, hd] at h
    | some i =>
      simp only [hf, hd, Option.map_some, MicroOp.instr.injEq] at h
      exact ⟨rfl, i, rfl, h.symm⟩

/-- What dispatch allocates: nothing but the ROB entry for a fault or EBREAK, an RS entry for an
instruction of a unit, an LSQ entry for a load or store (46 R403, R405). -/
inductive Allocates (s : State) (b : Option Payload) : Allocation → Prop
  | fault (f : FaultInfo) (h : latchMicroOp s.fl = .fault f) :
    Allocates s b ⟨dispatchedEntry s.fl (.fault f), none, none, none⟩
  | unit (d : Decoded) (i : Nat) (u : ExecUnit) (h : latchMicroOp s.fl = .instr d)
    (hu : opUnit d.op = some u) (hi : freeRs s = some i) :
    Allocates s b ⟨dispatchedEntry s.fl (.instr d), some (i, dispatchedRs s b d s.robTail), none,
      d.dest⟩
  | memory (d : Decoded) (i : Nat) (h : latchMicroOp s.fl = .instr d)
    (hm : opKind d.op = .load ∨ opKind d.op = .store) (hi : freeLsq s = some i) :
    Allocates s b ⟨dispatchedEntry s.fl (.instr d), none, some (i, dispatchedLsq s b d s.robTail),
      d.dest⟩
  | ebreak (d : Decoded) (h : latchMicroOp s.fl = .instr d) (he : opKind d.op = .ebreak) :
    Allocates s b ⟨dispatchedEntry s.fl (.instr d), none, none, d.dest⟩

/-- Without a unit and no memory operation, a mnemonic is EBREAK. -/
theorem opKind_of_no_unit (op : Op) (hu : opUnit op = none) (hm : opIsMemory op = false) :
    opKind op = .ebreak := by
  revert hu hm
  cases op <;> decide

theorem dispatch_allocates {b : Option Payload} {a : Allocation} (h : dispatch s b = some a) :
    s.fl.valid = true ∧ s.robCount < s.cfg.robSize ∧ Allocates s b a := by
  unfold dispatch allocate at h
  split_ifs at h with hv hc
  refine ⟨hv, hc, ?_⟩
  cases hu : latchMicroOp s.fl with
  | fault f =>
    rw [hu] at h
    cases h
    exact .fault f hu
  | instr d =>
    obtain ⟨-, i, -, hd⟩ := latchMicroOp_instr hu
    have hcls : d.cls = opClass d.op := by rw [hd]; rfl
    simp only [hu, hcls] at h
    cases hunit : unitOfClass (opClass d.op) with
    | some u =>
      simp only [hunit, Option.map_eq_some_iff] at h
      obtain ⟨i, hi, rfl⟩ := h
      exact .unit d i u hu hunit hi
    | none =>
      simp only [hunit] at h
      split_ifs at h with hm
      · obtain ⟨i, hi, rfl⟩ := Option.map_eq_some_iff.1 h
        exact .memory d i hu (by simpa [opIsMemory] using hm) hi
      · cases h
        exact .ebreak d hu (opKind_of_no_unit d.op hunit (by simpa using hm))

theorem freeRs_eq_some {i : Nat} (h : freeRs s = some i) :
    ∃ f, s.rs[i]? = some f ∧ f.busy = false := by
  obtain ⟨hi, hb, -⟩ := List.findIdx?_eq_some_iff_getElem.1 h
  exact ⟨s.rs[i], List.getElem?_eq_getElem hi, by simpa using hb⟩

theorem freeLsq_eq_some {i : Nat} (h : freeLsq s = some i) :
    ∃ f, s.lsq[i]? = some f ∧ f.busy = false := by
  obtain ⟨hi, hb, -⟩ := List.findIdx?_eq_some_iff_getElem.1 h
  exact ⟨s.lsq[i], List.getElem?_eq_getElem hi, by simpa using hb⟩

/-- The pc of a dispatched entry is the latch's. -/
theorem Allocates.entry_eq {b : Option Payload} {a : Allocation} (h : Allocates s b a) :
    a.entry = dispatchedEntry s.fl (latchMicroOp s.fl) := by
  cases h with
  | fault f h => rw [h]
  | unit d i u h => rw [h]
  | memory d i h => rw [h]
  | ebreak d h => rw [h]

theorem Allocates.dest_eq {b : Option Payload} {a : Allocation} (h : Allocates s b a) :
    a.dest = (latchMicroOp s.fl).dest := by
  cases h with
  | fault f h => rw [h]; rfl
  | unit d i u h => rw [h]; rfl
  | memory d i h => rw [h]; rfl
  | ebreak d h => rw [h]; rfl

end

end Sys2Proof.Machine
end


-- ==== Sys2Proof/Proofs/Holders.lean ====
section
/-! PROOF. Who holds a tag as destination (10 R57 (b)), for any set of tags at once, and what one cycle
without squash does to the holders, place by place. -/

namespace Sys2Proof.Machine

/-! ### The holders -/

/-- A busy RS entry whose tag is in `q`. -/
def rsHolds (q : Nat → Bool) (e : RsEntry) : Bool := e.busy && q e.dest

/-- A load not yet issued whose tag is in `q`. -/
def lsqHolds (q : Nat → Bool) (e : LsqEntry) : Bool := isLoadEntry e && !e.issued && q e.tag

/-- A store entry whose tag is in `q`. -/
def storeHolds (q : Nat → Bool) (e : LsqEntry) : Bool := isStoreEntry e && q e.tag

/-- A pipeline stage whose operation has its tag in `q`. -/
def stageHolds (q : Nat → Bool) (u : Option UnitOp) : Bool := (u.map UnitOp.tag).any q

/-- 1 when there is a tag and it is in `q`, else 0. -/
def held (q : Nat → Bool) (t : Option Nat) : Nat := countIf (t.any q)

@[simp] theorem held_none (q : Nat → Bool) : held q none = 0 := rfl
@[simp] theorem held_some (q : Nat → Bool) (t : Nat) : held q (some t) = countIf (q t) := rfl

/-- The tag a latch holds. -/
def State.ldTag (s : State) : Option Nat := s.ldOut.map fun l => l.payload.tag

/-- The number of holders of tags in `q`: `producers` for one tag, the work in flight for all. -/
def State.holders (s : State) (q : Nat → Bool) : Nat :=
  s.rs.countP (rsHolds q) + s.lsq.countP (lsqHolds q) + s.mul.countP (stageHolds q)
    + s.div.countP (stageHolds q) + held q (s.aluOut.map Payload.tag) + held q s.ldTag

theorem producers_eq_holders (s : State) (t : Nat) :
    s.producers t = s.holders fun u => decide (u = t) := by
  have hstage : ∀ u : Option UnitOp, stageProduces t u = stageHolds (fun u => decide (u = t)) u := by
    intro u; cases u <;> rfl
  have hopt : ∀ o : Option Nat, countIf (decide (o = some t)) = held (fun u => decide (u = t)) o := by
    intro o; cases o <;> simp [held]
  unfold State.producers State.holders
  rw [hopt, hopt, funext hstage]
  rfl

section
variable {s : State} (q : Nat → Bool)

/-! ### The reservation station -/

/-- The reservation station after wakeup and issue. -/
def State.issuedRs (s : State) : List RsEntry :=
  releaseRs (releaseRs (releaseRs (s.rs.map (wakeRs (signals s).broadcast)) (signals s).alu)
    (signals s).mul) (signals s).div

/-- A place holds the entry of an issue to unit `u`, as far as counting and release go. -/
def issueAt (u : ExecUnit) (rs : List RsEntry) (c : Option Issued) : Prop :=
  ∀ d, c = some d → ∃ e, rs[d.index]? = some e ∧ e.busy = true ∧ opUnit e.op = some u ∧ e.dest = d.tag

theorem issueAt.wake {u : ExecUnit} {rs : List RsEntry} {c : Option Issued} (h : issueAt u rs c)
    (b : Option Payload) : issueAt u (rs.map (wakeRs b)) c := by
  intro d hd
  obtain ⟨e, he, hb, hu, ht⟩ := h d hd
  exact ⟨wakeRs b e, by simp [he], by simpa using hb, by simpa using hu, by simpa using ht⟩

/-- Issues to different units leave from different places. -/
theorem issueAt.release {u u' : ExecUnit} {rs : List RsEntry} {c c' : Option Issued}
    (h : issueAt u rs c) (h' : issueAt u' rs c') (hne : u ≠ u') : issueAt u (releaseRs rs c') c := by
  cases c' with
  | none => exact h
  | some d' =>
    intro d hd
    obtain ⟨e, he, hb, hu, ht⟩ := h d hd
    obtain ⟨e', he', -, hu', -⟩ := h' d' rfl
    have hidx : d'.index ≠ d.index := by
      intro heq
      rw [heq, he] at he'
      cases he'
      exact hne (Option.some.inj (hu.symm.trans hu'))
    exact ⟨e, by simp [releaseRs_getElem?, he, hidx], hb, hu, ht⟩

theorem countP_releaseRs {u : ExecUnit} {rs : List RsEntry} {c : Option Issued}
    (h : issueAt u rs c) :
    (releaseRs rs c).countP (rsHolds q) + held q (c.map Issued.tag) = rs.countP (rsHolds q) := by
  cases c with
  | none => rfl
  | some d =>
    obtain ⟨e, he, hb, -, ht⟩ := h d rfl
    have := countP_modify_getElem? (rsHolds q) (fun e : RsEntry => { e with busy := false }) he
    simpa [releaseRs, rsHolds, hb, ht] using this

theorem issueAt_alu (s : State) : issueAt .alu s.rs (signals s).alu := by
  intro d hd
  obtain ⟨-, e, he⟩ := selectAlu_issued hd
  exact ⟨e, he.at_index, he.busy, he.unit, he.tag.symm⟩

theorem issueAt_mul (s : State) : issueAt .mul s.rs (signals s).mul := by
  intro d hd
  obtain ⟨e, he⟩ := signals_mul_issued hd
  exact ⟨e, he.at_index, he.busy, he.unit, he.tag.symm⟩

theorem issueAt_div (s : State) : issueAt .div s.rs (signals s).div := by
  intro d hd
  obtain ⟨e, he⟩ := signals_div_issued hd
  exact ⟨e, he.at_index, he.busy, he.unit, he.tag.symm⟩

/-- Every issue takes its entry out of the reservation station. -/
theorem countP_issuedRs (s : State) :
    s.issuedRs.countP (rsHolds q) + held q ((signals s).alu.map Issued.tag)
      + held q ((signals s).mul.map Issued.tag) + held q ((signals s).div.map Issued.tag)
      = s.rs.countP (rsHolds q) := by
  have halu := (issueAt_alu s).wake (signals s).broadcast
  have hmul := (issueAt_mul s).wake (signals s).broadcast
  have hdiv := (issueAt_div s).wake (signals s).broadcast
  have hmul' := hmul.release halu (by decide)
  have hdiv' := (hdiv.release halu (by decide)).release hmul' (by decide)
  have h1 := countP_releaseRs q halu
  have h2 := countP_releaseRs q hmul'
  have h3 := countP_releaseRs q hdiv'
  have h0 : (s.rs.map (wakeRs (signals s).broadcast)).countP (rsHolds q) = s.rs.countP (rsHolds q) :=
    countP_map_eq _ _ _ fun e => by simp [rsHolds]
  unfold State.issuedRs
  omega

/-- A release frees a place or leaves it as it is. -/
theorem releaseRs_origin {rs : List RsEntry} {c : Option Issued} {i : Nat} {f : RsEntry}
    (h : (releaseRs rs c)[i]? = some f) :
    ∃ e, rs[i]? = some e ∧ (f = e ∨ f = { e with busy := false }) := by
  cases c with
  | none => exact ⟨f, h, .inl rfl⟩
  | some d =>
    rw [releaseRs_getElem?, Option.map_eq_some_iff] at h
    obtain ⟨e, he, rfl⟩ := h
    refine ⟨e, he, ?_⟩
    split
    · exact .inr rfl
    · exact .inl rfl

/-- After wakeup and issue a place holds its woken entry, or a freed one. -/
theorem issuedRs_origin {i : Nat} {f : RsEntry} (h : s.issuedRs[i]? = some f) :
    ∃ e, s.rs[i]? = some e ∧
      (f = wakeRs (signals s).broadcast e ∨ f.busy = false) := by
  obtain ⟨e3, h3, hf3⟩ := releaseRs_origin h
  obtain ⟨e2, h2, hf2⟩ := releaseRs_origin h3
  obtain ⟨e1, h1, hf1⟩ := releaseRs_origin h2
  rw [List.getElem?_map, Option.map_eq_some_iff] at h1
  obtain ⟨e, he, rfl⟩ := h1
  refine ⟨e, he, ?_⟩
  rcases hf3 with rfl | rfl
  · rcases hf2 with rfl | rfl
    · rcases hf1 with rfl | rfl
      · exact .inl rfl
      · exact .inr rfl
    · exact .inr rfl
  · exact .inr rfl

theorem issuedRs_length (s : State) : s.issuedRs.length = s.rs.length := by
  simp [State.issuedRs]

/-- A free place is still free after wakeup and issue. -/
theorem issuedRs_free {i : Nat} {f : RsEntry} (h : s.rs[i]? = some f) (hf : f.busy = false) :
    ∃ g, s.issuedRs[i]? = some g ∧ g.busy = false := by
  have hi : i < s.issuedRs.length := by
    rw [issuedRs_length]; exact (List.getElem?_eq_some_iff.1 h).1
  obtain ⟨e, he, hg⟩ := issuedRs_origin (List.getElem?_eq_getElem hi)
  refine ⟨_, List.getElem?_eq_getElem hi, ?_⟩
  rw [h] at he
  cases he
  rcases hg with hg | hg
  · rw [hg, wakeRs_busy, hf]
  · exact hg

theorem nextRs_none (s : State) : nextRs s (signals s) none = s.issuedRs := rfl

theorem nextRs_some (s : State) (a : Allocation) :
    nextRs s (signals s) (some a) =
      match a.rs with
      | some (i, e) => s.issuedRs.set i e
      | none => s.issuedRs := by
  obtain ⟨entry, rs, lsq, dest⟩ := a
  cases rs <;> rfl

/-- The tag dispatch puts into the reservation station. -/
def rsTag (a : Option Allocation) : Option Nat := a.bind fun a => a.rs.map fun p => p.2.dest

theorem countP_nextRs {b : Option Payload} :
    (nextRs s (signals s) (dispatch s b)).countP (rsHolds q)
      + held q ((signals s).alu.map Issued.tag) + held q ((signals s).mul.map Issued.tag)
      + held q ((signals s).div.map Issued.tag)
      = s.rs.countP (rsHolds q) + held q (rsTag (dispatch s b)) := by
  have h0 := countP_issuedRs q s
  cases ha : dispatch s b with
  | none => rw [nextRs_none]; exact h0
  | some a =>
    obtain ⟨-, -, halloc⟩ := dispatch_allocates ha
    rw [nextRs_some]
    cases halloc with
    | unit d i u _ _ hi =>
      obtain ⟨f, hf, hfb⟩ := freeRs_eq_some hi
      obtain ⟨g, hg, hgb⟩ := issuedRs_free hf hfb
      have := countP_set_getElem? (rsHolds q) (dispatchedRs s b d s.robTail) hg
      simp only [rsHolds, hgb, dispatchedRs, Bool.false_and, countIf_false, Bool.true_and] at this
      simp only [rsTag, Option.bind_some, Option.map_some, held_some, dispatchedRs]
      omega
    | _ => exact h0

/-- A busy entry after the cycle is a woken one or the dispatched one. -/
theorem nextRs_origin {a : Option Allocation} {e : RsEntry}
    (h : e ∈ nextRs s (signals s) a) (hb : e.busy = true) :
    (∃ e0 ∈ s.rs, e0.busy = true ∧ e = wakeRs (signals s).broadcast e0) ∨
      ∃ al i, a = some al ∧ al.rs = some (i, e) := by
  have hold : e ∈ s.issuedRs →
      ∃ e0 ∈ s.rs, e0.busy = true ∧ e = wakeRs (signals s).broadcast e0 := by
    intro h
    obtain ⟨i, hi⟩ := List.getElem?_of_mem h
    obtain ⟨e0, he0, rfl | hf⟩ := issuedRs_origin hi
    · exact ⟨e0, List.mem_of_getElem? he0, by simpa using hb, rfl⟩
    · rw [hb] at hf; cases hf
  cases a with
  | none => exact .inl (hold h)
  | some al =>
    rw [nextRs_some] at h
    cases hal : al.rs with
    | none => rw [hal] at h; exact .inl (hold h)
    | some p =>
      obtain ⟨i, f⟩ := p
      rw [hal] at h
      rcases List.mem_or_eq_of_mem_set h with h | rfl
      · exact .inl (hold h)
      · exact .inr ⟨al, i, rfl, hal⟩

/-! ### The pipelines -/

/-- A pipeline loses its last operation when it wins the bus and gains the issued one. -/
theorem countP_nextPipe {pipe : List (Option UnitOp)} {won : Bool} {new : Option Issued}
    {b : Option UnitOp} (hne : pipe ≠ []) (hb : b = if won then lastStage pipe else none)
    (hnew : pipeAdvances pipe won = false → new = none) :
    (nextPipe pipe (pipeAdvances pipe won) new).countP (stageHolds q) + held q (b.map UnitOp.tag)
      = pipe.countP (stageHolds q) + held q (new.map Issued.tag) := by
  obtain ⟨z, hz⟩ : ∃ z, pipe.getLast? = some z := ⟨_, List.getLast?_eq_getLast_of_ne_nil hne⟩
  have hlast : lastStage pipe = z := by simp [lastStage, hz]
  have hshift := countP_shift (stageHolds q) (new.map issuedUnitOp) pipe z hz
  have hstage : countIf (stageHolds q (new.map issuedUnitOp)) = held q (new.map Issued.tag) := by
    cases new <;> rfl
  cases ha : pipeAdvances pipe won with
  | true =>
    have hcount : countIf (stageHolds q z) = held q (b.map UnitOp.tag) := by
      rw [hb, hlast]
      cases won with
      | true => rfl
      | false =>
        rw [pipeAdvances, hlast, Bool.or_false, Option.isNone_iff_eq_none] at ha
        rw [ha]; rfl
    simp only [nextPipe, if_true]
    omega
  | false =>
    have hw : won = false := by simp only [pipeAdvances, Bool.or_eq_false_iff] at ha; exact ha.2
    rw [hnew ha, hb, hw]
    simp [nextPipe]

/-- A stage after the cycle holds what some stage held before, or the issued operation. -/
theorem nextPipe_origin {pipe : List (Option UnitOp)} {adv : Bool} {new : Option Issued} {u : UnitOp}
    (h : some u ∈ nextPipe pipe adv new) :
    some u ∈ pipe ∨ ∃ c, new = some c ∧ u = issuedUnitOp c := by
  cases adv with
  | false => exact .inl h
  | true =>
    rcases List.mem_cons.1 (List.dropLast_subset _ h) with h | h
    · obtain ⟨c, hc, rfl⟩ := Option.map_eq_some_iff.1 h.symm
      exact .inr ⟨c, hc, rfl⟩
    · exact .inl h

end

end Sys2Proof.Machine
end


-- ==== Sys2Proof/Proofs/LoadStoreQueue.lean ====
section
/-! PROOF. What one cycle without squash does to the load/store queue (48 R510 to R521), and the
balance of holders over the cycle. -/

namespace Sys2Proof.Machine

section
variable {s : State} (q : Nat → Bool)

/-! ### Entries of the queue under the invariants -/

/-- A tag somebody holds is awaited (10 R57 (b)). -/
theorem State.InFlight.awaited_of_producers (h : s.InFlight) {t : Nat} (ht : 0 < s.producers t) :
    s.awaited t = true := by
  rw [h.producers t] at ht
  exact countIf_pos.1 ht

theorem State.InFlight.awaited_of_rs (h : s.InFlight) {e : RsEntry} (he : e ∈ s.rs) (hb : e.busy = true) :
    s.awaited e.dest = true := by
  refine h.awaited_of_producers ?_
  have : 0 < s.rs.countP (rsProduces e.dest) :=
    List.countP_pos_iff.2 ⟨e, he, by simp [rsProduces, hb]⟩
  unfold State.producers
  omega

theorem State.InFlight.awaited_of_mul (h : s.InFlight) {u : UnitOp} (hu : some u ∈ s.mul) :
    s.awaited u.tag = true := by
  refine h.awaited_of_producers ?_
  have : 0 < s.mul.countP (stageProduces u.tag) :=
    List.countP_pos_iff.2 ⟨_, hu, by simp [stageProduces]⟩
  unfold State.producers
  omega

theorem State.InFlight.awaited_of_div (h : s.InFlight) {u : UnitOp} (hu : some u ∈ s.div) :
    s.awaited u.tag = true := by
  refine h.awaited_of_producers ?_
  have : 0 < s.div.countP (stageProduces u.tag) :=
    List.countP_pos_iff.2 ⟨_, hu, by simp [stageProduces]⟩
  unfold State.producers
  omega

theorem State.InFlight.awaited_of_aluOut (h : s.InFlight) {p : Payload} (hp : s.aluOut = some p) :
    s.awaited p.tag = true := by
  refine h.awaited_of_producers ?_
  unfold State.producers
  simp [hp]

theorem State.InFlight.awaited_of_ldOut (h : s.InFlight) {l : LoadOut} (hl : s.ldOut = some l) :
    s.awaited l.payload.tag = true := by
  refine h.awaited_of_producers ?_
  unfold State.producers
  simp [hl]

/-- A load entry's tag is awaited, whether the load has been issued or not. -/
theorem State.InFlight.awaited_of_load (h : s.InFlight) {e : LsqEntry} (he : e ∈ s.lsq)
    (hl : isLoadEntry e = true) : s.awaited e.tag = true := by
  cases hi : e.issued with
  | true =>
    obtain ⟨i, hget⟩ := List.getElem?_of_mem he
    obtain ⟨l, hld, -, ht⟩ := h.issued_latched i e hget hl hi
    rw [← ht]
    exact h.awaited_of_ldOut hld
  | false =>
    refine h.awaited_of_producers ?_
    have : 0 < s.lsq.countP (lsqProduces e.tag) :=
      List.countP_pos_iff.2 ⟨e, he, by simp [lsqProduces, hl, hi]⟩
    unfold State.producers
    omega

theorem awaited_iff {t : Nat} :
    s.awaited t = true ↔ s.validTag t = true ∧ (s.robEntry t).ready = false ∧
      kindBroadcasts (s.robEntry t).kind = true := by
  simp [State.awaited, and_assoc]

/-- A store entry is a Store's of the ROB. -/
theorem State.InFlight.valid_of_store (h : s.InFlight) {e : LsqEntry} (he : e ∈ s.lsq)
    (hst : isStoreEntry e = true) :
    s.validTag e.tag = true ∧ (s.robEntry e.tag).kind = .store := by
  have : 0 < s.lsq.countP (fun f => isStoreEntry f && decide (f.tag = e.tag)) :=
    List.countP_pos_iff.2 ⟨e, he, by simp [hst]⟩
  rw [h.stores e.tag, countIf_pos] at this
  simpa using this

theorem State.InFlight.valid_of_lsq (h : s.InFlight) {e : LsqEntry} (he : e ∈ s.lsq)
    (hb : e.busy = true) : s.validTag e.tag = true := by
  rcases h.lsq_ops e he hb with hl | hst
  · exact (awaited_iff.1 (h.awaited_of_load he hl)).1
  · exact (h.valid_of_store he hst).1

theorem isLoadEntry_not_store {e : LsqEntry} (h : isLoadEntry e = true) : isStoreEntry e = false := by
  cases hop : e.op <;> simp_all [isLoadEntry, isStoreEntry]

theorem busy_of_isLoadEntry {e : LsqEntry} (h : isLoadEntry e = true) : e.busy = true := by
  simp only [isLoadEntry, Bool.and_eq_true] at h
  exact h.1

theorem busy_of_isStoreEntry {e : LsqEntry} (h : isStoreEntry e = true) : e.busy = true := by
  simp only [isStoreEntry, Bool.and_eq_true] at h
  exact h.1

/-- The busy entry with the tag of a Store head is a store entry. -/
theorem State.InFlight.store_of_tag (h : s.InFlight) {e : LsqEntry} (he : e ∈ s.lsq) (hb : e.busy = true)
    (hk : (s.robEntry e.tag).kind = .store) : isStoreEntry e = true := by
  rcases h.lsq_ops e he hb with hl | hst
  · have := (awaited_iff.1 (h.awaited_of_load he hl)).2.2
    rw [hk] at this
    cases this
  · exact hst

theorem readyStore_eq_some {t : Nat} {st : ReadyStore} (h : readyStore s t = some st) :
    ∃ e, s.lsq[st.index]? = some e ∧ e.busy = true ∧ e.tag = t ∧ lsqAddress e = some st.ea ∧
      e.data = .value st.data := by
  unfold readyStore at h
  cases hf : s.lsq.zipIdx.find? (fun (e, _) => e.busy && e.tag = t) with
  | none => rw [hf] at h; cases h
  | some p =>
    obtain ⟨e, i⟩ := p
    rw [hf] at h
    have hp := List.find?_some hf
    simp only [Bool.and_eq_true, decide_eq_true_eq] at hp
    have hget := List.mem_zipIdx_iff_getElem?.1 (List.mem_of_find?_eq_some hf)
    cases ha : lsqAddress e with
    | none => simp [ha] at h
    | some ea =>
      cases hd : e.data with
      | pending p => simp [ha, hd] at h
      | value d =>
        simp only [ha, hd, Option.some.injEq] at h
        subst h
        exact ⟨e, hget, hp.1, hp.2, ha, hd⟩

/-! ### The cycle's changes -/

/-- The load that requests the bus stands in the queue: latched and issued, or selected and not. -/
theorem loadRequest_at (h : s.InFlight) {l : LoadOut} (hl : s.loadRequest = some l) :
    ∃ e, s.lsq[l.index]? = some e ∧ isLoadEntry e = true ∧ e.tag = l.payload.tag ∧
      ((s.ldOut = some l ∧ selectLoad s = none ∧ e.issued = true) ∨
        (s.ldOut = none ∧ selectLoad s = some l ∧ e.issued = false)) := by
  unfold State.loadRequest at hl
  split_ifs at hl with hs
  · obtain ⟨e, he, hload, hi, ht⟩ := h.latched_issued l hl
    refine ⟨e, he, hload, ht, .inl ⟨hl, ?_, hi⟩⟩
    unfold selectLoad
    rw [hl]; rfl
  · obtain ⟨hnone, e, he, hload, hi, hp⟩ := selectLoad_eligible hl
    exact ⟨e, he, hload, (planPayload_tag hp).symm, .inr ⟨hnone, hl, hi⟩⟩

/-- The queue after wakeup and the load port. -/
def State.portedLsq (s : State) : List LsqEntry :=
  loadPortLsq s (signals s) (s.lsq.map (wakeLsq (signals s).broadcast))

theorem portedLsq_eq (s : State) :
    s.portedLsq = match s.loadRequest with
      | none => s.lsq.map (wakeLsq (signals s).broadcast)
      | some l => (s.lsq.map (wakeLsq (signals s).broadcast)).modify l.index fun e =>
          if wonBy (signals s).win .load then { e with busy := false } else { e with issued := true } := by
  unfold State.portedLsq loadPortLsq
  change (match s.loadRequest with | none => _ | some l => _) = _
  cases s.loadRequest with
  | none => rfl
  | some l => cases wonBy (signals s).win .load <;> rfl

@[simp] theorem isLoadEntry_wakeLsq (b : Option Payload) (e : LsqEntry) :
    isLoadEntry (wakeLsq b e) = isLoadEntry e := by simp [isLoadEntry]
@[simp] theorem isStoreEntry_wakeLsq (b : Option Payload) (e : LsqEntry) :
    isStoreEntry (wakeLsq b e) = isStoreEntry e := by simp [isStoreEntry]

/-- The load port takes a newly selected load out of those not issued. -/
theorem countP_portedLsq (h : s.InFlight) :
    s.portedLsq.countP (lsqHolds q) + held q ((selectLoad s).map fun l => l.payload.tag)
      = s.lsq.countP (lsqHolds q) := by
  have h0 : (s.lsq.map (wakeLsq (signals s).broadcast)).countP (lsqHolds q)
      = s.lsq.countP (lsqHolds q) := countP_map_eq _ _ _ fun e => by simp [lsqHolds]
  rw [portedLsq_eq]
  cases hl : s.loadRequest with
  | none =>
    have hsel : selectLoad s = none := by
      unfold State.loadRequest at hl
      split_ifs at hl with hs
      · rw [hl] at hs; cases hs
      · exact hl
    simpa [hsel] using h0
  | some l =>
    obtain ⟨e, he, hload, ht, hcase⟩ := loadRequest_at h hl
    have hget : (s.lsq.map (wakeLsq (signals s).broadcast))[l.index]?
        = some (wakeLsq (signals s).broadcast e) := by simp [he]
    have hmod := countP_modify_getElem? (lsqHolds q) (fun e : LsqEntry =>
      if wonBy (signals s).win .load then { e with busy := false } else { e with issued := true }) hget
    have hafter : lsqHolds q (if wonBy (signals s).win .load
        then { wakeLsq (signals s).broadcast e with busy := false }
        else { wakeLsq (signals s).broadcast e with issued := true }) = false := by
      split <;> simp [lsqHolds, isLoadEntry]
    rw [hafter, h0] at hmod
    rcases hcase with ⟨-, hsel, hi⟩ | ⟨-, hsel, hi⟩
    · rw [hsel]
      simpa [lsqHolds, hi] using hmod
    · rw [hsel]
      simpa [lsqHolds, hload, hi, ht] using hmod

/-- The load port leaves the store entries. -/
theorem storeHolds_portedLsq (h : s.InFlight) :
    s.portedLsq.countP (storeHolds q) = s.lsq.countP (storeHolds q) := by
  have h0 : (s.lsq.map (wakeLsq (signals s).broadcast)).countP (storeHolds q)
      = s.lsq.countP (storeHolds q) := countP_map_eq _ _ _ fun e => by simp [storeHolds]
  rw [portedLsq_eq]
  cases hl : s.loadRequest with
  | none => exact h0
  | some l =>
    obtain ⟨e, he, hload, -, -⟩ := loadRequest_at h hl
    have hget : (s.lsq.map (wakeLsq (signals s).broadcast))[l.index]?
        = some (wakeLsq (signals s).broadcast e) := by simp [he]
    have hmod := countP_modify_getElem? (storeHolds q) (fun e : LsqEntry =>
      if wonBy (signals s).win .load then { e with busy := false } else { e with issued := true }) hget
    have hbefore : storeHolds q (wakeLsq (signals s).broadcast e) = false := by
      simp [storeHolds, isLoadEntry_not_store hload]
    have hop : (e.op = .sw) = False := by
      have := isLoadEntry_not_store hload
      simpa [isStoreEntry, busy_of_isLoadEntry hload] using this
    have hafter : storeHolds q (if wonBy (signals s).win .load
        then { wakeLsq (signals s).broadcast e with busy := false }
        else { wakeLsq (signals s).broadcast e with issued := true }) = false := by
      split <;> simp [storeHolds, isStoreEntry, hop]
    rw [hafter, hbefore, h0] at hmod
    exact hmod

/-- Where an entry after the load port comes from: woken, and freed or marked issued only at the place
of the requesting load. -/
theorem portedLsq_origin {i : Nat} {f : LsqEntry} (hf : s.portedLsq[i]? = some f) :
    ∃ e, s.lsq[i]? = some e ∧
      ((∀ l, s.loadRequest = some l → l.index ≠ i) ∧ f = wakeLsq (signals s).broadcast e ∨
        ∃ l, s.loadRequest = some l ∧ l.index = i ∧
          f = if wonBy (signals s).win .load
            then { wakeLsq (signals s).broadcast e with busy := false }
            else { wakeLsq (signals s).broadcast e with issued := true }) := by
  rw [portedLsq_eq] at hf
  cases hl : s.loadRequest with
  | none =>
    simp only [hl, List.getElem?_map, Option.map_eq_some_iff] at hf
    obtain ⟨e, he, rfl⟩ := hf
    exact ⟨e, he, .inl ⟨fun _ h => by simp at h, rfl⟩⟩
  | some l =>
    simp only [hl, List.getElem?_modify, List.getElem?_map, Option.map_map, Option.map_eq_map,
      Option.map_eq_some_iff, Function.comp_apply] at hf
    obtain ⟨e, he, hfe⟩ := hf
    refine ⟨e, he, ?_⟩
    split_ifs at hfe with hidx hw
    · exact .inr ⟨l, rfl, hidx, by rw [if_pos hw]; exact hfe.symm⟩
    · exact .inr ⟨l, rfl, hidx, by rw [if_neg hw]; exact hfe.symm⟩
    · exact .inl ⟨fun l' hl' => by cases hl'; exact hidx, hfe.symm⟩

theorem portedLsq_length (s : State) : s.portedLsq.length = s.lsq.length := by
  simp [State.portedLsq]

/-- The head retires in this cycle, if `r` says so. -/
def Retires (s : State) (r : Option Retirement) : Prop := ∀ x, r = some x → commitDecision s = .retire x

/-- The store the retiring head performs. -/
def retiredStore (r : Option Retirement) : Option ReadyStore := r.bind Retirement.store

/-- The queue after the committing store has left it. -/
def State.committedLsq (s : State) (r : Option Retirement) : List LsqEntry :=
  match retiredStore r with
  | some st => releaseLsq s.portedLsq st.index
  | none => s.portedLsq

/-- The committing store's entry: a store entry with the head's tag. -/
theorem retiredStore_at (h : s.InFlight) {r : Option Retirement} (hr : Retires s r) {st : ReadyStore}
    (hst : retiredStore r = some st) :
    s.robCount ≠ 0 ∧ s.headEntry.kind = .store ∧ accessCheck s.cfg .store 4 st.ea = none ∧
      ∃ e, s.lsq[st.index]? = some e ∧ isStoreEntry e = true ∧ e.tag = s.robHead ∧
        lsqAddress e = some st.ea ∧ e.data = .value st.data := by
  cases r with
  | none => cases hst
  | some x =>
    obtain ⟨hc, -, ⟨hn, -⟩ | ⟨st', hst', hk, hready, hcheck⟩⟩ := commitDecision_retire (hr x rfl)
    · rw [retiredStore, Option.bind_some, hn] at hst; cases hst
    · rw [retiredStore, Option.bind_some, hst'] at hst
      cases hst
      obtain ⟨e, he, hb, ht, ha, hd⟩ := readyStore_eq_some hready
      refine ⟨hc, hk, hcheck, e, he, ?_, ht, ha, hd⟩
      exact h.store_of_tag (List.mem_of_getElem? he) hb (by rw [ht]; exact hk)

/-- At the committing store's place the load port has only woken the slots. -/
theorem portedLsq_at_store (h : s.InFlight) {i : Nat} {e : LsqEntry} (he : s.lsq[i]? = some e)
    (hst : isStoreEntry e = true) : s.portedLsq[i]? = some (wakeLsq (signals s).broadcast e) := by
  have hi : i < s.portedLsq.length := by
    rw [portedLsq_length]; exact (List.getElem?_eq_some_iff.1 he).1
  obtain ⟨e', he', ⟨-, hf⟩ | ⟨l, hl, rfl, -⟩⟩ := portedLsq_origin (List.getElem?_eq_getElem hi)
  · rw [he] at he'
    cases he'
    rw [List.getElem?_eq_getElem hi, hf]
  · obtain ⟨e'', he'', hload, -⟩ := loadRequest_at h hl
    rw [he] at he''
    cases he''
    rw [isLoadEntry_not_store hload] at hst
    cases hst

theorem countP_committedLsq (h : s.InFlight) {r : Option Retirement} (hr : Retires s r) :
    (s.committedLsq r).countP (lsqHolds q) + held q ((selectLoad s).map fun l => l.payload.tag)
      = s.lsq.countP (lsqHolds q) := by
  have h0 := countP_portedLsq q h
  unfold State.committedLsq
  cases hst : retiredStore r with
  | none => exact h0
  | some st =>
    obtain ⟨-, -, -, e, he, hs, -⟩ := retiredStore_at h hr hst
    have hmod := countP_modify_getElem? (lsqHolds q) (fun e : LsqEntry => { e with busy := false })
      (portedLsq_at_store h he hs)
    have hbefore : lsqHolds q (wakeLsq (signals s).broadcast e) = false := by
      cases hl : isLoadEntry e with
      | true => rw [isLoadEntry_not_store hl] at hs; cases hs
      | false => simp [lsqHolds, hl]
    have hafter : lsqHolds q { wakeLsq (signals s).broadcast e with busy := false } = false := by
      simp [lsqHolds, isLoadEntry]
    rw [hbefore, hafter] at hmod
    simp only [releaseLsq]
    omega

/-- The tag of the committing store. -/
def State.storeTag (s : State) (r : Option Retirement) : Option Nat :=
  (retiredStore r).map fun _ => s.robHead

/-- The committing store's entry leaves the queue. -/
theorem storeHolds_committedLsq (h : s.InFlight) {r : Option Retirement} (hr : Retires s r) :
    (s.committedLsq r).countP (storeHolds q) + held q (s.storeTag r)
      = s.lsq.countP (storeHolds q) := by
  have h0 := storeHolds_portedLsq q h
  unfold State.committedLsq State.storeTag
  cases hst : retiredStore r with
  | none => exact h0
  | some st =>
    obtain ⟨-, -, -, e, he, hs, ht, -⟩ := retiredStore_at h hr hst
    have hmod := countP_modify_getElem? (storeHolds q) (fun e : LsqEntry => { e with busy := false })
      (portedLsq_at_store h he hs)
    have hbefore : storeHolds q (wakeLsq (signals s).broadcast e) = q s.robHead := by
      simp [storeHolds, hs, ht]
    have hafter : storeHolds q { wakeLsq (signals s).broadcast e with busy := false } = false := by
      simp [storeHolds, isStoreEntry]
    rw [hbefore, hafter] at hmod
    simp only [releaseLsq, Option.map_some, held_some]
    simpa [h0] using hmod

theorem committedLsq_origin {r : Option Retirement} {i : Nat} {f : LsqEntry}
    (hf : (s.committedLsq r)[i]? = some f) :
    ∃ g, s.portedLsq[i]? = some g ∧
      (f = g ∨ ∃ st, retiredStore r = some st ∧ st.index = i ∧ f = { g with busy := false }) := by
  unfold State.committedLsq at hf
  cases hst : retiredStore r with
  | none => rw [hst] at hf; exact ⟨f, hf, .inl rfl⟩
  | some st =>
    simp only [hst, releaseLsq_getElem?, Option.map_eq_some_iff] at hf
    obtain ⟨g, hg, rfl⟩ := hf
    refine ⟨g, hg, ?_⟩
    split
    · exact .inr ⟨st, rfl, ‹_›, rfl⟩
    · exact .inl rfl

theorem committedLsq_length (s : State) (r : Option Retirement) :
    (s.committedLsq r).length = s.lsq.length := by
  unfold State.committedLsq
  split
  · rw [releaseLsq_length, portedLsq_length]
  · exact portedLsq_length s

/-- A busy entry after load port and commit: woken, and marked issued only as the losing load. -/
theorem committedLsq_busy {r : Option Retirement} {i : Nat} {f : LsqEntry}
    (hf : (s.committedLsq r)[i]? = some f) (hb : f.busy = true) :
    ∃ e, s.lsq[i]? = some e ∧ e.busy = true ∧
      ((∀ l, s.loadRequest = some l → l.index ≠ i) ∧ f = wakeLsq (signals s).broadcast e ∨
        (∃ l, s.loadRequest = some l ∧ l.index = i ∧ wonBy (signals s).win .load = false ∧
          f = { wakeLsq (signals s).broadcast e with issued := true })) := by
  obtain ⟨g, hg, rfl | ⟨st, -, -, rfl⟩⟩ := committedLsq_origin hf
  · obtain ⟨e, he, ⟨hno, rfl⟩ | ⟨l, hl, hidx, rfl⟩⟩ := portedLsq_origin hg
    · exact ⟨e, he, by simpa using hb, .inl ⟨hno, rfl⟩⟩
    · cases hw : wonBy (signals s).win .load with
      | true => rw [hw] at hb; cases hb
      | false =>
        rw [hw] at hb
        exact ⟨e, he, by simpa using hb, .inr ⟨l, hl, hidx, rfl, rfl⟩⟩
  · cases hb

/-- A free place is still free after load port and commit. -/
theorem committedLsq_free {r : Option Retirement} {i : Nat} {f : LsqEntry} (h : s.lsq[i]? = some f)
    (hf : f.busy = false) : ∃ g, (s.committedLsq r)[i]? = some g ∧ g.busy = false := by
  have hi : i < (s.committedLsq r).length := by
    rw [committedLsq_length]; exact (List.getElem?_eq_some_iff.1 h).1
  refine ⟨_, List.getElem?_eq_getElem hi, ?_⟩
  cases hb : (s.committedLsq r)[i].busy with
  | false => rfl
  | true =>
    obtain ⟨e, he, heb, -⟩ := committedLsq_busy (List.getElem?_eq_getElem hi) hb
    rw [h] at he
    cases he
    rw [hf] at heb
    cases heb

theorem nextLsq_none (s : State) (r : Option Retirement) :
    nextLsq s (signals s) none r = s.committedLsq r := by
  cases r with
  | none => rfl
  | some x => obtain ⟨e, st⟩ := x; cases st <;> rfl

theorem nextLsq_some (s : State) (a : Allocation) (r : Option Retirement) :
    nextLsq s (signals s) (some a) r =
      match a.lsq with
      | some (i, e) => (s.committedLsq r).set i e
      | none => s.committedLsq r := by
  rw [← nextLsq_none]
  obtain ⟨entry, rs, lsq, dest⟩ := a
  cases lsq <;> rfl

/-- The tag of the load, or of the store, that dispatch puts into the queue. -/
def loadTag (a : Option Allocation) : Option Nat :=
  a.bind fun a => (a.lsq.map Prod.snd).bind fun e => if isLoadEntry e then some e.tag else none
def newStoreTag (a : Option Allocation) : Option Nat :=
  a.bind fun a => (a.lsq.map Prod.snd).bind fun e => if isStoreEntry e then some e.tag else none

theorem countP_nextLsq (h : s.InFlight) {r : Option Retirement} (hr : Retires s r)
    {b : Option Payload} :
    (nextLsq s (signals s) (dispatch s b) r).countP (lsqHolds q)
      + held q ((selectLoad s).map fun l => l.payload.tag)
      = s.lsq.countP (lsqHolds q) + held q (loadTag (dispatch s b)) := by
  have h0 := countP_committedLsq q h hr
  cases ha : dispatch s b with
  | none => rw [nextLsq_none]; exact h0
  | some a =>
    obtain ⟨-, -, halloc⟩ := dispatch_allocates ha
    rw [nextLsq_some]
    cases halloc with
    | memory d i _ _ hi =>
      obtain ⟨f, hf, hfb⟩ := freeLsq_eq_some hi
      obtain ⟨g, hg, hgb⟩ := committedLsq_free (r := r) hf hfb
      have hset := countP_set_getElem? (lsqHolds q) (dispatchedLsq s b d s.robTail) hg
      have hbefore : lsqHolds q g = false := by simp [lsqHolds, isLoadEntry, hgb]
      have hnew : countIf (lsqHolds q (dispatchedLsq s b d s.robTail)) =
          held q (loadTag (some ⟨dispatchedEntry s.fl (.instr d), none,
            some (i, dispatchedLsq s b d s.robTail), d.dest⟩)) := by
        simp only [loadTag, Option.bind_some, Option.map_some, lsqHolds]
        cases isLoadEntry (dispatchedLsq s b d s.robTail) <;> simp [dispatchedLsq]
      rw [hbefore, countIf_false, hnew] at hset
      simp only
      omega
    | _ => exact h0

theorem storeHolds_nextLsq (h : s.InFlight) {r : Option Retirement} (hr : Retires s r)
    {b : Option Payload} :
    (nextLsq s (signals s) (dispatch s b) r).countP (storeHolds q) + held q (s.storeTag r)
      = s.lsq.countP (storeHolds q) + held q (newStoreTag (dispatch s b)) := by
  have h0 := storeHolds_committedLsq q h hr
  cases ha : dispatch s b with
  | none => rw [nextLsq_none]; exact h0
  | some a =>
    obtain ⟨-, -, halloc⟩ := dispatch_allocates ha
    rw [nextLsq_some]
    cases halloc with
    | memory d i _ _ hi =>
      obtain ⟨f, hf, hfb⟩ := freeLsq_eq_some hi
      obtain ⟨g, hg, hgb⟩ := committedLsq_free (r := r) hf hfb
      have hset := countP_set_getElem? (storeHolds q) (dispatchedLsq s b d s.robTail) hg
      have hbefore : storeHolds q g = false := by simp [storeHolds, isStoreEntry, hgb]
      have hnew : countIf (storeHolds q (dispatchedLsq s b d s.robTail)) =
          held q (newStoreTag (some ⟨dispatchedEntry s.fl (.instr d), none,
            some (i, dispatchedLsq s b d s.robTail), d.dest⟩)) := by
        simp only [newStoreTag, Option.bind_some, Option.map_some, storeHolds]
        cases isStoreEntry (dispatchedLsq s b d s.robTail) <;> simp [dispatchedLsq]
      rw [hbefore, countIf_false, hnew] at hset
      simp only
      omega
    | _ => exact h0

/-- A place after the cycle: as load port and commit left it, or the dispatched entry, at a place that
was free. -/
theorem nextLsq_origin {b : Option Payload} {r : Option Retirement} {i : Nat} {e : LsqEntry}
    (h : (nextLsq s (signals s) (dispatch s b) r)[i]? = some e) :
    (s.committedLsq r)[i]? = some e ∨
      ∃ al f, dispatch s b = some al ∧ al.lsq = some (i, e) ∧ s.lsq[i]? = some f ∧ f.busy = false := by
  cases ha : dispatch s b with
  | none => rw [ha, nextLsq_none] at h; exact .inl h
  | some al =>
    rw [ha, nextLsq_some] at h
    obtain ⟨-, -, halloc⟩ := dispatch_allocates ha
    cases halloc with
    | memory d j _ _ hj =>
      simp only [List.getElem?_set] at h
      split_ifs at h with hji hlen
      · cases h
        obtain ⟨f, hf, hfb⟩ := freeLsq_eq_some hj
        exact .inr ⟨_, f, rfl, by rw [hji], hji ▸ hf, hfb⟩
      · exact .inl h
    | _ => exact .inl h

/-- A place that was busy keeps what load port and commit left. -/
theorem nextLsq_of_busy {b : Option Payload} {r : Option Retirement} {i : Nat} {e : LsqEntry}
    (he : s.lsq[i]? = some e) (hb : e.busy = true) :
    (nextLsq s (signals s) (dispatch s b) r)[i]? = (s.committedLsq r)[i]? := by
  cases ha : dispatch s b with
  | none => rw [nextLsq_none]
  | some al =>
    rw [nextLsq_some]
    obtain ⟨-, -, halloc⟩ := dispatch_allocates ha
    cases halloc with
    | memory d j _ _ hj =>
      obtain ⟨f, hf, hfb⟩ := freeLsq_eq_some hj
      have hne : j ≠ i := by
        rintro rfl
        rw [he] at hf
        cases hf
        rw [hb] at hfb
        cases hfb
      simp [hne]
    | _ => rfl

/-! ### The output latches and the balance of holders -/

/-- The tag of the broadcast when the requester `r` won the bus. -/
def State.wonTag (s : State) (r : Requester) : Option Nat :=
  if wonBy (signals s).win r then (s.requests r).map Payload.tag else none

/-- The broadcast's tag is that of exactly one winner. -/
theorem held_wonTag (s : State) :
    held q (s.wonTag .alu) + held q (s.wonTag .load) + held q (s.wonTag .mul)
      + held q (s.wonTag .div) = held q ((signals s).broadcast.map Payload.tag) := by
  unfold State.wonTag
  obtain ⟨hno, hb⟩ | ⟨r, p, hreq, hb, hw⟩ := win_cases s
  · simp [hno, hb]
  · cases r <;> simp [hw, hb, hreq]

theorem held_nextAluOut (s : State) :
    held q ((nextAluOut s (signals s)).map Payload.tag) + held q (s.wonTag .alu)
      = held q (s.aluOut.map Payload.tag) + held q ((signals s).alu.map Issued.tag) := by
  have hreq : held q ((s.requests .alu).map Payload.tag)
      = held q (s.aluOut.map Payload.tag) + held q ((signals s).alu.map Issued.tag) := by
    cases ho : s.aluOut with
    | some p =>
      have : selectAlu s = none := by simp [selectAlu, ho]
      simp [State.requests, request, ho, this]
    | none =>
      cases hc : selectAlu s <;> simp [State.requests, request, ho, hc, aluPayload]
  unfold nextAluOut State.wonTag
  cases wonBy (signals s).win .alu with
  | true => simpa using hreq
  | false => simpa using hreq

/-- The requesting load's payload is what the load port presents. -/
theorem requests_load (s : State) : s.requests .load = s.loadRequest.map LoadOut.payload := by
  change (if s.ldOut.isSome then _ else _) = Option.map _ (if s.ldOut.isSome then _ else _)
  split <;> rfl

theorem nextLdOut_eq (s : State) :
    nextLdOut s (signals s) = if wonBy (signals s).win .load then none else s.loadRequest := rfl

theorem held_nextLdOut (s : State) :
    held q ((nextLdOut s (signals s)).map fun l => l.payload.tag) + held q (s.wonTag .load)
      = held q s.ldTag + held q ((selectLoad s).map fun l => l.payload.tag) := by
  have hreq : held q (s.loadRequest.map fun l => l.payload.tag)
      = held q s.ldTag + held q ((selectLoad s).map fun l => l.payload.tag) := by
    unfold State.loadRequest State.ldTag
    cases ho : s.ldOut with
    | some l =>
      have : selectLoad s = none := by simp [selectLoad, ho]
      simp [this]
    | none => simp
  have hpay : (s.requests .load).map Payload.tag = s.loadRequest.map fun l => l.payload.tag := by
    rw [requests_load, Option.map_map]; rfl
  rw [nextLdOut_eq]
  unfold State.wonTag
  rw [hpay]
  cases wonBy (signals s).win .load with
  | true => simpa using hreq
  | false => simpa using hreq

theorem State.Shape.mul_ne_nil (h : s.Shape) : s.mul ≠ [] := by
  intro hn
  have h1 := h.mul_length
  have h2 := h.legal
  simp only [Config.legal, Bool.and_eq_true, decide_eq_true_eq] at h2
  rw [hn, List.length_nil] at h1
  omega

theorem State.Shape.div_ne_nil (h : s.Shape) : s.div ≠ [] := by
  intro hn
  have h1 := h.div_length
  have h2 := h.legal
  simp only [Config.legal, Bool.and_eq_true, decide_eq_true_eq] at h2
  rw [hn, List.length_nil] at h1
  omega

theorem held_nextPipe_mul (h : s.Shape) :
    (nextPipe s.mul (signals s).mulAdvances (signals s).mul).countP (stageHolds q)
      + held q (s.wonTag .mul)
      = s.mul.countP (stageHolds q) + held q ((signals s).mul.map Issued.tag) := by
  have hwon : s.wonTag .mul = (if wonBy (signals s).win .mul then lastStage s.mul else none).map
      UnitOp.tag := by
    unfold State.wonTag State.requests request
    split
    · cases lastStage s.mul <;> rfl
    · rfl
  rw [hwon]
  exact countP_nextPipe q h.mul_ne_nil rfl fun hadv => by
    rw [signals_mul]
    exact if_neg (by rw [show (signals s).mulAdvances = false from hadv]; simp)

theorem held_nextPipe_div (h : s.Shape) :
    (nextPipe s.div (signals s).divAdvances (signals s).div).countP (stageHolds q)
      + held q (s.wonTag .div)
      = s.div.countP (stageHolds q) + held q ((signals s).div.map Issued.tag) := by
  have hwon : s.wonTag .div = (if wonBy (signals s).win .div then lastStage s.div else none).map
      UnitOp.tag := by
    unfold State.wonTag State.requests request
    split
    · cases lastStage s.div <;> rfl
    · rfl
  rw [hwon]
  exact countP_nextPipe q h.div_ne_nil rfl fun hadv => by
    rw [signals_div]
    exact if_neg (by rw [show (signals s).divAdvances = false from hadv]; simp)

/-- Over one cycle without squash the holders lose the broadcast's tag and gain the dispatched one's. -/
theorem holders_advance (h : s.InFlight) {r : Option Retirement} (hr : Retires s r) :
    (s.advance r).holders q + held q ((signals s).broadcast.map Payload.tag)
      = s.holders q + held q (rsTag (dispatch s (signals s).broadcast))
        + held q (loadTag (dispatch s (signals s).broadcast)) := by
  have hrs := countP_nextRs (s := s) q (b := (signals s).broadcast)
  have hlsq := countP_nextLsq q h hr (b := (signals s).broadcast)
  have hmul := held_nextPipe_mul q h.shape
  have hdiv := held_nextPipe_div q h.shape
  have halu := held_nextAluOut q s
  have hld := held_nextLdOut q s
  have hwon := held_wonTag q s
  unfold State.holders
  simp only [State.advance_rs, State.advance_lsq, State.advance_mul, State.advance_div,
    State.advance_aluOut, State.ldTag, State.advance_ldOut] at *
  omega

/-- What is broadcast is held by somebody. -/
theorem held_broadcast_le_holders (h : s.InFlight) :
    held q ((signals s).broadcast.map Payload.tag) ≤ s.holders q := by
  have hrs := countP_issuedRs q s
  have hlsq := countP_portedLsq q h
  have hmul := held_nextPipe_mul q h.shape
  have hdiv := held_nextPipe_div q h.shape
  have halu := held_nextAluOut q s
  have hld := held_nextLdOut q s
  have hwon := held_wonTag q s
  unfold State.holders
  omega

/-- The broadcast's tag is awaited: its entry is valid, not ready, and of a kind that broadcasts. -/
theorem State.InFlight.awaited_of_broadcast (h : s.InFlight) {p : Payload}
    (hp : (signals s).broadcast = some p) : s.awaited p.tag = true := by
  refine h.awaited_of_producers ?_
  have := held_broadcast_le_holders (fun u => decide (u = p.tag)) h
  rw [producers_eq_holders]
  rw [hp] at this
  exact lt_of_lt_of_le (by simp) this

end

end Sys2Proof.Machine
end


-- ==== Sys2Proof/Proofs/ReorderBuffer.lean ====
section
/-! PROOF. What one cycle without squash does to tags and ROB entries (47 R474, 49 R547), and the
balance of awaited tags. -/

namespace Sys2Proof.Machine

/-! ### A completed entry -/

section
variable (b : Payload) (e : RobEntry)

@[simp] theorem completeEntry_kind : (completeEntry b e).kind = e.kind := by
  unfold completeEntry; split <;> rfl
@[simp] theorem completeEntry_op : (completeEntry b e).op = e.op := by
  unfold completeEntry; split <;> rfl
@[simp] theorem completeEntry_dest : (completeEntry b e).dest = e.dest := by
  unfold completeEntry; split <;> rfl
@[simp] theorem completeEntry_pc : (completeEntry b e).pc = e.pc := by
  unfold completeEntry; split <;> rfl
@[simp] theorem completeEntry_predTaken : (completeEntry b e).predTaken = e.predTaken := by
  unfold completeEntry; split <;> rfl
@[simp] theorem completeEntry_predTarget : (completeEntry b e).predTarget = e.predTarget := by
  unfold completeEntry; split <;> rfl
@[simp] theorem completeEntry_ready : (completeEntry b e).ready = true := by
  unfold completeEntry; split <;> rfl
@[simp] theorem completeEntry_value : (completeEntry b e).value = b.value := by
  unfold completeEntry; split <;> rfl
@[simp] theorem completeEntry_fault : (completeEntry b e).fault = b.fault := by
  unfold completeEntry; split <;> rfl

/-- Completing twice with one payload is completing once. -/
theorem completeEntry_idem : completeEntry b (completeEntry b e) = completeEntry b e := by
  unfold completeEntry; cases b.ctrl <;> rfl

end

/-- A ROB entry after this cycle's broadcast (47 R474). -/
def State.completed (s : State) (t : Nat) : RobEntry :=
  match (signals s).broadcast with
  | some b => if b.tag = t then completeEntry b (s.robEntry t) else s.robEntry t
  | none => s.robEntry t

section
variable {s : State}

/-- The broadcast completes the entry, or leaves it. -/
theorem completed_cases (s : State) (t : Nat) :
    (∃ b, (signals s).broadcast = some b ∧ b.tag = t ∧
      s.completed t = completeEntry b (s.robEntry t)) ∨
    ((∀ b, (signals s).broadcast = some b → b.tag ≠ t) ∧ s.completed t = s.robEntry t) := by
  unfold State.completed
  cases (signals s).broadcast with
  | none => exact .inr ⟨fun _ hb => (nomatch hb), rfl⟩
  | some b =>
    by_cases h : b.tag = t
    · exact .inl ⟨b, rfl, h, by simp [h]⟩
    · exact .inr ⟨fun b' hb => by cases hb; exact h, by simp [h]⟩

@[simp] theorem completed_kind (s : State) (t : Nat) :
    (s.completed t).kind = (s.robEntry t).kind := by
  obtain ⟨b, -, -, h⟩ | ⟨-, h⟩ := completed_cases s t <;> simp [h]
@[simp] theorem completed_op (s : State) (t : Nat) : (s.completed t).op = (s.robEntry t).op := by
  obtain ⟨b, -, -, h⟩ | ⟨-, h⟩ := completed_cases s t <;> simp [h]
@[simp] theorem completed_dest (s : State) (t : Nat) :
    (s.completed t).dest = (s.robEntry t).dest := by
  obtain ⟨b, -, -, h⟩ | ⟨-, h⟩ := completed_cases s t <;> simp [h]
@[simp] theorem completed_pc (s : State) (t : Nat) : (s.completed t).pc = (s.robEntry t).pc := by
  obtain ⟨b, -, -, h⟩ | ⟨-, h⟩ := completed_cases s t <;> simp [h]
@[simp] theorem completed_predTaken (s : State) (t : Nat) :
    (s.completed t).predTaken = (s.robEntry t).predTaken := by
  obtain ⟨b, -, -, h⟩ | ⟨-, h⟩ := completed_cases s t <;> simp [h]
@[simp] theorem completed_predTarget (s : State) (t : Nat) :
    (s.completed t).predTarget = (s.robEntry t).predTarget := by
  obtain ⟨b, -, -, h⟩ | ⟨-, h⟩ := completed_cases s t <;> simp [h]

/-- The broadcast makes one entry ready and no other. -/
theorem completed_ready_false {t : Nat} (hr : (s.robEntry t).ready = false)
    (hb : ∀ b, (signals s).broadcast = some b → b.tag ≠ t) : (s.completed t).ready = false := by
  obtain ⟨b, hb', ht, -⟩ | ⟨-, h⟩ := completed_cases s t
  · exact absurd ht (hb b hb')
  · rw [h, hr]

/-! ### The retiring head -/

/-- The number of heads that retire, 0 or 1. -/
def retireCount (r : Option Retirement) : Nat := if r.isSome then 1 else 0

@[simp] theorem retireCount_none : retireCount none = 0 := rfl
@[simp] theorem retireCount_some (x : Retirement) : retireCount (some x) = 1 := rfl

/-- A retiring head is valid, and ready or a Store. -/
theorem Retires.head {x : Retirement} (hr : Retires s (some x)) :
    s.robCount ≠ 0 ∧ x.entry = s.headEntry ∧
      (s.headEntry.ready = true ∨ s.headEntry.kind = .store) := by
  obtain ⟨hc, he, ⟨-, hready, -⟩ | ⟨st, -, hk, -⟩⟩ := commitDecision_retire (hr x rfl)
  · exact ⟨hc, he, .inl hready⟩
  · exact ⟨hc, he, .inr hk⟩

theorem Retires.head_not_awaited {x : Retirement} (hr : Retires s (some x)) :
    s.awaited s.robHead = false := by
  obtain ⟨-, -, h | h⟩ := hr.head
  · simp [State.awaited, show (s.robEntry s.robHead).ready = true from h]
  · simp [State.awaited, show (s.robEntry s.robHead).kind = .store from h, kindBroadcasts]

theorem Retires.retireCount_le {r : Option Retirement} (hr : Retires s r) :
    retireCount r ≤ s.robCount := by
  cases r with
  | none => exact Nat.zero_le _
  | some x => exact Nat.one_le_iff_ne_zero.2 hr.head.1

/-! ### Tags after the cycle -/

/-- What dispatch allocates in this cycle. -/
abbrev State.allocation (s : State) : Option Allocation := dispatch s (signals s).broadcast

/-- The number of instructions dispatched, 0 or 1. -/
def State.dispatchCount (s : State) : Nat := if s.allocation.isSome then 1 else 0

@[simp] theorem advance_cfg_eq (s : State) (r : Option Retirement) : (s.advance r).cfg = s.cfg := by
  cases r <;> rfl

theorem advance_robHead_eq (h : s.Shape) (r : Option Retirement) :
    (s.advance r).robHead =
      if r.isSome then (if s.robHead + 1 = s.cfg.robSize then 0 else s.robHead + 1)
      else s.robHead := by
  rw [State.advance_robHead, nextTag_eq h.head_lt]

theorem advance_robCount_eq (s : State) (r : Option Retirement) :
    (s.advance r).robCount = s.robCount - retireCount r + s.dispatchCount := rfl

theorem dispatchCount_of_some {a : Allocation} (ha : s.allocation = some a) :
    s.dispatchCount = 1 ∧ s.robCount < s.cfg.robSize :=
  ⟨by simp [State.dispatchCount, ha], (dispatch_allocates ha).2.1⟩

theorem dispatchCount_of_none (ha : s.allocation = none) : s.dispatchCount = 0 := by
  simp [State.dispatchCount, ha]

theorem dispatchCount_room (h : s.Shape) : s.robCount + s.dispatchCount ≤ s.cfg.robSize := by
  cases ha : s.allocation with
  | none => rw [dispatchCount_of_none ha]; exact h.count_le
  | some a => have := dispatchCount_of_some ha; omega

theorem robTail_lt (h : s.Shape) : s.robTail < s.cfg.robSize := by
  rw [h.tail_eq]
  exact tagAt_lt h.head_lt s.robCount

theorem tagAt_count (h : s.Shape) : s.tagAt s.robCount = s.robTail := h.tail_eq.symm

/-- The tail's place is behind every valid entry. -/
theorem age_tail (h : s.Shape) (hc : s.robCount < s.cfg.robSize) : s.age s.robTail = s.robCount := by
  rw [← tagAt_count h, age_tagAt h.head_lt hc]

theorem advance_head_lt (h : s.Shape) (r : Option Retirement) :
    (s.advance r).robHead < (s.advance r).cfg.robSize := by
  have := h.head_lt
  rw [advance_robHead_eq h, advance_cfg_eq]
  split_ifs <;> omega

/-- Every tag from the new head on is one place nearer when the head retires. -/
theorem age_advance (h : s.Shape) {r : Option Retirement} {t : Nat} (ht : t < s.cfg.robSize)
    (hage : retireCount r ≤ s.age t) : (s.advance r).age t + retireCount r = s.age t := by
  have hh := h.head_lt
  have hh' := advance_head_lt h r
  rw [age_eq hh ht] at hage ⊢
  rw [age_eq hh' ((advance_cfg_eq s r).symm ▸ ht), advance_robHead_eq h, advance_cfg_eq]
  cases r with
  | none => simp
  | some x =>
    simp only [retireCount_some, Option.isSome_some, if_true] at hage ⊢
    split_ifs at hage ⊢ <;> omega

/-- The valid tags after the cycle: those from the new head up to and with the dispatched one. -/
theorem validTag_advance (h : s.Shape) {r : Option Retirement} (hr : Retires s r) {t : Nat} :
    (s.advance r).validTag t = true ↔
      t < s.cfg.robSize ∧ retireCount r ≤ s.age t ∧ s.age t < s.robCount + s.dispatchCount := by
  rw [validTag_iff, advance_cfg_eq, advance_robCount_eq]
  have hle := hr.retireCount_le
  have hroom := dispatchCount_room h
  by_cases ht : t < s.cfg.robSize
  · by_cases hage : retireCount r ≤ s.age t
    · have := age_advance h ht hage
      constructor
      · rintro ⟨-, hlt⟩; exact ⟨ht, hage, by omega⟩
      · rintro ⟨-, -, hlt⟩; exact ⟨ht, by omega⟩
    · have hh := h.head_lt
      have hh' := advance_head_lt h r
      constructor
      · rintro ⟨-, hlt⟩
        exfalso
        rw [age_eq hh' ((advance_cfg_eq s r).symm ▸ ht), advance_robHead_eq h, advance_cfg_eq] at hlt
        rw [age_eq hh ht] at hage
        cases r with
        | none => simp at hage
        | some x =>
          simp only [retireCount_some, Option.isSome_some, if_true] at hage hlt hle
          split_ifs at hage hlt <;> omega
      · rintro ⟨-, hc, -⟩; exact absurd hc hage
  · simp [ht]

/-! ### Entries after the cycle -/

theorem nextRob_of_none (ha : s.allocation = none) :
    nextRob s (signals s) s.allocation = broadcastRob s.rob (signals s).broadcast := by
  rw [ha]; rfl

theorem nextRob_of_some {a : Allocation} (ha : s.allocation = some a) :
    nextRob s (signals s) s.allocation
      = (broadcastRob s.rob (signals s).broadcast).set s.robTail a.entry := by
  rw [ha]; rfl

theorem robEntry_eq_of_getElem? {t : Nat} {e : RobEntry} (h : s.rob[t]? = some e) :
    s.robEntry t = e := by
  simp [State.robEntry, List.getD_eq_getElem?_getD, h]

theorem getElem?_broadcastRob (h : s.Shape) {t : Nat} (ht : t < s.cfg.robSize) :
    (broadcastRob s.rob (signals s).broadcast)[t]? = some (s.completed t) := by
  have hget : s.rob[t]? = some (s.robEntry t) := by
    have hlen : t < s.rob.length := by rw [h.rob_length]; exact ht
    rw [robEntry_eq_of_getElem? (List.getElem?_eq_getElem hlen), List.getElem?_eq_getElem hlen]
  unfold State.completed
  cases (signals s).broadcast with
  | none => exact hget
  | some b => rw [broadcastRob_getElem?, hget]; rfl

theorem robEntry_advance_old (h : s.Shape) {r : Option Retirement} {t : Nat} (ht : t < s.cfg.robSize)
    (hne : s.allocation ≠ none → t ≠ s.robTail) : (s.advance r).robEntry t = s.completed t := by
  refine robEntry_eq_of_getElem? ?_
  rw [State.advance_rob]
  have hb := getElem?_broadcastRob h ht
  cases ha : s.allocation with
  | none => rw [nextRob_of_none ha]; exact hb
  | some a =>
    have := hne (by simp [ha])
    rw [nextRob_of_some ha, List.getElem?_set_ne (Ne.symm this)]
    exact hb

theorem robEntry_advance_new (h : s.Shape) {r : Option Retirement} {a : Allocation}
    (ha : s.allocation = some a) : (s.advance r).robEntry s.robTail = a.entry := by
  refine robEntry_eq_of_getElem? ?_
  rw [State.advance_rob, nextRob_of_some ha, List.getElem?_set_self]
  rw [broadcastRob_length, h.rob_length]
  exact robTail_lt h

/-- A valid tag after the cycle is an old one behind the retiring head, its entry completed by the
broadcast, or the dispatched one. -/
theorem validTag_advance_cases (h : s.Shape) {r : Option Retirement} (hr : Retires s r) {t : Nat}
    (hv : (s.advance r).validTag t = true) :
    (s.validTag t = true ∧ (s.advance r).robEntry t = s.completed t ∧
      s.age t < s.robCount) ∨
    ∃ a, s.allocation = some a ∧ t = s.robTail ∧ (s.advance r).robEntry t = a.entry ∧
      s.age t = s.robCount := by
  obtain ⟨ht, hage, hlt⟩ := (validTag_advance h hr).1 hv
  by_cases hc : s.age t < s.robCount
  · refine .inl ⟨validTag_iff.2 ⟨ht, hc⟩, robEntry_advance_old h ht fun hn heq => ?_, hc⟩
    obtain ⟨a, ha⟩ := Option.ne_none_iff_exists'.1 hn
    rw [heq, age_tail h (dispatchCount_of_some ha).2] at hc
    omega
  · cases ha : s.allocation with
    | none => rw [dispatchCount_of_none ha] at hlt; omega
    | some a =>
      obtain ⟨hd, hroom⟩ := dispatchCount_of_some ha
      have heq : t = s.robTail := by
        refine age_inj h.head_lt ht (robTail_lt h) ?_
        rw [age_tail h hroom]
        omega
      subst heq
      exact .inr ⟨a, rfl, rfl, robEntry_advance_new h ha, by omega⟩

/-- An old valid tag other than the retiring head's stays valid. -/
theorem validTag_advance_of_old (h : s.Shape) {r : Option Retirement} (hr : Retires s r) {t : Nat}
    (hv : s.validTag t = true) (hne : r ≠ none → t ≠ s.robHead) :
    (s.advance r).validTag t = true ∧ (s.advance r).robEntry t = s.completed t ∧
      (s.advance r).age t + retireCount r = s.age t := by
  obtain ⟨ht, hlt⟩ := validTag_iff.1 hv
  have hage : retireCount r ≤ s.age t := by
    cases r with
    | none => exact Nat.zero_le _
    | some x =>
      rw [retireCount_some]
      refine Nat.one_le_iff_ne_zero.2 fun h0 => hne (by simp) ?_
      refine age_inj h.head_lt ht h.head_lt ?_
      rw [h0, age_head h.head_lt]
  have hvn := (validTag_advance h hr).2 ⟨ht, hage, by omega⟩
  obtain ⟨-, he, -⟩ | ⟨a, -, -, -, hc⟩ := validTag_advance_cases h hr hvn
  · exact ⟨hvn, he, age_advance h ht hage⟩
  · omega

/-- The dispatched tag is valid after the cycle, and the youngest. -/
theorem validTag_advance_tail (h : s.Shape) {r : Option Retirement} (hr : Retires s r)
    {a : Allocation} (ha : s.allocation = some a) :
    (s.advance r).validTag s.robTail = true ∧
      (s.advance r).age s.robTail + retireCount r = s.robCount := by
  obtain ⟨hd, hroom⟩ := dispatchCount_of_some ha
  have hage := age_tail h hroom
  have hle := hr.retireCount_le
  refine ⟨(validTag_advance h hr).2 ⟨robTail_lt h, by omega, by omega⟩, ?_⟩
  rw [age_advance h (robTail_lt h) (by omega), hage]

/-! ### The balance of awaited tags -/

theorem loadOps_eq (op : Op) :
    (decide (op = .lw) || decide (op = .lbu)) = decide (opKind op = .load) := by
  cases op <;> rfl

theorem storeOp_eq (op : Op) : decide (op = .sw) = decide (opKind op = .store) := by
  cases op <;> rfl

theorem isLoadEntry_dispatched (s : State) (b : Option Payload) (d : Decoded) (t : Nat) :
    isLoadEntry (dispatchedLsq s b d t) = decide (opKind d.op = .load) :=
  (Bool.true_and _).trans (loadOps_eq d.op)

theorem isStoreEntry_dispatched (s : State) (b : Option Payload) (d : Decoded) (t : Nat) :
    isStoreEntry (dispatchedLsq s b d t) = decide (opKind d.op = .store) :=
  (Bool.true_and _).trans (storeOp_eq d.op)

/-- The dispatched entry is awaited when its kind broadcasts, and dispatch then has a holder for it. -/
theorem Allocates.awaits {b : Option Payload} {a : Allocation} (h : Allocates s b a)
    (q : Nat → Bool) :
    held q (rsTag (some a)) + held q (loadTag (some a))
      = countIf (!a.entry.ready && kindBroadcasts a.entry.kind && q s.robTail) := by
  have hcls : ∀ d, latchMicroOp s.fl = .instr d → kindOfClass d.cls = opKind d.op := by
    intro d hd
    obtain ⟨-, i, -, rfl⟩ := latchMicroOp_instr hd
    rfl
  cases h with
  | fault f hf => rfl
  | ebreak d hd he =>
    simp [rsTag, loadTag, dispatchedEntry, MicroOp.kind, hcls d hd, he]
  | unit d i u hd hu hi =>
    have hk : opKind d.op = .alu ∨ opKind d.op = .branch ∨ opKind d.op = .jump ∨
        opKind d.op = .mulDiv := by
      revert hu
      cases d.op <;> simp [opUnit, opClass, unitOfClass, opKind, kindOfClass]
    simp only [rsTag, loadTag, dispatchedEntry, MicroOp.kind, hcls d hd]
    obtain hk | hk | hk | hk := hk <;> simp [hk, kindBroadcasts, dispatchedRs]
  | memory d i hd hm hi =>
    simp only [rsTag, loadTag, dispatchedEntry, MicroOp.kind, hcls d hd]
    have hload := isLoadEntry_dispatched s b d s.robTail
    have htag : (dispatchedLsq s b d s.robTail).tag = s.robTail := rfl
    obtain hk | hk := hm <;> simp [hload, hk, kindBroadcasts, htag]

/-- An old tag is not the one dispatch gives out. -/
theorem not_dispatched_of_age_lt (h : s.Shape) {t : Nat} (hlt : s.age t < s.robCount) :
    ¬ (s.allocation ≠ none ∧ t = s.robTail) := by
  rintro ⟨hn, rfl⟩
  obtain ⟨a, ha⟩ := Option.ne_none_iff_exists'.1 hn
  rw [age_tail h (dispatchCount_of_some ha).2] at hlt
  omega

/-- A tag that is not valid after the cycle is not the one dispatch gives out. -/
theorem not_dispatched_of_invalid (h : s.Shape) {r : Option Retirement} (hr : Retires s r) {t : Nat}
    (hv : (s.advance r).validTag t = false) : ¬ (s.allocation ≠ none ∧ t = s.robTail) := by
  rintro ⟨hn, rfl⟩
  obtain ⟨a, ha⟩ := Option.ne_none_iff_exists'.1 hn
  rw [(validTag_advance_tail h hr ha).1] at hv
  cases hv

/-- An awaited tag is valid after the cycle. -/
theorem not_awaited_of_invalid (h : s.Shape) {r : Option Retirement} (hr : Retires s r) {t : Nat}
    (hv : (s.advance r).validTag t = false) : s.awaited t = false := by
  cases hw : s.awaited t with
  | false => rfl
  | true =>
    refine absurd (validTag_advance_of_old h hr (awaited_iff.1 hw).1 ?_).1 (by simp [hv])
    rintro hn rfl
    obtain ⟨x, rfl⟩ := Option.ne_none_iff_exists'.1 hn
    rw [hr.head_not_awaited] at hw
    cases hw

theorem not_awaited_of_age {t : Nat} (h : s.robCount ≤ s.age t) : s.awaited t = false := by
  cases hw : s.awaited t with
  | false => rfl
  | true => have := (validTag_iff.1 (awaited_iff.1 hw).1).2; omega

/-- How often dispatch makes somebody hold the tag `t`. -/
def State.dispatchedHolds (s : State) (t : Nat) : Nat :=
  held (fun u => decide (u = t)) (rsTag s.allocation)
    + held (fun u => decide (u = t)) (loadTag s.allocation)

theorem dispatchedHolds_of_some {a : Allocation} (ha : s.allocation = some a) (t : Nat) :
    s.dispatchedHolds t
      = countIf (!a.entry.ready && kindBroadcasts a.entry.kind && decide (s.robTail = t)) := by
  unfold State.dispatchedHolds
  rw [ha]
  exact (dispatch_allocates ha).2.2.awaits _

theorem dispatchedHolds_eq_zero {t : Nat} (hn : ¬ (s.allocation ≠ none ∧ t = s.robTail)) :
    s.dispatchedHolds t = 0 := by
  cases ha : s.allocation with
  | none => unfold State.dispatchedHolds; rw [ha]; rfl
  | some a =>
    have hne : s.robTail ≠ t := fun heq => hn ⟨by simp [ha], heq.symm⟩
    simp [dispatchedHolds_of_some ha, hne]

/-- How often the broadcast names the tag `t`. -/
abbrev State.broadcastHolds (s : State) (t : Nat) : Nat :=
  held (fun u => decide (u = t)) ((signals s).broadcast.map Payload.tag)

theorem broadcastHolds_eq_zero {t : Nat} (hb : ∀ b, (signals s).broadcast = some b → b.tag ≠ t) :
    s.broadcastHolds t = 0 := by
  unfold State.broadcastHolds
  cases hbc : (signals s).broadcast with
  | none => rfl
  | some b => simp [hb b hbc]

theorem broadcastHolds_of_not_awaited (h : s.InFlight) {t : Nat} (hw : s.awaited t = false) :
    s.broadcastHolds t = 0 := by
  refine broadcastHolds_eq_zero ?_
  rintro b hb rfl
  rw [h.awaited_of_broadcast hb] at hw
  cases hw

/-- An old entry ceases to be awaited when it is the broadcast's. -/
theorem awaited_advance_old (h : s.InFlight) {r : Option Retirement} {t : Nat}
    (hvn : (s.advance r).validTag t = true) (hv : s.validTag t = true)
    (he : (s.advance r).robEntry t = s.completed t) :
    countIf ((s.advance r).awaited t) + s.broadcastHolds t = countIf (s.awaited t) := by
  obtain ⟨b, hb, hbt, hcomp⟩ | ⟨hno, hcomp⟩ := completed_cases s t
  · have hna : (s.advance r).awaited t = false := by simp [State.awaited, he, hcomp]
    have hw : s.awaited t = true := hbt ▸ h.awaited_of_broadcast hb
    simp [State.broadcastHolds, hna, hw, hb, hbt]
  · have hsame : (s.advance r).awaited t = s.awaited t := by
      simp only [State.awaited, hvn, hv, he, hcomp]
    rw [hsame, broadcastHolds_eq_zero hno, Nat.add_zero]

/-- Over the cycle one tag ceases to be awaited, the broadcast's, and the dispatched one is new. -/
theorem awaited_advance (h : s.InFlight) {r : Option Retirement} (hr : Retires s r) (t : Nat) :
    countIf ((s.advance r).awaited t) + s.broadcastHolds t
      = countIf (s.awaited t) + s.dispatchedHolds t := by
  cases hv : (s.advance r).validTag t with
  | false =>
    have hna : (s.advance r).awaited t = false := by simp [State.awaited, hv]
    have hw := not_awaited_of_invalid h.shape hr hv
    rw [hna, hw, broadcastHolds_of_not_awaited h hw,
      dispatchedHolds_eq_zero (not_dispatched_of_invalid h.shape hr hv)]
  | true =>
    obtain ⟨hvt, he, hlt⟩ | ⟨a, ha, rfl, he, hage⟩ := validTag_advance_cases h.shape hr hv
    · rw [awaited_advance_old h hv hvt he,
        dispatchedHolds_eq_zero (not_dispatched_of_age_lt h.shape hlt), Nat.add_zero]
    · have hw : s.awaited s.robTail = false := not_awaited_of_age hage.ge
      have hnew : (s.advance r).awaited s.robTail
          = (!a.entry.ready && kindBroadcasts a.entry.kind) := by
        simp [State.awaited, hv, he]
      rw [hnew, hw, broadcastHolds_of_not_awaited h hw, dispatchedHolds_of_some ha]
      simp

end

end Sys2Proof.Machine
end


-- ==== Sys2Proof/Proofs/InFlightKept.lean ====
section
/-! PROOF. A clock cycle that goes on keeps the shape and the invariants of 10 R57, one clause at a
time. -/

namespace Sys2Proof.Machine

section
variable {s : State}

/-! ### Shape -/

theorem writeDest_x0 {x : Vector Word 32} (hx : x[0] = 0) (d : Option Reg) (v : Word) :
    (writeDest x d v)[0] = 0 := (writeDest_entry_zero x d v).trans hx

/-- A tag computed from a pc has its width (10 R47). -/
theorem bpTag_lt (cfg : Config) (h : cfg.bhtLogSize ≤ 30) (pc : Word) :
    (bpTag cfg pc).toNat < 2 ^ (32 - cfg.bhtLogSize) := by
  unfold bpTag
  rw [BitVec.toNat_ushiftRight, Nat.shiftRight_eq_div_pow, Nat.div_lt_iff_lt_mul (by positivity),
    ← pow_add, show 32 - cfg.bhtLogSize + cfg.bhtLogSize = 32 by omega]
  exact pc.isLt

theorem legal_bhtLogSize {cfg : Config} (h : cfg.legal = true) : cfg.bhtLogSize ≤ 30 := by
  simp only [Config.legal, Bool.and_eq_true, decide_eq_true_eq] at h
  omega

theorem State.Shape.bp_update (h : s.Shape) (r : Retirement) :
    (s.commitEffects r).bp.length = 2 ^ s.cfg.bhtLogSize ∧
      ∀ e ∈ (s.commitEffects r).bp, e.tag.toNat < 2 ^ (32 - s.cfg.bhtLogSize) := by
  rw [State.commitEffects_bp]
  split_ifs
  · refine ⟨by rw [bpUpdate, List.length_set, h.bp_length], fun e he => ?_⟩
    rcases List.mem_or_eq_of_mem_set he with he | rfl
    · exact h.bp_tags e he
    · exact bpTag_lt s.cfg (legal_bhtLogSize h.legal) r.entry.pc
  · exact ⟨h.bp_length, h.bp_tags⟩

/-- A store whose check passes keeps data memory canonical and in bounds. -/
theorem State.Shape.dmem_store (h : s.Shape) {ea : Word} (v : Word)
    (hc : accessCheck s.cfg .store 4 ea = none) :
    (s.dmemStore ea v).wf s.cfg.initFill = true ∧
      ∀ c ∈ s.dmemStore ea v, c.1 < s.cfg.memBytes :=
  ⟨Memory.wf_writeWord _ _ _ _ h.dmem_wf,
    Memory.bound_writeBytes _ _ _ _ _ h.dmem_bound ((accessCheck_eq_none _ _ _ _).1 hc).2⟩

/-- The store a retirement performs has passed its check. -/
theorem retireDmem_shape (h : s.Shape) {x : Retirement} (hr : Retires s (some x)) :
    (retireDmem s x.store).wf s.cfg.initFill = true ∧
      ∀ c ∈ retireDmem s x.store, c.1 < s.cfg.memBytes := by
  obtain ⟨-, -, ⟨hn, -⟩ | ⟨st, hst, -, -, hcheck⟩⟩ := commitDecision_retire (hr x rfl)
  · rw [hn]; exact ⟨h.dmem_wf, h.dmem_bound⟩
  · rw [hst]; exact h.dmem_store st.data hcheck

theorem clearRat_getElem (s : State) (d : Option Reg) (q : Fin 32) :
    (clearRat s d)[q] =
      if d = some (BitVec.ofFin q) ∧ s.rat[q] = .pending s.robHead then .committed else s.rat[q] := by
  unfold clearRat
  cases d with
  | none => simp
  | some r =>
    by_cases hq : r = BitVec.ofFin q
    · subst hq
      simp only [Fin.getElem_fin, true_and]
      by_cases hp : s.rat[q.val] = .pending s.robHead
      · simp [hp]
      · simp [hp]
    · have hne : r.toNat ≠ q.val := fun h => hq (BitVec.eq_of_toNat_eq h)
      simp only [Fin.getElem_fin, Option.some.injEq, hq, false_and, if_false]
      split_ifs
      · rw [Vector.getElem_set_ne _ _ hne]
      · rfl

/-- The register the dispatched instruction renames. -/
def State.newDest (s : State) : Option Reg := s.allocation.bind Allocation.dest

theorem destOf_eq_some {rd r : Reg} : destOf rd = some r ↔ rd = r ∧ r ≠ 0 := by
  unfold destOf
  split_ifs with h
  · simp only [false_iff]; rintro ⟨rfl, h'⟩; exact h' h
  · simp only [Option.some.injEq]; exact ⟨fun hr => ⟨hr, hr ▸ h⟩, fun hr => hr.1⟩

/-- Dispatch renames the destination of its entry, which is not x0. -/
theorem newDest_eq {a : Allocation} (ha : s.allocation = some a) : s.newDest = a.entry.dest := by
  have h := (dispatch_allocates ha).2.2
  rw [State.newDest, ha, Option.bind_some, h.entry_eq, h.dest_eq]
  rfl

theorem latch_dest_ne_zero {fl : FetchLatch} {r : Reg} (h : (latchMicroOp fl).dest = some r) :
    r ≠ 0 := by
  cases hu : latchMicroOp fl with
  | fault f => rw [hu] at h; cases h
  | instr d =>
    obtain ⟨-, i, -, rfl⟩ := latchMicroOp_instr hu
    rw [hu] at h
    exact (destOf_eq_some.1 h).2

theorem newDest_ne_zero {r : Reg} (h : s.newDest = some r) : r ≠ 0 := by
  cases ha : s.allocation with
  | none => rw [State.newDest, ha] at h; cases h
  | some a =>
    rw [State.newDest, ha, Option.bind_some, (dispatch_allocates ha).2.2.dest_eq] at h
    exact latch_dest_ne_zero h

theorem rat_advance (s : State) (r : Option Retirement) (q : Fin 32) :
    (s.advance r).rat[q] =
      if s.newDest = some (BitVec.ofFin q) then .pending s.robTail else (s.afterCommit r).rat[q] := by
  rw [State.advance_rat]
  change (nextRat s _ s.allocation)[q] = _
  cases ha : s.allocation with
  | none => simp [State.newDest, ha, nextRat]
  | some a =>
    have hdest : s.newDest = a.dest := by rw [State.newDest, ha, Option.bind_some]
    cases hd : a.dest with
    | none => simp [nextRat, hdest, hd]
    | some p =>
      have hp := newDest_ne_zero (hdest.trans hd)
      rw [hdest, hd]
      simp only [nextRat, hd, hp, if_false]
      by_cases hq : p = BitVec.ofFin q
      · subst hq
        simp
      · have hne : p.toNat ≠ q.val := fun h => hq (BitVec.eq_of_toNat_eq h)
        simp only [Fin.getElem_fin, Option.some.injEq, hq, if_false]
        rw [Vector.getElem_set_ne _ _ hne]

/-- The retired head's own mapping is cleared, every other stands (46 R413, 49 R544). -/
theorem rat_afterCommit (s : State) {r : Option Retirement} (hr : Retires s r) (q : Fin 32) :
    (s.afterCommit r).rat[q] =
      if r ≠ none ∧ s.headEntry.dest = some (BitVec.ofFin q) ∧ s.rat[q] = .pending s.robHead
      then .committed else s.rat[q] := by
  cases r with
  | none => simp
  | some x =>
    rw [State.afterCommit_some, State.commitEffects_rat, clearRat_getElem, hr.head.2.1]
    simp

theorem rat0_advance (h : s.Shape) {r : Option Retirement} (hr : Retires s r) :
    (s.advance r).rat[0] = .committed := by
  have hrat := rat_advance s r 0
  have hclear := rat_afterCommit s hr 0
  have h0 : s.newDest ≠ some (BitVec.ofFin 0) := fun hd => newDest_ne_zero hd rfl
  rw [if_neg h0, hclear] at hrat
  split_ifs at hrat
  · exact hrat
  · exact hrat.trans h.rat0_committed

theorem nextRs_length (s : State) {b : Option Payload} :
    (nextRs s (signals s) (dispatch s b)).length = s.rs.length := by
  cases ha : dispatch s b with
  | none => rw [nextRs_none, issuedRs_length]
  | some a =>
    rw [nextRs_some]
    split
    · rw [List.length_set, issuedRs_length]
    · exact issuedRs_length s

theorem nextLsq_length (s : State) {b : Option Payload} (r : Option Retirement) :
    (nextLsq s (signals s) (dispatch s b) r).length = s.lsq.length := by
  cases ha : dispatch s b with
  | none => rw [nextLsq_none, committedLsq_length]
  | some a =>
    rw [nextLsq_some]
    split
    · rw [List.length_set, committedLsq_length]
    · exact committedLsq_length s r

theorem nextRob_length (s : State) : (nextRob s (signals s) s.allocation).length = s.rob.length := by
  cases ha : s.allocation with
  | none => rw [← ha, nextRob_of_none ha, broadcastRob_length]
  | some a => rw [← ha, nextRob_of_some ha, List.length_set, broadcastRob_length]

theorem robTail_advance (h : s.Shape) {r : Option Retirement} (hr : Retires s r) :
    (s.advance r).robTail = (s.advance r).tagAt (s.advance r).robCount := by
  have hh := h.head_lt
  have hroom := dispatchCount_room h
  have hle := hr.retireCount_le
  have htail := robTail_lt h
  rw [tagAt_eq (advance_head_lt h r) (by rw [advance_robCount_eq, advance_cfg_eq]; omega),
    advance_robHead_eq h, advance_robCount_eq, advance_cfg_eq]
  have ht : s.robTail = if s.robHead + s.robCount < s.cfg.robSize then s.robHead + s.robCount
      else s.robHead + s.robCount - s.cfg.robSize := by
    rw [← tagAt_count h, tagAt_eq hh h.count_le]
  have hnew : (s.advance r).robTail =
      if s.dispatchCount = 1 then (if s.robTail + 1 = s.cfg.robSize then 0 else s.robTail + 1)
      else s.robTail := by
    rw [← nextTag_eq htail, State.advance_robTail, State.dispatchCount]
    change (if s.allocation.isSome then _ else _) = _
    cases s.allocation <;> rfl
  have hd : s.dispatchCount = 0 ∨ s.dispatchCount = 1 := by
    unfold State.dispatchCount; split <;> simp
  rw [hnew]
  cases r with
  | none =>
    simp only [retireCount_none, Option.isSome_none, Bool.false_eq_true, if_false] at hle ⊢
    split_ifs at ht ⊢ <;> omega
  | some x =>
    simp only [retireCount_some, Option.isSome_some, if_true] at hle ⊢
    split_ifs at ht ⊢ <;> omega

theorem State.Shape.advance (h : s.Shape) {r : Option Retirement} (hr : Retires s r) :
    (s.advance r).Shape := by
  have hcfg := advance_cfg_eq s r
  have hbp : (s.advance r).bp.length = 2 ^ s.cfg.bhtLogSize ∧
      ∀ e ∈ (s.advance r).bp, e.tag.toNat < 2 ^ (32 - s.cfg.bhtLogSize) := by
    cases r with
    | none => exact ⟨h.bp_length, h.bp_tags⟩
    | some x => exact h.bp_update x
  have hdmem : (s.advance r).dmem.wf s.cfg.initFill = true ∧
      ∀ c ∈ (s.advance r).dmem, c.1 < s.cfg.memBytes := by
    cases r with
    | none => exact ⟨h.dmem_wf, h.dmem_bound⟩
    | some x => exact retireDmem_shape h hr
  have himem : (s.advance r).imem = s.imem := by cases r <;> rfl
  have hx : (s.advance r).x[0] = 0 := by
    cases r with
    | none => exact h.x0_zero
    | some x => exact writeDest_x0 h.x0_zero _ _
  have hroom := dispatchCount_room h
  exact
    { legal := by rw [hcfg]; exact h.legal
      bp_length := by rw [hcfg]; exact hbp.1
      bp_tags := by rw [hcfg]; exact hbp.2
      rob_length := by
        rw [hcfg, ← h.rob_length]; exact nextRob_length s
      rs_length := by rw [hcfg, State.advance_rs, nextRs_length, h.rs_length]
      lsq_length := by rw [hcfg, State.advance_lsq, nextLsq_length, h.lsq_length]
      mul_length := by rw [hcfg, State.advance_mul, nextPipe_length, h.mul_length]
      div_length := by rw [hcfg, State.advance_div, nextPipe_length, h.div_length]
      head_lt := advance_head_lt h r
      count_le := by rw [hcfg, advance_robCount_eq]; omega
      tail_eq := robTail_advance h hr
      x0_zero := hx
      rat0_committed := rat0_advance h hr
      imem_wf := by rw [hcfg, himem]; exact h.imem_wf
      dmem_wf := by rw [hcfg]; exact hdmem.1
      imem_bound := by rw [hcfg, himem]; exact h.imem_bound
      dmem_bound := by rw [hcfg]; exact hdmem.2 }

/-! ### Producers and stores -/

theorem producers_advance (h : s.InFlight) {r : Option Retirement} (hr : Retires s r) (t : Nat) :
    (s.advance r).producers t = countIf ((s.advance r).awaited t) := by
  have hhold := holders_advance (fun u => decide (u = t)) h hr
  have haw := awaited_advance h hr t
  have hold := h.producers t
  rw [producers_eq_holders] at hold ⊢
  unfold State.broadcastHolds State.dispatchedHolds State.allocation at haw
  omega

/-- The dispatched entry is a Store exactly when dispatch puts a store into the queue. -/
theorem Allocates.newStore {b : Option Payload} {a : Allocation} (h : Allocates s b a)
    (q : Nat → Bool) :
    held q (newStoreTag (some a)) = countIf (decide (a.entry.kind = .store) && q s.robTail) := by
  have hcls : ∀ d, latchMicroOp s.fl = .instr d → kindOfClass d.cls = opKind d.op := by
    intro d hd
    obtain ⟨-, i, -, rfl⟩ := latchMicroOp_instr hd
    rfl
  cases h with
  | fault f hf => rfl
  | ebreak d hd he =>
    simp [newStoreTag, dispatchedEntry, MicroOp.kind, hcls d hd, he]
  | unit d i u hd hu hi =>
    have hk : opKind d.op ≠ .store := by
      revert hu
      cases d.op <;> simp [opUnit, opClass, unitOfClass, opKind, kindOfClass]
    simp [newStoreTag, dispatchedEntry, MicroOp.kind, hcls d hd, hk]
  | memory d i hd hm hi =>
    have hst := isStoreEntry_dispatched s b d s.robTail
    have htag : (dispatchedLsq s b d s.robTail).tag = s.robTail := rfl
    simp only [newStoreTag, dispatchedEntry, MicroOp.kind, hcls d hd]
    obtain hk | hk := hm <;> simp [hst, hk, htag]

/-- The retiring head's store tag is the head's when the head is a Store. -/
theorem held_storeTag {r : Option Retirement} (hr : Retires s r) (q : Nat → Bool) :
    held q (s.storeTag r) =
      countIf (r.isSome && decide (s.headEntry.kind = .store) && q s.robHead) := by
  cases r with
  | none => rfl
  | some x =>
    obtain ⟨-, -, ⟨hn, -, hk⟩ | ⟨st, hst, hk, -⟩⟩ := commitDecision_retire (hr x rfl)
    · have : s.headEntry.kind ≠ .store := by
        rcases hk with hk | hk | hk | hk | ⟨hk, -⟩ <;> rw [hk] <;> decide
      simp [State.storeTag, retiredStore, hn, this]
    · simp [State.storeTag, retiredStore, hst, hk]

theorem validTag_head (h : s.Shape) (hc : s.robCount ≠ 0) : s.validTag s.robHead = true :=
  validTag_iff.2 ⟨h.head_lt, by rw [age_head h.head_lt]; exact Nat.pos_of_ne_zero hc⟩

/-- How often dispatch puts a store with tag `t` into the queue. -/
def State.dispatchedStores (s : State) (t : Nat) : Nat :=
  held (fun u => decide (u = t)) (newStoreTag s.allocation)

theorem dispatchedStores_of_some {a : Allocation} (ha : s.allocation = some a) (t : Nat) :
    s.dispatchedStores t = countIf (decide (a.entry.kind = .store) && decide (s.robTail = t)) := by
  unfold State.dispatchedStores
  rw [ha]
  exact (dispatch_allocates ha).2.2.newStore _

theorem dispatchedStores_eq_zero {t : Nat} (hn : ¬ (s.allocation ≠ none ∧ t = s.robTail)) :
    s.dispatchedStores t = 0 := by
  cases ha : s.allocation with
  | none => unfold State.dispatchedStores; rw [ha]; rfl
  | some a =>
    have hne : s.robTail ≠ t := fun heq => hn ⟨by simp [ha], heq.symm⟩
    simp [dispatchedStores_of_some ha, hne]

/-- The retiring head's tag is not in flight after the cycle, and not the dispatched one. -/
theorem retiring_ne (h : s.Shape) {r : Option Retirement} (hr : Retires s r) {t : Nat}
    (hage : retireCount r ≤ s.age t) : (r.isSome && decide (s.robHead = t)) = false := by
  cases r with
  | none => rfl
  | some x =>
    have hne : s.robHead ≠ t := by
      rintro rfl
      rw [age_head h.head_lt, retireCount_some] at hage
      omega
    simp [hne]

/-- The valid Store entries with tag `t`, 0 or 1. -/
def State.validStore (s : State) (t : Nat) : Bool :=
  s.validTag t && decide ((s.robEntry t).kind = .store)

/-- Over the cycle the Stores lose the retiring head and gain the dispatched one. -/
theorem validStore_advance (h : s.InFlight) {r : Option Retirement} (hr : Retires s r) (t : Nat) :
    countIf ((s.advance r).validStore t)
        + countIf (r.isSome && decide (s.headEntry.kind = .store) && decide (s.robHead = t))
      = countIf (s.validStore t) + s.dispatchedStores t := by
  unfold State.validStore
  cases hv : (s.advance r).validTag t with
  | true =>
    have hhead : (r.isSome && decide (s.headEntry.kind = .store) && decide (s.robHead = t))
        = false := by
      rw [Bool.and_right_comm, retiring_ne h.shape hr ((validTag_advance h.shape hr).1 hv).2.1]; rfl
    obtain ⟨hvt, he, hlt⟩ | ⟨a, ha, rfl, he, hage⟩ := validTag_advance_cases h.shape hr hv
    · rw [hhead, dispatchedStores_eq_zero (not_dispatched_of_age_lt h.shape hlt), hvt, he,
        completed_kind]
      simp
    · have hvt : s.validTag s.robTail = false := by
        cases hw : s.validTag s.robTail with
        | false => rfl
        | true => have := (validTag_iff.1 hw).2; omega
      rw [hhead, dispatchedStores_of_some ha, hvt, he]
      simp
  | false =>
    rw [dispatchedStores_eq_zero (not_dispatched_of_invalid h.shape hr hv)]
    by_cases hhead : r ≠ none ∧ t = s.robHead
    · -- the head retires
      obtain ⟨hn, rfl⟩ := hhead
      obtain ⟨x, rfl⟩ := Option.ne_none_iff_exists'.1 hn
      rw [validTag_head h.shape hr.head.1, ← State.headEntry]
      simp
    · -- the tag was not in flight before
      have hvt : s.validTag t = false := by
        cases hw : s.validTag t with
        | false => rfl
        | true =>
          rw [(validTag_advance_of_old h.shape hr hw fun hn heq => hhead ⟨hn, heq⟩).1] at hv
          cases hv
      have hno : (r.isSome && decide (s.robHead = t)) = false := by
        cases r with
        | none => rfl
        | some x => simp [show s.robHead ≠ t from fun heq => hhead ⟨by simp, heq.symm⟩]
      rw [Bool.and_right_comm, hno, hvt]
      simp

theorem stores_advance (h : s.InFlight) {r : Option Retirement} (hr : Retires s r) (t : Nat) :
    (s.advance r).lsq.countP (fun e => isStoreEntry e && decide (e.tag = t))
      = countIf ((s.advance r).validTag t && decide (((s.advance r).robEntry t).kind = .store)) := by
  have hqueue := storeHolds_nextLsq (fun u => decide (u = t)) h hr (b := (signals s).broadcast)
  have hrob := validStore_advance h hr t
  have hold : s.lsq.countP (storeHolds fun u => decide (u = t)) = countIf (s.validStore t) :=
    h.stores t
  rw [held_storeTag hr, hold] at hqueue
  change (s.advance r).lsq.countP (storeHolds fun u => decide (u = t)) =
    countIf ((s.advance r).validStore t)
  change (s.advance r).lsq.countP (storeHolds fun u => decide (u = t)) + _ =
    _ + s.dispatchedStores t at hqueue
  omega

/-! ### Slots -/

/-- A not-ready writer that is not broadcast in this cycle stays valid and not ready. -/
theorem writer_advance (h : s.InFlight) {r : Option Retirement} (hr : Retires s r) {t : Nat}
    (hv : s.validTag t = true) (hready : (s.robEntry t).ready = false)
    (hdest : (s.robEntry t).dest ≠ none)
    (hb : ∀ b, (signals s).broadcast = some b → b.tag ≠ t) :
    (s.advance r).validTag t = true ∧ ((s.advance r).robEntry t).ready = false ∧
      ((s.advance r).robEntry t).dest ≠ none ∧
      (s.advance r).age t + retireCount r = s.age t := by
  have hne : r ≠ none → t ≠ s.robHead := by
    rintro hn rfl
    obtain ⟨x, rfl⟩ := Option.ne_none_iff_exists'.1 hn
    obtain ⟨-, -, hrdy | hk⟩ := hr.head
    · rw [State.headEntry, hready] at hrdy; cases hrdy
    · obtain ⟨d, hd⟩ := Option.ne_none_iff_exists'.1 hdest
      have := (h.dests _ hv d hd).2
      rw [State.headEntry] at hk
      rw [hk] at this
      simp at this
  obtain ⟨hvn, he, hage⟩ := validTag_advance_of_old h.shape hr hv hne
  refine ⟨hvn, ?_, ?_, hage⟩
  · rw [he]; exact completed_ready_false hready hb
  · rw [he, completed_dest]; exact hdest

theorem slotOk_wake (h : s.InFlight) {r : Option Retirement} (hr : Retires s r) {own : Nat}
    (hown : own < s.cfg.robSize) (hage : retireCount r ≤ s.age own) {slot : Slot}
    (hs : s.slotOk own slot) :
    (s.advance r).slotOk own (wakeSlot (signals s).broadcast slot) := by
  cases slot with
  | value v => trivial
  | pending t =>
    obtain ⟨hv, hready, hlt, hdest⟩ := hs
    have keep : (∀ b, (signals s).broadcast = some b → b.tag ≠ t) →
        (s.advance r).slotOk own (.pending t) := by
      intro hb
      obtain ⟨hvn, hrn, hdn, hagen⟩ := writer_advance h hr hv hready hdest hb
      have := age_advance h.shape hown hage
      exact ⟨hvn, hrn, by omega, hdn⟩
    cases hb : (signals s).broadcast with
    | none => exact keep fun b hb' => by rw [hb] at hb'; cases hb'
    | some b =>
      rw [wakeSlot_pending]
      split_ifs with ht
      · trivial
      · exact keep fun b' hb' => by rw [hb] at hb'; cases hb'; exact ht

theorem rat_toNat (s : State) (r : Reg) : s.rat[r.toNat]'r.isLt = s.rat[r.toFin] := rfl

/-- What a resolved operand is: a value, or a wait on a not-ready writer the bus does not carry. -/
theorem resolveReg_cases (s : State) (b : Option Payload) (r : Reg) :
    (∃ v, resolveReg s b r = .value v) ∨
    ∃ p, resolveReg s b r = .pending p ∧ r ≠ 0 ∧ s.rat[r.toFin] = .pending p ∧
      (s.robEntry p).ready = false ∧ ∀ c, b = some c → c.tag ≠ p := by
  unfold resolveReg
  by_cases hr : r = 0
  · exact .inl ⟨0, if_pos hr⟩
  · rw [if_neg hr, rat_toNat]
    cases hp : s.rat[r.toFin] with
    | committed => exact .inl ⟨_, rfl⟩
    | pending p =>
      cases hready : (s.robEntry p).ready with
      | true => exact .inl ⟨(s.robEntry p).value, by simp [hready]⟩
      | false =>
        cases b with
        | none => exact .inr ⟨p, by simp [hready], hr, rfl, hready, fun c hc => by cases hc⟩
        | some c =>
          by_cases hc : c.tag = p
          · exact .inl ⟨c.value, by simp [hready, hc]⟩
          · exact .inr ⟨p, by simp [hready, hc], hr, rfl, hready, fun c' hc' => by
              cases hc'; exact hc⟩

theorem slotOk_resolve (h : s.InFlight) {r : Option Retirement} (hr : Retires s r)
    {a : Allocation} (ha : s.allocation = some a) (q : Reg) :
    (s.advance r).slotOk s.robTail (resolveReg s (signals s).broadcast q) := by
  obtain ⟨v, hv⟩ | ⟨p, hp, hq, hrat, hready, hb⟩ := resolveReg_cases s (signals s).broadcast q
  · rw [hv]; trivial
  · rw [hp]
    obtain ⟨hvp, hdest, -⟩ := h.rat_pending q.toFin p hrat
    obtain ⟨hvn, hrn, hdn, hagen⟩ := writer_advance h hr hvp hready (by rw [hdest]; simp) hb
    obtain ⟨-, htail⟩ := validTag_advance_tail h.shape hr ha
    have := (validTag_iff.1 hvp).2
    exact ⟨hvn, hrn, by omega, hdn⟩

/-- A tag that is awaited and kept is behind the retiring head. -/
theorem retireCount_le_age (h : s.Shape) {r : Option Retirement} (hr : Retires s r) {t : Nat}
    (hw : s.awaited t = true) : retireCount r ≤ s.age t := by
  cases r with
  | none => exact Nat.zero_le _
  | some x =>
    refine Nat.one_le_iff_ne_zero.2 fun h0 => ?_
    have : t = s.robHead := age_inj h.head_lt (validTag_iff.1 (awaited_iff.1 hw).1).1 h.head_lt
      (by rw [h0, age_head h.head_lt])
    subst this
    rw [hr.head_not_awaited] at hw
    cases hw

theorem rs_slots_advance (h : s.InFlight) {r : Option Retirement} (hr : Retires s r) {e : RsEntry}
    (he : e ∈ (s.advance r).rs) (hb : e.busy = true) :
    (s.advance r).slotOk e.dest e.j ∧ (s.advance r).slotOk e.dest e.k := by
  obtain ⟨e0, he0, hb0, rfl⟩ | ⟨a, i, ha, hrs⟩ := nextRs_origin he hb
  · have hw := h.awaited_of_rs he0 hb0
    have hlt := (validTag_iff.1 (awaited_iff.1 hw).1).1
    have hage := retireCount_le_age h.shape hr hw
    obtain ⟨hj, hk⟩ := h.rs_slots e0 he0 hb0
    rw [wakeRs_dest]
    unfold wakeRs
    rw [if_pos hb0]
    exact ⟨slotOk_wake h hr hlt hage hj, slotOk_wake h hr hlt hage hk⟩
  · have halloc := (dispatch_allocates ha).2.2
    cases halloc with
    | unit d j u _ _ _ =>
      cases hrs
      exact ⟨slotOk_resolve h hr ha d.rs1, slotOk_resolve h hr ha d.rs2⟩
    | _ => cases hrs

/-! ### The load/store queue -/

/-- A busy entry after the cycle: an old one woken, marked issued when it is the losing load, or the
dispatched one. -/
theorem advance_lsq_cases {r : Option Retirement} {i : Nat} {e : LsqEntry}
    (he : (s.advance r).lsq[i]? = some e) (hb : e.busy = true) :
    (∃ e0, s.lsq[i]? = some e0 ∧ e0.busy = true ∧
      ((∀ l, s.loadRequest = some l → l.index ≠ i) ∧ e = wakeLsq (signals s).broadcast e0 ∨
        ∃ l, s.loadRequest = some l ∧ l.index = i ∧ wonBy (signals s).win .load = false ∧
          e = { wakeLsq (signals s).broadcast e0 with issued := true })) ∨
    ∃ a d, s.allocation = some a ∧ latchMicroOp s.fl = .instr d ∧
      (opKind d.op = .load ∨ opKind d.op = .store) ∧
      e = dispatchedLsq s (signals s).broadcast d s.robTail := by
  rw [State.advance_lsq] at he
  obtain hc | ⟨a, f, ha, hlsq, -, -⟩ := nextLsq_origin he
  · exact .inl (committedLsq_busy hc hb)
  · refine .inr ?_
    have halloc := (dispatch_allocates ha).2.2
    cases halloc with
    | memory d j hd hm _ =>
      cases hlsq
      exact ⟨_, d, ha, hd, hm, rfl⟩
    | _ => cases hlsq

/-- Waking and issuing change neither tag, mnemonic nor immediate. -/
theorem woken_cases {b : Option Payload} {e e0 : LsqEntry} {P : Prop} {Q R S : LoadOut → Prop}
    (hb0 : e0.busy = true)
    (h : P ∧ e = wakeLsq b e0 ∨
      ∃ l, Q l ∧ R l ∧ S l ∧ e = { wakeLsq b e0 with issued := true }) :
    e.tag = e0.tag ∧ e.op = e0.op ∧ e.imm = e0.imm ∧ e.base = wakeSlot b e0.base ∧
      e.data = wakeSlot b e0.data ∧ isLoadEntry e = isLoadEntry e0 ∧
      isStoreEntry e = isStoreEntry e0 := by
  have hw : wakeLsq b e0 = { e0 with base := wakeSlot b e0.base, data := wakeSlot b e0.data } :=
    if_pos hb0
  rw [hw] at h
  rcases h with ⟨-, rfl⟩ | ⟨l, -, -, -, rfl⟩ <;> exact ⟨rfl, rfl, rfl, rfl, rfl, rfl, rfl⟩

theorem valid_of_lsq_advance (h : s.InFlight) {r : Option Retirement} (hr : Retires s r)
    {e : LsqEntry} (he : e ∈ (s.advance r).lsq) (hb : e.busy = true) :
    (s.advance r).validTag e.tag = true := by
  obtain ⟨i, hi⟩ := List.getElem?_of_mem he
  obtain ⟨e0, he0, hb0, hcase⟩ | ⟨a, d, ha, -, -, rfl⟩ := advance_lsq_cases hi hb
  · obtain ⟨htag, -, -, -, -, hl, hs⟩ := woken_cases hb0 hcase
    rcases h.lsq_ops e0 (List.mem_of_getElem? he0) hb0 with hload | hstore
    · have hw := h.awaited_of_load (List.mem_of_getElem? he0) hload
      have hage := retireCount_le_age h.shape hr hw
      obtain ⟨hlt, hlast⟩ := validTag_iff.1 (awaited_iff.1 hw).1
      rw [htag]
      exact (validTag_advance h.shape hr).2 ⟨hlt, hage, by omega⟩
    · have hpos : 0 < (s.advance r).lsq.countP (fun f => isStoreEntry f && decide (f.tag = e.tag)) :=
        List.countP_pos_iff.2 ⟨e, he, by simp [hs, hstore]⟩
      rw [stores_advance h hr, countIf_pos, Bool.and_eq_true] at hpos
      exact hpos.1
  · exact (validTag_advance_tail h.shape hr ha).1

theorem lsq_slots_advance (h : s.InFlight) {r : Option Retirement} (hr : Retires s r) {e : LsqEntry}
    (he : e ∈ (s.advance r).lsq) (hb : e.busy = true) :
    (s.advance r).slotOk e.tag e.base ∧ (s.advance r).slotOk e.tag e.data := by
  have hv := valid_of_lsq_advance h hr he hb
  obtain ⟨i, hi⟩ := List.getElem?_of_mem he
  obtain ⟨e0, he0, hb0, hcase⟩ | ⟨a, d, ha, -, -, rfl⟩ := advance_lsq_cases hi hb
  · obtain ⟨htag, -, -, hbase, hdata, -, -⟩ := woken_cases hb0 hcase
    obtain ⟨hlt, hage, -⟩ := (validTag_advance h.shape hr).1 hv
    obtain ⟨hs1, hs2⟩ := h.lsq_slots e0 (List.mem_of_getElem? he0) hb0
    rw [htag] at hlt hage ⊢
    rw [hbase, hdata]
    exact ⟨slotOk_wake h hr hlt hage hs1, slotOk_wake h hr hlt hage hs2⟩
  · exact ⟨slotOk_resolve h hr ha d.rs1, slotOk_resolve h hr ha d.rs2⟩

theorem lsq_ops_advance (h : s.InFlight) {r : Option Retirement} {e : LsqEntry}
    (he : e ∈ (s.advance r).lsq) (hb : e.busy = true) :
    isLoadEntry e = true ∨ isStoreEntry e = true := by
  obtain ⟨i, hi⟩ := List.getElem?_of_mem he
  obtain ⟨e0, he0, hb0, hcase⟩ | ⟨a, d, -, -, hm, rfl⟩ := advance_lsq_cases hi hb
  · obtain ⟨-, -, -, -, -, hl, hs⟩ := woken_cases hb0 hcase
    rw [hl, hs]
    exact h.lsq_ops e0 (List.mem_of_getElem? he0) hb0
  · rw [isLoadEntry_dispatched, isStoreEntry_dispatched, decide_eq_true_eq, decide_eq_true_eq]
    exact hm

theorem issued_latched_advance (h : s.InFlight) {r : Option Retirement} {i : Nat} {e : LsqEntry}
    (he : (s.advance r).lsq[i]? = some e) (hl : isLoadEntry e = true) (hi : e.issued = true) :
    ∃ l, (s.advance r).ldOut = some l ∧ l.index = i ∧ l.payload.tag = e.tag := by
  obtain ⟨e0, he0, hb0, ⟨hno, rfl⟩ | ⟨l, hreq, hidx, hlost, rfl⟩⟩ | ⟨a, d, -, -, -, rfl⟩ :=
    advance_lsq_cases he (busy_of_isLoadEntry hl)
  · obtain ⟨l, hld, hidx, -⟩ := h.issued_latched i e0 he0 (by simpa using hl) (by simpa using hi)
    have hreq : s.loadRequest = some l := by simp [State.loadRequest, hld]
    exact absurd hidx (hno l hreq)
  · obtain ⟨e1, he1, -, ht, -⟩ := loadRequest_at h hreq
    rw [hidx, he0] at he1
    cases he1
    refine ⟨l, ?_, hidx, by simpa using ht.symm⟩
    rw [State.advance_ldOut, nextLdOut_eq, hlost]
    exact hreq
  · cases hi

theorem latched_issued_advance (h : s.InFlight) {r : Option Retirement} (hr : Retires s r)
    {l : LoadOut} (hl : (s.advance r).ldOut = some l) :
    ∃ e, (s.advance r).lsq[l.index]? = some e ∧ isLoadEntry e = true ∧ e.issued = true ∧
      e.tag = l.payload.tag := by
  rw [State.advance_ldOut, nextLdOut_eq] at hl
  split_ifs at hl with hwon
  obtain ⟨e, he, hload, ht, -⟩ := loadRequest_at h hl
  have hport : s.portedLsq[l.index]? = some { wakeLsq (signals s).broadcast e with issued := true } := by
    rw [portedLsq_eq, hl]
    simp [he, hwon]
  have hcommit : (s.committedLsq r)[l.index]? = s.portedLsq[l.index]? := by
    unfold State.committedLsq
    cases hst : retiredStore r with
    | none => rfl
    | some st =>
      obtain ⟨-, -, -, f, hf, hstore, -⟩ := retiredStore_at h hr hst
      have hne : st.index ≠ l.index := by
        intro heq
        rw [heq, he] at hf
        cases hf
        rw [isLoadEntry_not_store hload] at hstore
        cases hstore
      simp [releaseLsq_getElem?, hne]
  refine ⟨{ wakeLsq (signals s).broadcast e with issued := true }, ?_, ?_, rfl, ?_⟩
  · rw [State.advance_lsq, nextLsq_of_busy he (busy_of_isLoadEntry hload), hcommit, hport]
  · rw [← hload, ← isLoadEntry_wakeLsq (signals s).broadcast e]
    rfl
  · simpa using ht

/-! ### The RAT -/

theorem rat_pending_advance (h : s.InFlight) {r : Option Retirement} (hr : Retires s r) (q : Fin 32)
    (t : Nat) (ht : (s.advance r).rat[q] = .pending t) :
    (s.advance r).validTag t = true ∧
      ((s.advance r).robEntry t).dest = some (BitVec.ofFin q) ∧
      ∀ u, (s.advance r).validTag u = true →
        ((s.advance r).robEntry u).dest = some (BitVec.ofFin q) →
        (s.advance r).age u ≤ (s.advance r).age t := by
  rw [rat_advance, rat_afterCommit s hr] at ht
  split_ifs at ht with hnew hclear
  · cases ht
    obtain ⟨a, ha⟩ : ∃ a, s.allocation = some a := by
      cases ha : s.allocation with
      | none => rw [State.newDest, ha] at hnew; cases hnew
      | some a => exact ⟨a, rfl⟩
    obtain ⟨hvt, hage⟩ := validTag_advance_tail h.shape hr ha
    refine ⟨hvt, ?_, fun u hu _ => ?_⟩
    · rw [robEntry_advance_new h.shape ha, ← newDest_eq ha, hnew]
    · obtain ⟨hult, huge, hulast⟩ := (validTag_advance h.shape hr).1 hu
      have := age_advance h.shape hult huge
      have := (dispatchCount_of_some ha).1
      omega
  · obtain ⟨hvt, hdest, hyoung⟩ := h.rat_pending q t ht
    have hne : r ≠ none → t ≠ s.robHead := by
      rintro hn rfl
      exact hclear ⟨hn, hdest, ht⟩
    obtain ⟨hvn, he, hage⟩ := validTag_advance_of_old h.shape hr hvt hne
    refine ⟨hvn, by rw [he, completed_dest]; exact hdest, fun u hu hud => ?_⟩
    obtain ⟨hvu, heu, -⟩ | ⟨a, ha, rfl, heu, -⟩ := validTag_advance_cases h.shape hr hu
    · rw [heu, completed_dest] at hud
      have := hyoung u hvu hud
      obtain ⟨hult, huge, -⟩ := (validTag_advance h.shape hr).1 hu
      have := age_advance h.shape hult huge
      omega
    · rw [heu, ← newDest_eq ha] at hud
      exact absurd hud hnew

theorem rat_committed_advance (h : s.InFlight) {r : Option Retirement} (hr : Retires s r) (q : Fin 32)
    (hq : (s.advance r).rat[q] = .committed) (u : Nat) (hu : (s.advance r).validTag u = true) :
    ((s.advance r).robEntry u).dest ≠ some (BitVec.ofFin q) := by
  rw [rat_advance, rat_afterCommit s hr] at hq
  have hnew : s.newDest ≠ some (BitVec.ofFin q) := by
    intro hnew
    rw [if_pos hnew] at hq
    cases hq
  rw [if_neg hnew] at hq
  intro hud
  obtain ⟨hvu, heu, -⟩ | ⟨a, ha, rfl, heu, -⟩ := validTag_advance_cases h.shape hr hu
  · rw [heu, completed_dest] at hud
    split_ifs at hq with hclear
    · obtain ⟨hn, -, hrat⟩ := hclear
      obtain ⟨x, rfl⟩ := Option.ne_none_iff_exists'.1 hn
      have hle := (h.rat_pending q _ hrat).2.2 u hvu hud
      have hge := ((validTag_advance h.shape hr).1 hu).2.1
      rw [age_head h.shape.head_lt] at hle
      rw [retireCount_some] at hge
      omega
    · exact h.rat_committed q hq u hvu hud
  · rw [heu, ← newDest_eq ha] at hud
    exact hnew hud

/-! ### Kinds and destinations -/

/-- Only the kinds that write a register name one (10 R51). -/
theorem destOf_kind (i : Instr) (h : destOf (instrRd i) ≠ none) :
    opKind (instrOp i) = .alu ∨ opKind (instrOp i) = .jump ∨ opKind (instrOp i) = .load ∨
      opKind (instrOp i) = .mulDiv := by
  have hz : destOf 0#5 = none := rfl
  revert h
  cases i <;> simp [opKind, opClass, kindOfClass, instrOp, instrRd, hz]

theorem dests_advance (h : s.InFlight) {r : Option Retirement} (hr : Retires s r) (t : Nat)
    (hv : (s.advance r).validTag t = true) (q : Reg)
    (hq : ((s.advance r).robEntry t).dest = some q) :
    q ≠ 0 ∧ (((s.advance r).robEntry t).kind = .alu ∨ ((s.advance r).robEntry t).kind = .jump ∨
      ((s.advance r).robEntry t).kind = .load ∨ ((s.advance r).robEntry t).kind = .mulDiv) := by
  obtain ⟨hvt, he, -⟩ | ⟨a, ha, rfl, he, -⟩ := validTag_advance_cases h.shape hr hv
  · rw [he, completed_dest] at hq
    rw [he, completed_kind]
    exact h.dests t hvt q hq
  · rw [he, (dispatch_allocates ha).2.2.entry_eq] at hq ⊢
    refine ⟨latch_dest_ne_zero hq, ?_⟩
    cases hu : latchMicroOp s.fl with
    | fault f => rw [hu] at hq; cases hq
    | instr d =>
      obtain ⟨-, i, -, rfl⟩ := latchMicroOp_instr hu
      rw [hu] at hq
      exact destOf_kind i (by rw [show destOf (instrRd i) = some q from hq]; simp)

theorem ready_at_dispatch_advance (h : s.InFlight) {r : Option Retirement} (hr : Retires s r)
    (t : Nat) (hv : (s.advance r).validTag t = true) :
    (((s.advance r).robEntry t).kind = .fault →
        ((s.advance r).robEntry t).ready = true ∧ ((s.advance r).robEntry t).fault ≠ none) ∧
      (((s.advance r).robEntry t).kind = .ebreak → ((s.advance r).robEntry t).ready = true) := by
  obtain ⟨hvt, he, -⟩ | ⟨a, ha, rfl, he, -⟩ := validTag_advance_cases h.shape hr hv
  · rw [he]
    obtain ⟨b, hb, rfl, -⟩ | ⟨-, hc⟩ := completed_cases s t
    · have hk := (awaited_iff.1 (h.awaited_of_broadcast hb)).2.2
      constructor <;> intro hkind <;> rw [completed_kind] at hkind <;> rw [hkind] at hk <;> cases hk
    · rw [hc]; exact h.ready_at_dispatch t hvt
  · rw [he, (dispatch_allocates ha).2.2.entry_eq]
    cases hu : latchMicroOp s.fl with
    | fault f => exact ⟨fun _ => ⟨rfl, by simp [dispatchedEntry, MicroOp.fault?]⟩, fun hk => by cases hk⟩
    | instr d =>
      refine ⟨fun hk => ?_, fun hk => by simp [dispatchedEntry, show (MicroOp.instr d).kind = _ from hk]⟩
      exfalso
      have : kindOfClass d.cls = .fault := hk
      cases hcls : d.cls <;> rw [hcls] at this <;> cases this

/-! ### Assembly -/

/-- A cycle without squash or halt keeps the invariants of 10 R57. -/
theorem State.InFlight.advance (h : s.InFlight) {r : Option Retirement} (hr : Retires s r) :
    (s.advance r).InFlight := by
  exact
    { shape := h.shape.advance hr
      producers := producers_advance h hr
      issued_latched := fun i e => issued_latched_advance h
      latched_issued := fun l => latched_issued_advance h hr
      stores := stores_advance h hr
      lsq_ops := fun e => lsq_ops_advance h
      rat_pending := rat_pending_advance h hr
      rat_committed := rat_committed_advance h hr
      rs_slots := fun e => rs_slots_advance h hr
      lsq_slots := fun e he hb => lsq_slots_advance h hr he hb
      dests := dests_advance h hr
      ready_at_dispatch := ready_at_dispatch_advance h hr }

/-- With nothing in flight the invariants are those of the shape. -/
theorem inFlight_of_empty (h : s.Shape) (hc : s.robCount = 0) (hrs : ∀ e ∈ s.rs, e.busy = false)
    (hlsq : ∀ e ∈ s.lsq, e.busy = false) (halu : s.aluOut = none) (hld : s.ldOut = none)
    (hmul : ∀ u ∈ s.mul, u = none) (hdiv : ∀ u ∈ s.div, u = none)
    (hrat : ∀ r : Fin 32, s.rat[r] = .committed) : s.InFlight := by
  have hno : ∀ t, s.validTag t = false := by
    intro t
    simp [State.validTag, hc]
  have hstages : ∀ l : List (Option UnitOp), (∀ u ∈ l, u = none) → ∀ t,
      l.countP (stageProduces t) = 0 := by
    intro l hl t
    exact List.countP_eq_zero.2 fun u hu => by rw [hl u hu]; simp [stageProduces]
  exact
    { shape := h
      producers := fun t => by
        have h1 : s.rs.countP (rsProduces t) = 0 :=
          List.countP_eq_zero.2 fun e he => by simp [rsProduces, hrs e he]
        have h2 : s.lsq.countP (lsqProduces t) = 0 :=
          List.countP_eq_zero.2 fun e he => by simp [lsqProduces, isLoadEntry, hlsq e he]
        simp [State.producers, h1, h2, hstages _ hmul, hstages _ hdiv, halu, hld, State.awaited, hno]
      issued_latched := fun i e he hl _ => by
        rw [isLoadEntry, hlsq e (List.mem_of_getElem? he)] at hl
        cases hl
      latched_issued := fun l hl => by rw [hld] at hl; cases hl
      stores := fun t => by
        rw [hno]
        exact List.countP_eq_zero.2 fun e he => by simp [isStoreEntry, hlsq e he]
      lsq_ops := fun e he hb => by rw [hlsq e he] at hb; cases hb
      rat_pending := fun r t ht => by rw [hrat r] at ht; cases ht
      rat_committed := fun r _ u hu => by rw [hno u] at hu; cases hu
      rs_slots := fun e he hb => by rw [hrs e he] at hb; cases hb
      lsq_slots := fun e he hb => by rw [hlsq e he] at hb; cases hb
      dests := fun t ht => by rw [hno t] at ht; cases ht
      ready_at_dispatch := fun t ht => by rw [hno t] at ht; cases ht }

end

end Sys2Proof.Machine
end


-- ==== Sys2Proof/Proofs/FrontEnd.lean ====
section
/-! PROOF. What stands in the fetch latch and in the ROB is what the program holds at those addresses,
and each instruction's predicted successor follows it (45 R351 to R357, 46 R401, R403). Nothing here
depends on whether the path is the right one. -/

namespace Sys2Proof.Machine

/-- The pc of the `k`-th instruction from the head: in the ROB, in the latch, or the next to fetch. -/
def State.pcAt (s : State) (k : Nat) : Word :=
  if k < s.robCount then (s.robEntry (s.tagAt k)).pc
  else if k = s.robCount ∧ s.fl.valid = true then s.fl.pc
  else s.pcF

/-- What the sequential semantics finds at `pc`, as the decode stage puts it. -/
def microOpAt (s : State) (pc : Word) (predTaken : Bool) (predTarget : Word) : MicroOp :=
  match sequentialFetch s pc with
  | .error kind => .fault ⟨kind, pc⟩
  | .ok i => .instr (decodedOf i pc predTaken predTarget)

/-- The kinds after which fetch stops (45 R357). -/
def stopKind : Kind → Bool
  | .ebreak | .fault => true
  | .alu | .branch | .jump | .load | .store | .mulDiv => false

/-- A ROB entry is the instruction at its pc: its static fields are those of the decoded word, and
without a taken prediction the predicted successor is the next word. -/
structure EntryOf (s : State) (e : RobEntry) : Prop where
  kind : e.kind = (microOpAt s e.pc e.predTaken e.predTarget).kind
  op : e.op = (microOpAt s e.pc e.predTaken e.predTarget).op
  dest : e.dest = (microOpAt s e.pc e.predTaken e.predTarget).dest
  fault : e.kind = .fault → e.fault = (microOpAt s e.pc e.predTaken e.predTarget).fault?
  fallThrough : e.predTaken = false → e.predTarget = e.pc + 4

/-- The front end follows the program and the predictions. -/
structure State.FrontEnd (s : State) : Prop where
  latch : s.fl.valid = true →
    latchMicroOp s.fl = microOpAt s s.fl.pc s.fl.predTaken s.fl.predTarget ∧
      (s.fl.predTaken = false → s.fl.predTarget = s.fl.pc + 4)
  entry : ∀ t, s.validTag t = true → EntryOf s (s.robEntry t)
  next : ∀ k, k < s.robCount → (s.robEntry (s.tagAt k)).kind ≠ .fault →
    s.pcAt (k + 1) = (s.robEntry (s.tagAt k)).predTarget
  latch_next : s.fl.valid = true → (latchMicroOp s.fl).kind ≠ .fault → s.pcF = s.fl.predTarget
  stopped : s.fetchStopped = true → s.fl.valid = true → stopKind (latchMicroOp s.fl).kind = true
  stopped_rob : s.fetchStopped = true → s.fl.valid = false →
    s.robCount ≠ 0 ∧ stopKind (s.robEntry (s.tagAt (s.robCount - 1))).kind = true
  units : ∀ e ∈ s.rs, e.busy = true → opUnit e.op ≠ none

section
variable {s : State}

/-! ### Fetch -/

theorem decode_ebreakWord : decode ebreakWord = some .ebreak := by decide

@[simp] theorem fetchAccess_valid (s : State) : (fetchAccess s).fl.valid = true := by
  unfold fetchAccess; split <;> rfl

@[simp] theorem fetchAccess_pc (s : State) : (fetchAccess s).fl.pc = s.pcF := by
  unfold fetchAccess; split <;> rfl

/-- The latch holds what the program has at the fetch PC. -/
theorem fetchAccess_microOp (s : State) :
    latchMicroOp (fetchAccess s).fl
      = microOpAt s s.pcF (fetchAccess s).fl.predTaken (fetchAccess s).fl.predTarget := by
  unfold fetchAccess microOpAt sequentialFetch latchMicroOp decodeRecord
  cases hc : fetchCheck s.cfg s.pcF with
  | some kind => rfl
  | none => simp only; cases decode (s.imemWord s.pcF) <;> rfl

theorem fetchAccess_fallThrough (s : State) (h : (fetchAccess s).fl.predTaken = false) :
    (fetchAccess s).fl.predTarget = s.pcF + 4 := by
  unfold fetchAccess at h ⊢
  cases hc : fetchCheck s.cfg s.pcF with
  | some kind => rfl
  | none =>
    simp only [hc, State.predictedTarget] at h ⊢
    rw [h]
    rfl

theorem fetchAccess_next (s : State) (h : (latchMicroOp (fetchAccess s).fl).kind ≠ .fault) :
    (fetchAccess s).pcF = (fetchAccess s).fl.predTarget := by
  rw [fetchAccess_microOp] at h
  unfold microOpAt sequentialFetch at h
  unfold fetchAccess
  cases hc : fetchCheck s.cfg s.pcF with
  | some kind => simp only [hc] at h; exact absurd rfl h
  | none => rfl

theorem fetchAccess_stop (s : State) (h : (fetchAccess s).stop = true) :
    stopKind (latchMicroOp (fetchAccess s).fl).kind = true := by
  rw [fetchAccess_microOp]
  unfold microOpAt sequentialFetch
  unfold fetchAccess at h
  cases hc : fetchCheck s.cfg s.pcF with
  | some kind => rfl
  | none =>
    simp only [hc, stopsFetch, Bool.or_eq_true, decide_eq_true_eq, Option.isNone_iff_eq_none] at h
    rcases h with h | h
    · rw [h, decode_ebreakWord]; rfl
    · rw [h]; rfl

/-- Fetch fills the latch, or leaves fetch PC and stop flag, and the latch unless dispatch empties
it. -/
theorem fetchStage_cases (s : State) (d : Bool) :
    (s.fetchStopped = false ∧ (s.fl.valid = false ∨ d = true) ∧ fetchStage s d = fetchAccess s) ∨
    ((s.fetchStopped = true ∨ (s.fl.valid = true ∧ d = false)) ∧
      (fetchStage s d).pcF = s.pcF ∧ (fetchStage s d).stop = s.fetchStopped ∧
      (d = false → (fetchStage s d).fl = s.fl) ∧ (d = true → (fetchStage s d).fl.valid = false)) := by
  unfold fetchStage fetchRuns
  cases s.fetchStopped <;> cases s.fl.valid <;> cases d <;> simp

/-! ### The cycle -/

theorem sequentialFetch_congr {s t : State} (hc : t.cfg = s.cfg) (hi : t.imem = s.imem) (pc : Word) :
    sequentialFetch t pc = sequentialFetch s pc := by
  simp only [sequentialFetch, State.imemWord, hc, hi]

theorem microOpAt_congr {s t : State} (hc : t.cfg = s.cfg) (hi : t.imem = s.imem) (pc : Word)
    (p : Bool) (a : Word) : microOpAt t pc p a = microOpAt s pc p a := by
  unfold microOpAt
  rw [sequentialFetch_congr hc hi]

@[simp] theorem advance_imem_eq (s : State) (r : Option Retirement) : (s.advance r).imem = s.imem := by
  cases r <;> rfl

theorem EntryOf.congr {s t : State} (hc : t.cfg = s.cfg) (hi : t.imem = s.imem) {e : RobEntry}
    (h : EntryOf s e) : EntryOf t e := by
  have hm := microOpAt_congr hc hi e.pc e.predTaken e.predTarget
  obtain ⟨hkind, hop, hdest, hfault, hfall⟩ := h
  rw [← hm] at hkind hop hdest hfault
  exact ⟨hkind, hop, hdest, hfault, hfall⟩

theorem tagAt_advance (s : State) (r : Option Retirement) {k : Nat} :
    (s.advance r).tagAt k = s.tagAt (k + retireCount r) := by
  unfold State.tagAt
  rw [advance_cfg_eq, State.advance_robHead]
  cases r with
  | none => rfl
  | some x =>
    simp only [Option.isSome_some, if_true, nextTag, retireCount_some, Nat.mod_add_mod]
    congr 1
    omega

/-- The latch after the cycle is the fetched one, or the old one when nothing was dispatched. -/
theorem advance_front (s : State) (r : Option Retirement) :
    (s.fetchStopped = false ∧ (s.fl.valid = false ∨ s.allocation ≠ none) ∧
      (s.advance r).fl = (fetchAccess s).fl ∧ (s.advance r).pcF = (fetchAccess s).pcF ∧
      (s.advance r).fetchStopped = (fetchAccess s).stop) ∨
    ((s.advance r).pcF = s.pcF ∧ (s.advance r).fetchStopped = s.fetchStopped ∧
      (s.fetchStopped = true ∨ s.fl.valid = true) ∧
      (s.allocation = none → (s.advance r).fl = s.fl) ∧
      (s.allocation ≠ none → (s.advance r).fl.valid = false)) := by
  have hd : s.allocation.isSome = false ↔ s.allocation = none := by
    rw [Option.isSome_eq_false_iff, Option.isNone_iff_eq_none]
  have hd' : s.allocation.isSome = true ↔ s.allocation ≠ none := by
    rw [Option.isSome_iff_ne_none]
  simp only [State.advance_fl, State.advance_pcF, State.advance_fetchStopped]
  obtain ⟨h1, h2, h3⟩ | ⟨h1, h2, h3, h4, h5⟩ := fetchStage_cases s s.allocation.isSome
  · exact .inl ⟨h1, h2.imp_right hd'.1, by rw [h3], by rw [h3], by rw [h3]⟩
  · exact .inr ⟨h2, h3, h1.imp_right And.left, fun h => h4 (hd.2 h), fun h => h5 (hd'.2 h)⟩

theorem dispatch_latch_valid {a : Allocation} (ha : s.allocation = some a) : s.fl.valid = true :=
  (dispatch_allocates ha).1

theorem dispatchedEntry_pc (s : State) {a : Allocation} (ha : s.allocation = some a) :
    a.entry.pc = s.fl.pc := by
  rw [(dispatch_allocates ha).2.2.entry_eq]; rfl

/-- The entry `k` places behind the new head: old and completed, or the dispatched one. -/
theorem robEntry_tagAt_advance (h : s.InFlight) {r : Option Retirement} (hr : Retires s r) {k : Nat}
    (hk : k < (s.advance r).robCount) :
    (k + retireCount r < s.robCount ∧
      (s.advance r).robEntry ((s.advance r).tagAt k) = s.completed (s.tagAt (k + retireCount r))) ∨
    ∃ a, s.allocation = some a ∧ k + retireCount r = s.robCount ∧
      (s.advance r).robEntry ((s.advance r).tagAt k) = a.entry := by
  have hshape := h.shape.advance hr
  have hv := validTag_tagAt hshape.head_lt hshape.count_le hk
  rw [tagAt_advance s] at hv ⊢
  have hroom := dispatchCount_room h.shape
  have hle := hr.retireCount_le
  rw [advance_robCount_eq] at hk
  obtain ⟨hvt, he, hlt⟩ | ⟨a, ha, heq, he, hage⟩ := validTag_advance_cases h.shape hr hv
  · rw [age_tagAt h.shape.head_lt (by omega)] at hlt
    exact .inl ⟨hlt, he⟩
  · have := (dispatchCount_of_some ha).1
    rw [age_tagAt h.shape.head_lt (by omega)] at hage
    exact .inr ⟨a, ha, hage, he⟩

theorem pcAt_lt {k : Nat} (hk : k < s.robCount) : s.pcAt k = (s.robEntry (s.tagAt k)).pc := by
  simp [State.pcAt, hk]

theorem pcAt_count (s : State) :
    s.pcAt s.robCount = if s.fl.valid = true then s.fl.pc else s.pcF := by
  simp [State.pcAt]

theorem pcAt_gt {k : Nat} (hk : s.robCount < k) : s.pcAt k = s.pcF := by
  simp [State.pcAt, show ¬ k < s.robCount by omega, show k ≠ s.robCount by omega]

/-- Up to the next place to dispatch, the pcs are the same instructions' pcs. -/
theorem pcAt_advance (h : s.InFlight) {r : Option Retirement} (hr : Retires s r) {k : Nat}
    (hk : k ≤ (s.advance r).robCount) : (s.advance r).pcAt k = s.pcAt (k + retireCount r) := by
  have hle := hr.retireCount_le
  rcases Nat.lt_or_eq_of_le hk with hlt | rfl
  · rw [pcAt_lt hlt]
    obtain ⟨hold, he⟩ | ⟨a, ha, hcount, he⟩ := robEntry_tagAt_advance h hr hlt
    · rw [he, completed_pc, pcAt_lt hold]
    · rw [he, dispatchedEntry_pc s ha, hcount, pcAt_count, if_pos (dispatch_latch_valid ha)]
  · rw [pcAt_count]
    cases ha : s.allocation with
    | some a =>
      have hcount : (s.advance r).robCount + retireCount r = s.robCount + 1 := by
        rw [advance_robCount_eq, (dispatchCount_of_some ha).1]; omega
      rw [hcount, pcAt_gt (by omega)]
      obtain ⟨-, -, hfl, -⟩ | ⟨hpc, -, -, -, hinv⟩ := advance_front s r
      · rw [hfl, fetchAccess_valid, fetchAccess_pc, if_pos rfl]
      · rw [hinv (by simp [ha]), hpc]; rfl
    | none =>
      have hcount : (s.advance r).robCount + retireCount r = s.robCount := by
        rw [advance_robCount_eq, dispatchCount_of_none ha]; omega
      rw [hcount, pcAt_count]
      obtain ⟨-, hv, hfl, -⟩ | ⟨hpc, -, -, hkeep, -⟩ := advance_front s r
      · rcases hv with hv | hv
        · rw [hfl, fetchAccess_valid, fetchAccess_pc, if_pos rfl, hv]; rfl
        · exact absurd ha hv
      · rw [hkeep ha, hpc]

/-- The dispatched entry is the instruction at its pc. -/
theorem EntryOf.dispatched (h : s.FrontEnd) {a : Allocation} (ha : s.allocation = some a) :
    EntryOf s a.entry := by
  obtain ⟨hu, hfall⟩ := h.latch (dispatch_latch_valid ha)
  have he := (dispatch_allocates ha).2.2.entry_eq
  have hmicro : microOpAt s a.entry.pc a.entry.predTaken a.entry.predTarget = latchMicroOp s.fl := by
    rw [he]; exact hu.symm
  constructor
  · rw [hmicro, he]; rfl
  · rw [hmicro, he]; rfl
  · rw [hmicro, he]; rfl
  · intro _; rw [hmicro, he]; rfl
  · rw [he]; exact hfall

/-- Completion keeps the static fields. -/
theorem EntryOf.completed (h : s.InFlight) {t : Nat} (he : EntryOf s (s.robEntry t)) :
    EntryOf s (s.completed t) := by
  constructor
  · simpa using he.kind
  · simpa using he.op
  · simpa using he.dest
  · intro hk
    obtain ⟨b, hb, rfl, -⟩ | ⟨-, hc⟩ := completed_cases s t
    · rw [completed_kind] at hk
      have := (awaited_iff.1 (h.awaited_of_broadcast hb)).2.2
      rw [hk] at this
      cases this
    · rw [hc] at hk ⊢; exact he.fault hk
  · simpa using he.fallThrough

/-- A kind after which fetch stops does not retire. -/
theorem Retires.head_not_stopKind {x : Retirement} (hr : Retires s (some x)) :
    stopKind s.headEntry.kind = false := by
  obtain ⟨-, -, ⟨-, -, hk⟩ | ⟨st, -, hk, -⟩⟩ := commitDecision_retire (hr x rfl)
  · rcases hk with hk | hk | hk | hk | ⟨hk, -⟩ <;> rw [hk] <;> rfl
  · rw [hk]; rfl

theorem State.FrontEnd.stopped_rob_advance (hf : s.FrontEnd) (h : s.InFlight)
    {r : Option Retirement} (hr : Retires s r) (hst : (s.advance r).fetchStopped = true)
    (hv : (s.advance r).fl.valid = false) :
    (s.advance r).robCount ≠ 0 ∧
      stopKind ((s.advance r).robEntry ((s.advance r).tagAt ((s.advance r).robCount - 1))).kind
        = true := by
  have hle := hr.retireCount_le
  obtain ⟨-, -, hfl, -, -⟩ | ⟨-, hstop, -, hkeep, -⟩ := advance_front s r
  · rw [hfl, fetchAccess_valid] at hv; cases hv
  · rw [hstop] at hst
    cases ha : s.allocation with
    | some a =>
      have hd := (dispatchCount_of_some ha).1
      have hpos : (s.advance r).robCount ≠ 0 := by rw [advance_robCount_eq]; omega
      refine ⟨hpos, ?_⟩
      obtain ⟨hold, -⟩ | ⟨a', ha', -, he⟩ := robEntry_tagAt_advance h hr
        (show (s.advance r).robCount - 1 < _ by omega)
      · rw [advance_robCount_eq] at hold; omega
      · rw [he, (dispatch_allocates ha').2.2.entry_eq]
        exact hf.stopped hst (dispatch_latch_valid ha)
    | none =>
      rw [hkeep ha] at hv
      obtain ⟨hc, hk⟩ := hf.stopped_rob hst hv
      have hcount : (s.advance r).robCount + retireCount r = s.robCount := by
        rw [advance_robCount_eq, dispatchCount_of_none ha]; omega
      have hpos : (s.advance r).robCount ≠ 0 := by
        intro h0
        cases r with
        | none => rw [retireCount_none] at hcount; omega
        | some x =>
          rw [retireCount_some] at hcount
          have hone : s.robCount - 1 = 0 := by omega
          rw [hone, tagAt_zero h.shape.head_lt] at hk
          exact absurd hr.head_not_stopKind (by rw [State.headEntry, hk]; simp)
      refine ⟨hpos, ?_⟩
      obtain ⟨-, he⟩ | ⟨a', ha', -⟩ := robEntry_tagAt_advance h hr
        (show (s.advance r).robCount - 1 < _ by omega)
      · rw [he, completed_kind, show (s.advance r).robCount - 1 + retireCount r = s.robCount - 1 by omega]
        exact hk
      · rw [ha] at ha'; cases ha'

/-- Dispatch puts only instructions of a unit into the reservation station (47 R440). -/
theorem State.FrontEnd.units_advance (hf : s.FrontEnd) {r : Option Retirement} {e : RsEntry}
    (he : e ∈ (s.advance r).rs) (hb : e.busy = true) : opUnit e.op ≠ none := by
  obtain ⟨e0, he0, hb0, rfl⟩ | ⟨a, i, ha, hrs⟩ := nextRs_origin he hb
  · rw [wakeRs_op]; exact hf.units e0 he0 hb0
  · have halloc := (dispatch_allocates ha).2.2
    cases halloc with
    | unit d j u _ hu _ =>
      cases hrs
      exact fun hn => by rw [show opUnit d.op = none from hn] at hu; cases hu
    | _ => cases hrs

/-- A cycle without squash or halt keeps the front end on the program. -/
theorem State.FrontEnd.advance (hf : s.FrontEnd) (h : s.InFlight) {r : Option Retirement}
    (hr : Retires s r) : (s.advance r).FrontEnd := by
  have hc := advance_cfg_eq s r
  have hi := advance_imem_eq s r
  constructor
  · intro hv
    rw [microOpAt_congr hc hi]
    obtain ⟨-, -, hfl, -, -⟩ | ⟨-, -, -, hkeep, hinv⟩ := advance_front s r
    · rw [hfl]
      refine ⟨by rw [fetchAccess_pc]; exact fetchAccess_microOp s, fun hp => ?_⟩
      rw [fetchAccess_pc]
      exact fetchAccess_fallThrough s hp
    · cases ha : s.allocation with
      | none => rw [hkeep ha] at hv ⊢; exact hf.latch hv
      | some a => rw [hinv (by simp [ha])] at hv; cases hv
  · intro t hv
    refine EntryOf.congr hc hi ?_
    obtain ⟨hvt, he, -⟩ | ⟨a, ha, -, he, -⟩ := validTag_advance_cases h.shape hr hv
    · rw [he]; exact (hf.entry t hvt).completed h
    · rw [he]; exact EntryOf.dispatched hf ha
  · intro k hk hkind
    rw [pcAt_advance h hr hk]
    obtain ⟨hold, he⟩ | ⟨a, ha, hcount, he⟩ := robEntry_tagAt_advance h hr hk
    · rw [he, completed_kind] at hkind
      rw [he, completed_predTarget, show k + 1 + retireCount r = k + retireCount r + 1 by omega]
      exact hf.next _ hold hkind
    · have hentry := (dispatch_allocates ha).2.2.entry_eq
      rw [he, hentry] at hkind ⊢
      rw [show k + 1 + retireCount r = s.robCount + 1 by omega, pcAt_gt (by omega)]
      exact hf.latch_next (dispatch_latch_valid ha) hkind
  · intro hv hk
    obtain ⟨-, -, hfl, hpc, -⟩ | ⟨hpc, -, -, hkeep, hinv⟩ := advance_front s r
    · rw [hfl] at hk ⊢; rw [hpc]; exact fetchAccess_next s hk
    · cases ha : s.allocation with
      | none => rw [hkeep ha] at hv hk ⊢; rw [hpc]; exact hf.latch_next hv hk
      | some a => rw [hinv (by simp [ha])] at hv; cases hv
  · intro hst hv
    obtain ⟨-, -, hfl, -, hstop⟩ | ⟨-, hstop, -, hkeep, hinv⟩ := advance_front s r
    · rw [hfl]; rw [hstop] at hst; exact fetchAccess_stop s hst
    · cases ha : s.allocation with
      | none => rw [hkeep ha] at hv ⊢; rw [hstop] at hst; exact hf.stopped hst hv
      | some a => rw [hinv (by simp [ha])] at hv; cases hv
  · exact hf.stopped_rob_advance h hr
  · exact fun e => hf.units_advance

/-- With nothing in flight and fetch not stopped the front end holds. -/
theorem frontEnd_of_empty (hc : s.robCount = 0) (hv : s.fl.valid = false)
    (hst : s.fetchStopped = false) (hrs : ∀ e ∈ s.rs, e.busy = false) : s.FrontEnd where
  latch h := by rw [hv] at h; cases h
  entry t h := by rw [validTag_iff, hc] at h; omega
  next k h := by omega
  latch_next h := by rw [hv] at h; cases h
  stopped h := by rw [hst] at h; cases h
  stopped_rob h := by rw [hst] at h; cases h
  units e he hb := by rw [hrs e he] at hb; cases hb

end

end Sys2Proof.Machine
end


-- ==== Sys2Proof/Proofs/Tracking.lean ====
section
/-! PROOF. What the instructions in flight have to do with the sequential run from the committed state:
as long as the path is the right one, the instruction `k` places behind the head is the one the run
executes after `k` steps, and every value, operand and result in the core is the run's (00 R17). -/

namespace Sys2Proof.Machine

/-! ### One sequential step that does not stop -/

section
variable {σ : State}

/-- The tag is only carried along. -/
theorem seqPayload_tag (σ : State) (t : Nat) (i : Instr) : (seqPayload σ t i).tag = t := by
  unfold seqPayload
  cases opKind (instrOp i) with
  | load =>
    simp only
    cases loadCheck σ.cfg (instrOp i) (effectiveAddress (σ.reg (instrRs1 i)) (instrImm i)) <;> rfl
  | _ => rfl

theorem seqPayload_eq (σ : State) (t : Nat) (i : Instr) :
    seqPayload σ t i = { seqPayload σ 0 i with tag := t } := by
  unfold seqPayload
  cases opKind (instrOp i) with
  | load =>
    simp only
    cases loadCheck σ.cfg (instrOp i) (effectiveAddress (σ.reg (instrRs1 i)) (instrImm i)) <;> rfl
  | _ => rfl

/-- Only branches and jumps transfer control. -/
theorem controlOutcome_eq_none (op : Op) (a b imm pc : Word) (h1 : opKind op ≠ .branch)
    (h2 : opKind op ≠ .jump) : controlOutcome op a b imm pc = none := by
  revert h1 h2
  cases op <;> simp [opKind, opClass, kindOfClass, controlOutcome]

theorem seqPayload_ctrl (σ : State) (t : Nat) (i : Instr) (h1 : opKind (instrOp i) ≠ .branch)
    (h2 : opKind (instrOp i) ≠ .jump) : (seqPayload σ t i).ctrl = none := by
  unfold seqPayload
  cases hk : opKind (instrOp i) with
  | alu => exact controlOutcome_eq_none _ _ _ _ _ h1 h2
  | branch => exact absurd hk h1
  | jump => exact absurd hk h2
  | load =>
    simp only
    cases loadCheck σ.cfg (instrOp i) (effectiveAddress (σ.reg (instrRs1 i)) (instrImm i)) <;> rfl
  | _ => rfl

theorem seqPayload_fault (σ : State) (t : Nat) (i : Instr) (h : opKind (instrOp i) ≠ .load) :
    (seqPayload σ t i).fault = none := by
  unfold seqPayload
  cases hk : opKind (instrOp i) with
  | load => exact absurd hk h
  | _ => rfl

/-- The memory a passing store leaves. -/
def seqStore (σ : State) (i : Instr) : Memory :=
  σ.dmemStore (effectiveAddress (σ.reg (instrRs1 i)) (instrImm i)) (σ.reg (instrRs2 i))

/-- An instruction that leaves the core running is a store whose check passes, or completes with its
payload. -/
theorem seqResult_running {i : Instr} (h : (seqResult σ i).halt = .running) :
    (opKind (instrOp i) = .store ∧
      accessCheck σ.cfg .store 4 (effectiveAddress (σ.reg (instrRs1 i)) (instrImm i)) = none ∧
      seqResult σ i = { σ.complete none 0 (σ.pcA + 4) with dmem := seqStore σ i }) ∨
    (opKind (instrOp i) ≠ .store ∧ (seqPayload σ 0 i).fault = none ∧
      seqResult σ i = σ.complete (destOf (instrRd i)) (seqPayload σ 0 i).value
        (nextPc σ.pcA (seqPayload σ 0 i).ctrl)) := by
  unfold seqResult at h ⊢
  cases hk : opKind (instrOp i) with
  | store =>
    simp only [hk] at h ⊢
    cases hc : accessCheck σ.cfg .store 4 (effectiveAddress (σ.reg (instrRs1 i)) (instrImm i)) with
    | some kind => rw [hc] at h; cases h
    | none => exact .inl ⟨trivial, rfl, rfl⟩
  | ebreak => simp only [hk] at h; cases h
  | _ =>
    simp only [hk] at h ⊢
    cases hf : (seqPayload σ 0 i).fault with
    | some f => rw [hf] at h; cases h
    | none => exact .inr ⟨by simp, rfl, rfl⟩

theorem seqNext_running (h : (seqNext σ).halt = .running) :
    ∃ i, sequentialFetch σ σ.pcA = .ok i ∧ seqNext σ = seqResult σ i := by
  unfold seqNext at h ⊢
  cases hf : sequentialFetch σ σ.pcA with
  | error kind => rw [hf] at h; cases h
  | ok i => exact ⟨i, rfl, rfl⟩

theorem store_has_no_dest (i : Instr) (h : opKind (instrOp i) = .store) :
    destOf (instrRd i) = none := by
  by_contra hn
  have := destOf_kind i hn
  rw [h] at this
  simp at this

/-- The registers after a step: the destination has the payload's value. -/
theorem reg_seqResult {i : Instr} (h : (seqResult σ i).halt = .running) (t : Nat) (q : Reg) :
    (seqResult σ i).reg q =
      if destOf (instrRd i) = some q then (seqPayload σ t i).value else σ.reg q := by
  obtain ⟨hk, -, heq⟩ | ⟨-, -, heq⟩ := seqResult_running h
  · rw [heq, store_has_no_dest i hk]; rfl
  · rw [heq, State.reg_complete, seqPayload_eq σ t]
    have : destOf (instrRd i) = some q ↔ q = instrRd i ∧ instrRd i ≠ 0 := by
      rw [destOf_eq_some]
      exact ⟨fun ⟨h1, h2⟩ => ⟨h1.symm, h1 ▸ h2⟩, fun ⟨h1, h2⟩ => ⟨h1.symm, h1 ▸ h2⟩⟩
    simp only [this]

/-- The bytes after a step: a store's lanes. -/
theorem read_seqResult {i : Instr} (h : (seqResult σ i).halt = .running)
    (hwf : σ.dmem.wf σ.cfg.initFill = true) (a : Nat) :
    (seqResult σ i).dmem.read σ.cfg.initFill a =
      if opKind (instrOp i) = .store ∧
          (effectiveAddress (σ.reg (instrRs1 i)) (instrImm i)).toNat ≤ a ∧
          a < (effectiveAddress (σ.reg (instrRs1 i)) (instrImm i)).toNat + 4
      then byteLane (σ.reg (instrRs2 i))
        (a - (effectiveAddress (σ.reg (instrRs1 i)) (instrImm i)).toNat)
      else σ.dmem.read σ.cfg.initFill a := by
  obtain ⟨hk, -, heq⟩ | ⟨hk, -, heq⟩ := seqResult_running h
  · rw [heq]
    simp only [hk, true_and]
    exact Memory.read_writeWord _ _ _ _ _ hwf
  · rw [heq, State.complete_dmem, if_neg fun hc => hk hc.1]

theorem seqResult_dmem_wf (i : Instr) (hwf : σ.dmem.wf σ.cfg.initFill = true) :
    (seqResult σ i).dmem.wf σ.cfg.initFill = true := by
  obtain ⟨k, a, h⟩ | ⟨ea, v, -, h⟩ | h | ⟨v, next, h⟩ := seqResult_cases σ i
  · rw [h]; exact hwf
  · rw [h]; exact Memory.wf_writeWord _ _ _ _ hwf
  · rw [h]; exact hwf
  · rw [h]; exact hwf

end

/-! ### The path -/

/-- `σ` is where the sequential run stands when the core has committed what it has: the two agree, and
run the same program. -/
structure Follows (s σ : State) : Prop where
  level : σ.level = .instruction
  cfg : σ.cfg = s.cfg
  imem : σ.imem = s.imem
  running : s.halt = .running
  agrees : s.AgreesWith σ

/-- Up to the `k`-th place the instructions in flight are those the run from `σ` executes. -/
def OnPath (s σ : State) (k : Nat) : Prop :=
  ∀ j, j ≤ k → (steps j σ).halt = .running ∧ (steps j σ).pcA = s.pcAt j

/-- The payload the sequential run gives the instruction it executes after `k` steps. -/
def payloadAt (σ : State) (k t : Nat) : Payload :=
  match sequentialFetch (steps k σ) (steps k σ).pcA with
  | .ok i => seqPayload (steps k σ) t i
  | .error _ => { tag := t, value := 0, ctrl := none, fault := none }

/-- The slot has the word `w`, or waits on the instruction that produces it. -/
def slotHolds (s σ : State) (slot : Slot) (w : Word) : Prop :=
  match slot with
  | .value v => v = w
  | .pending p => (payloadAt σ (s.age p) p).value = w

/-- A payload on the path is the run's. -/
def PayloadTracks (s σ : State) (p : Payload) : Prop :=
  OnPath s σ (s.age p.tag) → p = payloadAt σ (s.age p.tag) p.tag

/-- An RS entry on the path holds the run's instruction and operands. -/
def RsTracks (s σ : State) (e : RsEntry) : Prop :=
  OnPath s σ (s.age e.dest) → ∃ i, sequentialFetch s (s.pcAt (s.age e.dest)) = .ok i ∧
    e.op = instrOp i ∧ e.imm = instrImm i ∧ e.pc = s.pcAt (s.age e.dest) ∧
    slotHolds s σ e.j ((steps (s.age e.dest) σ).reg (instrRs1 i)) ∧
    slotHolds s σ e.k ((steps (s.age e.dest) σ).reg (instrRs2 i))

/-- An LSQ entry on the path holds the run's instruction, base and data. -/
def LsqTracks (s σ : State) (e : LsqEntry) : Prop :=
  OnPath s σ (s.age e.tag) → ∃ i, sequentialFetch s (s.pcAt (s.age e.tag)) = .ok i ∧
    e.op = instrOp i ∧ e.imm = instrImm i ∧
    slotHolds s σ e.base ((steps (s.age e.tag) σ).reg (instrRs1 i)) ∧
    slotHolds s σ e.data ((steps (s.age e.tag) σ).reg (instrRs2 i))

/-- A ROB entry on the path: once ready it is completed by the run's payload, and without a control
transfer its outcome is the one dispatch wrote. -/
def EntryTracks (s σ : State) (t : Nat) : Prop :=
  OnPath s σ (s.age t) →
    ((s.robEntry t).ready = true → kindBroadcasts (s.robEntry t).kind = true →
      completeEntry (payloadAt σ (s.age t) t) (s.robEntry t) = s.robEntry t) ∧
    ((s.robEntry t).kind ≠ .branch → (s.robEntry t).kind ≠ .jump →
      (s.robEntry t).actTaken = false ∧ (s.robEntry t).mispredict = (s.robEntry t).predTaken)

/-- The RAT says where the registers of the next instruction to dispatch come from. -/
def RatTracks (s σ : State) : Prop :=
  OnPath s σ s.robCount → ∀ r : Reg, r ≠ 0 →
    match s.rat[r.toFin] with
    | .committed => (steps s.robCount σ).reg r = s.reg r
    | .pending p => (steps s.robCount σ).reg r = (payloadAt σ (s.age p) p).value

/-- Everything in flight tracks the run from `σ`. -/
structure Tracks (s σ : State) : Prop where
  follows : Follows s σ
  rs : ∀ e ∈ s.rs, e.busy = true → RsTracks s σ e
  lsq : ∀ e ∈ s.lsq, e.busy = true → LsqTracks s σ e
  mul : ∀ u, some u ∈ s.mul → PayloadTracks s σ (unitPayload u)
  div : ∀ u, some u ∈ s.div → PayloadTracks s σ (unitPayload u)
  aluOut : ∀ p, s.aluOut = some p → PayloadTracks s σ p
  ldOut : ∀ l, s.ldOut = some l → PayloadTracks s σ l.payload
  entry : ∀ t, s.validTag t = true → EntryTracks s σ t
  rat : RatTracks s σ

section
variable {s σ : State}

theorem OnPath.mono {j k : Nat} (h : OnPath s σ k) (hj : j ≤ k) : OnPath s σ j :=
  fun i hi => h i (hi.trans hj)

theorem Follows.steps_cfg (hf : Follows s σ) (k : Nat) : (steps k σ).cfg = s.cfg :=
  (steps_frame k σ).1.trans hf.cfg

theorem Follows.steps_imem (hf : Follows s σ) (k : Nat) : (steps k σ).imem = s.imem :=
  (steps_frame k σ).2.2.trans hf.imem

/-- On the path the run fetches what the core fetched. -/
theorem OnPath.fetch {k : Nat} (h : OnPath s σ k) (hf : Follows s σ) :
    sequentialFetch (steps k σ) (steps k σ).pcA = sequentialFetch s (s.pcAt k) := by
  rw [(h k le_rfl).2, sequentialFetch_congr (hf.steps_cfg k) (hf.steps_imem k)]

theorem OnPath.payload_eq {k : Nat} (h : OnPath s σ k) (hf : Follows s σ) {i : Instr}
    (hi : sequentialFetch s (s.pcAt k) = .ok i) (t : Nat) :
    payloadAt σ k t = seqPayload (steps k σ) t i := by
  unfold payloadAt
  rw [h.fetch hf, hi]

/-- The run has executed every instruction on the path but the last. -/
theorem OnPath.step {k : Nat} (h : OnPath s σ (k + 1)) (hf : Follows s σ) :
    ∃ i, sequentialFetch s (s.pcAt k) = .ok i ∧ steps (k + 1) σ = seqResult (steps k σ) i ∧
      (seqResult (steps k σ) i).halt = .running := by
  have hk := h.mono (Nat.le_succ k)
  have hnext := steps_succ_seqNext hf.level (hk k le_rfl).1
  have hrun := (h (k + 1) le_rfl).1
  rw [hnext] at hrun
  obtain ⟨i, hi, heq⟩ := seqNext_running hrun
  rw [hk.fetch hf] at hi
  exact ⟨i, hi, hnext.trans heq, heq ▸ hrun⟩

/-- The architectural pc of a running core is the pc of the oldest instruction (10 R34). -/
theorem pcA_eq_pcAt (h : s.Shape) (hrun : s.halt = .running) : s.pcA = s.pcAt 0 := by
  simp only [State.pcA, hrun, State.oldestPc, State.pcAt, tagAt_zero h.head_lt]
  by_cases hc : s.robCount = 0
  · simp [hc]
  · simp [hc, Nat.pos_of_ne_zero hc]

theorem Follows.onPath_zero (hf : Follows s σ) (h : s.Shape) : OnPath s σ 0 := by
  intro j hj
  obtain rfl := Nat.le_zero.1 hj
  exact ⟨hf.agrees.halt ▸ hf.running, hf.agrees.pcA ▸ pcA_eq_pcAt h hf.running⟩

theorem Follows.reg_eq (hf : Follows s σ) (r : Reg) : σ.reg r = s.reg r := by
  simp only [State.reg, hf.agrees.x]

/-- The run's data memory stays canonical. -/
theorem Follows.dmem_wf (hf : Follows s σ) (h : s.Shape) {k : Nat} (hp : OnPath s σ k) :
    (steps k σ).dmem.wf s.cfg.initFill = true := by
  induction k with
  | zero => exact hf.agrees.dmem ▸ h.dmem_wf
  | succ k ih =>
    obtain ⟨i, -, heq, -⟩ := hp.step hf
    rw [heq, ← hf.steps_cfg k]
    refine seqResult_dmem_wf i ?_
    rw [hf.steps_cfg k]
    exact ih (hp.mono (Nat.le_succ k))

/-- What the entry's static fields say about the run's instruction. -/
theorem EntryOf.ok {e : RobEntry} (he : EntryOf s e) {i : Instr}
    (hi : sequentialFetch s e.pc = .ok i) :
    e.kind = opKind (instrOp i) ∧ e.op = some (instrOp i) ∧ e.dest = destOf (instrRd i) := by
  have hm : microOpAt s e.pc e.predTaken e.predTarget =
      .instr (decodedOf i e.pc e.predTaken e.predTarget) := by unfold microOpAt; rw [hi]
  refine ⟨?_, ?_, ?_⟩
  · rw [he.kind, hm]; rfl
  · rw [he.op, hm]; rfl
  · rw [he.dest, hm]; rfl

theorem EntryOf.error {e : RobEntry} (he : EntryOf s e) {k : FaultKind}
    (hi : sequentialFetch s e.pc = .error k) : e.kind = .fault ∧ e.fault = some ⟨k, e.pc⟩ := by
  have hm : microOpAt s e.pc e.predTaken e.predTarget = .fault ⟨k, e.pc⟩ := by
    unfold microOpAt; rw [hi]
  have hk : e.kind = .fault := by rw [he.kind, hm]; rfl
  exact ⟨hk, by rw [he.fault hk, hm]; rfl⟩

theorem kindOfClass_ne_fault (c : OpClass) : kindOfClass c ≠ .fault := by cases c <;> decide

/-- An entry that is no Fault is an instruction. -/
theorem EntryOf.ok_of_kind {e : RobEntry} (he : EntryOf s e) (hk : e.kind ≠ .fault) :
    ∃ i, sequentialFetch s e.pc = .ok i := by
  cases hf : sequentialFetch s e.pc with
  | error k => exact absurd (he.error hf).1 hk
  | ok i => exact ⟨i, rfl⟩

/-- The pc at a valid tag's place is its entry's. -/
theorem pcAt_age (h : s.Shape) {t : Nat} (hv : s.validTag t = true) :
    s.pcAt (s.age t) = (s.robEntry t).pc := by
  obtain ⟨ht, hlt⟩ := validTag_iff.1 hv
  rw [pcAt_lt hlt, tagAt_age h.head_lt ht]

end

end Sys2Proof.Machine
end


-- ==== Sys2Proof/Proofs/LoadValues.lean ====
section
/-! PROOF. The value a load takes, forwarded or read, is the one the sequential run reads when it
reaches the load (48 R503 to R510). -/

namespace Sys2Proof.Machine

/-- The four lanes of a word put together again. -/
theorem wordOfBytes_byteLane (d : Word) :
    wordOfBytes (byteLane d 0) (byteLane d 1) (byteLane d 2) (byteLane d 3) = d := by
  unfold wordOfBytes byteLane
  rw [BitVec.extractLsb'_append_extractLsb'_eq_extractLsb' (show 8 * 3 = 8 * 2 + 8 from rfl),
    BitVec.extractLsb'_append_extractLsb'_eq_extractLsb' (show 8 * 2 = 8 * 1 + 8 from rfl),
    BitVec.extractLsb'_append_extractLsb'_eq_extractLsb' (show 8 * 1 = 8 * 0 + 8 from rfl)]
  exact BitVec.extractLsb'_eq_self

/-- A load of `n` bytes reads only its range. -/
theorem readSized_congr {fill : Word} {m m' : Memory} {n a : Nat} (hn : n = 4 ∨ n = 1)
    (h : ∀ b, a ≤ b → b < a + n → m.read fill b = m'.read fill b) :
    m.readSized fill n a = m'.readSized fill n a := by
  rcases hn with rfl | rfl
  · simp only [Memory.readSized, if_true, Memory.readWord]
    rw [h a (by omega) (by omega), h (a + 1) (by omega) (by omega), h (a + 2) (by omega) (by omega),
      h (a + 3) (by omega) (by omega)]
  · simp only [Memory.readSized, OfNat.one_ne_ofNat, if_false]
    rw [h a (by omega) (by omega)]

theorem opWidth_cases (op : Op) : opWidth op = 4 ∨ opWidth op = 1 := by
  unfold opWidth; split <;> simp

/-- What a containing store's data gives is what a memory with its lanes gives. -/
theorem forwardedValue_eq {op : Op} {st ea d : Word} {fill : Word} {m : Memory}
    (hc : containsLoad st ea (opWidth op) = true)
    (h : ∀ b, ea.toNat ≤ b → b < ea.toNat + opWidth op →
      m.read fill b = byteLane d (b - st.toNat)) :
    forwardedValue op st ea d = m.readSized fill (opWidth op) ea.toNat := by
  simp only [containsLoad, Bool.and_eq_true, decide_eq_true_eq] at hc
  unfold forwardedValue
  by_cases hop : op = .lbu
  · subst hop
    have hw : opWidth .lbu = 1 := rfl
    rw [hw] at h ⊢
    simp only [Memory.readSized, OfNat.one_ne_ofNat, if_false, if_true]
    rw [h ea.toNat le_rfl (by omega)]
  · have hw : opWidth op = 4 := if_neg hop
    rw [hw] at hc h ⊢
    have heq : st.toNat = ea.toNat := by omega
    simp only [Memory.readSized, if_true, Memory.readWord, hop, if_false]
    rw [h ea.toNat (by omega) (by omega), h (ea.toNat + 1) (by omega) (by omega),
      h (ea.toNat + 2) (by omega) (by omega), h (ea.toNat + 3) (by omega) (by omega), heq,
      Nat.sub_self, Nat.add_sub_cancel_left, Nat.add_sub_cancel_left, Nat.add_sub_cancel_left,
      wordOfBytes_byteLane]

section
variable {s σ : State}

theorem mem_olderStores {st : LsqEntry} {t : Nat} :
    st ∈ olderStores s t ↔ st ∈ s.lsq ∧ isStoreEntry st = true ∧ s.age st.tag < s.age t := by
  simp [olderStores]

/-- A Store of the ROB stands in the queue. -/
theorem State.InFlight.store_in_queue (h : s.InFlight) {t : Nat} (hv : s.validTag t = true)
    (hk : (s.robEntry t).kind = .store) : ∃ st ∈ s.lsq, isStoreEntry st = true ∧ st.tag = t := by
  have hcount := h.stores t
  rw [hv, hk] at hcount
  obtain ⟨st, hst, hp⟩ := List.countP_pos_iff.1
    (show 0 < s.lsq.countP (fun e => isStoreEntry e && decide (e.tag = t)) by rw [hcount]; decide)
  simp only [Bool.and_eq_true, decide_eq_true_eq] at hp
  exact ⟨st, hst, hp⟩

/-- A store the run executes before the load is an older store of the queue. -/
theorem older_store_of_path (h : s.InFlight) (hfe : s.FrontEnd) {t j : Nat}
    (hv : s.validTag t = true) (hj : j < s.age t) {i : Instr}
    (hi : sequentialFetch s (s.pcAt j) = .ok i) (hk : opKind (instrOp i) = .store) :
    ∃ st ∈ olderStores s t, s.age st.tag = j := by
  have hlt := (validTag_iff.1 hv).2
  have hvj := validTag_tagAt h.shape.head_lt h.shape.count_le (hj.trans hlt)
  have hage := age_tagAt h.shape.head_lt (k := j) (by have := h.shape.count_le; omega)
  rw [pcAt_lt (hj.trans hlt)] at hi
  obtain ⟨hkind, -, -⟩ := (hfe.entry _ hvj).ok hi
  obtain ⟨st, hst, hs, htag⟩ := h.store_in_queue hvj (hkind.trans hk)
  exact ⟨st, mem_olderStores.2 ⟨hst, hs, by rw [htag, hage]; exact hj⟩, by rw [htag, hage]⟩

/-- A known address is the run's. -/
theorem LsqTracks.address {e : LsqEntry} (h : LsqTracks s σ e) (hp : OnPath s σ (s.age e.tag))
    {i : Instr} (hi : sequentialFetch s (s.pcAt (s.age e.tag)) = .ok i) {ea : Word}
    (ha : lsqAddress e = some ea) :
    ea = effectiveAddress ((steps (s.age e.tag) σ).reg (instrRs1 i)) (instrImm i) := by
  obtain ⟨i', hi', -, himm, hbase, -⟩ := h hp
  obtain rfl : i' = i := Except.ok.inj (hi'.symm.trans hi)
  unfold lsqAddress Slot.value? at ha
  cases hb : e.base with
  | pending p => rw [hb] at ha; cases ha
  | value v =>
    rw [hb] at ha hbase
    cases ha
    rw [himm, show v = _ from hbase]

/-- Data that has arrived is the run's. -/
theorem LsqTracks.data_eq {e : LsqEntry} (h : LsqTracks s σ e) (hp : OnPath s σ (s.age e.tag))
    {i : Instr} (hi : sequentialFetch s (s.pcAt (s.age e.tag)) = .ok i) {d : Word}
    (hd : e.data = .value d) : d = (steps (s.age e.tag) σ).reg (instrRs2 i) := by
  obtain ⟨i', hi', -, -, -, hdata⟩ := h hp
  obtain rfl : i' = i := Except.ok.inj (hi'.symm.trans hi)
  rw [hd] at hdata
  exact hdata

/-- The byte at `a` after `j` steps of the run. -/
def byteAt (σ : State) (fill : Word) (j a : Nat) : Byte := (steps j σ).dmem.read fill a

/-- A step of the run that no overlapping store makes leaves the load's bytes. -/
theorem byteAt_succ (h : s.InFlight) (hfe : s.FrontEnd) (ht : Tracks s σ) {t j n a : Nat} {ea : Word}
    (hv : s.validTag t = true) (hp : OnPath s σ (s.age t)) (hj : j < s.age t)
    (hknown : ∀ st ∈ olderStores s t, ∃ x, lsqAddress st = some x)
    (hno : ∀ st ∈ olderStores s t, s.age st.tag = j → overlapsEntry ea n st = false)
    (ha : ea.toNat ≤ a) (ha' : a < ea.toNat + n) :
    byteAt σ s.cfg.initFill (j + 1) a = byteAt σ s.cfg.initFill j a := by
  obtain ⟨i, hi, heq, hrun⟩ := (hp.mono (Nat.succ_le_of_lt hj)).step ht.follows
  have hwf := ht.follows.dmem_wf h.shape (hp.mono hj.le)
  unfold byteAt
  rw [heq, ← ht.follows.steps_cfg j, read_seqResult hrun (by rwa [ht.follows.steps_cfg j]), if_neg]
  rintro ⟨hk, hlo, hhi⟩
  obtain ⟨st, hst, hage⟩ := older_store_of_path h hfe hv hj hi hk
  obtain ⟨x, hx⟩ := hknown st hst
  obtain ⟨hmem, hs, -⟩ := mem_olderStores.1 hst
  have htrack := ht.lsq st hmem (busy_of_isStoreEntry hs)
  have hxeq := htrack.address (hage ▸ hp.mono hj.le) (hage ▸ hi) hx
  rw [hage] at hxeq
  rw [← hxeq] at hlo hhi
  have hov := hno st hst hage
  simp only [overlapsEntry, hx, overlaps, Bool.and_eq_false_iff, decide_eq_false_iff_not] at hov
  omega

/-- From step `k` on, when no younger store overlaps, the load's bytes stay. -/
theorem byteAt_eq_of_le (h : s.InFlight) (hfe : s.FrontEnd) (ht : Tracks s σ) {t k n a : Nat}
    {ea : Word} (hv : s.validTag t = true) (hp : OnPath s σ (s.age t)) (hk : k ≤ s.age t)
    (hknown : ∀ st ∈ olderStores s t, ∃ x, lsqAddress st = some x)
    (hno : ∀ st ∈ olderStores s t, k ≤ s.age st.tag → overlapsEntry ea n st = false)
    (ha : ea.toNat ≤ a) (ha' : a < ea.toNat + n) :
    byteAt σ s.cfg.initFill (s.age t) a = byteAt σ s.cfg.initFill k a := by
  have hall : ∀ j, k ≤ j → j ≤ s.age t →
      byteAt σ s.cfg.initFill j a = byteAt σ s.cfg.initFill k a := by
    intro j hj
    induction j, hj using Nat.le_induction with
    | base => intro _; rfl
    | succ j hj ih =>
      intro hle
      rw [byteAt_succ h hfe ht hv hp hle hknown (fun st hst hage => hno st hst (hage ▸ hj)) ha ha']
      exact ih (Nat.le_of_succ_le hle)
  exact hall _ hk le_rfl

/-- After a store of the queue, the run's memory holds its data at its address. -/
theorem byteAt_after_store (h : s.InFlight) (ht : Tracks s σ) {f : LsqEntry} (hf : f ∈ s.lsq)
    (hs : isStoreEntry f = true) (hp : OnPath s σ (s.age f.tag + 1)) {x d : Word}
    (hx : lsqAddress f = some x) (hd : f.data = .value d) {a : Nat} (hlo : x.toNat ≤ a)
    (hhi : a < x.toNat + 4) :
    byteAt σ s.cfg.initFill (s.age f.tag + 1) a = byteLane d (a - x.toNat) := by
  obtain ⟨i, hi, heq, hrun⟩ := hp.step ht.follows
  have htrack := ht.lsq f hf (busy_of_isStoreEntry hs)
  have hpf := hp.mono (Nat.le_succ _)
  have hxeq := htrack.address hpf hi hx
  have hdeq := htrack.data_eq hpf hi hd
  have hk : opKind (instrOp i) = .store := by
    obtain ⟨i', hi', hop, -⟩ := htrack hpf
    obtain rfl : i' = i := Except.ok.inj (hi'.symm.trans hi)
    simp only [isStoreEntry, Bool.and_eq_true] at hs
    rw [storeOp_eq, hop] at hs
    simpa using hs.2
  have hwf := ht.follows.dmem_wf h.shape hpf
  unfold byteAt
  rw [heq, ← ht.follows.steps_cfg (s.age f.tag),
    read_seqResult hrun (by rwa [ht.follows.steps_cfg]), ← hxeq, ← hdeq, if_pos ⟨hk, hlo, hhi⟩]

/-- Past its own check, a load with a value has the value the run reads. -/
theorem orderedPlan_value (h : s.InFlight) (hfe : s.FrontEnd) (ht : Tracks s σ) {e : LsqEntry}
    {ea v : Word} (hv : s.validTag e.tag = true) (hp : OnPath s σ (s.age e.tag))
    (hplan : orderedPlan s e ea = .value v) :
    v = loadFromMemory (steps (s.age e.tag) σ) e.op ea := by
  unfold orderedPlan at hplan
  split_ifs at hplan with hany
  have hknown : ∀ st ∈ olderStores s e.tag, ∃ x, lsqAddress st = some x := by
    intro st hst
    cases hx : lsqAddress st with
    | none => exact absurd (List.any_eq_true.2 ⟨st, hst, by simp [hx]⟩) hany
    | some x => exact ⟨x, rfl⟩
  unfold loadFromMemory
  rw [ht.follows.steps_cfg (s.age e.tag)]
  cases hfwd : forwardingStore s e.tag ea (opWidth e.op) with
  | none =>
    -- no older store overlaps: the bytes are those of the committed memory
    rw [hfwd] at hplan
    cases hplan
    have hnone := List.filter_eq_nil_iff.1 ((greatestBy_eq_none _ _).1 hfwd)
    refine readSized_congr (opWidth_cases e.op) fun a hlo hhi => ?_
    have hbytes := byteAt_eq_of_le h hfe ht hv hp (Nat.zero_le _) hknown
      (fun st hst _ => by simpa using hnone st hst) hlo hhi
    unfold byteAt at hbytes
    rw [hbytes, steps, ← ht.follows.agrees.dmem]
  | some f =>
    -- the youngest older store that overlaps covers the load, and no later store touches its bytes
    rw [hfwd] at hplan
    obtain ⟨hfmem, hyoungest⟩ := greatestBy_spec _ _ _ hfwd
    obtain ⟨hmem, hs, hage⟩ := mem_olderStores.1 (List.mem_filter.1 hfmem).1
    cases hx : lsqAddress f with
    | none => simp [hx] at hplan
    | some x =>
      cases hd : f.data with
      | pending p => simp [hx, hd] at hplan
      | value d =>
        simp only [hx, hd] at hplan
        split_ifs at hplan with hcont
        cases hplan
        refine forwardedValue_eq hcont fun a hlo hhi => ?_
        simp only [containsLoad, Bool.and_eq_true, decide_eq_true_eq] at hcont
        have hlater : ∀ st ∈ olderStores s e.tag, s.age f.tag + 1 ≤ s.age st.tag →
            overlapsEntry ea (opWidth e.op) st = false := by
          intro st hst hagest
          by_contra hov
          have := hyoungest st (List.mem_filter.2 ⟨hst, by simpa using hov⟩)
          omega
        refine (byteAt_eq_of_le h hfe ht hv hp hage hknown hlater hlo hhi).trans ?_
        exact byteAt_after_store h ht hmem hs (hp.mono hage) hx hd (by omega) (by omega)

theorem seqPayload_load_fault {i : Instr} (hk : opKind (instrOp i) = .load) {kind : FaultKind}
    (hc : loadCheck σ.cfg (instrOp i) (effectiveAddress (σ.reg (instrRs1 i)) (instrImm i))
      = some kind) (t : Nat) :
    seqPayload σ t i =
      ⟨t, 0, none, some ⟨kind, effectiveAddress (σ.reg (instrRs1 i)) (instrImm i)⟩⟩ := by
  simp only [seqPayload, hk, hc]

theorem seqPayload_load_value {i : Instr} (hk : opKind (instrOp i) = .load)
    (hc : loadCheck σ.cfg (instrOp i) (effectiveAddress (σ.reg (instrRs1 i)) (instrImm i)) = none)
    (t : Nat) :
    seqPayload σ t i =
      ⟨t, loadFromMemory σ (instrOp i) (effectiveAddress (σ.reg (instrRs1 i)) (instrImm i)), none,
        none⟩ := by
  simp only [seqPayload, hk, hc]

/-- The payload of a load's plan is the run's. -/
theorem plan_tracks (h : s.InFlight) (hfe : s.FrontEnd) (ht : Tracks s σ) {e : LsqEntry}
    (he : e ∈ s.lsq) (hl : isLoadEntry e = true) {p : Payload}
    (hplan : planPayload e.tag (loadPlan s e) = some p) : PayloadTracks s σ p := by
  intro hp
  rw [planPayload_tag hplan] at hp ⊢
  have hb := busy_of_isLoadEntry hl
  have hv := h.valid_of_lsq he hb
  have htrack := ht.lsq e he hb
  obtain ⟨i, hi, hop, -⟩ := htrack hp
  have hk : opKind (instrOp i) = .load := by
    simp only [isLoadEntry, Bool.and_eq_true] at hl
    have := hl.2
    rw [loadOps_eq, hop] at this
    simpa using this
  rw [hp.payload_eq ht.follows hi]
  unfold loadPlan at hplan
  cases ha : lsqAddress e with
  | none => simp [ha, planPayload] at hplan
  | some ea =>
    have hea := htrack.address hp hi ha
    simp only [ha] at hplan
    cases hc : loadCheck s.cfg e.op ea with
    | some kind =>
      simp only [hc, planPayload, Option.some.injEq] at hplan
      rw [seqPayload_load_fault hk (by rw [ht.follows.steps_cfg, ← hea, ← hop, hc]), ← hea]
      exact hplan.symm
    | none =>
      simp only [hc] at hplan
      rw [seqPayload_load_value hk (by rw [ht.follows.steps_cfg, ← hea, ← hop, hc]), ← hea, ← hop]
      cases ho : orderedPlan s e ea with
      | wait => simp [ho, planPayload] at hplan
      | fault f =>
        exfalso
        unfold orderedPlan at ho
        split_ifs at ho
        split at ho
        · cases ho
        · split at ho
          · split_ifs at ho
          · cases ho
      | value v =>
        simp only [ho, planPayload, Option.some.injEq] at hplan
        rw [← hplan, orderedPlan_value h hfe ht hv hp ho]

end

end Sys2Proof.Machine
end


-- ==== Sys2Proof/Proofs/TracksKept.lean ====
section
/-! PROOF. A cycle without squash or halt keeps everything in flight on the run: a result enters the
bus, a slot, a ROB entry or the RAT with the run's value. -/

namespace Sys2Proof.Machine

section
variable {s σ : State}

/-! ### What a unit and the bus present -/

theorem seqPayload_alu {τ : State} {i : Instr} (hu : opUnit (instrOp i) = some .alu) (t : Nat) :
    seqPayload τ t i = aluPayload
      ⟨0, t, instrOp i, τ.reg (instrRs1 i), τ.reg (instrRs2 i), instrImm i, τ.pcA⟩ := by
  have hk : opKind (instrOp i) = .alu ∨ opKind (instrOp i) = .branch ∨ opKind (instrOp i) = .jump := by
    revert hu
    cases instrOp i <;> simp [opUnit, opClass, unitOfClass, opKind, kindOfClass]
  unfold seqPayload
  obtain hk | hk | hk := hk <;> rw [hk]

theorem seqPayload_mulDiv {τ : State} {i : Instr}
    (hu : opUnit (instrOp i) = some .mul ∨ opUnit (instrOp i) = some .div) (t : Nat) :
    seqPayload τ t i = unitPayload ⟨t, instrOp i, τ.reg (instrRs1 i), τ.reg (instrRs2 i)⟩ := by
  have hk : opKind (instrOp i) = .mulDiv := by
    revert hu
    cases instrOp i <;> simp [opUnit, opClass, unitOfClass, opKind, kindOfClass]
  unfold seqPayload
  rw [hk]

/-- The operands of an issue on the path are the run's. -/
theorem Tracks.issued (ht : Tracks s σ) {u : ExecUnit} {c : Issued} {e : RsEntry}
    (hc : IssuedFrom s.rs u c e) (hp : OnPath s σ (s.age c.tag)) :
    ∃ i, sequentialFetch s (s.pcAt (s.age c.tag)) = .ok i ∧ opUnit (instrOp i) = some u ∧
      c.op = instrOp i ∧ c.imm = instrImm i ∧ c.pc = s.pcAt (s.age c.tag) ∧
      c.a = (steps (s.age c.tag) σ).reg (instrRs1 i) ∧
      c.b = (steps (s.age c.tag) σ).reg (instrRs2 i) := by
  rw [hc.tag] at hp ⊢
  obtain ⟨i, hi, hop, himm, hpc, hj, hk⟩ := ht.rs e (List.mem_of_getElem? hc.at_index) hc.busy hp
  rw [hc.j] at hj
  rw [hc.k] at hk
  exact ⟨i, hi, hop ▸ hc.unit, hc.op.trans hop, hc.imm.trans himm, hc.pc.trans hpc, hj, hk⟩

theorem Tracks.aluPayload (ht : Tracks s σ) {c : Issued} {e : RsEntry}
    (hc : IssuedFrom s.rs .alu c e) : PayloadTracks s σ (aluPayload c) := by
  intro (hp : OnPath s σ (s.age c.tag))
  obtain ⟨i, hi, hu, hop, himm, hpc, ha, hb⟩ := ht.issued hc hp
  change Machine.aluPayload c = payloadAt σ (s.age c.tag) c.tag
  rw [hp.payload_eq ht.follows hi, seqPayload_alu hu, (hp _ le_rfl).2, ← hop, ← himm, ← hpc, ← ha,
    ← hb]
  rfl

theorem Tracks.unitPayload (ht : Tracks s σ) {u : ExecUnit} {c : Issued} {e : RsEntry}
    (hu : u = .mul ∨ u = .div) (hc : IssuedFrom s.rs u c e) :
    PayloadTracks s σ (unitPayload (issuedUnitOp c)) := by
  intro (hp : OnPath s σ (s.age c.tag))
  obtain ⟨i, hi, hunit, hop, -, -, ha, hb⟩ := ht.issued hc hp
  change Machine.unitPayload (issuedUnitOp c) = payloadAt σ (s.age c.tag) c.tag
  rw [hp.payload_eq ht.follows hi, seqPayload_mulDiv (by rcases hu with rfl | rfl <;> simp [hunit]),
    ← hop, ← ha, ← hb]
  rfl

theorem lastStage_mem {pipe : List (Option UnitOp)} {u : UnitOp} (h : lastStage pipe = some u) :
    some u ∈ pipe := by
  unfold lastStage at h
  cases hl : pipe.getLast? with
  | none => rw [hl] at h; cases h
  | some v => rw [hl] at h; exact List.mem_of_getLast? (h ▸ hl)

/-- The load that requests the bus presents the run's payload. -/
theorem Tracks.loadRequest (ht : Tracks s σ) (h : s.InFlight) (hfe : s.FrontEnd) {l : LoadOut}
    (hl : s.loadRequest = some l) : PayloadTracks s σ l.payload := by
  unfold State.loadRequest at hl
  split_ifs at hl
  · exact ht.ldOut l hl
  · obtain ⟨-, e, he, hload, -, hplan⟩ := selectLoad_eligible hl
    exact plan_tracks h hfe ht (List.mem_of_getElem? he) hload hplan

theorem Tracks.aluRequest (ht : Tracks s σ) {p : Payload} (hp : s.requests .alu = some p) :
    PayloadTracks s σ p := by
  change (if s.aluOut.isSome then s.aluOut else (selectAlu s).map Machine.aluPayload) = some p at hp
  split_ifs at hp
  · exact ht.aluOut p hp
  · obtain ⟨c, hc, rfl⟩ := Option.map_eq_some_iff.1 hp
    obtain ⟨-, e, he⟩ := selectAlu_issued hc
    exact ht.aluPayload he

/-- Every request for the bus is the run's payload. -/
theorem Tracks.request (ht : Tracks s σ) (h : s.InFlight) (hfe : s.FrontEnd) {r : Requester}
    {p : Payload} (hp : s.requests r = some p) : PayloadTracks s σ p := by
  cases r with
  | alu => exact ht.aluRequest hp
  | load =>
    rw [requests_load] at hp
    obtain ⟨l, hl, rfl⟩ := Option.map_eq_some_iff.1 hp
    exact ht.loadRequest h hfe hl
  | mul =>
    obtain ⟨u, hu, rfl⟩ := Option.map_eq_some_iff.1 (show (lastStage s.mul).map _ = some p from hp)
    exact ht.mul u (lastStage_mem hu)
  | div =>
    obtain ⟨u, hu, rfl⟩ := Option.map_eq_some_iff.1 (show (lastStage s.div).map _ = some p from hp)
    exact ht.div u (lastStage_mem hu)

/-- What is broadcast is the run's payload. -/
theorem Tracks.broadcast (ht : Tracks s σ) (h : s.InFlight) (hfe : s.FrontEnd) {b : Payload}
    (hb : (signals s).broadcast = some b) : PayloadTracks s σ b := by
  obtain ⟨-, hno⟩ | ⟨r, p, hp, hbp, -⟩ := win_cases s
  · rw [hno] at hb; cases hb
  · rw [hbp] at hb
    cases hb
    exact ht.request h hfe hp

/-! ### The path after the cycle -/

/-- The run after the retired head's step. -/
abbrev runAfter (σ : State) (r : Option Retirement) : State := steps (retireCount r) σ

theorem steps_runAfter (σ : State) (r : Option Retirement) (k : Nat) :
    steps k (runAfter σ r) = steps (k + retireCount r) σ := by
  rw [Nat.add_comm, steps_add]

theorem payloadAt_runAfter (σ : State) (r : Option Retirement) (k t : Nat) :
    payloadAt (runAfter σ r) k t = payloadAt σ (k + retireCount r) t := by
  unfold payloadAt
  rw [steps_runAfter]

/-- A path after the cycle is the same path one place further back when the head retired. -/
theorem OnPath.of_advance (hf : Follows s σ) (h : s.InFlight) {r : Option Retirement}
    (hr : Retires s r) {k : Nat} (hk : k ≤ (s.advance r).robCount)
    (hp : OnPath (s.advance r) (runAfter σ r) k) : OnPath s σ (k + retireCount r) := by
  intro j hj
  by_cases hlt : j < retireCount r
  · have h0 : j = 0 := by
      cases r with
      | none => rw [retireCount_none] at hlt; omega
      | some x => rw [retireCount_some] at hlt; omega
    subst h0
    exact hf.onPath_zero h.shape 0 le_rfl
  · obtain ⟨i, rfl⟩ : ∃ i, j = i + retireCount r := ⟨j - retireCount r, by omega⟩
    have := hp i (by omega)
    rwa [steps_runAfter, pcAt_advance h hr (by omega)] at this

theorem OnPath.of_advance_tag (hf : Follows s σ) (h : s.InFlight) {r : Option Retirement}
    (hr : Retires s r) {t : Nat} (hv : (s.advance r).validTag t = true)
    (hp : OnPath (s.advance r) (runAfter σ r) ((s.advance r).age t)) :
    OnPath s σ (s.age t) ∧ (s.advance r).age t + retireCount r = s.age t := by
  obtain ⟨ht, hge, -⟩ := (validTag_advance h.shape hr).1 hv
  have hage := age_advance h.shape ht hge
  have := (validTag_iff.1 hv).2
  exact ⟨hage ▸ hp.of_advance hf h hr (by omega), hage⟩

/-- A slot on the path holds the same word after the broadcast. -/
theorem slotHolds_wake (ht : Tracks s σ) (h : s.InFlight) (hfe : s.FrontEnd) {r : Option Retirement}
    (hr : Retires s r) {own : Nat} (hp : OnPath s σ (s.age own)) {slot : Slot} {w : Word}
    (hok : s.slotOk own slot) (hs : slotHolds s σ slot w) :
    slotHolds (s.advance r) (runAfter σ r) (wakeSlot (signals s).broadcast slot) w := by
  cases slot with
  | value v => exact hs
  | pending p =>
    obtain ⟨hv, hready, hlt, hdest⟩ := hok
    have keep : (∀ b, (signals s).broadcast = some b → b.tag ≠ p) →
        slotHolds (s.advance r) (runAfter σ r) (.pending p) w := by
      intro hb
      obtain ⟨-, -, -, hage⟩ := writer_advance h hr hv hready hdest hb
      change (payloadAt _ _ _).value = w
      rw [payloadAt_runAfter, hage]
      exact hs
    cases hb : (signals s).broadcast with
    | none => exact keep fun b hb' => by rw [hb] at hb'; cases hb'
    | some b =>
      rw [wakeSlot_pending]
      split_ifs with htag
      · subst htag
        have := ht.broadcast h hfe hb (hp.mono hlt.le)
        exact (congrArg Payload.value this).trans hs
      · exact keep fun b' hb' => by rw [hb] at hb'; cases hb'; exact htag

/-- A ready entry that writes a register has the run's value. -/
theorem Tracks.ready_value (ht : Tracks s σ) (h : s.InFlight) {p : Nat} {q : Reg}
    (hv : s.validTag p = true) (hp : OnPath s σ (s.age p)) (hready : (s.robEntry p).ready = true)
    (hdest : (s.robEntry p).dest = some q) :
    (s.robEntry p).value = (payloadAt σ (s.age p) p).value := by
  have hk : kindBroadcasts (s.robEntry p).kind = true := by
    obtain ⟨-, hk | hk | hk | hk⟩ := h.dests p hv q hdest <;> rw [hk] <;> rfl
  have := ((ht.entry p hv) hp).1 hready hk
  rw [← this, completeEntry_value]

/-- A resolved operand of the next instruction to dispatch has the run's value. -/
theorem slotHolds_resolve (ht : Tracks s σ) (h : s.InFlight) (hfe : s.FrontEnd)
    {r : Option Retirement} (hr : Retires s r) (hp : OnPath s σ s.robCount) (q : Reg) :
    slotHolds (s.advance r) (runAfter σ r) (resolveReg s (signals s).broadcast q)
      ((steps s.robCount σ).reg q) := by
  unfold resolveReg
  by_cases hq : q = 0
  · subst hq
    rw [if_pos rfl, State.reg_zero]
    rfl
  · rw [if_neg hq, rat_toNat]
    have hrat := ht.rat hp q hq
    cases hm : s.rat[q.toFin] with
    | committed =>
      rw [hm] at hrat
      exact hrat.symm
    | pending p =>
      rw [hm] at hrat
      obtain ⟨hv, hdest, -⟩ := h.rat_pending q.toFin p hm
      have hpp : OnPath s σ (s.age p) := hp.mono (validTag_iff.1 hv).2.le
      cases hready : (s.robEntry p).ready with
      | true =>
        simp only [hready, if_true]
        exact (ht.ready_value h hv hpp hready hdest).trans hrat.symm
      | false =>
        have keep : (∀ b, (signals s).broadcast = some b → b.tag ≠ p) →
            slotHolds (s.advance r) (runAfter σ r) (.pending p) ((steps s.robCount σ).reg q) := by
          intro hb
          obtain ⟨-, -, -, hage⟩ := writer_advance h hr hv hready (by rw [hdest]; simp) hb
          change (payloadAt _ _ _).value = _
          rw [payloadAt_runAfter, hage]
          exact hrat.symm
        simp only [hready, Bool.false_eq_true, if_false]
        cases hb : (signals s).broadcast with
        | none => exact keep fun b hb' => by rw [hb] at hb'; cases hb'
        | some b =>
          simp only
          split_ifs with htag
          · subst htag
            have := ht.broadcast h hfe hb hpp
            exact (congrArg Payload.value this).trans hrat.symm
          · exact keep fun b' hb' => by rw [hb] at hb'; cases hb'; exact htag

/-- On the path, the instruction in the latch is the run's next. -/
theorem latch_on_path (hfe : s.FrontEnd) {d : Decoded} (hv : s.fl.valid = true)
    (hd : latchMicroOp s.fl = .instr d) :
    s.pcAt s.robCount = s.fl.pc ∧ ∃ i, sequentialFetch s s.fl.pc = .ok i ∧
      d = decodedOf i s.fl.pc s.fl.predTaken s.fl.predTarget := by
  refine ⟨by rw [pcAt_count, if_pos hv], ?_⟩
  have hm := (hfe.latch hv).1
  rw [hd] at hm
  unfold microOpAt at hm
  cases hf : sequentialFetch s s.fl.pc with
  | error k => rw [hf] at hm; cases hm
  | ok i => rw [hf] at hm; exact ⟨i, rfl, MicroOp.instr.inj hm⟩

theorem sequentialFetch_advance (s : State) (r : Option Retirement) (pc : Word) :
    sequentialFetch (s.advance r) pc = sequentialFetch s pc :=
  sequentialFetch_congr (advance_cfg_eq s r) (advance_imem_eq s r) pc

/-- The path of the dispatched instruction. -/
theorem tail_path (hf : Follows s σ) (h : s.InFlight) {r : Option Retirement} (hr : Retires s r)
    {a : Allocation} (ha : s.allocation = some a)
    (hp : OnPath (s.advance r) (runAfter σ r) ((s.advance r).age s.robTail)) :
    OnPath s σ s.robCount ∧ (s.advance r).age s.robTail + retireCount r = s.robCount ∧
      (s.advance r).pcAt ((s.advance r).age s.robTail) = s.pcAt s.robCount := by
  obtain ⟨hv, hage⟩ := validTag_advance_tail h.shape hr ha
  have hlt := (validTag_iff.1 hv).2
  refine ⟨hage ▸ hp.of_advance hf h hr hlt.le, hage, ?_⟩
  rw [pcAt_advance h hr hlt.le, hage]

/-! ### The clauses -/

theorem Tracks.rs_advance (ht : Tracks s σ) (h : s.InFlight) (hfe : s.FrontEnd)
    {r : Option Retirement} (hr : Retires s r) {e : RsEntry} (he : e ∈ (s.advance r).rs)
    (hb : e.busy = true) : RsTracks (s.advance r) (runAfter σ r) e := by
  intro hp
  have hv := (awaited_iff.1 ((h.advance hr).awaited_of_rs he hb)).1
  obtain ⟨e0, he0, hb0, rfl⟩ | ⟨a, j, ha, hrs⟩ := nextRs_origin he hb
  · rw [wakeRs_dest] at hp hv ⊢
    obtain ⟨hps, hage⟩ := hp.of_advance_tag ht.follows h hr hv
    obtain ⟨i, hi, hop, himm, hpc, hj, hk⟩ := ht.rs e0 he0 hb0 hps
    obtain ⟨hokj, hokk⟩ := h.rs_slots e0 he0 hb0
    have hpcAt : (s.advance r).pcAt ((s.advance r).age e0.dest) = s.pcAt (s.age e0.dest) := by
      rw [pcAt_advance h hr (validTag_iff.1 hv).2.le, hage]
    have hw : wakeRs (signals s).broadcast e0 =
        { e0 with
          j := wakeSlot (signals s).broadcast e0.j
          k := wakeSlot (signals s).broadcast e0.k } := if_pos hb0
    rw [hpcAt, steps_runAfter, hage, hw, sequentialFetch_advance]
    exact ⟨i, hi, hop, himm, hpc, slotHolds_wake ht h hfe hr hps hokj hj,
      slotHolds_wake ht h hfe hr hps hokk hk⟩
  · obtain ⟨hlatch, -, halloc⟩ := dispatch_allocates ha
    cases halloc with
    | unit d j u hd _ _ =>
      cases hrs
      obtain ⟨hps, hage, hpcAt⟩ := tail_path ht.follows h hr ha hp
      obtain ⟨hpc, i, hi, rfl⟩ := latch_on_path hfe hlatch hd
      change ∃ i, sequentialFetch _ ((s.advance r).pcAt ((s.advance r).age s.robTail)) = _ ∧ _
      rw [hpcAt, hpc, sequentialFetch_advance]
      refine ⟨i, hi, rfl, rfl, hpc.symm.trans hpcAt.symm, ?_, ?_⟩
      all_goals
        change slotHolds _ _ _ ((steps ((s.advance r).age s.robTail) _).reg _)
        rw [steps_runAfter, hage]
        exact slotHolds_resolve ht h hfe hr hps _
    | _ => cases hrs

theorem Tracks.lsq_advance (ht : Tracks s σ) (h : s.InFlight) (hfe : s.FrontEnd)
    {r : Option Retirement} (hr : Retires s r) {e : LsqEntry} (he : e ∈ (s.advance r).lsq)
    (hb : e.busy = true) : LsqTracks (s.advance r) (runAfter σ r) e := by
  intro hp
  have hv := valid_of_lsq_advance h hr he hb
  obtain ⟨j, hj⟩ := List.getElem?_of_mem he
  obtain ⟨e0, he0, hb0, hcase⟩ | ⟨a, d, ha, hd, -, rfl⟩ := advance_lsq_cases hj hb
  · obtain ⟨htag, hop', himm', hbase', hdata', -, -⟩ := woken_cases hb0 hcase
    have hmem := List.mem_of_getElem? he0
    rw [htag] at hp hv ⊢
    obtain ⟨hps, hage⟩ := hp.of_advance_tag ht.follows h hr hv
    obtain ⟨i, hi, hop, himm, hbase, hdata⟩ := ht.lsq e0 hmem hb0 hps
    obtain ⟨hokb, hokd⟩ := h.lsq_slots e0 hmem hb0
    have hpcAt : (s.advance r).pcAt ((s.advance r).age e0.tag) = s.pcAt (s.age e0.tag) := by
      rw [pcAt_advance h hr (validTag_iff.1 hv).2.le, hage]
    rw [hpcAt, steps_runAfter, hage, sequentialFetch_advance, hop', himm', hbase', hdata']
    exact ⟨i, hi, hop, himm, slotHolds_wake ht h hfe hr hps hokb hbase,
      slotHolds_wake ht h hfe hr hps hokd hdata⟩
  · obtain ⟨hlatch, -, -⟩ := dispatch_allocates ha
    obtain ⟨hps, hage, hpcAt⟩ := tail_path ht.follows h hr ha hp
    obtain ⟨hpc, i, hi, rfl⟩ := latch_on_path hfe hlatch hd
    change ∃ i, sequentialFetch _ ((s.advance r).pcAt ((s.advance r).age s.robTail)) = _ ∧ _
    rw [hpcAt, hpc, sequentialFetch_advance]
    refine ⟨i, hi, rfl, rfl, ?_, ?_⟩
    all_goals
      change slotHolds _ _ _ ((steps ((s.advance r).age s.robTail) _).reg _)
      rw [steps_runAfter, hage]
      exact slotHolds_resolve ht h hfe hr hps _

/-- A payload that was the run's still is, while its tag is valid. -/
theorem PayloadTracks.advance (hf : Follows s σ) (h : s.InFlight) {r : Option Retirement}
    (hr : Retires s r) {p : Payload} (hp : PayloadTracks s σ p)
    (hv : (s.advance r).validTag p.tag = true) : PayloadTracks (s.advance r) (runAfter σ r) p := by
  intro hpath
  obtain ⟨hps, hage⟩ := hpath.of_advance_tag hf h hr hv
  rw [payloadAt_runAfter, hage]
  exact hp hps

theorem Tracks.mul_advance (ht : Tracks s σ) (h : s.InFlight) {r : Option Retirement}
    (hr : Retires s r) {u : UnitOp} (hu : some u ∈ (s.advance r).mul) :
    PayloadTracks (s.advance r) (runAfter σ r) (Machine.unitPayload u) := by
  have hv := (awaited_iff.1 ((h.advance hr).awaited_of_mul hu)).1
  refine PayloadTracks.advance ht.follows h hr ?_ hv
  obtain hold | ⟨c, hc, rfl⟩ := nextPipe_origin hu
  · exact ht.mul u hold
  · obtain ⟨e, he⟩ := signals_mul_issued hc
    exact ht.unitPayload (.inl rfl) he

theorem Tracks.div_advance (ht : Tracks s σ) (h : s.InFlight) {r : Option Retirement}
    (hr : Retires s r) {u : UnitOp} (hu : some u ∈ (s.advance r).div) :
    PayloadTracks (s.advance r) (runAfter σ r) (Machine.unitPayload u) := by
  have hv := (awaited_iff.1 ((h.advance hr).awaited_of_div hu)).1
  refine PayloadTracks.advance ht.follows h hr ?_ hv
  obtain hold | ⟨c, hc, rfl⟩ := nextPipe_origin hu
  · exact ht.div u hold
  · obtain ⟨e, he⟩ := signals_div_issued hc
    exact ht.unitPayload (.inr rfl) he

theorem Tracks.aluOut_advance (ht : Tracks s σ) (h : s.InFlight) {r : Option Retirement}
    (hr : Retires s r) {p : Payload} (hp : (s.advance r).aluOut = some p) :
    PayloadTracks (s.advance r) (runAfter σ r) p := by
  have hv := (awaited_iff.1 ((h.advance hr).awaited_of_aluOut hp)).1
  refine PayloadTracks.advance ht.follows h hr ?_ hv
  rw [State.advance_aluOut, nextAluOut] at hp
  split_ifs at hp
  exact ht.aluRequest hp

theorem Tracks.ldOut_advance (ht : Tracks s σ) (h : s.InFlight) (hfe : s.FrontEnd)
    {r : Option Retirement} (hr : Retires s r) {l : LoadOut} (hl : (s.advance r).ldOut = some l) :
    PayloadTracks (s.advance r) (runAfter σ r) l.payload := by
  have hv := (awaited_iff.1 ((h.advance hr).awaited_of_ldOut hl)).1
  refine PayloadTracks.advance ht.follows h hr ?_ hv
  rw [State.advance_ldOut, nextLdOut_eq] at hl
  split_ifs at hl
  exact ht.loadRequest h hfe hl

/-- The control outcome of a payload on the path, by the kind of its entry. -/
theorem payloadAt_ctrl (hf : Follows s σ) (h : s.InFlight) (hfe : s.FrontEnd) {t : Nat}
    (hv : s.validTag t = true) (hp : OnPath s σ (s.age t))
    (h1 : (s.robEntry t).kind ≠ .branch) (h2 : (s.robEntry t).kind ≠ .jump) :
    (payloadAt σ (s.age t) t).ctrl = none := by
  cases hi : sequentialFetch s (s.pcAt (s.age t)) with
  | error k =>
    unfold payloadAt
    rw [hp.fetch hf, hi]
  | ok i =>
    rw [hp.payload_eq hf hi]
    rw [pcAt_age h.shape hv] at hi
    obtain ⟨hk, -, -⟩ := (hfe.entry t hv).ok hi
    exact seqPayload_ctrl _ _ _ (hk ▸ h1) (hk ▸ h2)

theorem completeEntry_of_no_ctrl {b : Payload} (hb : b.ctrl = none) (e : RobEntry) :
    (completeEntry b e).actTaken = e.actTaken ∧ (completeEntry b e).mispredict = e.mispredict := by
  unfold completeEntry
  rw [hb]
  exact ⟨rfl, rfl⟩

theorem Tracks.entry_advance (ht : Tracks s σ) (h : s.InFlight) (hfe : s.FrontEnd)
    {r : Option Retirement} (hr : Retires s r) {t : Nat} (hv : (s.advance r).validTag t = true) :
    EntryTracks (s.advance r) (runAfter σ r) t := by
  intro hp
  obtain ⟨hps, hage⟩ := hp.of_advance_tag ht.follows h hr hv
  rw [payloadAt_runAfter, hage]
  obtain ⟨hvt, he, -⟩ | ⟨a, ha, rfl, he, -⟩ := validTag_advance_cases h.shape hr hv
  · obtain ⟨hready, hact⟩ := ht.entry t hvt hps
    rw [he]
    obtain ⟨b, hb, rfl, hc⟩ | ⟨-, hc⟩ := completed_cases s t
    · have hpay := ht.broadcast h hfe hb hps
      refine ⟨fun _ _ => ?_, fun h1 h2 => ?_⟩
      · rw [hc, ← hpay, completeEntry_idem]
      · rw [completed_kind] at h1 h2
        obtain ⟨hta, hmi⟩ := hact h1 h2
        have hctrl := payloadAt_ctrl ht.follows h hfe hvt hps h1 h2
        rw [← hpay] at hctrl
        obtain ⟨e1, e2⟩ := completeEntry_of_no_ctrl hctrl (s.robEntry b.tag)
        rw [hc, e1, e2, completeEntry_predTaken]
        exact ⟨hta, hmi⟩
    · rw [hc]; exact ⟨hready, hact⟩
  · rw [he, (dispatch_allocates ha).2.2.entry_eq]
    refine ⟨fun hready hk => ?_, fun h1 h2 => ⟨rfl, ?_⟩⟩
    · exfalso
      simp only [dispatchedEntry, Bool.or_eq_true, decide_eq_true_eq] at hready hk
      rcases hready with hready | hready <;> rw [hready] at hk <;> cases hk
    · simp only [dispatchedEntry] at h1 h2 ⊢
      simp [h1, h2]

/-- Between dispatch and dispatch the run's registers change by the dispatched instruction only. -/
theorem Tracks.newDest_reg (ht : Tracks s σ) (hfe : s.FrontEnd) {a : Allocation}
    (ha : s.allocation = some a) (hp : OnPath s σ (s.robCount + 1)) (q : Reg) :
    (steps (s.robCount + 1) σ).reg q =
      if s.newDest = some q then (payloadAt σ s.robCount s.robTail).value
      else (steps s.robCount σ).reg q := by
  obtain ⟨i, hi, heq, hrun⟩ := hp.step ht.follows
  have hlatch := dispatch_latch_valid ha
  have hpay := (hp.mono (Nat.le_succ _)).payload_eq ht.follows hi s.robTail
  rw [pcAt_count, if_pos hlatch] at hi
  have hdest : s.newDest = destOf (instrRd i) := by
    rw [newDest_eq ha]
    have hentry := EntryOf.dispatched hfe ha
    refine (hentry.ok ?_).2.2
    rw [dispatchedEntry_pc s ha]
    exact hi
  rw [heq, reg_seqResult hrun s.robTail, hdest, hpay]

theorem advance_x (s : State) (r : Option Retirement) (hr : Retires s r) (q : Reg) :
    (s.advance r).reg q =
      if r ≠ none ∧ s.headEntry.dest = some q ∧ q ≠ 0 then s.headEntry.value else s.reg q := by
  cases r with
  | none => simp [State.reg]
  | some x =>
    obtain ⟨-, he, -⟩ := hr.head
    simp only [State.reg, State.advance_x, State.afterCommit_some, State.commitEffects_x, he]
    cases hd : s.headEntry.dest with
    | none => simp [writeDest]
    | some d =>
      simp only [writeDest, readReg_writeReg, ne_eq, reduceCtorEq, not_false_eq_true, true_and,
        Option.some.injEq]
      by_cases hq : q = d
      · subst hq; rfl
      · simp [hq, Ne.symm hq]

/-- The dispatched instruction's place is the tail's. -/
theorem Tracks.rat_advance (ht : Tracks s σ) (h : s.InFlight) (hfe : s.FrontEnd)
    {r : Option Retirement} (hr : Retires s r) : RatTracks (s.advance r) (runAfter σ r) := by
  intro hp q hq
  have hn := h.advance hr
  have hps := hp.of_advance ht.follows h hr le_rfl
  have hcount : (s.advance r).robCount + retireCount r = s.robCount + s.dispatchCount := by
    have := hr.retireCount_le
    rw [advance_robCount_eq]; omega
  rw [hcount] at hps
  rw [steps_runAfter, hcount]
  have hratn := Machine.rat_advance s r q.toFin
  rw [rat_afterCommit s hr] at hratn
  have hq' : BitVec.ofFin q.toFin = q := rfl
  rw [hq'] at hratn
  by_cases hnew : s.newDest = some q
  · -- the register the dispatched instruction writes
    obtain ⟨a, ha⟩ : ∃ a, s.allocation = some a := by
      cases ha : s.allocation with
      | none => rw [State.newDest, ha] at hnew; cases hnew
      | some a => exact ⟨a, rfl⟩
    obtain ⟨hd, -⟩ := dispatchCount_of_some ha
    obtain ⟨-, hage⟩ := validTag_advance_tail h.shape hr ha
    rw [if_pos hnew] at hratn
    rw [hd] at hps ⊢
    rw [hratn]
    simp only
    rw [ht.newDest_reg hfe ha hps, if_pos hnew, payloadAt_runAfter, hage]
  · -- any other register: as before the cycle
    have hsame : (steps (s.robCount + s.dispatchCount) σ).reg q = (steps s.robCount σ).reg q := by
      cases ha : s.allocation with
      | none => rw [dispatchCount_of_none ha, Nat.add_zero]
      | some a =>
        have hd := (dispatchCount_of_some ha).1
        rw [hd] at hps ⊢
        rw [ht.newDest_reg hfe ha hps, if_neg hnew]
    rw [if_neg hnew] at hratn
    rw [hsame]
    have hps0 := hps.mono (Nat.le_add_right _ _)
    have hrat := ht.rat hps0 q hq
    split_ifs at hratn with hclear
    · obtain ⟨hrn, hdest, hm⟩ := hclear
      obtain ⟨x, rfl⟩ := Option.ne_none_iff_exists'.1 hrn
      rw [hratn]
      rw [hm] at hrat
      simp only at hrat ⊢
      obtain ⟨hv, -, -⟩ := h.rat_pending q.toFin _ hm
      have hready : (s.robEntry s.robHead).ready = true := by
        obtain ⟨-, -, hready | hk⟩ := hr.head
        · exact hready
        · have := (h.dests _ hv q hdest).2
          rw [show (s.robEntry s.robHead).kind = .store from hk] at this
          simp at this
      rw [hrat, advance_x s _ hr, if_pos ⟨hrn, hdest, hq⟩]
      exact (ht.ready_value h hv (hps0.mono (validTag_iff.1 hv).2.le) hready hdest).symm
    · rw [hratn]
      cases hm : s.rat[q.toFin] with
      | committed =>
        rw [hm] at hrat
        simp only at hrat ⊢
        rw [hrat, advance_x s _ hr, if_neg]
        rintro ⟨hrn, hdest, -⟩
        obtain ⟨x, rfl⟩ := Option.ne_none_iff_exists'.1 hrn
        exact h.rat_committed q.toFin hm s.robHead (validTag_head h.shape hr.head.1) hdest
      | pending p =>
        rw [hm] at hrat hratn
        simp only at hrat ⊢
        obtain ⟨hvn, -, -⟩ := hn.rat_pending q.toFin p hratn
        obtain ⟨hlt, hge, -⟩ := (validTag_advance h.shape hr).1 hvn
        rw [hrat, payloadAt_runAfter, age_advance h.shape hlt hge]

/-- A cycle without squash or halt keeps everything in flight on the run, once the committed states
agree. -/
theorem Tracks.advance (ht : Tracks s σ) (h : s.InFlight) (hfe : s.FrontEnd)
    {r : Option Retirement} (hr : Retires s r) (hf : Follows (s.advance r) (runAfter σ r)) :
    Tracks (s.advance r) (runAfter σ r) where
  follows := hf
  rs _ he hb := ht.rs_advance h hfe hr he hb
  lsq _ he hb := ht.lsq_advance h hfe hr he hb
  mul _ hu := ht.mul_advance h hr hu
  div _ hu := ht.div_advance h hr hu
  aluOut _ hp := ht.aluOut_advance h hr hp
  ldOut _ hl := ht.ldOut_advance h hfe hr hl
  entry _ hv := ht.entry_advance h hfe hr hv
  rat := ht.rat_advance h hfe hr

/-- With nothing in flight, agreement is all there is to track. -/
theorem tracks_of_empty (hf : Follows s σ) (hc : s.robCount = 0) (hrs : ∀ e ∈ s.rs, e.busy = false)
    (hlsq : ∀ e ∈ s.lsq, e.busy = false) (halu : s.aluOut = none) (hld : s.ldOut = none)
    (hmul : ∀ u ∈ s.mul, u = none) (hdiv : ∀ u ∈ s.div, u = none)
    (hrat : ∀ r : Fin 32, s.rat[r] = .committed) : Tracks s σ where
  follows := hf
  rs e he hb := by rw [hrs e he] at hb; cases hb
  lsq e he hb := by rw [hlsq e he] at hb; cases hb
  mul u hu := nomatch hmul _ hu
  div u hu := nomatch hdiv _ hu
  aluOut p hp := by rw [halu] at hp; cases hp
  ldOut l hl := by rw [hld] at hl; cases hl
  entry t hv := by rw [validTag_iff, hc] at hv; omega
  rat _ r _ := by rw [hrat r.toFin, hc]; exact hf.reg_eq r

end

end Sys2Proof.Machine
end


-- ==== Sys2Proof/Proofs/Commit.lean ====
section
/-! PROOF. A commit of the head is one step of the sequential run: a retirement, with or without squash,
a halt and a fatal stop each leave what the run's next step leaves (49 R542 to R558, 60 R610). -/

namespace Sys2Proof.Machine

section
variable {s σ : State}

/-! ### The head -/

/-- A fatal stop is the head's own fault, or its store's failing check (49 R554). -/
theorem commitDecision_stop {st : Stop} (h : commitDecision s = .stop st) :
    s.robCount ≠ 0 ∧ st.pc = s.headEntry.pc ∧
    (((s.headEntry.kind = .fault ∨ s.headEntry.kind = .load) ∧ s.headEntry.ready = true ∧
        s.headEntry.fault = some ⟨st.kind, st.addr⟩) ∨
      (s.headEntry.kind = .store ∧ ∃ rs, readyStore s s.robHead = some rs ∧ st.addr = rs.ea ∧
        accessCheck s.cfg .store 4 rs.ea = some st.kind)) := by
  unfold commitDecision at h
  by_cases hc : s.robCount = 0
  · rw [if_pos hc] at h; cases h
  rw [if_neg hc] at h
  refine ⟨hc, ?_⟩
  cases hk : s.headEntry.kind with
  | store =>
    simp only [hk] at h
    rcases commitStore_cases s s.headEntry with ⟨_, e⟩ | ⟨rs, k, h1, h2, e⟩ | ⟨rs, h1, h2, e⟩
    · rw [e] at h; cases h
    · rw [e] at h
      cases h
      exact ⟨rfl, .inr ⟨rfl, rs, h1, rfl, h2⟩⟩
    · rw [e] at h; cases h
  | fault =>
    simp only [hk] at h
    cases hr : s.headEntry.ready with
    | false => rw [hr] at h; cases h
    | true =>
      cases hf : s.headEntry.fault with
      | none => rw [hr, hf] at h; cases h
      | some f =>
        rw [hr, hf] at h
        cases h
        exact ⟨rfl, .inl ⟨.inl rfl, rfl, rfl⟩⟩
  | load =>
    simp only [hk] at h
    split_ifs at h with hr
    unfold retireOrStop at h
    cases hf : s.headEntry.fault with
    | none => rw [hf] at h; cases h
    | some f =>
      rw [hf] at h
      cases h
      exact ⟨rfl, .inl ⟨.inr rfl, hr, rfl⟩⟩
  | ebreak => simp only [hk] at h; split_ifs at h
  | alu | branch | jump | mulDiv => simp only [hk] at h; split_ifs at h

/-- A halt is a complete EBREAK at the head (49 R556). -/
theorem commitDecision_ebreak {e : RobEntry} (h : commitDecision s = .ebreak e) :
    s.robCount ≠ 0 ∧ e = s.headEntry ∧ s.headEntry.kind = .ebreak := by
  unfold commitDecision at h
  by_cases hc : s.robCount = 0
  · rw [if_pos hc] at h; cases h
  rw [if_neg hc] at h
  refine ⟨hc, ?_⟩
  cases hk : s.headEntry.kind with
  | ebreak =>
    simp only [hk] at h
    split_ifs at h
    cases h
    exact ⟨rfl, rfl⟩
  | store =>
    simp only [hk] at h
    rcases commitStore_cases s s.headEntry with ⟨_, e⟩ | ⟨rs, k, h1, h2, e⟩ | ⟨rs, h1, h2, e⟩ <;>
      rw [e] at h <;> cases h
  | fault => simp only [hk] at h; split at h <;> cases h
  | load =>
    simp only [hk] at h
    split_ifs at h
    unfold retireOrStop at h
    split at h <;> cases h
  | alu | branch | jump | mulDiv => simp only [hk] at h; split_ifs at h

/-- The head is the instruction the run executes next. -/
theorem Follows.head (hf : Follows s σ) (h : s.Shape) (hc : s.robCount ≠ 0) :
    σ.pcA = s.headEntry.pc ∧
      sequentialFetch σ σ.pcA = sequentialFetch s s.headEntry.pc := by
  have hp := hf.onPath_zero h
  have hpc : s.pcAt 0 = s.headEntry.pc := by
    rw [pcAt_lt (Nat.pos_of_ne_zero hc), tagAt_zero h.head_lt]; rfl
  exact ⟨(hp 0 le_rfl).2.trans hpc, hpc ▸ hp.fetch hf⟩

/-- What the head's entry says about the run's next instruction. -/
theorem Follows.head_instr (hf : Follows s σ) (h : s.InFlight) (hfe : s.FrontEnd)
    (hc : s.robCount ≠ 0) (hk : s.headEntry.kind ≠ .fault) :
    ∃ i, seqNext σ = seqResult σ i ∧ sequentialFetch s (s.pcAt 0) = .ok i ∧
      s.headEntry.kind = opKind (instrOp i) ∧ s.headEntry.dest = destOf (instrRd i) := by
  have hentry := hfe.entry _ (validTag_head h.shape hc)
  obtain ⟨i, hi⟩ := hentry.ok_of_kind hk
  obtain ⟨h1, -, h3⟩ := hentry.ok hi
  have hpc : s.pcAt 0 = s.headEntry.pc := by
    rw [pcAt_lt (Nat.pos_of_ne_zero hc), tagAt_zero h.shape.head_lt]; rfl
  refine ⟨i, ?_, hpc ▸ hi, h1, h3⟩
  unfold seqNext
  rw [(hf.head h.shape hc).2, show sequentialFetch s s.headEntry.pc = .ok i from hi]

/-- A ready head of a kind that broadcasts is completed by the run's payload. -/
theorem Tracks.head_completed (ht : Tracks s σ) (h : s.InFlight) (hc : s.robCount ≠ 0) {i : Instr}
    (hi : sequentialFetch s (s.pcAt 0) = .ok i) (hready : s.headEntry.ready = true)
    (hk : kindBroadcasts s.headEntry.kind = true) :
    completeEntry (seqPayload σ s.robHead i) s.headEntry = s.headEntry := by
  have hp := ht.follows.onPath_zero h.shape
  have hv := validTag_head h.shape hc
  have h0 := age_head h.shape.head_lt
  have := (ht.entry _ hv (h0 ▸ hp)).1 hready hk
  rwa [h0, hp.payload_eq ht.follows hi] at this

/-- Without a control transfer the head's outcome is the one dispatch wrote. -/
theorem Tracks.head_outcome (ht : Tracks s σ) (h : s.InFlight) (hc : s.robCount ≠ 0)
    (h1 : s.headEntry.kind ≠ .branch) (h2 : s.headEntry.kind ≠ .jump) :
    s.headEntry.actTaken = false ∧ s.headEntry.mispredict = s.headEntry.predTaken := by
  have hp := ht.follows.onPath_zero h.shape
  have h0 := age_head h.shape.head_lt
  exact (ht.entry _ (validTag_head h.shape hc) (h0 ▸ hp)).2 h1 h2

/-- The head's store has the run's address and data. -/
theorem Tracks.head_store (ht : Tracks s σ) (h : s.InFlight) {i : Instr}
    (hi : sequentialFetch s (s.pcAt 0) = .ok i) {rs : ReadyStore}
    (hrs : readyStore s s.robHead = some rs) :
    rs.ea = effectiveAddress (σ.reg (instrRs1 i)) (instrImm i) ∧
      rs.data = σ.reg (instrRs2 i) := by
  obtain ⟨e, he, hb, htag, ha, hd⟩ := readyStore_eq_some hrs
  have htrack := ht.lsq e (List.mem_of_getElem? he) hb
  have h0 : s.age e.tag = 0 := by rw [htag, age_head h.shape.head_lt]
  have hp := ht.follows.onPath_zero h.shape
  have haddr := htrack.address (h0 ▸ hp) (h0 ▸ hi) ha
  have hdata := htrack.data_eq (h0 ▸ hp) (h0 ▸ hi) hd
  rw [h0] at haddr hdata
  exact ⟨haddr, hdata⟩

/-! ### Stops -/

/-- The step that stops the run with a fault agrees with the core's halt cycle. -/
theorem agrees_haltOnFault (hf : Follows s σ) (h : s.Shape) (hc : s.robCount ≠ 0) {st : Stop}
    (hpc : st.pc = s.headEntry.pc) (hnext : seqNext σ = σ.raise st.kind σ.pcA st.addr) :
    (s.haltOnFault st).AgreesWith (seqNext σ) := by
  have hσ := (hf.head h hc).1
  rw [hnext]
  have hrunσ : σ.halt = .running := hf.agrees.halt ▸ hf.running
  constructor
  · exact hf.agrees.retired
  · exact hf.agrees.x
  · exact hf.agrees.dmem
  · rw [State.haltOnFault_halt, State.raise_halt, hpc, hσ]
  · rw [pcA_raise _ _ _ _ hrunσ]
    exact (pcA_raise s st.kind st.pc st.addr hf.running).trans hf.agrees.pcA

/-- A fatal stop of the core is the run's next step. -/
theorem Tracks.stop_agrees (ht : Tracks s σ) (h : s.InFlight) (hfe : s.FrontEnd) {st : Stop}
    (hst : commitDecision s = .stop st) : (s.haltOnFault st).AgreesWith (seqNext σ) := by
  obtain ⟨hc, hpc, hcase⟩ := commitDecision_stop hst
  have hf := ht.follows
  refine agrees_haltOnFault hf h.shape hc hpc ?_
  obtain ⟨hpcσ, hfetch⟩ := hf.head h.shape hc
  have hentry := hfe.entry _ (validTag_head h.shape hc)
  obtain ⟨hk | hk, hready, hfault⟩ | ⟨hk, rs, hrs, haddr, hcheck⟩ := hcase
  · -- a Fault entry: the run's fetch fails in the same way
    cases hi : sequentialFetch s s.headEntry.pc with
    | ok i =>
      have : s.headEntry.kind = opKind (instrOp i) := (hentry.ok hi).1
      rw [hk] at this
      exact absurd this.symm (kindOfClass_ne_fault _)
    | error kind =>
      have hf' : s.headEntry.fault = some ⟨kind, s.headEntry.pc⟩ := (hentry.error hi).2
      rw [hfault, Option.some.injEq, FaultInfo.mk.injEq] at hf'
      unfold seqNext
      rw [hfetch, hi, hpcσ, hf'.1, hf'.2]
  · -- a load whose check failed
    obtain ⟨i, hnext, hi, hkind, -⟩ := hf.head_instr h hfe hc (by rw [hk]; decide)
    have hcomp := ht.head_completed h hc hi hready (by rw [hk]; rfl)
    have hpay : (seqPayload σ 0 i).fault = some ⟨st.kind, st.addr⟩ := by
      rw [← hfault, ← hcomp, completeEntry_fault, seqPayload_eq σ s.robHead]
    rw [hnext]
    unfold seqResult
    rw [← hkind, hk, hpay]
  · -- a store whose check fails at commit
    obtain ⟨i, hnext, hi, hkind, -⟩ := hf.head_instr h hfe hc (by rw [hk]; decide)
    obtain ⟨hea, -⟩ := ht.head_store h hi hrs
    rw [hnext]
    unfold seqResult
    rw [← hkind, hk, hf.cfg, ← hea, hcheck, haddr]

/-- The core's halt on EBREAK is the run's next step. -/
theorem Tracks.ebreak_agrees (ht : Tracks s σ) (h : s.InFlight) (hfe : s.FrontEnd) {e : RobEntry}
    (he : commitDecision s = .ebreak e) : (s.haltOnEbreak e).AgreesWith (seqNext σ) := by
  obtain ⟨hc, rfl, hk⟩ := commitDecision_ebreak he
  have hf := ht.follows
  obtain ⟨i, hnext, -, hkind, hdest⟩ := hf.head_instr h hfe hc (by rw [hk]; decide)
  have hpcσ := (hf.head h.shape hc).1
  have hnone : s.headEntry.dest = none := by
    by_contra hn
    have := destOf_kind i (hdest ▸ hn)
    rw [← hkind, hk] at this
    simp at this
  have hres : seqNext σ = { σ.complete none 0 σ.pcA with halt := .halted } := by
    rw [hnext]; unfold seqResult; rw [← hkind, hk]
  rw [hres]
  constructor
  · change (s.haltOnEbreak s.headEntry).retired = (σ.complete none 0 σ.pcA).retired
    rw [retired_complete, retired_append s (retireEvent s s.robHead s.headEntry.pc s.headEntry.dest
      s.headEntry.value) _ rfl, hf.agrees.retired, hpcσ]
    simp [retireEvent, hnone]
  · exact hf.agrees.x
  · exact hf.agrees.dmem
  · rfl
  · rw [pcA_ebreak, hpcσ]
    exact pcA_of_last_event _ s.log (retireEvent s s.robHead s.headEntry.pc s.headEntry.dest
      s.headEntry.value) rfl rfl

/-! ### Retirement -/

/-- What the run's next step leaves when the head retires. -/
structure RetireStep (s σ : State) (x : Retirement) : Prop where
  halt : (seqNext σ).halt = .running
  regs : (seqNext σ).x = writeDest s.x s.headEntry.dest s.headEntry.value
  dmem : (seqNext σ).dmem = retireDmem s x.store
  pcA : (seqNext σ).pcA = squashPc s.headEntry
  retired : (seqNext σ).retired =
    s.retired ++ [(s.headEntry.pc, s.headEntry.dest.map fun _ => s.headEntry.value)]
  /-- A correctly predicted head is followed by its predicted successor. -/
  predicted : s.headEntry.mispredict = false → squashPc s.headEntry = s.headEntry.predTarget

/-- Branches and jumps transfer control. -/
theorem controlOutcome_ne_none (op : Op) (a b imm pc : Word)
    (h : opKind op = .branch ∨ opKind op = .jump) : controlOutcome op a b imm pc ≠ none := by
  revert h
  cases op <;> simp [opKind, opClass, kindOfClass, controlOutcome]

theorem seqPayload_ctrl_ne_none (σ : State) (t : Nat) (i : Instr)
    (h : opKind (instrOp i) = .branch ∨ opKind (instrOp i) = .jump) :
    (seqPayload σ t i).ctrl ≠ none := by
  have hc := controlOutcome_ne_none (instrOp i) (σ.reg (instrRs1 i)) (σ.reg (instrRs2 i))
    (instrImm i) σ.pcA h
  unfold seqPayload
  obtain h | h := h <;> rw [h] <;> exact hc

/-- The correct next pc of a completed entry is its payload's, and its predicted one when it is not
mispredicted. -/
theorem squashPc_of_completed {e : RobEntry} {p : Payload} (hcomp : completeEntry p e = e)
    (hfall : e.predTaken = false → e.predTarget = e.pc + 4)
    (hno : p.ctrl = none → e.actTaken = false ∧ e.mispredict = e.predTaken) :
    squashPc e = nextPc e.pc p.ctrl ∧ (e.mispredict = false → squashPc e = e.predTarget) := by
  cases hctrl : p.ctrl with
  | none =>
    obtain ⟨hta, hmi⟩ := hno hctrl
    have hsq : squashPc e = e.pc + 4 := by simp [squashPc, hta]
    exact ⟨hsq, fun hm => by rw [hsq, hfall (hmi ▸ hm)]⟩
  | some c =>
    unfold completeEntry at hcomp
    rw [hctrl] at hcomp
    have hta : e.actTaken = c.taken := by rw [← hcomp]
    have htg : e.actTarget = c.target := by rw [← hcomp]
    have hmi : e.mispredict = mispredicted e.predTaken e.predTarget c.taken c.target := by
      conv_lhs => rw [← hcomp]
    refine ⟨by simp [squashPc, nextPc, hta, htg], fun hm => ?_⟩
    rw [hmi] at hm
    simp only [mispredicted, Bool.or_eq_false_iff, decide_eq_false_iff_not, Bool.and_eq_false_iff,
      ne_eq, not_not] at hm
    obtain ⟨hpt, htarget⟩ := hm
    rw [squashPc, hta, htg]
    cases ht : c.taken with
    | true => rw [ht] at htarget; simpa using (htarget.resolve_left (by simp)).symm
    | false => rw [ht] at hpt; simpa using (hfall hpt).symm

theorem Tracks.retire_nonstore (ht : Tracks s σ) (h : s.InFlight) (hfe : s.FrontEnd)
    (hc : s.robCount ≠ 0) {x : Retirement} (hx : x.store = none) (hready : s.headEntry.ready = true)
    (hk : s.headEntry.kind = .alu ∨ s.headEntry.kind = .branch ∨ s.headEntry.kind = .jump ∨
      s.headEntry.kind = .mulDiv ∨ (s.headEntry.kind = .load ∧ s.headEntry.fault = none)) :
    RetireStep s σ x := by
  have hf := ht.follows
  have hrunσ : σ.halt = .running := hf.agrees.halt ▸ hf.running
  have hbro : kindBroadcasts s.headEntry.kind = true := by
    rcases hk with hk | hk | hk | hk | ⟨hk, -⟩ <;> rw [hk] <;> rfl
  have hnf : s.headEntry.kind ≠ .fault := by intro he; rw [he] at hbro; cases hbro
  obtain ⟨i, hnext, hi, hkind, hdest⟩ := hf.head_instr h hfe hc hnf
  have hcomp := ht.head_completed h hc hi hready hbro
  have hval : s.headEntry.value = (seqPayload σ 0 i).value := by
    rw [← hcomp, completeEntry_value, seqPayload_eq σ s.robHead]
  have hctrl0 : (seqPayload σ s.robHead i).ctrl = (seqPayload σ 0 i).ctrl := by
    rw [seqPayload_eq σ s.robHead]
  have hfault : (seqPayload σ 0 i).fault = none := by
    by_cases hload : opKind (instrOp i) = .load
    · have : s.headEntry.fault = none := by
        rw [← hkind] at hload
        rw [hload] at hk
        simpa using hk
      rw [← this, ← hcomp, completeEntry_fault, seqPayload_eq σ s.robHead]
    · exact seqPayload_fault σ 0 i hload
  have hpcσ := (hf.head h.shape hc).1
  have hres : seqNext σ = σ.complete (destOf (instrRd i)) (seqPayload σ 0 i).value
      (nextPc σ.pcA (seqPayload σ 0 i).ctrl) := by
    rw [hnext]
    unfold seqResult
    rw [← hkind, hfault]
    rcases hk with hk | hk | hk | hk | ⟨hk, -⟩ <;> rw [hk]
  obtain ⟨hsq, hpred⟩ := squashPc_of_completed hcomp
    (hfe.entry _ (validTag_head h.shape hc)).fallThrough fun hnone => by
      refine ht.head_outcome h hc (fun hb => ?_) (fun hj => ?_)
      · exact seqPayload_ctrl_ne_none σ s.robHead i (.inl (hkind ▸ hb)) hnone
      · exact seqPayload_ctrl_ne_none σ s.robHead i (.inr (hkind ▸ hj)) hnone
  exact
    { halt := by rw [hres]; exact hrunσ
      regs := by rw [hres, State.complete_x, hdest, hval, hf.agrees.x]
      dmem := by rw [hres, hx, State.complete_dmem, ← hf.agrees.dmem]; rfl
      pcA := by rw [hres, State.pcA_complete _ _ _ _ hrunσ, hsq, hctrl0, hpcσ]
      retired := by rw [hres, retired_complete, hf.agrees.retired, hpcσ, hdest, hval]
      predicted := hpred }

theorem Tracks.retire_store (ht : Tracks s σ) (h : s.InFlight) (hfe : s.FrontEnd)
    (hc : s.robCount ≠ 0) {x : Retirement} {rs : ReadyStore} (hx : x.store = some rs)
    (hk : s.headEntry.kind = .store) (hrs : readyStore s s.robHead = some rs)
    (hcheck : accessCheck s.cfg .store 4 rs.ea = none) : RetireStep s σ x := by
  have hf := ht.follows
  have hrunσ : σ.halt = .running := hf.agrees.halt ▸ hf.running
  obtain ⟨i, hnext, hi, hkind, hdest⟩ := hf.head_instr h hfe hc (by rw [hk]; decide)
  rw [store_has_no_dest i (hkind ▸ hk)] at hdest
  obtain ⟨hea, hdata⟩ := ht.head_store h hi hrs
  obtain ⟨hta, hmi⟩ := ht.head_outcome h hc (by rw [hk]; decide) (by rw [hk]; decide)
  have hpcσ := (hf.head h.shape hc).1
  have hres : seqNext σ = { σ.complete none 0 (σ.pcA + 4) with dmem := σ.dmemStore rs.ea rs.data } := by
    rw [hnext]
    unfold seqResult
    rw [← hkind, hk, hf.cfg, ← hea, hcheck, ← hdata]
  have hsq : squashPc s.headEntry = s.headEntry.pc + 4 := by simp [squashPc, hta]
  have hfall := (hfe.entry _ (validTag_head h.shape hc)).fallThrough
  exact
    { halt := by rw [hres]; exact hrunσ
      regs := by rw [hres, hdest]; exact hf.agrees.x.symm
      dmem := by
        rw [hres, hx]
        simp only [retireDmem, State.dmemStore, hf.agrees.dmem, hf.cfg]
      pcA := by
        rw [hres, hsq, ← hpcσ]
        exact State.pcA_complete σ none 0 (σ.pcA + 4) hrunσ
      retired := by
        rw [hres, hdest, hf.agrees.retired, ← hpcσ]
        exact retired_complete σ none 0 (σ.pcA + 4)
      predicted := fun hm => by rw [hsq]; exact (hfall (hmi ▸ hm)).symm }

/-- A retirement is the run's next step. -/
theorem Tracks.retire (ht : Tracks s σ) (h : s.InFlight) (hfe : s.FrontEnd) {x : Retirement}
    (hr : Retires s (some x)) : RetireStep s σ x := by
  obtain ⟨hc, -, ⟨hn, hready, hk⟩ | ⟨rs, hst, hk, hrs, hcheck⟩⟩ := commitDecision_retire (hr x rfl)
  · exact ht.retire_nonstore h hfe hc hn hready hk
  · exact ht.retire_store h hfe hc hst hk hrs hcheck

/-- A state with the retirement's effects and the run's next pc agrees with the run's next step. -/
theorem RetireStep.agrees {x : Retirement} (hs : RetireStep s σ x) (hr : Retires s (some x))
    {n : State} (hx : n.x = (s.commitEffects x).x) (hd : n.dmem = (s.commitEffects x).dmem)
    (hl : n.log = (s.commitEffects x).log) (hh : n.halt = .running)
    (hpc : n.pcA = squashPc s.headEntry) : n.AgreesWith (seqNext σ) := by
  have he := hr.head.2.1
  constructor
  · rw [hs.retired, ← he]
    exact retired_append s _ n hl
  · rw [hs.regs, hx, State.commitEffects_x, he]
  · rw [hs.dmem, hd]; rfl
  · rw [hs.halt, hh]
  · rw [hs.pcA, hpc]

theorem Follows.steps_one (hf : Follows s σ) : steps 1 σ = seqNext σ :=
  steps_succ_seqNext hf.level (show σ.halt = .running from hf.agrees.halt ▸ hf.running)

/-- A state that agrees with the run's next step follows it. -/
theorem Follows.next (hf : Follows s σ) {n : State} (hc : n.cfg = s.cfg) (hi : n.imem = s.imem)
    (hrun : n.halt = .running) (ha : n.AgreesWith (seqNext σ)) : Follows n (seqNext σ) where
  level := (seqNext_frame σ).2.1.trans hf.level
  cfg := ((seqNext_frame σ).1.trans hf.cfg).trans hc.symm
  imem := ((seqNext_frame σ).2.2.trans hf.imem).trans hi.symm
  running := hrun
  agrees := ha

/-- After the cycle the core has committed what the run has executed. -/
theorem Tracks.follows_advance (ht : Tracks s σ) (h : s.InFlight) (hfe : s.FrontEnd)
    {r : Option Retirement} (hr : Retires s r)
    (hmis : ∀ x, r = some x → x.entry.mispredict = false) :
    Follows (s.advance r) (runAfter σ r) := by
  have hf := ht.follows
  have hshape := h.shape.advance hr
  have hrun : (s.advance r).halt = .running := by cases r <;> exact hf.running
  have hpc : (s.advance r).pcA = s.pcAt (retireCount r) := by
    rw [pcA_eq_pcAt hshape hrun, pcAt_advance h hr (Nat.zero_le _), Nat.zero_add]
  cases r with
  | none =>
    exact
      { level := hf.level
        cfg := hf.cfg
        imem := hf.imem
        running := hrun
        agrees :=
          { retired := hf.agrees.retired
            x := hf.agrees.x
            dmem := hf.agrees.dmem
            halt := hf.agrees.halt
            pcA := by
              rw [hpc, retireCount_none, ← pcA_eq_pcAt h.shape hf.running]
              exact hf.agrees.pcA } }
  | some x =>
    obtain ⟨hc, he, -⟩ := hr.head
    have hstep := ht.retire h hfe hr
    have hnf : s.headEntry.kind ≠ .fault := fun hk => by
      have := hr.head_not_stopKind
      rw [hk] at this
      cases this
    have hnext : s.pcAt 1 = s.headEntry.predTarget := by
      have := hfe.next 0 (Nat.pos_of_ne_zero hc)
      rw [tagAt_zero h.shape.head_lt] at this
      exact this hnf
    change Follows _ (steps 1 σ)
    rw [hf.steps_one]
    refine hf.next (advance_cfg_eq s _) (advance_imem_eq s _) hrun ?_
    refine hstep.agrees hr rfl rfl rfl hrun ?_
    rw [hpc, retireCount_some, hnext]
    exact (hstep.predicted (he ▸ hmis x rfl)).symm

end

end Sys2Proof.Machine
end


-- ==== Sys2Proof/Proofs/Contract.lean ====
section
/-! PROOF. The safety half of R17: every cycle keeps the simulation, and a committing cycle is one
sequential step. -/

namespace Sys2Proof.Machine

/-- The simulation between a running core and the sequential run that has executed what the core has
committed. -/
structure Sim (s σ : State) : Prop where
  level : s.level = .cycle
  deferred : s.cfg.faultPolicy = .deferred
  inFlight : s.InFlight
  frontEnd : s.FrontEnd
  tracks : Tracks s σ

section
variable {s σ : State}

/-! ### Squash -/

theorem squash_shape (h : s.Shape) {x : Retirement} (hr : Retires s (some x)) :
    (s.squash x).Shape := by
  have hbp := h.bp_update x
  have hd := retireDmem_shape h hr
  have hlt := nextTag_lt s.cfg s.robHead (Nat.lt_of_le_of_lt (Nat.zero_le _) h.head_lt)
  exact
    { legal := h.legal
      bp_length := hbp.1
      bp_tags := hbp.2
      rob_length := h.rob_length
      rs_length := by rw [State.squash_rs, List.length_map]; exact h.rs_length
      lsq_length := by rw [State.squash_lsq, List.length_map]; exact h.lsq_length
      mul_length := by rw [State.squash_mul, List.length_map]; exact h.mul_length
      div_length := by rw [State.squash_div, List.length_map]; exact h.div_length
      head_lt := hlt
      count_le := Nat.zero_le _
      tail_eq := (Nat.mod_eq_of_lt hlt).symm
      x0_zero := writeDest_x0 h.x0_zero _ _
      rat0_committed := by simp
      imem_wf := h.imem_wf
      dmem_wf := hd.1
      imem_bound := h.imem_bound
      dmem_bound := hd.2 }

/-- A squash is the run's next step, with nothing left in flight. -/
theorem Sim.squash (hs : Sim s σ) {x : Retirement} (hr : Retires s (some x)) :
    Sim (s.squash x) (seqNext σ) := by
  have hf := hs.tracks.follows
  have he := hr.head.2.1
  have hstep := hs.tracks.retire hs.inFlight hs.frontEnd hr
  have hshape := squash_shape hs.inFlight.shape hr
  have hpc : (s.squash x).pcA = squashPc s.headEntry := by
    rw [pcA_eq_pcAt hshape hf.running, ← he]; rfl
  have hfol : Follows (s.squash x) (seqNext σ) :=
    hf.next rfl rfl hf.running (hstep.agrees hr rfl rfl rfl hf.running hpc)
  have hrs : ∀ e ∈ (s.squash x).rs, e.busy = false := by
    simp only [State.squash_rs, List.mem_map]; rintro _ ⟨e, -, rfl⟩; rfl
  have hlsq : ∀ e ∈ (s.squash x).lsq, e.busy = false := by
    simp only [State.squash_lsq, List.mem_map]; rintro _ ⟨e, -, rfl⟩; rfl
  have hmul : ∀ u ∈ (s.squash x).mul, u = none := by
    simp only [State.squash_mul, List.mem_map]; rintro _ ⟨u, -, rfl⟩; rfl
  have hdiv : ∀ u ∈ (s.squash x).div, u = none := by
    simp only [State.squash_div, List.mem_map]; rintro _ ⟨u, -, rfl⟩; rfl
  have hrat : ∀ r : Fin 32, (s.squash x).rat[r] = .committed := by
    intro r; simp
  exact
    { level := hs.level
      deferred := hs.deferred
      inFlight := inFlight_of_empty hshape rfl hrs hlsq rfl rfl hmul hdiv hrat
      frontEnd := frontEnd_of_empty rfl rfl rfl hrs
      tracks := tracks_of_empty hfol rfl hrs hlsq rfl rfl hmul hdiv hrat }

/-! ### One cycle -/

theorem withImmediateStop_deferred (h : s.cfg.faultPolicy = .deferred) (n : State) :
    withImmediateStop s n = n := by
  unfold withImmediateStop
  rw [immediateStop_deferred s h]

/-- A cycle without squash or halt keeps the simulation. -/
theorem Sim.advance (hs : Sim s σ) {r : Option Retirement} (hr : Retires s r)
    (hmis : ∀ x, r = some x → x.entry.mispredict = false) :
    Sim (s.advance r) (runAfter σ r) where
  level := by rw [← hs.level]; cases r <;> rfl
  deferred := by rw [advance_cfg_eq]; exact hs.deferred
  inFlight := hs.inFlight.advance hr
  frontEnd := hs.frontEnd.advance hs.inFlight hr
  tracks := hs.tracks.advance hs.inFlight hs.frontEnd hr
    (hs.tracks.follows_advance hs.inFlight hs.frontEnd hr hmis)

/-- A cycle in which nothing commits leaves the run where it is. -/
theorem Sim.wait (hs : Sim s σ) (hw : commitDecision s = .wait) :
    s.clock = s.advance none ∧ Sim s.clock σ := by
  have hclock : s.clock = s.advance none := by
    unfold State.clock
    rw [hw]
    exact withImmediateStop_deferred hs.deferred _
  rw [hclock]
  exact ⟨rfl, hs.advance (r := none) (fun x hx => nomatch hx) (fun x hx => nomatch hx)⟩

/-- A cycle in which the head commits is the run's next step. -/
theorem Sim.commit (hs : Sim s σ) (hc : commitDecision s ≠ .wait) :
    s.clock.AgreesWith (seqNext σ) ∧ (s.clock.halt = .running → Sim s.clock (seqNext σ)) := by
  have hf := hs.tracks.follows
  obtain ⟨st, hd, hclock⟩ | ⟨e, hd, hclock⟩ | ⟨x, hd, hm, hclock⟩ | ⟨x, hd, hm, hclock⟩ | ⟨hd, -⟩ :=
    clock_cases s
  · rw [hclock]
    exact ⟨hs.tracks.stop_agrees hs.inFlight hs.frontEnd hd, fun hrun => nomatch hrun⟩
  · rw [hclock]
    exact ⟨hs.tracks.ebreak_agrees hs.inFlight hs.frontEnd hd, fun hrun => nomatch hrun⟩
  · have hsim := hs.squash (x := x) fun y hy => by cases hy; exact hd
    rw [hclock]
    exact ⟨hsim.tracks.follows.agrees, fun _ => hsim⟩
  · have hsim := hs.advance (r := some x) (fun y hy => by cases hy; exact hd)
      (fun y hy => by cases hy; exact hm)
    rw [show runAfter σ (some x) = seqNext σ from hf.steps_one] at hsim
    rw [hclock, withImmediateStop_deferred hs.deferred]
    exact ⟨hsim.tracks.follows.agrees, fun _ => hsim⟩
  · exact absurd hd hc

/-! ### Start states -/

theorem wf_placed (fill : Word) (bs : List Byte) (a n : Nat) (h : a + bs.length ≤ n) :
    (Memory.writeBytes fill [] a bs).wf fill = true ∧
      ∀ c ∈ Memory.writeBytes fill [] a bs, c.1 < n :=
  ⟨Memory.wf_writeBytes fill bs [] a rfl,
    Memory.bound_writeBytes fill bs [] a n (fun _ hc => nomatch hc) h⟩

theorem imageOfWords_length (ws : List Word) : (imageOfWords ws).length = 4 * ws.length := by
  simp [imageOfWords, List.length_flatMap, bytesOfWord, Nat.mul_comm]

theorem boot_shape {cfg : Config} {code : List Word} {data : List Byte}
    (h : State.boot cfg code data = .next s) : s.Shape := by
  obtain ⟨hlegal, hcode, hdata, rfl⟩ := boot_eq_next h
  simp only [imageFits, decide_eq_true_eq] at hcode hdata
  have hi := wf_placed cfg.initFill (imageOfWords code) cfg.codeBase.toNat cfg.memBytes
    (by rw [imageOfWords_length]; exact hcode)
  have hd := wf_placed cfg.initFill data cfg.dataBase.toNat cfg.memBytes hdata
  have hrob : 0 < cfg.robSize := by
    simp only [Config.legal, Bool.and_eq_true, decide_eq_true_eq] at hlegal
    omega
  exact
    { legal := hlegal
      bp_length := List.length_replicate
      bp_tags := fun e he => by
        rw [(List.mem_replicate.1 he).2]
        exact Nat.two_pow_pos _
      rob_length := List.length_replicate
      rs_length := List.length_replicate
      lsq_length := List.length_replicate
      mul_length := List.length_replicate
      div_length := List.length_replicate
      head_lt := hrob
      count_le := Nat.zero_le _
      tail_eq := (Nat.mod_eq_of_lt hrob).symm
      x0_zero := by simp [State.initial, registersAtReset, Vector.append]
      rat0_committed := by simp [State.initial]
      imem_wf := hi.1
      dmem_wf := hd.1
      imem_bound := hi.2
      dmem_bound := hd.2 }

/-- A workload starts in the simulation. -/
theorem Sim.boot {cfg : Config} {code : List Word} {data : List Byte}
    (hd : cfg.faultPolicy = .deferred) (h : State.boot cfg code data = .next s) :
    Sim s s.atInstructions := by
  have hshape := boot_shape h
  obtain ⟨-, -, -, rfl⟩ := boot_eq_next h
  have hrs : ∀ e ∈ List.replicate cfg.rsSize RsEntry.reset, e.busy = false :=
    fun e he => by rw [(List.mem_replicate.1 he).2]; rfl
  have hlsq : ∀ e ∈ List.replicate cfg.lsqSize LsqEntry.reset, e.busy = false :=
    fun e he => by rw [(List.mem_replicate.1 he).2]; rfl
  have hpipe : ∀ (n : Nat), ∀ u ∈ List.replicate n (none : Option UnitOp), u = none :=
    fun n u hu => (List.mem_replicate.1 hu).2
  have hrat : ∀ r : Fin 32, (Vector.replicate 32 RatEntry.committed)[r] = .committed := by
    intro r; simp
  exact
    { level := rfl
      deferred := hd
      inFlight := inFlight_of_empty hshape rfl hrs hlsq rfl rfl (hpipe _) (hpipe _) hrat
      frontEnd := frontEnd_of_empty rfl rfl rfl hrs
      tracks := tracks_of_empty ⟨rfl, rfl, rfl, rfl, ⟨rfl, rfl, rfl, rfl, rfl⟩⟩ rfl hrs hlsq rfl rfl
        (hpipe _) (hpipe _) hrat }

/-! ### Runs -/

theorem Sim.steps_succ_core {s₀ : State} {n : Nat} (hs : Sim (steps n s₀) σ) :
    steps (n + 1) s₀ = (steps n s₀).clock :=
  steps_succ_clock ((steps_frame n s₀).2.1.symm.trans hs.level) hs.tracks.follows.running

theorem Sim.steps_succ_run {σ₀ : State} {m : Nat} (hs : Sim s (steps m σ₀)) :
    steps (m + 1) σ₀ = seqNext (steps m σ₀) := by
  rw [steps_add]
  exact hs.tracks.follows.steps_one

/-- After every number of cycles the core agrees with some point of the run, and goes on in the
simulation while it runs. -/
theorem core_agrees {s₀ σ₀ : State} (h0 : Sim s₀ σ₀) (n : Nat) :
    ∃ m, (steps n s₀).AgreesWith (steps m σ₀) ∧
      ((steps n s₀).halt = .running → Sim (steps n s₀) (steps m σ₀)) := by
  induction n with
  | zero => exact ⟨0, h0.tracks.follows.agrees, fun _ => h0⟩
  | succ n ih =>
    obtain ⟨m, hagree, hsim⟩ := ih
    by_cases hrun : (steps n s₀).halt = .running
    · have hs := hsim hrun
      rw [hs.steps_succ_core]
      by_cases hw : commitDecision (steps n s₀) = .wait
      · have hs' := (hs.wait hw).2
        exact ⟨m, hs'.tracks.follows.agrees, fun _ => hs'⟩
      · refine ⟨m + 1, ?_⟩
        rw [hs.steps_succ_run]
        exact hs.commit hw
    · rw [steps_succ_of_stopped hrun]
      exact ⟨m, hagree, hsim⟩

/-- Settles O59: by induction on the cycles, the simulation holds or the core has stopped where the run
has. -/
theorem correctnessContract : Obligations.CorrectnessContract := by
  intro cfg code data s n hd hboot
  obtain ⟨m, hagree, -⟩ := core_agrees (Sim.boot hd hboot) n
  exact ⟨m, hagree⟩

end

end Sys2Proof.Machine
end


-- ==== Sys2Proof/Proofs/Progress.lean ====
section
/-! PROOF. The progress half of R17: in a cycle in which nothing commits the work in flight moves on, so
the head commits after finitely many cycles (70 R675). -/

namespace Sys2Proof.Machine

/-! ### The work in flight -/

/-- How far the operations of a pipeline are from its end, together. -/
def pipeWork : List (Option UnitOp) → Nat
  | [] => 0
  | u :: rest => (rest.length + 1) * countIf u.isSome + pipeWork rest

/-- The set of all tags. -/
def anyTag : Nat → Bool := fun _ => true

theorem stageHolds_anyTag (u : Option UnitOp) : stageHolds anyTag u = u.isSome := by
  cases u <;> rfl

theorem pipeWork_dropLast (pipe : List (Option UnitOp)) :
    pipeWork pipe.dropLast + pipe.countP (stageHolds anyTag) = pipeWork pipe := by
  induction pipe with
  | nil => rfl
  | cons u rest ih =>
    cases rest with
    | nil => cases u <;> rfl
    | cons v rest =>
      rw [List.dropLast_cons_cons, pipeWork, pipeWork, List.length_dropLast, List.countP_cons, ← ih]
      cases u <;> simp [stageHolds_anyTag]
      omega

/-- When a pipeline shifts, each of its operations comes one stage nearer to the end. -/
theorem pipeWork_nextPipe {pipe : List (Option UnitOp)} (hne : pipe ≠ []) {adv : Bool}
    {new : Option Issued} (hnew : adv = false → new = none) :
    pipeWork (nextPipe pipe adv new) + (if adv then pipe.countP (stageHolds anyTag) else 0)
      = pipeWork pipe + pipe.length * held anyTag (new.map Issued.tag) := by
  cases adv with
  | false => simp [nextPipe, hnew rfl]
  | true =>
    obtain ⟨u, rest, rfl⟩ := List.exists_cons_of_ne_nil hne
    have h := pipeWork_dropLast (u :: rest)
    have hsome : countIf (new.map issuedUnitOp).isSome = held anyTag (new.map Issued.tag) := by
      cases new <;> rfl
    simp only [nextPipe, if_true, List.dropLast_cons_cons]
    rw [pipeWork, hsome, List.length_dropLast, List.length_cons, Nat.add_sub_cancel]
    omega

/-- The work in flight: operations not issued weigh more than any in a unit, and those in a pipeline by
their distance from its end. -/
def State.work (s : State) : Nat :=
  (s.cfg.mulStages + s.cfg.divStages + 2)
      * (s.rs.countP (rsHolds anyTag) + s.lsq.countP (lsqHolds anyTag))
    + pipeWork s.mul + pipeWork s.div + held anyTag (s.aluOut.map Payload.tag) + held anyTag s.ldTag

section
variable {s σ : State}

/-- What moves in a cycle: issues, selections, the bus, and operations in a pipeline that shifts. -/
def State.moves (s : State) : Nat :=
  held anyTag ((signals s).alu.map Issued.tag) + held anyTag ((signals s).mul.map Issued.tag)
    + held anyTag ((signals s).div.map Issued.tag)
    + held anyTag ((selectLoad s).map fun l => l.payload.tag)
    + held anyTag (s.wonTag .alu) + held anyTag (s.wonTag .load)
    + (if (signals s).mulAdvances then s.mul.countP (stageHolds anyTag) else 0)
    + (if (signals s).divAdvances then s.div.countP (stageHolds anyTag) else 0)

/-- The weight of a queued operation pays for its way through a unit, and for the issue itself. -/
theorem issue_weight (L M a m d l : Nat) :
    L * m + M * d + (m + d) + 2 * (a + l) ≤ (L + M + 2) * (a + m + d + l) := by
  have : (L + M + 2) * (a + m + d + l)
      = L * m + M * d + (m + d) + 2 * (a + l) + (L * (a + d + l) + M * (a + m + l) + (m + d)) := by
    ring
  omega

/-- Without a dispatch whatever moves lessens the work in flight. -/
theorem work_advance (h : s.InFlight) (ha : s.allocation = none) :
    (s.advance none).work + s.moves ≤ s.work := by
  have ha' : dispatch s (signals s).broadcast = none := ha
  have hrs := countP_nextRs (s := s) anyTag (b := (signals s).broadcast)
  have hlsq := countP_nextLsq anyTag h (r := none) (fun x hx => nomatch hx)
    (b := (signals s).broadcast)
  have hmul := pipeWork_nextPipe h.shape.mul_ne_nil (new := (signals s).mul)
    (adv := (signals s).mulAdvances) fun hadv => by simp [signals_mul, hadv]
  have hdiv := pipeWork_nextPipe h.shape.div_ne_nil (new := (signals s).div)
    (adv := (signals s).divAdvances) fun hadv => by simp [signals_div, hadv]
  have halu := held_nextAluOut anyTag s
  have hld := held_nextLdOut anyTag s
  rw [ha', show rsTag none = none from rfl, held_none, Nat.add_zero] at hrs
  rw [ha', show loadTag none = none from rfl, held_none, Nat.add_zero] at hlsq
  rw [h.shape.mul_length] at hmul
  rw [h.shape.div_length] at hdiv
  have hweight := issue_weight s.cfg.mulStages s.cfg.divStages
    (held anyTag ((signals s).alu.map Issued.tag)) (held anyTag ((signals s).mul.map Issued.tag))
    (held anyTag ((signals s).div.map Issued.tag))
    (held anyTag ((selectLoad s).map fun l => l.payload.tag))
  have hqueued := congrArg ((s.cfg.mulStages + s.cfg.divStages + 2) * ·)
    (show _ + _ = _ from congrArg₂ (· + ·) hrs hlsq)
  unfold State.work State.moves
  simp only [advance_cfg_eq, State.advance_rs, State.advance_lsq, State.advance_mul,
    State.advance_div, State.advance_aluOut, State.ldTag, State.advance_ldOut, ha',
    Nat.mul_add] at *
  omega

/-! ### A cycle in which nothing moves -/

/-- Nothing requests the bus and nothing can be issued. -/
structure State.Quiet (s : State) : Prop where
  aluOut : s.aluOut = none
  ldOut : s.ldOut = none
  rs : ∀ u, selectRs s u = none
  lsq : eligibleLoads s = []
  mul : s.mul.countP (stageHolds anyTag) = 0
  div : s.div.countP (stageHolds anyTag) = 0

/-- Every requester is in the priority order, so the bus stays free only without a request. -/
theorem requests_none_of_no_winner (h : s.Shape) (hw : (signals s).win = none) (r : Requester) :
    s.requests r = none := by
  have hlegal := h.legal
  simp only [Config.legal, Bool.and_eq_true, List.all_cons, List.all_nil, List.contains_iff_mem]
    at hlegal
  obtain ⟨-, halu, hload, hmul, hdiv, -⟩ := hlegal
  have hmem : r ∈ s.cfg.cdbPriority := by cases r <;> assumption
  rw [signals_win] at hw
  have := List.findSome?_eq_none_iff.1 hw r hmem
  simpa using this

theorem countP_pos_of_lastStage {pipe : List (Option UnitOp)} {u : UnitOp}
    (h : lastStage pipe = some u) : 0 < pipe.countP (stageHolds anyTag) := by
  refine List.countP_pos_iff.2 ⟨some u, ?_, rfl⟩
  unfold lastStage at h
  split at h
  · subst h; exact List.mem_of_getLast? ‹_›
  · cases h

theorem signals_mulAdvances (s : State) :
    (signals s).mulAdvances = pipeAdvances s.mul (wonBy (signals s).win .mul) := rfl
theorem signals_divAdvances (s : State) :
    (signals s).divAdvances = pipeAdvances s.div (wonBy (signals s).win .div) := rfl

/-- A pipeline whose request wins the bus shifts its operations. -/
theorem pipe_moves_of_won {pipe : List (Option UnitOp)} {p : Payload} {won : Bool}
    (hreq : (lastStage pipe).map unitPayload = some p) (hwon : won = true) :
    0 < if pipeAdvances pipe won then pipe.countP (stageHolds anyTag) else 0 := by
  obtain ⟨u, hu, -⟩ := Option.map_eq_some_iff.1 hreq
  rw [pipeAdvances, hwon, Bool.or_true, if_pos rfl]
  exact countP_pos_of_lastStage hu

/-- Whoever wins the bus moves. -/
theorem no_winner_of_moves (hm : s.moves = 0) : (signals s).win = none := by
  cases hw : (signals s).win with
  | none => rfl
  | some rp =>
    obtain ⟨r, p⟩ := rp
    have hreq : s.requests r = some p := (arbitrate_request s _ _ r p hw).2
    have hwon : wonBy (signals s).win r = true := by simp [hw, wonBy]
    have htag : held anyTag (s.wonTag r) = 1 := by
      unfold State.wonTag
      rw [if_pos hwon, hreq]; rfl
    unfold State.moves at hm
    cases r with
    | alu | load => omega
    | mul =>
      have := pipe_moves_of_won hreq hwon
      rw [signals_mulAdvances] at hm
      omega
    | div =>
      have := pipe_moves_of_won hreq hwon
      rw [signals_divAdvances] at hm
      omega

theorem eq_none_of_held {α : Type} {f : α → Nat} {o : Option α} (h : held anyTag (o.map f) = 0) :
    o = none := by
  cases o with
  | none => rfl
  | some a => cases h

theorem quiet_of_moves (h : s.Shape) (hm : s.moves = 0) : s.Quiet := by
  have hreq := requests_none_of_no_winner h (no_winner_of_moves hm)
  have hmulLast : lastStage s.mul = none := by simpa [State.requests, request] using hreq .mul
  have hdivLast : lastStage s.div = none := by simpa [State.requests, request] using hreq .div
  have hmulAdv : (signals s).mulAdvances = true := by
    rw [signals_mulAdvances, pipeAdvances, hmulLast]; rfl
  have hdivAdv : (signals s).divAdvances = true := by
    rw [signals_divAdvances, pipeAdvances, hdivLast]; rfl
  have haluOut : s.aluOut = none := by
    have := hreq .alu
    cases ho : s.aluOut with
    | none => rfl
    | some p => simp [State.requests, request, ho] at this
  have hldOut : s.ldOut = none := by
    have := hreq .load
    cases ho : s.ldOut with
    | none => rfl
    | some p => simp [State.requests, request, ho] at this
  unfold State.moves at hm
  rw [if_pos hmulAdv, if_pos hdivAdv] at hm
  have halu : selectAlu s = none := eq_none_of_held (f := Issued.tag) (by rw [← signals_alu]; omega)
  have hmul : (signals s).mul = none := eq_none_of_held (f := Issued.tag) (by omega)
  have hdiv : (signals s).div = none := eq_none_of_held (f := Issued.tag) (by omega)
  have hload : selectLoad s = none := eq_none_of_held (f := fun l => l.payload.tag) (by omega)
  refine ⟨haluOut, hldOut, fun u => ?_, ?_, by omega, by omega⟩
  · cases u with
    | alu => rwa [selectAlu, haluOut] at halu
    | mul => rwa [signals_mul, if_pos hmulAdv] at hmul
    | div => rwa [signals_div, if_pos hdivAdv] at hdiv
  · rw [selectLoad, hldOut] at hload
    exact (leastBy_eq_none _ _).1 hload

/-! ### The head cannot be stuck -/

/-- The head waits for nobody. -/
theorem slot_value_of_head (h : s.Shape) {own : Nat} (hown : own = s.robHead) {slot : Slot}
    (hs : s.slotOk own slot) : ∃ v, slot = .value v := by
  cases slot with
  | value v => exact ⟨v, rfl⟩
  | pending t =>
    obtain ⟨-, -, hage, -⟩ := hs
    rw [hown, age_head h.head_lt] at hage
    omega

theorem State.Quiet.rs_not_head (hq : s.Quiet) (h : s.InFlight) (hf : s.FrontEnd) {e : RsEntry}
    (he : e ∈ s.rs) (hb : e.busy = true) : e.dest ≠ s.robHead := by
  intro hd
  obtain ⟨hj, hk⟩ := h.rs_slots e he hb
  obtain ⟨a, ha⟩ := slot_value_of_head h.shape hd hj
  obtain ⟨b, hb'⟩ := slot_value_of_head h.shape hd hk
  obtain ⟨u, hu⟩ := Option.ne_none_iff_exists'.1 (hf.units e he hb)
  obtain ⟨i, hi⟩ := List.getElem?_of_mem he
  have hel := (eligibleEntry_eq_some u e i ⟨i, e.dest, e.op, a, b, e.imm, e.pc⟩).2
    ⟨hb, hu, ha, hb', rfl⟩
  have hmem := List.filterMap_eq_nil_iff.1 ((leastBy_eq_none _ _).1 (hq.rs u)) (e, i)
    (List.mem_zipIdx_iff_getElem?.2 hi)
  exact Option.some_ne_none _ (hel.symm.trans hmem)

/-- A load at the head has no older store to wait for. -/
theorem loadPlan_ne_wait_of_head (h : s.InFlight) {e : LsqEntry} (he : e ∈ s.lsq)
    (hb : e.busy = true) (ht : e.tag = s.robHead) : loadPlan s e ≠ .wait := by
  obtain ⟨v, hv⟩ := slot_value_of_head h.shape ht (h.lsq_slots e he hb).1
  have holder : olderStores s e.tag = [] := by
    refine List.eq_nil_iff_forall_not_mem.2 fun st hst => ?_
    have := (mem_olderStores.1 hst).2.2
    rw [ht, age_head h.shape.head_lt] at this
    omega
  unfold loadPlan orderedPlan forwardingStore
  rw [holder, lsqAddress, hv]
  simp only [Slot.value?, Option.map_some, List.any_nil, List.filter_nil, greatestBy]
  split <;> simp

theorem State.Quiet.load_not_head (hq : s.Quiet) (h : s.InFlight) {e : LsqEntry} (he : e ∈ s.lsq)
    (hl : isLoadEntry e = true) (hi : e.issued = false) : e.tag ≠ s.robHead := by
  intro ht
  have hplan := loadPlan_ne_wait_of_head h he (busy_of_isLoadEntry hl) ht
  obtain ⟨i, hget⟩ := List.getElem?_of_mem he
  have hmem := List.filterMap_eq_nil_iff.1 hq.lsq (e, i) (List.mem_zipIdx_iff_getElem?.2 hget)
  cases hp : loadPlan s e with
  | wait => exact hplan hp
  | fault f => simp [hl, hi, hp, planPayload] at hmem
  | value v => simp [hl, hi, hp, planPayload] at hmem

/-- When nothing moves nobody is to produce the head's result. -/
theorem State.Quiet.head_not_awaited (hq : s.Quiet) (h : s.InFlight) (hf : s.FrontEnd) :
    s.awaited s.robHead = false := by
  have hrs : s.rs.countP (rsProduces s.robHead) = 0 := by
    refine List.countP_eq_zero.2 fun e he hp => ?_
    simp only [rsProduces, Bool.and_eq_true, decide_eq_true_eq] at hp
    exact hq.rs_not_head h hf he hp.1 hp.2
  have hlsq : s.lsq.countP (lsqProduces s.robHead) = 0 := by
    refine List.countP_eq_zero.2 fun e he hp => ?_
    simp only [lsqProduces, Bool.and_eq_true, Bool.not_eq_true', decide_eq_true_eq] at hp
    exact hq.load_not_head h he hp.1.1 hp.1.2 hp.2
  have hstage : ∀ pipe : List (Option UnitOp), pipe.countP (stageHolds anyTag) = 0 →
      pipe.countP (stageProduces s.robHead) = 0 := by
    intro pipe hz
    refine List.countP_eq_zero.2 fun u hu hp => List.countP_eq_zero.1 hz u hu ?_
    cases u with
    | none => cases hp
    | some u => rfl
  have hprod := h.producers s.robHead
  unfold State.producers at hprod
  rw [hrs, hlsq, hstage _ hq.mul, hstage _ hq.div, hq.aluOut, hq.ldOut] at hprod
  cases hw : s.awaited s.robHead with
  | false => rfl
  | true => rw [hw] at hprod; cases hprod

/-- A Store at the head is ready to commit. -/
theorem readyStore_of_head (h : s.InFlight) (hc : s.robCount ≠ 0) (hk : s.headEntry.kind = .store) :
    readyStore s s.robHead ≠ none := by
  obtain ⟨st, hst, hs, ht⟩ := h.store_in_queue (validTag_head h.shape hc) hk
  obtain ⟨i, hi⟩ := List.getElem?_of_mem hst
  unfold readyStore
  cases hfind : s.lsq.zipIdx.find? (fun (e, _) => e.busy && e.tag = s.robHead) with
  | none =>
    have := List.find?_eq_none.1 hfind (st, i) (List.mem_zipIdx_iff_getElem?.2 hi)
    simp [busy_of_isStoreEntry hs, ht] at this
  | some p =>
    obtain ⟨e, j⟩ := p
    have hp := List.find?_some hfind
    simp only [Bool.and_eq_true, decide_eq_true_eq] at hp
    have he := List.mem_of_getElem? (List.mem_zipIdx_iff_getElem?.1 (List.mem_of_find?_eq_some hfind))
    obtain ⟨hbase, hdata⟩ := h.lsq_slots e he hp.1
    obtain ⟨a, ha⟩ := slot_value_of_head h.shape hp.2 hbase
    obtain ⟨d, hd⟩ := slot_value_of_head h.shape hp.2 hdata
    simp [lsqAddress, Slot.value?, ha, hd]

/-- A head that waits is awaited, or a Store that is not ready. -/
theorem State.InFlight.waiting_head (h : s.InFlight) (hw : commitDecision s = .wait)
    (hc : s.robCount ≠ 0) :
    s.awaited s.robHead = true ∨ (s.headEntry.kind = .store ∧ readyStore s s.robHead = none) := by
  have hv := validTag_head h.shape hc
  obtain ⟨hfault, hebreak⟩ := h.ready_at_dispatch _ hv
  change (s.headEntry.kind = .fault → s.headEntry.ready = true ∧ s.headEntry.fault ≠ none) at hfault
  change (s.headEntry.kind = .ebreak → s.headEntry.ready = true) at hebreak
  have hawait : s.headEntry.ready = false → kindBroadcasts s.headEntry.kind = true →
      s.awaited s.robHead = true := fun h1 h2 => awaited_iff.2 ⟨hv, h1, h2⟩
  unfold commitDecision at hw
  rw [if_neg hc] at hw
  cases hk : s.headEntry.kind with
  | store =>
    simp only [hk] at hw
    rcases commitStore_cases s s.headEntry with ⟨hn, -⟩ | ⟨rs, k, -, -, e⟩ | ⟨rs, -, -, e⟩
    · exact .inr ⟨rfl, hn⟩
    · rw [e] at hw; cases hw
    · rw [e] at hw; cases hw
  | fault =>
    obtain ⟨hr, hn⟩ := hfault hk
    obtain ⟨f, hf⟩ := Option.ne_none_iff_exists'.1 hn
    simp only [hk, hr, hf] at hw
    cases hw
  | ebreak =>
    simp only [hk, hebreak hk, if_true] at hw
    cases hw
  | load =>
    simp only [hk] at hw
    cases hr : s.headEntry.ready with
    | false => exact .inl (hawait hr (by rw [hk]; rfl))
    | true =>
      simp only [hr, if_true, retireOrStop] at hw
      split at hw <;> cases hw
  | alu | branch | jump | mulDiv =>
    simp only [hk] at hw
    cases hr : s.headEntry.ready with
    | false => exact .inl (hawait hr (by rw [hk]; rfl))
    | true => simp only [hr, if_true] at hw; cases hw

/-- When nothing commits and nothing moves the ROB is empty. -/
theorem State.Quiet.robCount_zero (hq : s.Quiet) (h : s.InFlight) (hf : s.FrontEnd)
    (hw : commitDecision s = .wait) : s.robCount = 0 := by
  by_contra hc
  obtain hawait | ⟨hk, hn⟩ := h.waiting_head hw hc
  · rw [hq.head_not_awaited h hf] at hawait; cases hawait
  · exact readyStore_of_head h hc hk hn

/-! ### An empty ROB fills -/

theorem not_validTag_of_empty (hc : s.robCount = 0) (t : Nat) : s.validTag t ≠ true := by
  intro hv
  have := (validTag_iff.1 hv).2
  omega

theorem freeRs_of_empty (h : s.InFlight) (hc : s.robCount = 0) : freeRs s ≠ none := by
  intro hn
  have hlegal := h.shape.legal
  simp only [Config.legal, Bool.and_eq_true, decide_eq_true_eq] at hlegal
  have hpos : 0 < s.rs.length := by rw [h.shape.rs_length]; omega
  have hb := List.findIdx?_eq_none_iff.1 hn _ (List.getElem_mem hpos)
  exact not_validTag_of_empty hc _
    (awaited_iff.1 (h.awaited_of_rs (List.getElem_mem hpos) (by simpa using hb))).1

theorem freeLsq_of_empty (h : s.InFlight) (hc : s.robCount = 0) : freeLsq s ≠ none := by
  intro hn
  have hlegal := h.shape.legal
  simp only [Config.legal, Bool.and_eq_true, decide_eq_true_eq] at hlegal
  have hpos : 0 < s.lsq.length := by rw [h.shape.lsq_length]; omega
  have hb := List.findIdx?_eq_none_iff.1 hn _ (List.getElem_mem hpos)
  exact not_validTag_of_empty hc _
    (h.valid_of_lsq (List.getElem_mem hpos) (by simpa using hb))

/-- With an empty ROB nothing hinders dispatch. -/
theorem dispatch_of_empty (h : s.InFlight) (hc : s.robCount = 0) (hv : s.fl.valid = true) :
    s.allocation ≠ none := by
  have hroom : s.robCount < s.cfg.robSize := by
    have := h.shape.head_lt
    omega
  obtain ⟨i, hi⟩ := Option.ne_none_iff_exists'.1 (freeRs_of_empty h hc)
  obtain ⟨j, hj⟩ := Option.ne_none_iff_exists'.1 (freeLsq_of_empty h hc)
  unfold State.allocation dispatch allocate
  rw [if_pos hv, if_pos hroom, hi, hj]
  cases latchMicroOp s.fl with
  | fault f => simp
  | instr d =>
    cases hu : unitOfClass d.cls with
    | some u => simp [hu]
    | none => cases hm : opIsMemory d.op <;> simp [hu, hm]

/-- With an empty ROB and nothing dispatched, fetch fills the empty latch. -/
theorem fetch_of_empty (h : s.InFlight) (hf : s.FrontEnd) (hc : s.robCount = 0)
    (ha : s.allocation = none) : s.fl.valid = false ∧ (s.advance none).fl.valid = true := by
  have hv : s.fl.valid = false := by
    cases hv : s.fl.valid with
    | false => rfl
    | true => exact absurd ha (dispatch_of_empty h hc hv)
  refine ⟨hv, ?_⟩
  obtain ⟨-, -, hfl, -⟩ | ⟨-, -, hst | hst, -⟩ := advance_front s none
  · rw [hfl, fetchAccess_valid]
  · exact absurd hc (hf.stopped_rob hst hv).1
  · rw [hv] at hst; cases hst

/-! ### The head commits -/

/-- How far the head is from its commit: room in the ROB, work in flight, an empty latch. -/
def State.distance (s : State) : Nat × Nat × Nat :=
  (s.cfg.robSize - s.robCount, s.work, if s.fl.valid then 0 else 1)

/-- A cycle in which nothing commits brings the head's commit nearer. -/
theorem distance_advance (h : s.InFlight) (hf : s.FrontEnd) (hw : commitDecision s = .wait) :
    Prod.Lex (· < ·) (Prod.Lex (· < ·) (· < ·)) (s.advance none).distance s.distance := by
  have hcount := advance_robCount_eq s none
  unfold State.distance
  rw [advance_cfg_eq, hcount, retireCount_none]
  cases ha : s.allocation with
  | some a =>
    obtain ⟨hd, hroom⟩ := dispatchCount_of_some ha
    exact .left _ _ (by omega)
  | none =>
    rw [dispatchCount_of_none ha, Nat.sub_zero, Nat.add_zero]
    refine .right _ ?_
    have hwork := work_advance h ha
    by_cases hm : s.moves = 0
    · have hc := (quiet_of_moves h.shape hm).robCount_zero h hf hw
      obtain ⟨hold, hnew⟩ := fetch_of_empty h hf hc ha
      obtain hlt | heq := Nat.lt_or_eq_of_le (show (s.advance none).work ≤ s.work by omega)
      · exact .left _ _ hlt
      · rw [heq, hold, hnew]
        exact .right _ (by decide)
    · exact .left _ _ (by omega)

/-- From the simulation the core comes to a commit, the run standing still. -/
theorem reaches_commit (s : State) (hs : Sim s σ) :
    ∃ k, Sim (steps k s) σ ∧ commitDecision (steps k s) ≠ .wait := by
  by_cases hw : commitDecision s = .wait
  · obtain ⟨hclock, hs'⟩ := hs.wait hw
    have hdist := distance_advance hs.inFlight hs.frontEnd hw
    obtain ⟨k, hk⟩ := reaches_commit s.clock hs'
    refine ⟨k + 1, ?_⟩
    rwa [steps_succ_of_next k (step_at_cycles s hs.tracks.follows.running hs.level)]
  · exact ⟨0, hs, hw⟩
termination_by s.distance
decreasing_by rw [hclock]; exact hdist

/-- Every point of the run is one the core reaches, in the simulation while it runs. -/
theorem run_reached {s₀ σ₀ : State} (h0 : Sim s₀ σ₀) (m : Nat) :
    ∃ n, (steps n s₀).AgreesWith (steps m σ₀) ∧
      ((steps n s₀).halt = .running → Sim (steps n s₀) (steps m σ₀)) := by
  induction m with
  | zero => exact ⟨0, h0.tracks.follows.agrees, fun _ => h0⟩
  | succ m ih =>
    obtain ⟨n, hagree, hsim⟩ := ih
    by_cases hrun : (steps n s₀).halt = .running
    · obtain ⟨k, hs, hc⟩ := reaches_commit _ (hsim hrun)
      rw [← steps_add] at hs hc
      refine ⟨n + k + 1, ?_⟩
      rw [hs.steps_succ_core, hs.steps_succ_run]
      exact hs.commit hc
    · rw [steps_succ_of_stopped fun hr => hrun (hagree.halt.trans hr)]
      exact ⟨n, hagree, hsim⟩

/-- Settles O60: by induction on the run's steps, each of which the core reaches because the distance to
the head's commit lessens in every cycle without one. -/
theorem everySequentialStepIsReached : Obligations.EverySequentialStepIsReached := by
  intro cfg code data s m hd hboot
  obtain ⟨n, hagree, -⟩ := run_reached (Sim.boot hd hboot) m
  exact ⟨n, hagree⟩

end

end Sys2Proof.Machine
end


-- ==== Sys2Proof/Proofs/StepInvariants.lean ====
section
/-! PROOF. Every step of either level keeps the shape and the invariants of 10 R57: the cycle that goes
on is in InFlightKept.lean, here are the stops, the halt, the squash and the sequential semantics. -/

namespace Sys2Proof.Machine

section
variable {s : State}

/-! ### Stops change the halt status only (49 R557, 60 R600) -/

theorem State.Shape.raise (h : s.Shape) (k : FaultKind) (pc a : Word) : (s.raise k pc a).Shape :=
  { h with }

theorem State.InFlight.raise (h : s.InFlight) (k : FaultKind) (pc a : Word) :
    (s.raise k pc a).InFlight :=
  { h with shape := h.shape.raise k pc a }

theorem State.Shape.haltOnFault (h : s.Shape) (st : Stop) : (s.haltOnFault st).Shape :=
  { h with }

theorem State.InFlight.haltOnFault (h : s.InFlight) (st : Stop) : (s.haltOnFault st).InFlight :=
  { h with shape := h.shape.haltOnFault st }

theorem State.Shape.withImmediateStop {n : State} (h : n.Shape) : (withImmediateStop s n).Shape := by
  obtain hn | ⟨st, -, hn⟩ := withImmediateStop_cases s n <;> rw [hn]
  · exact h
  · exact h.raise st.kind st.pc st.addr

theorem State.InFlight.withImmediateStop {n : State} (h : n.InFlight) :
    (withImmediateStop s n).InFlight := by
  obtain hn | ⟨st, -, hn⟩ := withImmediateStop_cases s n <;> rw [hn]
  · exact h
  · exact h.raise st.kind st.pc st.addr

theorem State.Shape.nextHead_lt (h : s.Shape) : nextTag s.cfg s.robHead < s.cfg.robSize :=
  nextTag_lt s.cfg s.robHead (Nat.zero_lt_of_lt h.head_lt)

/-! ### The halt on EBREAK takes the head out of the ROB (49 R556) -/

theorem State.Shape.haltOnEbreak (h : s.Shape) (hc : s.robCount ≠ 0) (e : RobEntry) :
    (s.haltOnEbreak e).Shape := by
  have htail : s.robTail = (nextTag s.cfg s.robHead + (s.robCount - 1)) % s.cfg.robSize := by
    rw [nextTag, Nat.mod_add_mod, h.tail_eq]
    congr 1
    omega
  exact
    { h with
      head_lt := h.nextHead_lt
      count_le := (Nat.sub_le _ _).trans h.count_le
      tail_eq := htail }

/-- Behind the head every tag comes one place nearer. -/
theorem age_haltOnEbreak (h : s.Shape) (e : RobEntry) {t : Nat} (ht : t < s.cfg.robSize)
    (hne : t ≠ s.robHead) : (s.haltOnEbreak e).age t + 1 = s.age t := by
  have hh := h.head_lt
  rw [age_eq hh ht, age_eq (s := s.haltOnEbreak e) h.nextHead_lt ht, State.haltOnEbreak_robHead,
    State.haltOnEbreak_cfg, nextTag_eq hh]
  split_ifs <;> omega

/-- The head's own tag becomes the youngest, outside the valid range. -/
theorem age_haltOnEbreak_head (h : s.Shape) (e : RobEntry) :
    (s.haltOnEbreak e).age s.robHead + 1 = s.cfg.robSize := by
  have hh := h.head_lt
  rw [age_eq (s := s.haltOnEbreak e) h.nextHead_lt hh, State.haltOnEbreak_robHead, State.haltOnEbreak_cfg,
    nextTag_eq hh]
  split_ifs <;> omega

/-- The valid tags lose the head's. -/
theorem validTag_haltOnEbreak_iff (h : s.Shape) (e : RobEntry) {t : Nat} :
    (s.haltOnEbreak e).validTag t = true ↔ s.validTag t = true ∧ t ≠ s.robHead := by
  rw [validTag_iff, validTag_iff, State.haltOnEbreak_cfg, State.haltOnEbreak_robCount]
  by_cases hne : t = s.robHead
  · subst hne
    have hage := age_haltOnEbreak_head h e
    have hle := h.count_le
    exact ⟨fun ⟨_, hlt⟩ => by omega, fun ⟨_, hn⟩ => absurd rfl hn⟩
  · constructor
    · rintro ⟨ht, hlt⟩
      have hage := age_haltOnEbreak h e ht hne
      exact ⟨⟨ht, by omega⟩, hne⟩
    · rintro ⟨⟨ht, hlt⟩, -⟩
      have hage := age_haltOnEbreak h e ht hne
      exact ⟨ht, by omega⟩

/-- A property the head's entry lacks has the same valid tags without the head. -/
theorem validTag_haltOnEbreak_and (h : s.Shape) (e : RobEntry) {p : RobEntry → Bool}
    (hp : p s.headEntry = false) (t : Nat) :
    ((s.haltOnEbreak e).validTag t && p (s.robEntry t)) = (s.validTag t && p (s.robEntry t)) := by
  by_cases hne : t = s.robHead
  · subst hne
    rw [show p (s.robEntry s.robHead) = false from hp, Bool.and_false, Bool.and_false]
  · congr 1
    rw [Bool.eq_iff_iff, validTag_haltOnEbreak_iff h, and_iff_left hne]

/-- A ready head is not awaited, so the same tags are. -/
theorem awaited_haltOnEbreak (h : s.Shape) (e : RobEntry) (hready : s.headEntry.ready = true)
    (t : Nat) : (s.haltOnEbreak e).awaited t = s.awaited t := by
  have := validTag_haltOnEbreak_and h e (p := fun f => !f.ready && kindBroadcasts f.kind)
    (by simp [hready]) t
  rwa [← Bool.and_assoc, ← Bool.and_assoc] at this

/-- A slot that waits on an older, unfinished entry does not wait on the ready head. -/
theorem slotOk_haltOnEbreak (h : s.Shape) (e : RobEntry)
    (hready : s.headEntry.ready = true) {own : Nat} (hown : own < s.cfg.robSize) {slot : Slot}
    (hs : s.slotOk own slot) : (s.haltOnEbreak e).slotOk own slot := by
  cases slot with
  | value v => trivial
  | pending t =>
    obtain ⟨hv, hnr, hage, hdest⟩ := hs
    have hne : t ≠ s.robHead := by
      rintro rfl
      exact Bool.false_ne_true (hnr.symm.trans hready)
    have hownne : own ≠ s.robHead := by
      rintro rfl
      rw [age_head h.head_lt] at hage
      omega
    have htage := age_haltOnEbreak h e (validTag_iff.1 hv).1 hne
    have hownage := age_haltOnEbreak h e hown hownne
    exact ⟨(validTag_haltOnEbreak_iff h e).2 ⟨hv, hne⟩, hnr, by omega, hdest⟩

/-- An EBREAK writes no register (10 R51). -/
theorem State.InFlight.dest_of_ebreak (h : s.InFlight) {t : Nat} (hv : s.validTag t = true)
    (hk : (s.robEntry t).kind = .ebreak) : (s.robEntry t).dest = none := by
  refine Option.eq_none_iff_forall_ne_some.2 fun r hr => ?_
  have hkind := (h.dests t hv r hr).2
  rw [hk] at hkind
  simp at hkind

/-- A pending register's youngest writer is not the EBREAK, so it stays the youngest valid one. -/
theorem rat_pending_haltOnEbreak (h : s.InFlight)
    (hk : s.headEntry.kind = .ebreak) (e : RobEntry) (r : Fin 32) (t : Nat)
    (ht : s.rat[r] = .pending t) :
    (s.haltOnEbreak e).validTag t = true ∧ (s.robEntry t).dest = some (BitVec.ofFin r) ∧
      ∀ u, (s.haltOnEbreak e).validTag u = true → (s.robEntry u).dest = some (BitVec.ofFin r) →
        (s.haltOnEbreak e).age u ≤ (s.haltOnEbreak e).age t := by
  obtain ⟨hv, hdest, hyoung⟩ := h.rat_pending r t ht
  have hne : t ≠ s.robHead := by
    rintro rfl
    exact Option.some_ne_none _ (hdest.symm.trans (h.dest_of_ebreak hv hk))
  refine ⟨(validTag_haltOnEbreak_iff h.shape e).2 ⟨hv, hne⟩, hdest, fun u hu hud => ?_⟩
  obtain ⟨hvu, hune⟩ := (validTag_haltOnEbreak_iff h.shape e).1 hu
  have hle := hyoung u hvu hud
  have huage := age_haltOnEbreak h.shape e (validTag_iff.1 hvu).1 hune
  have htage := age_haltOnEbreak h.shape e (validTag_iff.1 hv).1 hne
  omega

/-- Taking a complete EBREAK out of the ROB keeps the invariants: nobody produces its tag or waits on
it, it is no Store, and it writes no register. -/
theorem State.InFlight.haltOnEbreak (h : s.InFlight) (hc : s.robCount ≠ 0)
    (hk : s.headEntry.kind = .ebreak) (e : RobEntry) : (s.haltOnEbreak e).InFlight := by
  have hhead := validTag_head h.shape hc
  have hready : s.headEntry.ready = true := (h.ready_at_dispatch _ hhead).2 hk
  have hvalid : ∀ {t}, (s.haltOnEbreak e).validTag t = true → s.validTag t = true :=
    fun hv => ((validTag_haltOnEbreak_iff h.shape e).1 hv).1
  have hlt : ∀ {t}, s.validTag t = true → t < s.cfg.robSize := fun hv => (validTag_iff.1 hv).1
  exact
    { h with
      shape := h.shape.haltOnEbreak hc e
      producers := fun t =>
        (h.producers t).trans (congrArg countIf (awaited_haltOnEbreak h.shape e hready t).symm)
      stores := fun t =>
        (h.stores t).trans (congrArg countIf (validTag_haltOnEbreak_and h.shape e
          (p := fun f => decide (f.kind = .store)) (by simp [hk]) t).symm)
      rat_pending := fun r t ht => rat_pending_haltOnEbreak h hk e r t ht
      rat_committed := fun r hr u hu => h.rat_committed r hr u (hvalid hu)
      rs_slots := fun f hf hb => by
        have hown := hlt (awaited_iff.1 (h.awaited_of_rs hf hb)).1
        obtain ⟨hj, hk⟩ := h.rs_slots f hf hb
        exact ⟨slotOk_haltOnEbreak h.shape e hready hown hj,
          slotOk_haltOnEbreak h.shape e hready hown hk⟩
      lsq_slots := fun f hf hb => by
        have hown := hlt (h.valid_of_lsq hf hb)
        obtain ⟨hbase, hdata⟩ := h.lsq_slots f hf hb
        exact ⟨slotOk_haltOnEbreak h.shape e hready hown hbase,
          slotOk_haltOnEbreak h.shape e hready hown hdata⟩
      dests := fun t ht => h.dests t (hvalid ht)
      ready_at_dispatch := fun t ht => h.ready_at_dispatch t (hvalid ht) }

/-! ### Nothing in flight -/

/-- A drained state with the shape meets the invariants (49 R551). -/
theorem State.Shape.inFlight_of_drained (h : s.Shape) (hd : s.drained = true) : s.InFlight := by
  simp only [State.drained, Bool.and_eq_true, decide_eq_true_eq, Bool.not_eq_true', List.all_eq_true,
    Option.isNone_iff_eq_none] at hd
  obtain ⟨⟨⟨⟨⟨⟨⟨⟨⟨⟨hc, -⟩, -⟩, -⟩, hrs⟩, hlsq⟩, halu⟩, hld⟩, hmul⟩, hdiv⟩, hrat⟩ := hd
  exact inFlight_of_empty h hc hrs hlsq halu hld hmul hdiv fun r => by rw [hrat]; simp

theorem drained_squash (s : State) (r : Retirement) : (s.squash r).drained = true := by
  simp [State.drained]

/-! ### The clock cycle -/

theorem State.Shape.clock (h : s.Shape) : s.clock.Shape := by
  obtain ⟨st, -, hn⟩ | ⟨e, hd, hn⟩ | ⟨r, hd, -, hn⟩ | ⟨r, hd, -, hn⟩ | ⟨-, hn⟩ := clock_cases s <;>
    rw [hn]
  · exact h.haltOnFault st
  · exact h.haltOnEbreak (commitDecision_ebreak hd).1 e
  · exact squash_shape h fun x hx => Option.some.inj hx ▸ hd
  · exact (h.advance fun x hx => Option.some.inj hx ▸ hd).withImmediateStop
  · exact (h.advance (r := none) fun x hx => nomatch hx).withImmediateStop

theorem State.InFlight.clock (h : s.InFlight) : s.clock.InFlight := by
  obtain ⟨st, -, hn⟩ | ⟨e, hd, hn⟩ | ⟨r, hd, -, hn⟩ | ⟨r, hd, -, hn⟩ | ⟨-, hn⟩ := clock_cases s
  · rw [hn]; exact h.haltOnFault st
  · obtain ⟨hc, -, hk⟩ := commitDecision_ebreak hd
    rw [hn]; exact h.haltOnEbreak hc hk e
  · exact h.shape.clock.inFlight_of_drained (hn ▸ drained_squash s r)
  · rw [hn]; exact (h.advance fun x hx => Option.some.inj hx ▸ hd).withImmediateStop
  · rw [hn]; exact (h.advance (r := none) fun x hx => nomatch hx).withImmediateStop

/-! ### The sequential semantics -/

/-- Completing an instruction at `pc_a` empties the core and writes one register (60 R610). -/
theorem State.Shape.complete (h : s.Shape) (d : Option Reg) (v next : Word) :
    (s.complete d v next).Shape :=
  { h with
    rs_length := by rw [State.complete_rs, List.length_map]; exact h.rs_length
    lsq_length := by rw [State.complete_lsq, List.length_map]; exact h.lsq_length
    mul_length := by rw [State.complete_mul, List.length_map]; exact h.mul_length
    div_length := by rw [State.complete_div, List.length_map]; exact h.div_length
    head_lt := h.nextHead_lt
    count_le := Nat.zero_le _
    tail_eq := (Nat.mod_eq_of_lt h.nextHead_lt).symm
    x0_zero := writeDest_x0 h.x0_zero d v
    rat0_committed := by simp }

theorem State.Shape.seqResult (h : s.Shape) (i : Instr) : (seqResult s i).Shape := by
  obtain ⟨k, a, hn⟩ | ⟨ea, v, hcheck, hn⟩ | hn | ⟨v, next, hn⟩ := seqResult_cases s i <;> rw [hn]
  · exact h.raise k s.pcA a
  · have hmem := h.dmem_store v hcheck
    exact { h.complete none 0 (s.pcA + 4) with dmem_wf := hmem.1, dmem_bound := hmem.2 }
  · exact { h.complete none 0 s.pcA with }
  · exact h.complete _ v next

/-- An instruction stops the core with a fault and changes nothing else, or leaves nothing in flight. -/
theorem seqResult_raise_or_drained (s : State) (i : Instr) :
    (∃ k a, seqResult s i = s.raise k s.pcA a) ∨ (seqResult s i).drained = true := by
  obtain hr | ⟨ea, v, -, hn⟩ | hn | ⟨v, next, hn⟩ := seqResult_cases s i
  · exact .inl hr
  · rw [hn]; exact .inr (State.drained_complete s none 0 (s.pcA + 4))
  · rw [hn]; exact .inr (State.drained_complete s none 0 s.pcA)
  · rw [hn]; exact .inr (State.drained_complete s _ v next)

theorem State.InFlight.seqResult (h : s.InFlight) (i : Instr) : (seqResult s i).InFlight := by
  obtain ⟨k, a, hn⟩ | hd := seqResult_raise_or_drained s i
  · rw [hn]; exact h.raise k s.pcA a
  · exact (h.shape.seqResult i).inFlight_of_drained hd

theorem State.Shape.seqNext (h : s.Shape) : (seqNext s).Shape := by
  unfold Machine.seqNext
  cases sequentialFetch s s.pcA with
  | error kind => exact h.raise kind s.pcA s.pcA
  | ok i => exact h.seqResult i

theorem State.InFlight.seqNext (h : s.InFlight) : (seqNext s).InFlight := by
  unfold Machine.seqNext
  cases sequentialFetch s s.pcA with
  | error kind => exact h.raise kind s.pcA s.pcA
  | ok i => exact h.seqResult i

/-! ### The step -/

/-- The three states a step can answer: the stopped state itself, the next cycle's, and the next
instruction's. -/
theorem step_eq_next_cases {t : State} (h : step s = .next t) :
    t = s ∨ t = s.clock ∨ t = seqNext s := by
  obtain ⟨-, hs⟩ | ⟨-, -, hs⟩ | ⟨-, -, hs⟩ := step_cases s
  · exact .inl (Host.Outcome.next.inj (h.symm.trans hs))
  · exact .inr (.inl (Host.Outcome.next.inj (h.symm.trans hs)))
  · exact .inr (.inr (Host.Outcome.next.inj (h.symm.trans (hs.trans (instructionStep_eq s)))))

end

/-- Settles O29: a stop or halt leaves sizes and memories alone, and each of squash, cycle and
instruction keeps them. -/
theorem shapeKept : Obligations.ShapeKept := by
  intro s t h hstep
  obtain rfl | rfl | rfl := step_eq_next_cases hstep
  · exact h
  · exact h.clock
  · exact h.seqNext

/-- Settles O30: a stop leaves everything in flight alone, EBREAK takes out a head nobody waits on, a
squash or an instruction leaves nothing in flight, and a cycle that goes on keeps each clause. -/
theorem inFlightKept : Obligations.InFlightKept := by
  intro s t h hstep
  obtain rfl | rfl | rfl := step_eq_next_cases hstep
  · exact h
  · exact h.clock
  · exact h.seqNext

end Sys2Proof.Machine
end


-- ==== Sys2Proof/Proofs/DataMemory.lean ====
section
/-! PROOF. Data memory: a stored word is the word loaded back, whole and byte by byte (20 R104, R105),
and a cycle changes it only by committing a store (20 R114, 48 R521). -/

namespace Sys2Proof.Machine

/-! ### Reading a stored word -/

/-- A byte of a word just written is its lane. -/
theorem Memory.read_writeWord_lane (fill : Word) (m : Memory) (a : Nat) (v : Word)
    (h : m.wf fill = true) {k : Nat} (hk : k < 4) :
    (m.writeWord fill a v).read fill (a + k) = byteLane v k := by
  rw [Memory.read_writeWord fill m a (a + k) v h, if_pos (by omega), Nat.add_sub_cancel_left]

/-- The word read back where a word was written. -/
theorem Memory.readWord_writeWord (fill : Word) (m : Memory) (a : Nat) (v : Word)
    (h : m.wf fill = true) : (m.writeWord fill a v).readWord fill a = v := by
  have lane : ∀ k < 4, (m.writeWord fill a v).read fill (a + k) = byteLane v k :=
    fun _ => Memory.read_writeWord_lane fill m a v h
  have lane0 : (m.writeWord fill a v).read fill a = byteLane v 0 := lane 0 (by omega)
  rw [Memory.readWord, lane0, lane 1 (by omega), lane 2 (by omega), lane 3 (by omega),
    wordOfBytes_byteLane]

/-- A load whose access passes its check completes with the value it reads. -/
theorem completeLoad_of_check {op : Op} {ea : Word} {s : State}
    (h : accessCheck s.cfg .load (opWidth op) ea = none) (rd : Reg) :
    completeLoad op rd ea s =
      .next (s.complete (destOf rd) (loadFromMemory s op ea) (s.pcA + 4)) := by
  obtain ⟨k, hk, -⟩ | ⟨-, he⟩ := completeLoad_cases op rd ea s
  · rw [h] at hk; cases hk
  · exact he

/-- A store whose access passes its check completes and writes its word. -/
theorem completeStore_of_check {ea : Word} {s : State}
    (h : accessCheck s.cfg .store 4 ea = none) (v : Word) :
    completeStore ea v s =
      .next { s.complete none 0 (s.pcA + 4) with dmem := s.dmemStore ea v } := by
  obtain ⟨k, hk, -⟩ | ⟨-, he⟩ := completeStore_cases ea v s
  · rw [h] at hk; cases hk
  · exact he

/-- Inside an aligned word no address wraps around. -/
theorem toNat_add_of_aligned {ea : Word} (h : ea.toNat % 4 = 0) {k : Nat} (hk : k < 4) :
    (ea + BitVec.ofNat 32 k).toNat = ea.toNat + k := by
  have := ea.isLt
  rw [BitVec.toNat_add, BitVec.toNat_ofNat, Nat.mod_eq_of_lt (by omega : k < 2 ^ 32),
    Nat.mod_eq_of_lt (by omega)]

/-- Settles O15: the store writes the four lanes of its word, LW puts them together again and LBU reads
one of them. -/
theorem storeThenLoad : Obligations.StoreThenLoad := by
  intro s rs2 rs1 rd base imm imm' k hrun hwf halign hbound hrd hk hbase
  have hword : ∀ hit, accessCheck s.cfg hit 4 (s.reg rs1 + imm) = none := fun hit =>
    (accessCheck_eq_none ..).2 ⟨fun _ => halign, hbound⟩
  have hea := toNat_add_of_aligned halign hk
  rw [← hbase] at hea
  have hbyte : accessCheck s.cfg .load 1 (s.reg base + imm') = none :=
    (accessCheck_eq_none ..).2 ⟨by omega, by omega⟩
  refine ⟨_, completeStore_of_check (hword .store) (s.reg rs2),
    ⟨_, completeLoad_of_check (hword .load) rd, ?_⟩, ⟨_, completeLoad_of_check hbyte rd, ?_⟩⟩
  · rw [State.reg_complete, if_pos ⟨rfl, hrd⟩]
    exact Memory.readWord_writeWord _ _ _ _ hwf
  · rw [State.reg_complete, if_pos ⟨rfl, hrd⟩]
    have hlane := Memory.read_writeWord_lane _ _ (s.reg rs1 + imm).toNat (s.reg rs2) hwf hk
    rw [← hea] at hlane
    exact congrArg (BitVec.setWidth 32) hlane

/-! ### Who writes data memory -/

theorem withImmediateStop_dmem (s n : State) : (withImmediateStop s n).dmem = n.dmem := by
  obtain h | ⟨st, -, h⟩ := withImmediateStop_cases s n <;> rw [h]
  rfl

/-- A known address comes from a resolved base (48 R501). -/
theorem lsqAddress_eq_some {e : LsqEntry} {ea : Word} :
    lsqAddress e = some ea ↔ ∃ base, e.base = .value base ∧ base + e.imm = ea := by
  unfold lsqAddress Slot.value? effectiveAddress
  cases e.base <;> simp

/-- A cycle leaves data memory alone, or does to it what its retirement does. -/
theorem clock_dmem (s : State) :
    s.clock.dmem = s.dmem ∨
      ∃ r, commitDecision s = .retire r ∧ s.clock.dmem = retireDmem s r.store := by
  obtain ⟨st, -, hc⟩ | ⟨e, -, hc⟩ | ⟨r, hr, -, hc⟩ | ⟨r, hr, -, hc⟩ | ⟨-, hc⟩ := clock_cases s
  · exact .inl (by rw [hc]; rfl)
  · exact .inl (by rw [hc]; rfl)
  · exact .inr ⟨r, hr, by rw [hc]; rfl⟩
  · exact .inr ⟨r, hr, by rw [hc, withImmediateStop_dmem]; rfl⟩
  · exact .inl (by rw [hc, withImmediateStop_dmem]; rfl)

/-- Settles O50: the cycle's only write to data memory is that of a retiring store, whose address and
data are those of the busy LSQ entry with the head's tag. -/
theorem onlyCommittingStoresWrite : Obligations.OnlyCommittingStoresWrite := by
  rintro s ⟨hrun, hlevel⟩
  refine ⟨s.clock, step_at_cycles s hrun hlevel, fun hne => ?_⟩
  obtain hd | ⟨r, hr, hd⟩ := clock_dmem s
  · exact absurd hd hne
  obtain ⟨hcount, -, ⟨hst, -⟩ | ⟨st, hst, hkind, hready, hcheck⟩⟩ := commitDecision_retire hr <;>
    rw [hst] at hd
  · exact absurd hd hne
  obtain ⟨e, he, hbusy, htag, haddr, hdata⟩ := readyStore_eq_some hready
  obtain ⟨base, hb, hea⟩ := lsqAddress_eq_some.1 haddr
  obtain ⟨halign, hbound⟩ := (accessCheck_eq_none ..).1 hcheck
  refine ⟨hcount, hkind, by rw [State.retires, hr], e, List.mem_of_getElem? he, base, st.data,
    hbusy, htag, hb, hdata, ?_⟩
  rw [hea]
  exact ⟨halign rfl, hbound, hd⟩

end Sys2Proof.Machine
end


-- ==== Sys2Proof/Proofs/Forwarding.lean ====
section
/-! PROOF. What a load gets, forwarded or read, is data memory with the older stores of the queue applied
in order of age (20 R113, 48 R503 to R509). -/

namespace Sys2Proof.Machine

section
variable {s : State}

/-! ### What a load with a value has seen -/

/-- A load past its own check has a value only when every older store has an address, and takes it from
data memory when none of them overlaps, else from the youngest that does, which covers the load
(48 R505 to R509). -/
theorem orderedPlan_eq_value {e : LsqEntry} {ea v : Word} (h : orderedPlan s e ea = .value v) :
    (∀ st ∈ olderStores s e.tag, ∃ x, lsqAddress st = some x) ∧
    (((∀ st ∈ olderStores s e.tag, overlapsEntry ea (opWidth e.op) st = false) ∧
        v = loadFromMemory s e.op ea) ∨
      (∃ f x d, f ∈ olderStores s e.tag ∧ lsqAddress f = some x ∧ f.data = .value d ∧
        containsLoad x ea (opWidth e.op) = true ∧
        (∀ st ∈ olderStores s e.tag, s.age f.tag < s.age st.tag →
          overlapsEntry ea (opWidth e.op) st = false) ∧
        v = forwardedValue e.op x ea d)) := by
  unfold orderedPlan at h
  split_ifs at h with hany
  refine ⟨fun st hst => ?_, ?_⟩
  · cases hx : lsqAddress st with
    | none => exact absurd (List.any_eq_true.2 ⟨st, hst, by simp [hx]⟩) hany
    | some x => exact ⟨x, rfl⟩
  cases hfwd : forwardingStore s e.tag ea (opWidth e.op) with
  | none =>
    rw [hfwd] at h
    cases h
    have hnone := List.filter_eq_nil_iff.1 ((greatestBy_eq_none _ _).1 hfwd)
    exact .inl ⟨fun st hst => by simpa using hnone st hst, rfl⟩
  | some f =>
    rw [hfwd] at h
    obtain ⟨hf, hyoungest⟩ := greatestBy_spec _ _ _ hfwd
    cases hx : lsqAddress f with
    | none => simp [hx] at h
    | some x =>
      cases hd : f.data with
      | pending p => simp [hx, hd] at h
      | value d =>
        simp only [hx, hd] at h
        split_ifs at h with hcont
        cases h
        refine .inr ⟨f, x, d, (List.mem_filter.1 hf).1, hx, hd, hcont, fun st hst hage => ?_, rfl⟩
        by_contra hov
        have := hyoungest st (List.mem_filter.2 ⟨hst, by simpa using hov⟩)
        omega

/-- A load with a value has a known address that passes its check. -/
theorem loadPlan_eq_value {e : LsqEntry} {v : Word} (h : loadPlan s e = .value v) :
    ∃ ea, lsqAddress e = some ea ∧ loadCheck s.cfg e.op ea = none ∧
      orderedPlan s e ea = .value v := by
  unfold loadPlan at h
  cases ha : lsqAddress e with
  | none => simp [ha] at h
  | some ea =>
    cases hc : loadCheck s.cfg e.op ea with
    | some kind => simp [ha, hc] at h
    | none => exact ⟨ea, rfl, hc, by simpa [ha, hc] using h⟩

/-- A store that does not overlap the load writes none of its bytes (48 R504). -/
theorem not_covers_of_not_overlaps {st : LsqEntry} {ea x : Word} {n a : Nat}
    (hx : lsqAddress st = some x) (hov : overlapsEntry ea n st = false) (hlo : ea.toNat ≤ a)
    (hhi : a < ea.toNat + n) : ¬ (x.toNat ≤ a ∧ a < x.toNat + 4) := by
  simp only [overlapsEntry, hx, overlaps, Bool.and_eq_false_iff, decide_eq_false_iff_not] at hov
  omega

end

/-! ### Stores applied in order -/

/-- Memory with the stores of a list applied, first to last, each with the address and data given. -/
def applyStores (addr data : LsqEntry → Word) (mem : Nat → Byte) (l : List LsqEntry) : Nat → Byte :=
  l.foldl (fun m st => overlayWord m (addr st) (data st)) mem

section
variable {addr data : LsqEntry → Word} {mem : Nat → Byte} {a : Nat}

/-- A byte no store covers keeps its value. -/
theorem applyStores_of_not_covered {l : List LsqEntry}
    (h : ∀ st ∈ l, ¬ ((addr st).toNat ≤ a ∧ a < (addr st).toNat + 4)) :
    applyStores addr data mem l a = mem a := by
  induction l generalizing mem with
  | nil => rfl
  | cons st l ih =>
    obtain ⟨hst, hl⟩ := List.forall_mem_cons.1 h
    exact (ih hl).trans (if_neg hst)

/-- A byte is its lane of the last store that covers it. -/
theorem applyStores_of_last {l l' : List LsqEntry} {f : LsqEntry}
    (hf : (addr f).toNat ≤ a ∧ a < (addr f).toNat + 4)
    (h : ∀ st ∈ l', ¬ ((addr st).toNat ≤ a ∧ a < (addr st).toNat + 4)) :
    applyStores addr data mem (l ++ f :: l') a = byteLane (data f) (a - (addr f).toNat) := by
  rw [applyStores, List.foldl_append]
  exact (applyStores_of_not_covered h).trans (if_pos hf)

/-- In order of age, a byte is its lane of a store that covers it when no younger one does. -/
theorem applyStores_of_youngest {key : LsqEntry → Nat} {order : List LsqEntry} {f : LsqEntry}
    (hmem : f ∈ order) (horder : order.Pairwise fun p q => key p < key q)
    (hf : (addr f).toNat ≤ a ∧ a < (addr f).toNat + 4)
    (h : ∀ st ∈ order, key f < key st → ¬ ((addr st).toNat ≤ a ∧ a < (addr st).toNat + 4)) :
    applyStores addr data mem order a = byteLane (data f) (a - (addr f).toNat) := by
  obtain ⟨l, l', rfl⟩ := List.append_of_mem hmem
  have hyounger := (List.pairwise_cons.1 (List.pairwise_append.1 horder).2.1).1
  exact applyStores_of_last hf fun st hst =>
    h st (List.mem_append_right _ (List.mem_cons_of_mem _ hst)) (hyounger st hst)

end

/-! ### The value of a load -/

/-- A byte load from a memory that agrees with `mem` on its byte. -/
theorem readSized_byte {fill : Word} {m : Memory} {mem : Nat → Byte} {a : Nat}
    (h : m.read fill a = mem a) : m.readSized fill 1 a = (mem a).setWidth 32 :=
  congrArg (BitVec.setWidth 32) h

/-- A word load from a memory that agrees with `mem` on its four bytes. -/
theorem readSized_word {fill : Word} {m : Memory} {mem : Nat → Byte} {a : Nat}
    (h : ∀ b, a ≤ b → b < a + 4 → m.read fill b = mem b) :
    m.readSized fill 4 a = mem (a + 3) ++ mem (a + 2) ++ mem (a + 1) ++ mem a := by
  rw [← h a le_rfl (by omega), ← h (a + 1) (by omega) (by omega), ← h (a + 2) (by omega) (by omega),
    ← h (a + 3) (by omega) (by omega)]
  rfl

/-- The value of a load is read from some memory that, on the bytes of the load, is data memory with the
older stores applied: data memory itself, or one that holds the forwarding store's word. -/
theorem orderedPlan_reads {s : State} {e : LsqEntry} {ea v : Word} {order : List LsqEntry}
    {addr data : LsqEntry → Word} (hplan : orderedPlan s e ea = .value v)
    (hperm : order.Perm (olderStores s e.tag))
    (horder : order.Pairwise fun p q => s.age p.tag < s.age q.tag)
    (haddr : ∀ st ∈ order, ∀ x, lsqAddress st = some x → addr st = x)
    (hdata : ∀ st ∈ order, ∀ d, st.data = .value d → data st = d) :
    ∃ m : Memory, v = m.readSized s.cfg.initFill (opWidth e.op) ea.toNat ∧
      ∀ a, ea.toNat ≤ a → a < ea.toNat + opWidth e.op →
        m.read s.cfg.initFill a = applyStores addr data s.dmemByte order a := by
  obtain ⟨hknown, hcase⟩ := orderedPlan_eq_value hplan
  have hclear : ∀ st ∈ order, overlapsEntry ea (opWidth e.op) st = false → ∀ a, ea.toNat ≤ a →
      a < ea.toNat + opWidth e.op → ¬ ((addr st).toNat ≤ a ∧ a < (addr st).toNat + 4) := by
    intro st hst hov a hlo hhi
    obtain ⟨x, hx⟩ := hknown st (hperm.mem_iff.1 hst)
    rw [haddr st hst x hx]
    exact not_covers_of_not_overlaps hx hov hlo hhi
  rcases hcase with ⟨hnone, rfl⟩ | ⟨f, x, d, hf, hx, hd, hcont, hlater, rfl⟩
  · refine ⟨s.dmem, rfl, fun a hlo hhi => (applyStores_of_not_covered fun st hst => ?_).symm⟩
    exact hclear st hst (hnone st (hperm.mem_iff.1 hst)) a hlo hhi
  · have hforder := hperm.mem_iff.2 hf
    have hwritten : ∀ a, ea.toNat ≤ a → a < ea.toNat + opWidth e.op →
        x.toNat ≤ a ∧ a < x.toNat + 4 := by
      simp only [containsLoad, Bool.and_eq_true, decide_eq_true_eq] at hcont
      intro a hlo hhi
      omega
    have hlanes : ∀ a, ea.toNat ≤ a → a < ea.toNat + opWidth e.op →
        Memory.read s.cfg.initFill (Memory.writeWord s.cfg.initFill [] x.toNat d) a
          = byteLane d (a - x.toNat) := by
      intro a hlo hhi
      rw [Memory.read_writeWord _ _ _ _ _ rfl, if_pos (hwritten a hlo hhi)]
    refine ⟨_, forwardedValue_eq hcont hlanes, fun a hlo hhi => ?_⟩
    have hfx := haddr f hforder x hx
    rw [hlanes a hlo hhi, applyStores_of_youngest (key := fun p => s.age p.tag) hforder horder
        (hfx ▸ hwritten a hlo hhi), hfx, hdata f hforder d hd]
    intro st hst hage
    exact hclear st hst (hlater st (hperm.mem_iff.1 hst) hage) a hlo hhi

/-- Settles O48: with no overlapping older store the load reads bytes no store changes; else the youngest
that overlaps covers the load and wrote its bytes last. -/
theorem loadSeesOlderStores : Obligations.LoadSeesOlderStores := by
  intro s e v order addr data hplan hperm horder haddr hdata
  obtain ⟨ea, hea, hcheck, hordered⟩ := loadPlan_eq_value hplan
  obtain ⟨base, hbase, rfl⟩ := lsqAddress_eq_some.1 hea
  obtain ⟨halign, hbound⟩ := (accessCheck_eq_none ..).1 hcheck
  have haddr' : ∀ st ∈ order, ∀ x, lsqAddress st = some x → addr st = x := by
    intro st hst x hx
    obtain ⟨b, hb, rfl⟩ := lsqAddress_eq_some.1 hx
    exact haddr st hst b hb
  obtain ⟨m, rfl, hm⟩ := orderedPlan_reads hordered hperm horder haddr' hdata
  refine ⟨base, hbase, ?_⟩
  by_cases hop : e.op = .lbu
  · rw [hop] at hbound hm ⊢
    rw [if_pos rfl]
    exact ⟨hbound, readSized_byte (hm _ le_rfl (Nat.lt_succ_self _))⟩
  · have hw : opWidth e.op = 4 := if_neg hop
    rw [hw] at halign hbound hm ⊢
    rw [if_neg hop]
    exact ⟨halign rfl, hbound, readSized_word hm⟩

end Sys2Proof.Machine
end


-- ==== Sys2Proof/Proofs/WordLayout.lean ====
section
/-! PROOF. The bit layouts of the formats: the fields of a word put together from its parts are those
parts, and a word is put together from its own fields (30 R151 to R165). -/

namespace Sys2Proof

/-- The opcode, `w[6:0]` (30 R151). -/
def opcodeField (w : Word) : BitVec 7 := w.extractLsb' 0 7
/-- funct3, `w[14:12]` (30 R151). -/
def funct3Field (w : Word) : BitVec 3 := w.extractLsb' 12 3
/-- funct7, `w[31:25]` (30 R151). -/
def funct7Field (w : Word) : BitVec 7 := w.extractLsb' 25 7

/-! ### The fields of an encoded word

The layouts are written with their width as a sum, as the library's rules about `++` take them. -/

section
variable (f7 : BitVec 7) (f3 : BitVec 3) (opc : BitVec 7) (rd rs1 rs2 : Reg) (imm : Word)

theorem encodeR_eq_cast : encodeR f7 f3 opc rd rs1 rs2 =
    (f7 ++ rs2 ++ rs1 ++ f3 ++ rd ++ opc).cast (rfl : 7 + 5 + 5 + 3 + 5 + 7 = 32) := rfl

theorem encodeI_eq_cast : encodeI f3 opc rd rs1 imm =
    (imm.extractLsb' 0 12 ++ rs1 ++ f3 ++ rd ++ opc).cast (rfl : 12 + 5 + 3 + 5 + 7 = 32) := rfl

theorem encodeS_eq_cast : encodeS f3 opc rs2 rs1 imm =
    (imm.extractLsb' 5 7 ++ rs2 ++ rs1 ++ f3 ++ imm.extractLsb' 0 5 ++ opc).cast
      (rfl : 7 + 5 + 5 + 3 + 5 + 7 = 32) := rfl

theorem encodeB_eq_cast : encodeB f3 opc rs1 rs2 imm =
    (imm.extractLsb' 12 1 ++ imm.extractLsb' 5 6 ++ rs2 ++ rs1 ++ f3 ++ imm.extractLsb' 1 4
      ++ imm.extractLsb' 11 1 ++ opc).cast (rfl : 1 + 6 + 5 + 5 + 3 + 4 + 1 + 7 = 32) := rfl

theorem encodeU_eq_cast : encodeU opc rd imm =
    (imm.extractLsb' 12 20 ++ rd ++ opc).cast (rfl : 20 + 5 + 7 = 32) := rfl

theorem encodeJ_eq_cast : encodeJ opc rd imm =
    (imm.extractLsb' 20 1 ++ imm.extractLsb' 1 10 ++ imm.extractLsb' 11 1 ++ imm.extractLsb' 12 8
      ++ rd ++ opc).cast (rfl : 1 + 10 + 1 + 8 + 5 + 7 = 32) := rfl

theorem encodeIShift_eq_encodeR : encodeIShift f7 f3 opc rd rs1 imm =
    encodeR f7 f3 opc rd rs1 (imm.extractLsb' 0 5) := rfl

@[simp] theorem encodeR_fields :
    opcodeField (encodeR f7 f3 opc rd rs1 rs2) = opc ∧
    funct3Field (encodeR f7 f3 opc rd rs1 rs2) = f3 ∧
    funct7Field (encodeR f7 f3 opc rd rs1 rs2) = f7 ∧
    rdField (encodeR f7 f3 opc rd rs1 rs2) = rd ∧
    rs1Field (encodeR f7 f3 opc rd rs1 rs2) = rs1 ∧
    rs2Field (encodeR f7 f3 opc rd rs1 rs2) = rs2 := by
  simp [encodeR_eq_cast, opcodeField, funct3Field, funct7Field, rdField, rs1Field, rs2Field,
    BitVec.extractLsb'_append_eq_of_le, BitVec.extractLsb'_append_eq_of_add_le, -Nat.reduceAdd]

@[simp] theorem encodeI_fields :
    opcodeField (encodeI f3 opc rd rs1 imm) = opc ∧ funct3Field (encodeI f3 opc rd rs1 imm) = f3 ∧
    rdField (encodeI f3 opc rd rs1 imm) = rd ∧ rs1Field (encodeI f3 opc rd rs1 imm) = rs1 ∧
    immI (encodeI f3 opc rd rs1 imm) = (imm.extractLsb' 0 12).signExtend 32 := by
  simp [encodeI_eq_cast, opcodeField, funct3Field, rdField, rs1Field, immI,
    BitVec.extractLsb'_append_eq_of_le, BitVec.extractLsb'_append_eq_of_add_le, -Nat.reduceAdd]

@[simp] theorem encodeIShift_fields :
    opcodeField (encodeIShift f7 f3 opc rd rs1 imm) = opc ∧
    funct3Field (encodeIShift f7 f3 opc rd rs1 imm) = f3 ∧
    funct7Field (encodeIShift f7 f3 opc rd rs1 imm) = f7 ∧
    rdField (encodeIShift f7 f3 opc rd rs1 imm) = rd ∧
    rs1Field (encodeIShift f7 f3 opc rd rs1 imm) = rs1 ∧
    shamtField (encodeIShift f7 f3 opc rd rs1 imm) = (imm.extractLsb' 0 5).setWidth 32 := by
  obtain ⟨hopc, h3, h7, hrd, hrs1, hrs2⟩ := encodeR_fields f7 f3 opc rd rs1 (imm.extractLsb' 0 5)
  exact ⟨hopc, h3, h7, hrd, hrs1, congrArg (BitVec.setWidth 32) hrs2⟩

@[simp] theorem encodeS_fields :
    opcodeField (encodeS f3 opc rs2 rs1 imm) = opc ∧ funct3Field (encodeS f3 opc rs2 rs1 imm) = f3 ∧
    rs1Field (encodeS f3 opc rs2 rs1 imm) = rs1 ∧ rs2Field (encodeS f3 opc rs2 rs1 imm) = rs2 ∧
    immS (encodeS f3 opc rs2 rs1 imm) = (imm.extractLsb' 0 12).signExtend 32 := by
  simp only [encodeS_eq_cast, opcodeField, funct3Field, rs1Field, rs2Field, immS,
    BitVec.extractLsb'_cast, BitVec.extractLsb'_append_eq_of_le, BitVec.extractLsb'_append_eq_of_add_le,
    BitVec.extractLsb'_eq_self, Nat.reduceLeDiff, Nat.reduceSub, -Nat.reduceAdd, true_and]
  rw [BitVec.extractLsb'_append_extractLsb'_eq_extractLsb' (by decide)]

@[simp] theorem encodeB_fields :
    opcodeField (encodeB f3 opc rs1 rs2 imm) = opc ∧ funct3Field (encodeB f3 opc rs1 rs2 imm) = f3 ∧
    rs1Field (encodeB f3 opc rs1 rs2 imm) = rs1 ∧ rs2Field (encodeB f3 opc rs1 rs2 imm) = rs2 ∧
    immB (encodeB f3 opc rs1 rs2 imm) = (imm.extractLsb' 1 12 ++ 0b0#1).signExtend 32 := by
  simp only [encodeB_eq_cast, opcodeField, funct3Field, rs1Field, rs2Field, immB,
    BitVec.extractLsb'_cast, BitVec.extractLsb'_append_eq_of_le, BitVec.extractLsb'_append_eq_of_add_le,
    BitVec.extractLsb'_eq_self, Nat.reduceLeDiff, Nat.reduceSub, -Nat.reduceAdd, true_and]
  repeat rw [BitVec.extractLsb'_append_extractLsb'_eq_extractLsb' (by decide)]

@[simp] theorem encodeU_fields :
    opcodeField (encodeU opc rd imm) = opc ∧ rdField (encodeU opc rd imm) = rd ∧
    immU (encodeU opc rd imm) = imm.extractLsb' 12 20 ++ 0x000#12 := by
  simp [encodeU_eq_cast, opcodeField, rdField, immU,
    BitVec.extractLsb'_append_eq_of_le, BitVec.extractLsb'_append_eq_of_add_le, -Nat.reduceAdd]

@[simp] theorem encodeJ_fields :
    opcodeField (encodeJ opc rd imm) = opc ∧ rdField (encodeJ opc rd imm) = rd ∧
    immJ (encodeJ opc rd imm) = (imm.extractLsb' 1 20 ++ 0b0#1).signExtend 32 := by
  simp only [encodeJ_eq_cast, opcodeField, rdField, immJ,
    BitVec.extractLsb'_cast, BitVec.extractLsb'_append_eq_of_le, BitVec.extractLsb'_append_eq_of_add_le,
    BitVec.extractLsb'_eq_self, Nat.reduceLeDiff, Nat.reduceSub, -Nat.reduceAdd, true_and]
  repeat rw [BitVec.extractLsb'_append_extractLsb'_eq_extractLsb' (by decide)]

end

/-! ### A word from its own fields -/

/-- The low bits of a sign-extended number are its own. -/
theorem extractLsb'_signExtend {n start len : Nat} (x : BitVec n) (h : start + len ≤ n)
    (hn : n ≤ 32) : (x.signExtend 32).extractLsb' start len = x.extractLsb' start len := by
  ext k hk
  simp [BitVec.getElem_signExtend, show start + k < 32 by omega, show start + k < n by omega]

variable (w : Word)

@[simp] theorem encodeR_self : encodeR (funct7Field w) (funct3Field w) (opcodeField w) (rdField w)
    (rs1Field w) (rs2Field w) = w := by
  unfold encodeR opcodeField funct3Field funct7Field rdField rs1Field rs2Field
  repeat rw [BitVec.extractLsb'_append_extractLsb'_eq_extractLsb' (by decide)]
  exact BitVec.extractLsb'_eq_self

@[simp] theorem encodeI_self :
    encodeI (funct3Field w) (opcodeField w) (rdField w) (rs1Field w) (immI w) = w := by
  unfold encodeI opcodeField funct3Field rdField rs1Field immI
  simp only [extractLsb'_signExtend, BitVec.extractLsb'_eq_self, Nat.reduceLeDiff]
  repeat rw [BitVec.extractLsb'_append_extractLsb'_eq_extractLsb' (by decide)]
  exact BitVec.extractLsb'_eq_self

@[simp] theorem encodeIShift_self : encodeIShift (funct7Field w) (funct3Field w) (opcodeField w)
    (rdField w) (rs1Field w) (shamtField w) = w := by
  have hshamt : (shamtField w).extractLsb' 0 5 = rs2Field w := by
    unfold shamtField rs2Field
    rw [BitVec.extractLsb'_setWidth_of_le (by decide), BitVec.extractLsb'_eq_self]
  rw [encodeIShift_eq_encodeR, hshamt, encodeR_self]

@[simp] theorem encodeS_self :
    encodeS (funct3Field w) (opcodeField w) (rs2Field w) (rs1Field w) (immS w) = w := by
  unfold encodeS opcodeField funct3Field rs1Field rs2Field immS
  simp only [extractLsb'_signExtend, BitVec.extractLsb'_append_eq_of_le,
    BitVec.extractLsb'_append_eq_of_add_le, BitVec.extractLsb'_eq_self, Nat.reduceLeDiff,
    Nat.reduceSub, -Nat.reduceAdd]
  repeat rw [BitVec.extractLsb'_append_extractLsb'_eq_extractLsb' (by decide)]
  exact BitVec.extractLsb'_eq_self

@[simp] theorem encodeB_self :
    encodeB (funct3Field w) (opcodeField w) (rs1Field w) (rs2Field w) (immB w) = w := by
  unfold encodeB opcodeField funct3Field rs1Field rs2Field immB
  simp only [extractLsb'_signExtend, BitVec.extractLsb'_append_eq_of_le,
    BitVec.extractLsb'_append_eq_of_add_le, BitVec.extractLsb'_eq_self, Nat.reduceLeDiff,
    Nat.reduceSub, -Nat.reduceAdd]
  repeat rw [BitVec.extractLsb'_append_extractLsb'_eq_extractLsb' (by decide)]
  exact BitVec.extractLsb'_eq_self

@[simp] theorem encodeU_self : encodeU (opcodeField w) (rdField w) (immU w) = w := by
  unfold encodeU opcodeField rdField immU
  rw [BitVec.extractLsb'_append_eq_left]
  repeat rw [BitVec.extractLsb'_append_extractLsb'_eq_extractLsb' (by decide)]
  exact BitVec.extractLsb'_eq_self

@[simp] theorem encodeJ_self : encodeJ (opcodeField w) (rdField w) (immJ w) = w := by
  unfold encodeJ opcodeField rdField immJ
  simp only [extractLsb'_signExtend, BitVec.extractLsb'_append_eq_of_le,
    BitVec.extractLsb'_append_eq_of_add_le, BitVec.extractLsb'_eq_self, Nat.reduceLeDiff,
    Nat.reduceSub, -Nat.reduceAdd]
  repeat rw [BitVec.extractLsb'_append_extractLsb'_eq_extractLsb' (by decide)]
  exact BitVec.extractLsb'_eq_self

end Sys2Proof
end


-- ==== Sys2Proof/Proofs/Immediates.lean ====
section
/-! PROOF. The immediates a format can hold: the decoder's are in range, and one in range is rebuilt from
the bits the encoder keeps (30 R160 to R165). -/

namespace Sys2Proof

/-! ### What the decoder reads is in range -/

theorem toInt_signExtend_bounds {n : Nat} (x : BitVec n) (hn : n ≤ 32) :
    -2 ^ n ≤ s32 (x.signExtend 32) * 2 ∧ s32 (x.signExtend 32) * 2 < 2 ^ n := by
  rw [s32, BitVec.toInt_signExtend_of_le hn, mul_comm]
  exact ⟨x.le_two_mul_toInt, x.two_mul_toInt_lt⟩

/-- A number ending in a zero bit stays even when sign-extended. -/
theorem toInt_signExtend_concat_zero {n : Nat} (x : BitVec n) (hn : n + 1 ≤ 32) :
    s32 ((x ++ 0#1).signExtend 32) % 2 = 0 := by
  rw [s32, BitVec.toInt_signExtend_of_le hn, BitVec.toInt_append_zero]
  omega

theorem fitsImm12_signExtend (x : BitVec 12) : fitsImm12 (x.signExtend 32) = true := by
  have h := toInt_signExtend_bounds x (by decide)
  simp only [fitsImm12, decide_eq_true_eq]
  omega

theorem fitsImmB_signExtend (x : BitVec 12) :
    fitsImmB ((x ++ 0#1).signExtend 32) = true := by
  have h := toInt_signExtend_bounds (x ++ 0#1) (by decide)
  have heven := toInt_signExtend_concat_zero x (by decide)
  simp only [fitsImmB, decide_eq_true_eq]
  omega

theorem fitsImmJ_signExtend (x : BitVec 20) :
    fitsImmJ ((x ++ 0#1).signExtend 32) = true := by
  have h := toInt_signExtend_bounds (x ++ 0#1) (by decide)
  have heven := toInt_signExtend_concat_zero x (by decide)
  simp only [fitsImmJ, decide_eq_true_eq]
  omega

@[simp] theorem fitsImm12_immI (w : Word) : fitsImm12 (immI w) = true := fitsImm12_signExtend _
@[simp] theorem fitsImm12_immS (w : Word) : fitsImm12 (immS w) = true := fitsImm12_signExtend _
@[simp] theorem fitsImmB_immB (w : Word) : fitsImmB (immB w) = true := fitsImmB_signExtend _
@[simp] theorem fitsImmJ_immJ (w : Word) : fitsImmJ (immJ w) = true := fitsImmJ_signExtend _

@[simp] theorem fitsImmU_immU (w : Word) : fitsImmU (immU w) = true := by
  simp [fitsImmU, immU, Nat.shiftLeft_eq, -Nat.reduceAdd]

@[simp] theorem fitsShamt_shamtField (w : Word) : fitsShamt (shamtField w) = true := by
  have h := (w.extractLsb' 20 5).isLt
  rw [fitsShamt, shamtField, BitVec.toNat_setWidth_of_le (by decide)]
  exact decide_eq_true h

/-! ### An immediate in range from its bits -/

/-- A number in the range of `n` bits is its low `n` bits, sign-extended. -/
theorem signExtend_extractLsb'_of_bounds {n : Nat} {v : Word} (hn : n ≤ 32)
    (hlo : -2 ^ n ≤ s32 v * 2) (hhi : s32 v * 2 < 2 ^ n) :
    (v.extractLsb' 0 n).signExtend 32 = v := by
  apply BitVec.eq_of_toInt_eq
  calc ((v.extractLsb' 0 n).signExtend 32).toInt
      = Int.bmod v.toNat (2 ^ n) := by
        rw [BitVec.toInt_signExtend_of_le hn, ← BitVec.setWidth_eq_extractLsb' hn,
          BitVec.toInt_setWidth]
    _ = v.toInt.bmod (2 ^ n) := by
        rw [BitVec.toInt_eq_toNat_bmod, Int.bmod_bmod_of_dvd (Nat.pow_dvd_pow 2 hn)]
    _ = v.toInt := Int.bmod_eq_of_le_mul_two (by exact_mod_cast hlo) (by exact_mod_cast hhi)

/-- The low bits of a multiple of `2 ^ n` are zero. -/
theorem extractLsb'_eq_zero_of_toNat_mod {n : Nat} {v : Word} (h : v.toNat % 2 ^ n = 0) :
    v.extractLsb' 0 n = 0#n := by
  apply BitVec.eq_of_toNat_eq
  simpa using h

theorem signExtend_imm12 {imm : Word} (h : fitsImm12 imm = true) :
    (imm.extractLsb' 0 12).signExtend 32 = imm := by
  simp only [fitsImm12, decide_eq_true_eq] at h
  exact signExtend_extractLsb'_of_bounds (by decide) (by omega) (by omega)

theorem extractLsb'_zero_one_of_even {v : Word} (h : s32 v % 2 = 0) : v.extractLsb' 0 1 = 0#1 := by
  apply extractLsb'_eq_zero_of_toNat_mod
  rw [s32, BitVec.toInt_eq_toNat_cond] at h
  split at h <;> omega

theorem signExtend_immB {imm : Word} (h : fitsImmB imm = true) :
    (imm.extractLsb' 1 12 ++ 0#1).signExtend 32 = imm := by
  simp only [fitsImmB, decide_eq_true_eq] at h
  obtain ⟨hlo, hhi, heven⟩ := h
  rw [← extractLsb'_zero_one_of_even heven,
    BitVec.extractLsb'_append_extractLsb'_eq_extractLsb' (by decide)]
  exact signExtend_extractLsb'_of_bounds (by decide) (by omega) (by omega)

theorem signExtend_immJ {imm : Word} (h : fitsImmJ imm = true) :
    (imm.extractLsb' 1 20 ++ 0#1).signExtend 32 = imm := by
  simp only [fitsImmJ, decide_eq_true_eq] at h
  obtain ⟨hlo, hhi, heven⟩ := h
  rw [← extractLsb'_zero_one_of_even heven,
    BitVec.extractLsb'_append_extractLsb'_eq_extractLsb' (by decide)]
  exact signExtend_extractLsb'_of_bounds (by decide) (by omega) (by omega)

theorem append_immU {imm : Word} (h : fitsImmU imm = true) : imm.extractLsb' 12 20 ++ 0#12 = imm := by
  simp only [fitsImmU, decide_eq_true_eq] at h
  rw [← extractLsb'_eq_zero_of_toNat_mod (n := 12) h]
  exact BitVec.extractLsb'_append_extractLsb'

theorem setWidth_shamt {shamt : Word} (h : fitsShamt shamt = true) :
    (shamt.extractLsb' 0 5).setWidth 32 = shamt := by
  simp only [fitsShamt, decide_eq_true_eq] at h
  apply BitVec.eq_of_toNat_eq
  simp
  omega

end Sys2Proof
end


-- ==== Sys2Proof/Proofs/OpcodeMap.lean ====
section
/-! PROOF. The opcode map: what its rows fix, that a word belongs to at most one of them, and what the
decoder therefore answers (30 R170, R172, R174). -/

namespace Sys2Proof

/-! ### The bits a format fixes -/

/-- The format fixes funct3 (30 R152 to R159); SYS, which fixes the whole word, is a case of its own. -/
def Format.fixesFunct3 : Format → Bool
  | .r | .i | .iShift | .s | .b => true
  | .u | .j | .sys => false

/-- The format fixes funct7 (30 R152, R154). -/
def Format.fixesFunct7 : Format → Bool
  | .r | .iShift => true
  | .i | .s | .b | .u | .j | .sys => false

/-- The mask of the rows of a format (30 R170). -/
def Format.mask : Format → Word
  | .r | .iShift => 0xfe00707f#32
  | .i | .s | .b => 0x0000707f#32
  | .u | .j => 0x0000007f#32
  | .sys => 0xffffffff#32

/-- Two words agree in the bits the format fixes. -/
structure Format.Agrees (f : Format) (w p : Word) : Prop where
  opcode : opcodeField w = opcodeField p
  funct3 : f.fixesFunct3 = true → funct3Field w = funct3Field p
  funct7 : f.fixesFunct7 = true → funct7Field w = funct7Field p
  whole : f = .sys → w = p

theorem encodeR_fixed_inj {f7 g7 : BitVec 7} {f3 g3 : BitVec 3} {opc opc' : BitVec 7} :
    encodeR f7 f3 opc 0 0 0 = encodeR g7 g3 opc' 0 0 0 ↔ opc = opc' ∧ f3 = g3 ∧ f7 = g7 := by
  refine ⟨fun h => ⟨?_, ?_, ?_⟩, by rintro ⟨rfl, rfl, rfl⟩; rfl⟩
  · simpa using congrArg opcodeField h
  · simpa using congrArg funct3Field h
  · simpa using congrArg funct7Field h

/-- A mask that leaves out the register fields acts on each of the other fields. -/
theorem and_encodeR (w : Word) (m7 : BitVec 7) (m3 : BitVec 3) (mo : BitVec 7) :
    w &&& encodeR m7 m3 mo 0 0 0 =
      encodeR (funct7Field w &&& m7) (funct3Field w &&& m3) (opcodeField w &&& mo) 0 0 0 := by
  conv_lhs => rw [← encodeR_self w]
  unfold encodeR
  repeat rw [BitVec.and_append]
  simp

theorem Format.agrees_iff (f : Format) (w p : Word) : f.Agrees w p ↔
    opcodeField w = opcodeField p ∧
    (f.fixesFunct3 = true → funct3Field w = funct3Field p) ∧
    (f.fixesFunct7 = true → funct7Field w = funct7Field p) ∧ (f = .sys → w = p) :=
  ⟨fun ⟨ho, h3, h7, hw⟩ => ⟨ho, h3, h7, hw⟩, fun ⟨ho, h3, h7, hw⟩ => ⟨ho, h3, h7, hw⟩⟩

/-- The mask of a format selects the bits it fixes. -/
theorem Format.and_mask_eq_iff (f : Format) (w p : Word) :
    w &&& f.mask = p &&& f.mask ↔ f.Agrees w p := by
  have hopcode : 0x0000007f#32 = encodeR 0 0 (.allOnes 7) 0 0 0 := rfl
  have hfunct3 : 0x0000707f#32 = encodeR 0 (.allOnes 3) (.allOnes 7) 0 0 0 := rfl
  have hfunct7 : 0xfe00707f#32 = encodeR (.allOnes 7) (.allOnes 3) (.allOnes 7) 0 0 0 := rfl
  have hword : 0xffffffff#32 = .allOnes 32 := rfl
  rw [agrees_iff]
  cases f
  case u | j =>
    simp only [mask, hopcode, and_encodeR, encodeR_fixed_inj, BitVec.and_allOnes]
    simp [fixesFunct3, fixesFunct7]
  case i | s | b =>
    simp only [mask, hfunct3, and_encodeR, encodeR_fixed_inj, BitVec.and_allOnes]
    simp [fixesFunct3, fixesFunct7]
  case r | iShift =>
    simp only [mask, hfunct7, and_encodeR, encodeR_fixed_inj, BitVec.and_allOnes]
    simp [fixesFunct3, fixesFunct7]
  case sys =>
    rw [mask, hword, BitVec.and_allOnes, BitVec.and_allOnes]
    exact ⟨fun h => ⟨congrArg _ h, nofun, nofun, fun _ => h⟩, fun ⟨_, _, _, h⟩ => h rfl⟩

/-! ### The rows -/

theorem opcodeTable_masks : ∀ row ∈ opcodeTable,
    row.mask = row.format.mask ∧ row.pattern &&& row.format.mask = row.pattern := by decide

/-- A word belongs to a row when it agrees with the row's pattern in the bits of the row's format. -/
theorem matches_iff_agrees {row : OpcodeRow} (hrow : row ∈ opcodeTable) (w : Word) :
    w &&& row.mask = row.pattern ↔ row.format.Agrees w row.pattern := by
  obtain ⟨hmask, hpattern⟩ := opcodeTable_masks row hrow
  rw [hmask, ← row.format.and_mask_eq_iff, hpattern]

/-- Two rows differ in a bit that both fix. -/
theorem opcodeTable_disjoint : ∀ row ∈ opcodeTable, ∀ row' ∈ opcodeTable,
    row.pattern &&& row'.mask = row'.pattern &&& row.mask → row = row' := by decide

theorem matching_row_unique {w : Word} {row row' : OpcodeRow} (hrow : row ∈ opcodeTable)
    (hrow' : row' ∈ opcodeTable) (h : w &&& row.mask = row.pattern)
    (h' : w &&& row'.mask = row'.pattern) : row = row' := by
  apply opcodeTable_disjoint row hrow row' hrow'
  rw [← h, ← h', BitVec.and_assoc, BitVec.and_assoc, BitVec.and_comm row.mask]

/-- The row of a mnemonic. -/
def rowOf (op : Op) : OpcodeRow :=
  (opcodeTable.find? fun row => row.op = op).getD ⟨op, .sys, 0, 0⟩

theorem rowOf_mem (op : Op) : rowOf op ∈ opcodeTable := by cases op <;> decide

@[simp] theorem rowOf_op (op : Op) : (rowOf op).op = op := by cases op <;> rfl

/-- Each mnemonic has one row. -/
theorem rowOf_op_of_mem : ∀ row ∈ opcodeTable, rowOf row.op = row := by decide

/-! ### The decoder -/

theorem decode_eq_none_iff (w : Word) :
    decode w = none ↔ ∀ row ∈ opcodeTable, w &&& row.mask ≠ row.pattern := by
  simp [decode, OpcodeRow.matchesWord]

/-- Whichever row the word matches is the one whose operands are read. -/
theorem decode_of_matches {w : Word} {row : OpcodeRow} (hrow : row ∈ opcodeTable)
    (h : w &&& row.mask = row.pattern) : decode w = some (readOperands row.op w) := by
  have hsome : (opcodeTable.find? fun row => row.matchesWord w).isSome = true :=
    List.find?_isSome.2 ⟨row, hrow, by simpa [OpcodeRow.matchesWord] using h⟩
  obtain ⟨row', hfind⟩ := Option.isSome_iff_exists.1 hsome
  have h' := List.find?_some hfind
  have heq := matching_row_unique (List.mem_of_find?_eq_some hfind) hrow
    (by simpa [OpcodeRow.matchesWord] using h') h
  rw [decode, hfind, heq]
  rfl

/-- An admitted word matches the row of a mnemonic, and its operands are read by it. -/
theorem decode_eq_some {w : Word} {i : Instr} (h : decode w = some i) :
    ∃ op, (rowOf op).format.Agrees w (rowOf op).pattern ∧ readOperands op w = i := by
  have hne : decode w ≠ none := by simp [h]
  rw [Ne, decode_eq_none_iff] at hne
  push Not at hne
  obtain ⟨row, hrow, hm⟩ := hne
  rw [decode_of_matches hrow hm, Option.some_inj] at h
  refine ⟨row.op, ?_, h⟩
  rw [rowOf_op_of_mem row hrow]
  exact (matches_iff_agrees hrow w).1 hm

theorem decode_of_agrees {w : Word} {op : Op}
    (h : (rowOf op).format.Agrees w (rowOf op).pattern) : decode w = some (readOperands op w) := by
  simpa using decode_of_matches (rowOf_mem op) ((matches_iff_agrees (rowOf_mem op) w).2 h)

end Sys2Proof
end


-- ==== Sys2Proof/Proofs/Encoding.lean ====
section
/-! PROOF. Encoder and decoder are inverse to each other, and what the decoder answers field by field and
for the words that belong to no row (30 R170 to R174). -/

namespace Sys2Proof.Machine

/-! ### The fields of each format -/

/-- rs1 of a word of the format, 0 where the format has none (30 R172). -/
def rs1Of (f : Format) (w : Word) : Reg :=
  match f with
  | .r | .i | .iShift | .s | .b => rs1Field w
  | .u | .j | .sys => 0

/-- rs2 of a word of the format, 0 where the format has none (30 R172). -/
def rs2Of (f : Format) (w : Word) : Reg :=
  match f with
  | .r | .s | .b => rs2Field w
  | .i | .iShift | .u | .j | .sys => 0

/-- rd of a word of the format, 0 where the format has none (30 R172). -/
def rdOf (f : Format) (w : Word) : Reg :=
  match f with
  | .r | .i | .iShift | .u | .j => rdField w
  | .s | .b | .sys => 0

/-- The immediate of a word of the format, 0 where the format has none (30 R172). -/
def immOf (f : Format) (w : Word) : Word :=
  match f with
  | .i => immI w
  | .iShift => shamtField w
  | .s => immS w
  | .b => immB w
  | .u => immU w
  | .j => immJ w
  | .r | .sys => 0

/-- The range of the format's immediate (30 R160 to R165). -/
def fitsFormat (f : Format) (imm : Word) : Bool :=
  match f with
  | .i | .s => fitsImm12 imm
  | .iShift => fitsShamt imm
  | .b => fitsImmB imm
  | .u => fitsImmU imm
  | .j => fitsImmJ imm
  | .r | .sys => true

/-- The word of the format with the fixed bits of a pattern and the operands given (30 R152 to R159). -/
def assemble (f : Format) (pattern : Word) (rd rs1 rs2 : Reg) (imm : Word) : Word :=
  match f with
  | .r => encodeR (funct7Field pattern) (funct3Field pattern) (opcodeField pattern) rd rs1 rs2
  | .i => encodeI (funct3Field pattern) (opcodeField pattern) rd rs1 imm
  | .iShift =>
    encodeIShift (funct7Field pattern) (funct3Field pattern) (opcodeField pattern) rd rs1 imm
  | .s => encodeS (funct3Field pattern) (opcodeField pattern) rs2 rs1 imm
  | .b => encodeB (funct3Field pattern) (opcodeField pattern) rs1 rs2 imm
  | .u => encodeU (opcodeField pattern) rd imm
  | .j => encodeJ (opcodeField pattern) rd imm
  | .sys => pattern

theorem readOperands_fields (op : Op) (w : Word) :
    instrOp (readOperands op w) = op ∧
    instrRd (readOperands op w) = rdOf (rowOf op).format w ∧
    instrRs1 (readOperands op w) = rs1Of (rowOf op).format w ∧
    instrRs2 (readOperands op w) = rs2Of (rowOf op).format w ∧
    instrImm (readOperands op w) = immOf (rowOf op).format w := by
  cases op <;> exact ⟨rfl, rfl, rfl, rfl, rfl⟩

/-- The encoder follows the pattern and the format of the instruction's row. -/
theorem encode_eq_assemble (i : Instr) :
    encode i = assemble (rowOf (instrOp i)).format (rowOf (instrOp i)).pattern (instrRd i)
      (instrRs1 i) (instrRs2 i) (instrImm i) := by
  cases i <;>
    simp [encode, assemble, instrOp, instrRd, instrRs1, instrRs2, instrImm, rowOf, opcodeTable,
      opcodeRowsImmediate, opcodeRowsRegister, opcodeRowsControlMemory, opcodeRowsMulDivSystem,
      opcodeField, funct3Field, funct7Field]

theorem wellFormed_eq_fitsFormat (i : Instr) :
    i.wellFormed = fitsFormat (rowOf (instrOp i)).format (instrImm i) := by
  cases i <;> rfl

/-! ### Decoding an encoded instruction -/

/-- An assembled word has the fixed bits of its pattern. -/
theorem assemble_agrees (f : Format) (p : Word) (rd rs1 rs2 : Reg) (imm : Word) :
    f.Agrees (assemble f p rd rs1 rs2 imm) p := by
  cases f <;> constructor <;> simp [assemble, Format.fixesFunct3, Format.fixesFunct7]

/-- The operands of a well-formed instruction are the fields of its word. -/
theorem readOperands_encode {i : Instr} (h : i.wellFormed = true) :
    readOperands (instrOp i) (encode i) = i := by
  cases i <;> simp only [Instr.wellFormed] at h <;>
    simp [instrOp, encode, readOperands, h, signExtend_imm12, signExtend_immB, signExtend_immJ,
      append_immU, setWidth_shamt]

theorem decode_encode {i : Instr} (h : i.wellFormed = true) : decode (encode i) = some i := by
  have hagrees : (rowOf (instrOp i)).format.Agrees (encode i) (rowOf (instrOp i)).pattern := by
    rw [encode_eq_assemble]
    exact assemble_agrees ..
  rw [decode_of_agrees hagrees, readOperands_encode h]

/-- The bytes of a word, before any others, are decoded as the word. -/
theorem decodeBytes_bytesOfWord {w : Word} {i : Instr} (h : decode w = some i) (rest : List Byte) :
    decodeBytes (bytesOfWord w ++ rest) = .ok (i, rest) := by
  simp [bytesOfWord, decodeBytes, wordOfBytes_byteLane, h]

/-- Settles O1: the word has the fixed bits of its row, and each field gives its operand back. -/
theorem decodeEncode : Obligations.DecodeEncode := fun _ h =>
  ⟨decode_encode h, decodeBytes_bytesOfWord (decode_encode h)⟩

/-! ### Encoding a decoded word -/

/-- A word is put together from the fixed bits of its pattern and its own fields. -/
theorem assemble_self {f : Format} {w p : Word} (h : f.Agrees w p) :
    assemble f p (rdOf f w) (rs1Of f w) (rs2Of f w) (immOf f w) = w := by
  obtain ⟨hopcode, hfunct3, hfunct7, hwhole⟩ := h
  cases f
  case sys => exact (hwhole rfl).symm
  case r | iShift =>
    simp [assemble, rdOf, rs1Of, rs2Of, immOf, ← hopcode, ← hfunct3 rfl, ← hfunct7 rfl]
  case i | s | b => simp [assemble, rdOf, rs1Of, rs2Of, immOf, ← hopcode, ← hfunct3 rfl]
  case u | j => simp [assemble, rdOf, immOf, ← hopcode]

theorem fitsFormat_immOf (f : Format) (w : Word) : fitsFormat f (immOf f w) = true := by
  cases f <;> simp [fitsFormat, immOf]

/-- Settles O2: the operands read are in range, and they and the row's fixed bits are the whole word. -/
theorem encodeDecode : Obligations.EncodeDecode := by
  intro w i h
  obtain ⟨op, hagrees, rfl⟩ := decode_eq_some h
  obtain ⟨hop, hrd, hrs1, hrs2, himm⟩ := readOperands_fields op w
  rw [wellFormed_eq_fitsFormat, encode_eq_assemble, hop, hrd, hrs1, hrs2, himm]
  exact ⟨fitsFormat_immOf .., assemble_self hagrees⟩

/-! ### The decoded record -/

/-- Settles O5: the record's fields are those of the matching row's format. -/
theorem decodedRecord : Obligations.DecodedRecord := by
  intro w pc target taken
  refine ⟨fun row hrow h => ?_, fun h => ?_⟩
  · obtain ⟨hop, hrd, hrs1, hrs2, himm⟩ := readOperands_fields row.op w
    rw [decodeRecord, decode_of_matches hrow h, Option.map_some, decodedOf, hop, hrd, hrs1, hrs2, himm,
      rowOf_op_of_mem row hrow]
    cases row.format <;> rfl
  · rw [decodeRecord, (decode_eq_none_iff w).2 h, Option.map_none]

/-! ### The words that belong to no row -/

section
variable {w : Word}

/-- An admitted word has the fixed bits of a row. -/
theorem admitted_agrees (h : decode w ≠ none) :
    ∃ row ∈ opcodeTable, row.format.Agrees w row.pattern := by
  obtain ⟨i, hi⟩ := Option.ne_none_iff_exists'.1 h
  obtain ⟨op, hagrees, -⟩ := decode_eq_some hi
  exact ⟨rowOf op, rowOf_mem op, hagrees⟩

/-- An admitted word has the opcode of a row. -/
theorem admitted_opcode {allowed : List (BitVec 7)}
    (table : ∀ row ∈ opcodeTable, opcodeField row.pattern ∈ allowed) (h : decode w ≠ none) :
    opcodeField w ∈ allowed := by
  obtain ⟨row, hrow, hagrees⟩ := admitted_agrees h
  exact hagrees.opcode ▸ table row hrow

theorem admitted_lowBits (h : decode w ≠ none) : w.extractLsb' 0 2 = 0b11#2 := by
  have table : ∀ row ∈ opcodeTable, (opcodeField row.pattern).extractLsb' 0 2 = 0b11#2 := by decide
  obtain ⟨row, hrow, hagrees⟩ := admitted_agrees h
  have hlow : (opcodeField w).extractLsb' 0 2 = w.extractLsb' 0 2 :=
    BitVec.extractLsb'_extractLsb'_of_le (by decide)
  rw [← hlow, hagrees.opcode, table row hrow]

/-- Under an opcode whose rows all fix funct3, an admitted word has the funct3 of one of them. -/
theorem admitted_funct3 {opc : BitVec 7} {allowed : List (BitVec 3)}
    (table : ∀ row ∈ opcodeTable, opcodeField row.pattern = opc →
      row.format.fixesFunct3 = true ∧ funct3Field row.pattern ∈ allowed)
    (hopc : opcodeField w = opc) (h : decode w ≠ none) : funct3Field w ∈ allowed := by
  obtain ⟨row, hrow, hagrees⟩ := admitted_agrees h
  obtain ⟨hfixes, hmem⟩ := table row hrow (hagrees.opcode ▸ hopc)
  exact hagrees.funct3 hfixes ▸ hmem

/-- The same for funct7, under an opcode and a funct3. -/
theorem admitted_funct7 {opc : BitVec 7} {f3 : BitVec 3} {allowed : List (BitVec 7)}
    (table : ∀ row ∈ opcodeTable, opcodeField row.pattern = opc → row.format.fixesFunct3 = true ∧
      (funct3Field row.pattern = f3 →
        row.format.fixesFunct7 = true ∧ funct7Field row.pattern ∈ allowed))
    (hopc : opcodeField w = opc) (hf3 : funct3Field w = f3) (h : decode w ≠ none) :
    funct7Field w ∈ allowed := by
  obtain ⟨row, hrow, hagrees⟩ := admitted_agrees h
  obtain ⟨hfixes3, htable⟩ := table row hrow (hagrees.opcode ▸ hopc)
  obtain ⟨hfixes7, hmem⟩ := htable (hagrees.funct3 hfixes3 ▸ hf3)
  exact hagrees.funct7 hfixes7 ▸ hmem

/-- Under OP, funct7 is one of three, and 0100000 only with the funct3 of SUB or SRA. -/
theorem admitted_op (hopc : opcodeField w = 0b0110011#7) (h : decode w ≠ none) :
    funct7Field w ∈ [0b0000000#7, 0b0100000#7, 0b0000001#7] ∧
    (funct7Field w = 0b0100000#7 → funct3Field w ∈ [0b000#3, 0b101#3]) := by
  have table : ∀ row ∈ opcodeTable, opcodeField row.pattern = 0b0110011#7 → row.format = .r ∧
      funct7Field row.pattern ∈ [0b0000000#7, 0b0100000#7, 0b0000001#7] ∧
      (funct7Field row.pattern = 0b0100000#7 →
        funct3Field row.pattern ∈ [0b000#3, 0b101#3]) := by decide
  obtain ⟨row, hrow, hagrees⟩ := admitted_agrees h
  obtain ⟨hformat, hfuncts⟩ := table row hrow (hagrees.opcode ▸ hopc)
  rw [hformat] at hagrees
  rwa [hagrees.funct3 rfl, hagrees.funct7 rfl]

theorem admitted_system (hopc : opcodeField w = 0b1110011#7) (h : decode w ≠ none) :
    w = 0x00100073#32 := by
  have table : ∀ row ∈ opcodeTable, opcodeField row.pattern = 0b1110011#7 →
      row.format = .sys ∧ row.pattern = 0x00100073#32 := by decide
  obtain ⟨row, hrow, hagrees⟩ := admitted_agrees h
  obtain ⟨hformat, hpattern⟩ := table row hrow (hagrees.opcode ▸ hopc)
  exact (hagrees.whole hformat).trans hpattern

end

/-- Settles O3: each kind of word listed lacks what the admitted words of its opcode have. -/
theorem decodeErrorSpace : Obligations.DecodeErrorSpace := by
  intro w opcode funct3 funct7
  refine ⟨decode_eq_none_iff w, ?lowBits, ?opcode, ?branch, ?jalr, ?load, ?store, ?shiftLeft,
    ?shiftRight, ?op, ?op32, ?system, by decide⟩
  case lowBits => exact fun hw => by_contra fun h => hw (admitted_lowBits h)
  case opcode => exact fun hw => by_contra fun h => hw (admitted_opcode (by decide) h)
  case branch =>
    have disjoint : ∀ f ∈ [0b000#3, 0b001#3, 0b100#3, 0b101#3, 0b110#3, 0b111#3],
        f ∉ [0b010#3, 0b011#3] := by decide
    exact fun hopc hw => by_contra fun h => disjoint _ (admitted_funct3 (by decide) hopc h) hw
  case jalr =>
    exact fun hopc hw => by_contra fun h => hw
      (List.mem_singleton.1 (admitted_funct3 (by decide) hopc h))
  case load => exact fun hopc hw => by_contra fun h => hw (admitted_funct3 (by decide) hopc h)
  case store =>
    exact fun hopc hw => by_contra fun h => hw
      (List.mem_singleton.1 (admitted_funct3 (by decide) hopc h))
  case shiftLeft =>
    exact fun hopc hf3 hw => by_contra fun h => hw
      (List.mem_singleton.1 (admitted_funct7 (by decide) hopc hf3 h))
  case shiftRight =>
    exact fun hopc hf3 hw => by_contra fun h => hw (admitted_funct7 (by decide) hopc hf3 h)
  case op => exact fun hopc hw => by_contra fun h => hw (admitted_op hopc h).1
  case op32 => exact fun hopc hf7 hw => by_contra fun h => hw ((admitted_op hopc h).2 hf7)
  case system => exact fun hopc hw => by_contra fun h => hw (admitted_system hopc h)

/-- Settles O4: each word by evaluation of the decoder. -/
theorem knownWords : Obligations.KnownWords := by
  unfold Obligations.KnownWords
  decide

end Sys2Proof.Machine
end


-- ==== Sys2Proof/Proofs/Completion.lean ====
section
/-! PROOF. The state a completed instruction leaves is the one `Completes` describes (60 R610, 10 R31). -/

namespace Sys2Proof.Machine

/-- The retire event carries the value exactly when the destination is a register other than x0. -/
theorem destOf_map {α : Type} (rd : Reg) (v : α) :
    ((destOf rd).map fun _ => v) = if rd = 0 then none else some v := by
  by_cases h : rd = 0
  · rw [h, destOf_zero, if_pos rfl]; rfl
  · rw [destOf_of_ne h, if_neg h]; rfl

/-- Completing an instruction of a running core writes `rd`, emits its event and moves the pc; memory,
halt status and parameters stay. -/
theorem State.completes_complete {s : State} (hrun : s.halt = .running) (rd : Reg) (v next : Word) :
    Completes s (s.complete (destOf rd) v next) rd v next s.dmemByte where
  regs q := s.reg_complete rd q v next
  dmem _ := rfl
  pc := s.pcA_complete (destOf rd) v next hrun
  retired := by rw [retired_complete, destOf_map]
  halt := rfl
  imem := rfl
  cfg := rfl

end Sys2Proof.Machine
end


-- ==== Sys2Proof/Proofs/IntegerResults.lean ====
section
/-! PROOF. What each integer instruction writes (40 R200 to R222): one rule for all of them, and their
comparisons and shifts in integers. -/

namespace Sys2Proof.Machine

/-! ### One rule for every integer instruction -/

/-- An instruction of the ALU's computational kind completes with its integer result; an operand its
format has no field for is read from x0. -/
theorem exec_eq_completeInteger (i : Instr) (s : State) (h : opKind (instrOp i) = .alu) :
    exec i s = completeInteger (instrOp i) (instrRd i) (s.reg (instrRs1 i)) (s.reg (instrRs2 i))
      (instrImm i) s := by
  cases i with
  | jal | jalr | beq | bne | blt | bge | bltu | bgeu | lw | lbu | sw | mul | mulh | mulhsu | mulhu
  | div | divu | rem | remu | ebreak => exact nomatch h
  | _ => rfl

/-- The result may be given in any form `v` equal to `integerValue`. -/
theorem exec_integer_completes (i : Instr) {s : State} {v : Word} (hrun : s.halt = .running)
    (h : opKind (instrOp i) = .alu)
    (hv : integerValue (instrOp i) (s.reg (instrRs1 i)) (s.reg (instrRs2 i)) (instrImm i) s.pcA = v) :
    ∃ t, exec i s = .next t ∧ Completes s t (instrRd i) v (s.pcA + 4) s.dmemByte := by
  subst hv
  exact ⟨_, (exec_eq_completeInteger i s h).trans (completeInteger_eq ..),
    State.completes_complete hrun ..⟩

/-! ### Comparisons and shifts in integers -/

theorem boolWord_ltSigned (a b : Word) :
    boolWord (ltSigned a b) = if a.toInt < b.toInt then 1 else 0 := by
  simp only [boolWord, ltSigned, decide_eq_true_eq]

theorem boolWord_ltUnsigned (a b : Word) :
    boolWord (ltUnsigned a b) = if a.toNat < b.toNat then 1 else 0 := by
  simp only [boolWord, ltUnsigned, decide_eq_true_eq]

/-- A left shift multiplies by a power of two. -/
theorem shiftLeft_eq_ofNat {w : Nat} (x : BitVec w) (n : Nat) :
    x <<< n = BitVec.ofNat w (x.toNat * 2 ^ n) := by
  rw [← Nat.shiftLeft_eq]
  rfl

/-- A logical right shift divides the unsigned value, rounding down. -/
theorem ushiftRight_eq_ofNat {w : Nat} (x : BitVec w) (n : Nat) :
    x >>> n = BitVec.ofNat w (x.toNat / 2 ^ n) := by
  rw [← Nat.shiftRight_eq_div_pow, ← BitVec.toNat_ushiftRight, BitVec.ofNat_toNat,
    BitVec.setWidth_eq]

/-- An arithmetic right shift divides the signed value, rounding down. -/
theorem sshiftRight_eq_ofInt {w : Nat} (x : BitVec w) (n : Nat) :
    x.sshiftRight n = BitVec.ofInt w (x.toInt / 2 ^ n) := by
  rw [BitVec.sshiftRight_eq, Int.shiftRight_eq_div_pow, Nat.cast_pow, Nat.cast_ofNat]

/-- A register shift is by the low five bits of its amount (40 R214). -/
theorem shiftAmount_eq_extractLsb' (b : Word) : shiftAmount b = (b.extractLsb' 0 5).toNat := rfl

/-! ### The statements -/

/-- Settles O6: sums and differences are the words' own. -/
theorem upperImmediateAndAddResults : Obligations.UpperImmediateAndAddResults := by
  intro s rd rs1 rs2 imm hrun
  exact ⟨exec_integer_completes (.lui rd imm) hrun rfl rfl,
    exec_integer_completes (.auipc rd imm) hrun rfl rfl,
    exec_integer_completes (.addi rd rs1 imm) hrun rfl rfl,
    exec_integer_completes (.add rd rs1 rs2) hrun rfl rfl,
    exec_integer_completes (.sub rd rs1 rs2) hrun rfl rfl⟩

/-- Settles O7: the word of a comparison is 1 where the integers compare. -/
theorem compareResults : Obligations.CompareResults := by
  intro s rd rs1 rs2 imm hrun
  exact ⟨exec_integer_completes (.slti rd rs1 imm) hrun rfl (boolWord_ltSigned ..),
    exec_integer_completes (.sltiu rd rs1 imm) hrun rfl (boolWord_ltUnsigned ..),
    exec_integer_completes (.slt rd rs1 rs2) hrun rfl (boolWord_ltSigned ..),
    exec_integer_completes (.sltu rd rs1 rs2) hrun rfl (boolWord_ltUnsigned ..)⟩

/-- Settles O8: the bitwise operations are the words' own. -/
theorem logicalResults : Obligations.LogicalResults := by
  intro s rd rs1 rs2 imm hrun
  exact ⟨exec_integer_completes (.xori rd rs1 imm) hrun rfl rfl,
    exec_integer_completes (.ori rd rs1 imm) hrun rfl rfl,
    exec_integer_completes (.andi rd rs1 imm) hrun rfl rfl,
    exec_integer_completes (.xor rd rs1 rs2) hrun rfl rfl,
    exec_integer_completes (.or rd rs1 rs2) hrun rfl rfl,
    exec_integer_completes (.and rd rs1 rs2) hrun rfl rfl⟩

/-- Settles O9: a shift is a product with a power of two or a quotient by one; no bound on the amount is
needed. -/
theorem shiftImmediateResults : Obligations.ShiftImmediateResults := by
  intro s rd rs1 shamt hrun _
  exact ⟨exec_integer_completes (.slli rd rs1 shamt) hrun rfl (shiftLeft_eq_ofNat ..),
    exec_integer_completes (.srli rd rs1 shamt) hrun rfl (ushiftRight_eq_ofNat ..),
    exec_integer_completes (.srai rd rs1 shamt) hrun rfl (sshiftRight_eq_ofInt ..)⟩

/-- Settles O10: the amount is the low five bits of rs2, and the shifts are those of O9. -/
theorem shiftRegisterResults : Obligations.ShiftRegisterResults := by
  intro s rd rs1 rs2 hrun n
  have hn : shiftAmount (s.reg rs2) = n := shiftAmount_eq_extractLsb' _
  rw [← hn]
  exact ⟨exec_integer_completes (.sll rd rs1 rs2) hrun rfl (shiftLeft_eq_ofNat ..),
    exec_integer_completes (.srl rd rs1 rs2) hrun rfl (ushiftRight_eq_ofNat ..),
    exec_integer_completes (.sra rd rs1 rs2) hrun rfl (sshiftRight_eq_ofInt ..)⟩

end Sys2Proof.Machine
end


-- ==== Sys2Proof/Proofs/ControlResults.lean ====
section
/-! PROOF. What each control transfer does (41 R250 to R258): one rule for all of them, one for the six
branches, and their targets and conditions in integers. -/

namespace Sys2Proof.Machine

/-! ### One rule for every control transfer -/

/-- A branch or jump completes with its link value and its next pc (41 R250); an operand or destination
its format has no field for is x0. -/
theorem exec_eq_completeControl (i : Instr) (s : State)
    (h : opKind (instrOp i) = .branch ∨ opKind (instrOp i) = .jump) :
    exec i s = completeControl (instrOp i) (destOf (instrRd i)) (s.reg (instrRs1 i))
      (s.reg (instrRs2 i)) (instrImm i) s := by
  cases i with
  | jal | jalr | beq | bne | blt | bge | bltu | bgeu => rfl
  | _ => exact h.elim (nomatch ·) (nomatch ·)

section
variable {s : State}

/-- The link value and the next pc may be given in any form equal to the model's. -/
theorem exec_control_completes (i : Instr) {v next : Word} (hrun : s.halt = .running)
    (h : opKind (instrOp i) = .branch ∨ opKind (instrOp i) = .jump)
    (hv : aluValue (instrOp i) (s.reg (instrRs1 i)) (s.reg (instrRs2 i)) (instrImm i) s.pcA = v)
    (hnext : nextPc s.pcA (controlOutcome (instrOp i) (s.reg (instrRs1 i)) (s.reg (instrRs2 i))
      (instrImm i) s.pcA) = next) :
    ∃ t, exec i s = .next t ∧ Completes s t (instrRd i) v next s.dmemByte := by
  subst hv hnext
  exact ⟨_, (exec_eq_completeControl i s h).trans (completeControl_eq ..),
    State.completes_complete hrun ..⟩

/-- A branch writes no register and goes to its target when its condition holds (41 R253 to R258), in
any form `taken` of the condition. -/
theorem exec_branch_completes (i : Instr) {taken : Prop} [Decidable taken]
    (hrun : s.halt = .running) (h : opKind (instrOp i) = .branch)
    (hcond : branchCondition (instrOp i) (s.reg (instrRs1 i)) (s.reg (instrRs2 i)) = true ↔ taken) :
    ∃ t, exec i s = .next t ∧
      Completes s t 0 0 (if taken then s.pcA + instrImm i else s.pcA + 4) s.dmemByte := by
  rw [← if_congr hcond rfl rfl]
  cases i with
  | beq | bne | blt | bge | bltu | bgeu => exact exec_control_completes _ hrun (.inl h) rfl rfl
  | _ => exact nomatch h

end

/-! ### Targets and conditions in integers -/

/-- Clearing bit 0 halves the unsigned value, rounding down, and doubles it (41 R252). -/
theorem and_not_one_eq_ofNat (x : Word) :
    x &&& ~~~1#32 = BitVec.ofNat 32 (2 * (x.toNat / 2)) := by
  calc x &&& ~~~1#32
      = x &&& BitVec.allOnes 32 <<< 1 := rfl
    _ = (x >>> 1) <<< 1 := BitVec.shiftLeft_ushiftRight.symm
    _ = BitVec.ofNat 32 (2 * (x.toNat / 2)) := by
        rw [shiftLeft_eq_ofNat, BitVec.toNat_ushiftRight, Nat.shiftRight_eq_div_pow, pow_one,
          mul_comm]

theorem ltSigned_iff (a b : Word) : ltSigned a b = true ↔ a.toInt < b.toInt := decide_eq_true_iff

theorem ltUnsigned_iff (a b : Word) : ltUnsigned a b = true ↔ a.toNat < b.toNat :=
  decide_eq_true_iff

theorem not_ltSigned_iff (a b : Word) : (!ltSigned a b) = true ↔ b.toInt ≤ a.toInt := by
  rw [Bool.not_eq_true', ← Bool.not_eq_true, ltSigned_iff, not_lt]

theorem not_ltUnsigned_iff (a b : Word) : (!ltUnsigned a b) = true ↔ b.toNat ≤ a.toNat := by
  rw [Bool.not_eq_true', ← Bool.not_eq_true, ltUnsigned_iff, not_lt]

/-! ### The statements -/

/-- Settles O11: both link to pc + 4; JALR's target is the even part of its sum. -/
theorem jumpResults : Obligations.JumpResults := by
  intro s rd rs1 imm hrun
  exact ⟨exec_control_completes (.jal rd imm) hrun (.inr rfl) rfl rfl,
    exec_control_completes (.jalr rd rs1 imm) hrun (.inr rfl) rfl (and_not_one_eq_ofNat _)⟩

/-- Settles O12: one rule for the six branches, each with its condition in integers. -/
theorem branchResults : Obligations.BranchResults := by
  intro s rs1 rs2 imm hrun
  exact ⟨exec_branch_completes (.beq rs1 rs2 imm) hrun rfl decide_eq_true_iff,
    exec_branch_completes (.bne rs1 rs2 imm) hrun rfl decide_eq_true_iff,
    exec_branch_completes (.blt rs1 rs2 imm) hrun rfl (ltSigned_iff ..),
    exec_branch_completes (.bge rs1 rs2 imm) hrun rfl (not_ltSigned_iff ..),
    exec_branch_completes (.bltu rs1 rs2 imm) hrun rfl (ltUnsigned_iff ..),
    exec_branch_completes (.bgeu rs1 rs2 imm) hrun rfl (not_ltUnsigned_iff ..)⟩

end Sys2Proof.Machine
end


-- ==== Sys2Proof/Proofs/LoadStoreResults.lean ====
section
/-! PROOF. What each load and store does (42 R281 to R283): the checks in order, the stop of a failed
one, the value loaded in integers, and the bytes stored. -/

namespace Sys2Proof.Machine

/-! ### The checks, and the stop of a failed one -/

/-- Alignment is checked first: a misaligned word access fails as such, wherever it is (20 R107). -/
theorem accessCheck_of_misaligned {ea : Word} (h : ea.toNat % 4 ≠ 0) (cfg : Config) (hit : Access) :
    accessCheck cfg hit 4 ea = some (.misalignedAccess hit) := if_pos ⟨rfl, h⟩

/-- Past its alignment check, an access that ends beyond the memory fails as out of bounds
(20 R108). -/
theorem accessCheck_of_outOfBounds {cfg : Config} {n : Nat} {ea : Word}
    (halign : n = 4 → ea.toNat % 4 = 0) (h : cfg.memBytes < ea.toNat + n) (hit : Access) :
    accessCheck cfg hit n ea = some (boundsKind hit) := by
  rw [accessCheck, if_neg fun hmis => hmis.2 (halign hmis.1), outOfBounds, decide_eq_true h,
    if_pos rfl]

section
variable {s : State} {ea : Word} {k : FaultKind}

/-- A load whose access fails its check stops the core with that fault and changes nothing else. -/
theorem completeLoad_of_fault {op : Op} (h : accessCheck s.cfg .load (opWidth op) ea = some k)
    (rd : Reg) : completeLoad op rd ea s = .next (s.raise k s.pcA ea) := by
  rw [completeLoad, h]

/-- A store whose access fails its check stops the core with that fault and changes nothing else. -/
theorem completeStore_of_fault (h : accessCheck s.cfg .store 4 ea = some k) (v : Word) :
    completeStore ea v s = .next (s.raise k s.pcA ea) := by
  rw [completeStore, h]

end

/-! ### The value loaded and the bytes stored -/

/-- Appending low bits multiplies the unsigned value by a power of two and adds theirs. -/
theorem toNat_append_eq_mul_add {m n : Nat} (x : BitVec m) (y : BitVec n) :
    (x ++ y).toNat = x.toNat * 2 ^ n + y.toNat := by
  rw [BitVec.toNat_append, ← Nat.shiftLeft_add_eq_or_of_lt y.isLt, Nat.shiftLeft_eq]

/-- The little-endian word in integers (20 R104). -/
theorem wordOfBytes_eq_ofNat (b0 b1 b2 b3 : Byte) :
    wordOfBytes b0 b1 b2 b3 =
      BitVec.ofNat 32 (b0.toNat + 256 * b1.toNat + 65536 * b2.toNat + 16777216 * b3.toNat) := by
  apply BitVec.eq_of_toNat_eq
  simp only [wordOfBytes, toNat_append_eq_mul_add, BitVec.toNat_ofNat]
  omega

/-- The byte zero-extended, in integers (20 R106). -/
theorem loadFromMemory_lbu (s : State) (ea : Word) :
    loadFromMemory s .lbu ea = BitVec.ofNat 32 (s.dmemByte ea.toNat).toNat := by
  rw [BitVec.ofNat_toNat]
  rfl

/-- LW reads the word of the four bytes from its address. -/
theorem loadFromMemory_lw (s : State) (ea : Word) :
    loadFromMemory s .lw ea = wordOfBytes (s.dmemByte ea.toNat) (s.dmemByte (ea.toNat + 1))
      (s.dmemByte (ea.toNat + 2)) (s.dmemByte (ea.toNat + 3)) := rfl

/-- Completing a store writes no register and emits an event without value; memory is `s`'s with the
word written over its four bytes. -/
theorem State.completes_store {s : State} (hrun : s.halt = .running)
    (hwf : s.dmem.wf s.cfg.initFill = true) (ea v next : Word) :
    Completes s { s.complete none 0 next with dmem := s.dmemStore ea v } 0 0 next
      (overlayWord s.dmemByte ea v) :=
  { s.completes_complete hrun 0 0 next with
    dmem := fun a => Memory.read_writeWord _ _ _ a v hwf }

/-! ### The statements -/

/-- Settles O13: each check that fails is the first that does, and with none failing the load
completes with the bytes at ea. -/
theorem loadResults : Obligations.LoadResults := by
  intro s rd rs1 imm hrun ea
  refine ⟨fun hmis => ?lwMisaligned, fun halign hout => ?lwOutOfBounds, fun halign hin => ?lw,
    fun hout => ?lbuOutOfBounds, fun hin => ?lbu⟩
  case lwMisaligned => exact completeLoad_of_fault (accessCheck_of_misaligned hmis ..) rd
  case lwOutOfBounds =>
    exact completeLoad_of_fault (accessCheck_of_outOfBounds (fun _ => halign) hout _) rd
  case lw =>
    have hcheck : accessCheck s.cfg .load 4 ea = none :=
      (accessCheck_eq_none ..).2 ⟨fun _ => halign, hin⟩
    refine ⟨_, completeLoad_of_check hcheck rd, ?_⟩
    rw [loadFromMemory_lw, wordOfBytes_eq_ofNat]
    exact State.completes_complete hrun ..
  case lbuOutOfBounds =>
    have hcheck : accessCheck s.cfg .load 1 ea = some .outOfBoundsMemoryAccess :=
      accessCheck_of_outOfBounds (by omega) hout .load
    exact completeLoad_of_fault hcheck rd
  case lbu =>
    have hcheck : accessCheck s.cfg .load 1 ea = none :=
      (accessCheck_eq_none ..).2 ⟨by omega, hin⟩
    refine ⟨_, completeLoad_of_check hcheck rd, ?_⟩
    rw [loadFromMemory_lbu]
    exact State.completes_complete hrun ..

/-- Settles O14: the checks as for LW; a store that passes both completes with its word written
over the four bytes at ea. -/
theorem storeResult : Obligations.StoreResult := by
  intro s rs2 rs1 imm hrun hwf ea
  refine ⟨fun hmis => ?misaligned, fun halign hout => ?outOfBounds, fun halign hin => ?stored⟩
  case misaligned => exact completeStore_of_fault (accessCheck_of_misaligned hmis ..) _
  case outOfBounds =>
    exact completeStore_of_fault (accessCheck_of_outOfBounds (fun _ => halign) hout _) _
  case stored =>
    have hcheck : accessCheck s.cfg .store 4 ea = none :=
      (accessCheck_eq_none ..).2 ⟨fun _ => halign, hin⟩
    exact ⟨_, completeStore_of_check hcheck _, State.completes_store hrun hwf ..⟩

end Sys2Proof.Machine
end


-- ==== Sys2Proof/Proofs/MulDivResults.lean ====
section
/-! PROOF. What each multiply and divide instruction writes (43 R300 to R309): one rule for all eight, the
products as words of the 64-bit product, and the quotients and remainders in integers. -/

namespace Sys2Proof.Machine

/-! ### One rule for every multiply and divide instruction -/

theorem exec_eq_completeMulDiv (i : Instr) (s : State) (h : opKind (instrOp i) = .mulDiv) :
    exec i s = completeMulDiv (instrOp i) (instrRd i) (instrRs1 i) (instrRs2 i) s := by
  cases i with
  | mul | mulh | mulhsu | mulhu | div | divu | rem | remu => rfl
  | _ => exact nomatch h

/-- The result may be given in any form `v` equal to `mulDivValue`. -/
theorem exec_mulDiv_completes (i : Instr) {s : State} {v : Word} (hrun : s.halt = .running)
    (h : opKind (instrOp i) = .mulDiv)
    (hv : mulDivValue (instrOp i) (s.reg (instrRs1 i)) (s.reg (instrRs2 i)) = v) :
    ∃ t, exec i s = .next t ∧ Completes s t (instrRd i) v (s.pcA + 4) s.dmemByte := by
  subst hv
  exact ⟨_, (exec_eq_completeMulDiv i s h).trans (completeMulDiv_eq ..),
    State.completes_complete hrun ..⟩

/-- The result may be given by a property `P` of `mulDivValue`. -/
theorem exec_mulDiv_completes_of (i : Instr) {s : State} {P : Word → Prop}
    (hrun : s.halt = .running) (h : opKind (instrOp i) = .mulDiv)
    (hP : P (mulDivValue (instrOp i) (s.reg (instrRs1 i)) (s.reg (instrRs2 i)))) :
    ∃ t v, exec i s = .next t ∧ Completes s t (instrRd i) v (s.pcA + 4) s.dmemByte ∧ P v := by
  obtain ⟨t, hexec, hdone⟩ := exec_mulDiv_completes i hrun h rfl
  exact ⟨t, _, hexec, hdone, hP⟩

/-! ### Products -/

/-- The low word of an integer's 64-bit form is its word (10 R10). -/
theorem extractLsb'_low_ofInt (i : Int) : (BitVec.ofInt 64 i).extractLsb' 0 32 = u32 i := by
  apply BitVec.eq_of_toNat_eq
  rw [BitVec.extractLsb'_toNat, Nat.shiftRight_zero, BitVec.toNat_ofInt, BitVec.toNat_ofInt]
  omega

/-- The high word of an integer's 64-bit form is the word of its quotient by 2^32, rounded down, as the
arithmetic shift of the exact product in R302. -/
theorem extractLsb'_high_ofInt (i : Int) :
    (BitVec.ofInt 64 i).extractLsb' 32 32 = u32 (i / 4294967296) := by
  apply BitVec.eq_of_toNat_eq
  rw [BitVec.extractLsb'_toNat, Nat.shiftRight_eq_div_pow, BitVec.toNat_ofInt, BitVec.toNat_ofInt]
  omega

section
variable (a b : Word)

/-- Extension by zeros keeps the unsigned value, as `signExtend`, by definition, keeps the signed
one. -/
theorem setWidth_eq_ofInt (n : Nat) : b.setWidth n = BitVec.ofInt n b.toNat := by
  rw [BitVec.ofInt_natCast, BitVec.ofNat_toNat]

theorem mulValue_eq_extractLsb' :
    mulValue a b = (a.signExtend 64 * b.signExtend 64).extractLsb' 0 32 := by
  rw [BitVec.signExtend, BitVec.signExtend, ← BitVec.ofInt_mul, extractLsb'_low_ofInt, mulValue]

theorem mulhValue_eq_extractLsb' :
    mulhValue a b = (a.signExtend 64 * b.signExtend 64).extractLsb' 32 32 := by
  rw [BitVec.signExtend, BitVec.signExtend, ← BitVec.ofInt_mul, extractLsb'_high_ofInt, mulhValue]

theorem mulhsuValue_eq_extractLsb' :
    mulhsuValue a b = (a.signExtend 64 * b.setWidth 64).extractLsb' 32 32 := by
  rw [BitVec.signExtend, setWidth_eq_ofInt, ← BitVec.ofInt_mul, extractLsb'_high_ofInt, mulhsuValue]

theorem mulhuValue_eq_extractLsb' :
    mulhuValue a b = (a.setWidth 64 * b.setWidth 64).extractLsb' 32 32 := by
  rw [setWidth_eq_ofInt, setWidth_eq_ofInt, ← BitVec.ofInt_mul, extractLsb'_high_ofInt, mulhuValue]

/-- The low word does not depend on signedness: it is also the word of the unsigned product (43 R301). -/
theorem mulValue_eq_ofNat : mulValue a b = BitVec.ofNat 32 (a.toNat * b.toNat) := by
  calc mulValue a b
      = u32 a.toInt * u32 b.toInt := BitVec.ofInt_mul ..
    _ = a * b := congrArg₂ (· * ·) BitVec.ofInt_toInt BitVec.ofInt_toInt
    _ = BitVec.ofNat 32 (a.toNat * b.toNat) := BitVec.mul_def ..

end

/-! ### Quotients and remainders -/

theorem divOverflows_iff (a b : Word) :
    divOverflows a b = true ↔ a.toInt = -2147483648 ∧ b.toInt = -1 := decide_eq_true_iff

section
variable {a b : Word}

/-! A zero divisor: "quotient = all-ones, remainder = dividend" (43 R305 to R308). -/

theorem divValue_of_eq_zero (hb : b = 0) : divValue a b = 0xffffffff#32 := if_pos hb

theorem divuValue_of_eq_zero (hb : b = 0) : divuValue a b = 0xffffffff#32 := if_pos hb

theorem remValue_of_eq_zero (hb : b = 0) : remValue a b = a := if_pos hb

theorem remuValue_of_eq_zero (hb : b = 0) : remuValue a b = a := if_pos hb

/-! The unsigned ones past that case. -/

theorem toNat_divuValue (hb : b ≠ 0) : (divuValue a b).toNat = a.toNat / b.toNat := by
  rw [divuValue, if_neg hb, ← BitVec.udiv_def, BitVec.toNat_udiv]

theorem toNat_remuValue (hb : b ≠ 0) : (remuValue a b).toNat = a.toNat % b.toNat := by
  rw [remuValue, if_neg hb, ← BitVec.umod_def, BitVec.toNat_umod]

/-! The overflow operands, whose divisor is not zero (43 R305, R307). -/

theorem ne_zero_of_toInt_eq_neg_one (hb : b.toInt = -1) : b ≠ 0 := by
  rintro rfl
  exact absurd hb (by decide)

theorem divValue_of_overflow (ha : a.toInt = -2147483648) (hb : b.toInt = -1) :
    divValue a b = 0x80000000#32 := by
  rw [divValue, if_neg (ne_zero_of_toInt_eq_neg_one hb), if_pos ((divOverflows_iff ..).2 ⟨ha, hb⟩)]

theorem remValue_of_overflow (ha : a.toInt = -2147483648) (hb : b.toInt = -1) :
    remValue a b = 0 := by
  rw [remValue, if_neg (ne_zero_of_toInt_eq_neg_one hb), if_pos ((divOverflows_iff ..).2 ⟨ha, hb⟩)]

/-! The signed ones past both cases: the integer is in the range of a word, so taking the word of it
loses nothing. -/

/-- Only -2^31 by -1 has a quotient out of range. -/
theorem toInt_u32_tdiv (h : ¬(a.toInt = -2147483648 ∧ b.toInt = -1)) :
    (u32 (a.toInt.tdiv b.toInt)).toInt = a.toInt.tdiv b.toInt := by
  have hne : a ≠ BitVec.intMin 32 ∨ b ≠ -1#32 := by
    refine not_and_or.1 fun heq => h ?_
    obtain ⟨rfl, rfl⟩ := heq
    decide
  rw [← BitVec.toInt_sdiv_of_ne_or_ne a b hne, u32, BitVec.ofInt_toInt]

theorem toInt_u32_tmod (a b : Word) :
    (u32 (a.toInt.tmod b.toInt)).toInt = a.toInt.tmod b.toInt := by
  rw [← BitVec.toInt_srem, u32, BitVec.ofInt_toInt]

theorem toInt_divValue (hb : b ≠ 0) (h : ¬(a.toInt = -2147483648 ∧ b.toInt = -1)) :
    (divValue a b).toInt = a.toInt.tdiv b.toInt := by
  rw [divValue, if_neg hb, if_neg (mt (divOverflows_iff ..).1 h), toInt_u32_tdiv h]

theorem toInt_remValue (hb : b ≠ 0) (h : ¬(a.toInt = -2147483648 ∧ b.toInt = -1)) :
    (remValue a b).toInt = a.toInt.tmod b.toInt := by
  rw [remValue, if_neg hb, if_neg (mt (divOverflows_iff ..).1 h), toInt_u32_tmod]

/-! The laws of division (43 R309). -/

theorem divValue_remValue_law (hb : b ≠ 0) (h : ¬(a.toInt = -2147483648 ∧ b.toInt = -1)) :
    a.toInt = b.toInt * (divValue a b).toInt + (remValue a b).toInt ∧
      (remValue a b).toInt.natAbs < b.toInt.natAbs := by
  have hpos : 0 < b.toInt.natAbs := Int.natAbs_pos.2 ((BitVec.toInt_ne (y := 0)).2 hb)
  rw [toInt_divValue hb h, toInt_remValue hb h, Int.natAbs_tmod]
  exact ⟨(Int.mul_tdiv_add_tmod ..).symm, Nat.mod_lt _ hpos⟩

theorem divuValue_remuValue_law (hb : b ≠ 0) :
    a.toNat = b.toNat * (divuValue a b).toNat + (remuValue a b).toNat ∧
      (remuValue a b).toNat < b.toNat := by
  have hpos : 0 < b.toNat := Nat.pos_of_ne_zero ((BitVec.toNat_ne_iff_ne (y := 0)).2 hb)
  rw [toNat_divuValue hb, toNat_remuValue hb]
  exact ⟨(Nat.div_add_mod ..).symm, Nat.mod_lt _ hpos⟩

end

/-! ### The statements -/

/-- Settles O16: each value is its word of the 64-bit product. -/
theorem multiplyResults : Obligations.MultiplyResults := by
  intro s rd rs1 rs2 hrun
  exact ⟨exec_mulDiv_completes (.mul rd rs1 rs2) hrun rfl (mulValue_eq_extractLsb' ..),
    exec_mulDiv_completes (.mulh rd rs1 rs2) hrun rfl (mulhValue_eq_extractLsb' ..),
    exec_mulDiv_completes (.mulhsu rd rs1 rs2) hrun rfl (mulhsuValue_eq_extractLsb' ..),
    exec_mulDiv_completes (.mulhu rd rs1 rs2) hrun rfl (mulhuValue_eq_extractLsb' ..)⟩

/-- Settles O17: the value is `mulDivValue`, and each of its cases has its lemma. -/
theorem divideResults : Obligations.DivideResults := by
  intro s rd rs1 rs2 hrun a b
  have rem_eq : b ≠ 0 → ¬(a.toInt = -2147483648 ∧ b.toInt = -1) →
      (remValue a b).toInt = a.toInt - b.toInt * a.toInt.tdiv b.toInt :=
    fun hb h => (toInt_remValue hb h).trans (Int.tmod_def ..)
  exact ⟨exec_mulDiv_completes_of (.div rd rs1 rs2) hrun rfl
      ⟨divValue_of_eq_zero, divValue_of_overflow, toInt_divValue⟩,
    exec_mulDiv_completes_of (.divu rd rs1 rs2) hrun rfl
      ⟨divuValue_of_eq_zero, toNat_divuValue⟩,
    exec_mulDiv_completes_of (.rem rd rs1 rs2) hrun rfl
      ⟨remValue_of_eq_zero, remValue_of_overflow, rem_eq⟩,
    exec_mulDiv_completes_of (.remu rd rs1 rs2) hrun rfl
      ⟨remuValue_of_eq_zero, toNat_remuValue⟩⟩

/-- Settles O18: the division laws are those of the integers; the signed reading of MUL is its
definition. -/
theorem divisionLaws : Obligations.DivisionLaws := by
  intro a b
  exact ⟨divValue_remValue_law, divuValue_remuValue_law, mulValue_eq_ofNat a b, rfl,
    mulhValue_eq_extractLsb' a b, mulhsuValue_eq_extractLsb' a b, mulhuValue_eq_extractLsb' a b⟩

end Sys2Proof.Machine
end

