-- ==== Sys2Proof/Proofs/SystemResults.lean ====
section
/-! PROOF. What EBREAK does (44 R340): it completes with no destination and its own pc as next pc, and
the core halts. -/

namespace Sys2Proof.Machine

theorem exec_ebreak (s : State) :
    exec .ebreak s = .next { s.complete none 0 s.pcA with halt := .halted } := rfl

/-- Settles O20: the halt changes nothing of what the completion without destination leaves but the
status, and the pc of a halted core is that of its last event. -/
theorem ebreakHalts : Obligations.EbreakHalts := by
  intro s _
  refine ⟨_, exec_ebreak s, ?halt, ?pc, ?regs, ?dmem, ?retired, ?imem, ?cfg⟩
  case halt => rfl
  case pc => exact pcA_ebreak s
  case regs => exact fun q => s.reg_complete_none q 0 s.pcA
  case dmem => exact fun _ => rfl
  case retired => exact retired_complete s none 0 s.pcA
  case imem => exact s.complete_imem none 0 s.pcA
  case cfg => exact s.complete_cfg none 0 s.pcA

end Sys2Proof.Machine
end

