-- ==== Sys2Proof/Proofs/CycleOutcomes.lean ====
section
/-! PROOF. What a clock cycle is when it squashes, halts at commit, or goes on (49 R550, R553, R557),
and what its early stop leaves of the state (60 R603). -/

namespace Sys2Proof.Machine

/-- The early stop leaves predictor, latch, fetch PC and stop flag as they are. -/
theorem withImmediateStop_front (s n : State) :
    (withImmediateStop s n).bp = n.bp ∧ (withImmediateStop s n).fl = n.fl ∧
      (withImmediateStop s n).pcF = n.pcF ∧
      (withImmediateStop s n).fetchStopped = n.fetchStopped := by
  obtain h | ⟨st, -, h⟩ := withImmediateStop_cases s n <;> rw [h] <;> exact ⟨rfl, rfl, rfl, rfl⟩

section
variable {s : State}

theorem step_of_clocked (h : s.Clocked) : step s = .next s.clock := step_at_cycles s h.1 h.2

theorem headEntry_of_retire {r : Retirement} (h : commitDecision s = .retire r) :
    r.entry = s.headEntry := (commitDecision_retire h).2.1

theorem retires_of_retire {r : Retirement} (h : commitDecision s = .retire r) :
    s.retires = true := by
  rw [State.retires, h]

theorem squashes_of_retire {r : Retirement} (h : commitDecision s = .retire r) :
    s.squashes = r.entry.mispredict := by
  rw [State.squashes, h]

theorem flows_iff : s.flows = true ↔ s.squashes = false ∧ s.halts = false := by
  rw [State.flows, Bool.and_eq_true, Bool.not_eq_true', Bool.not_eq_true']

theorem clock_of_squashes (h : s.squashes = true) :
    ∃ r, commitDecision s = .retire r ∧ s.clock = s.squash r := by
  obtain ⟨st, hd, -⟩ | ⟨e, hd, -⟩ | ⟨r, hd, -, hc⟩ | ⟨r, hd, hm, -⟩ | ⟨hd, -⟩ := clock_cases s
  case inr.inr.inl => exact ⟨r, hd, hc⟩
  case inr.inr.inr.inl => rw [squashes_of_retire hd, hm] at h; cases h
  all_goals rw [State.squashes, hd] at h; cases h

theorem clock_of_halts (h : s.halts = true) :
    (∃ st, s.clock = s.haltOnFault st) ∨ ∃ e, s.clock = s.haltOnEbreak e := by
  obtain ⟨st, -, hc⟩ | ⟨e, -, hc⟩ | ⟨r, hd, -, -⟩ | ⟨r, hd, -, -⟩ | ⟨hd, -⟩ := clock_cases s
  case inl => exact .inl ⟨st, hc⟩
  case inr.inl => exact .inr ⟨e, hc⟩
  all_goals rw [State.halts, hd] at h; cases h

theorem clock_of_flows (h : s.flows = true) :
    ∃ r, Retires s r ∧ s.clock = withImmediateStop s (s.advance r) := by
  obtain ⟨hsq, hh⟩ := flows_iff.1 h
  obtain ⟨st, hd, -⟩ | ⟨e, hd, -⟩ | ⟨r, hd, hm, -⟩ | ⟨r, hd, -, hc⟩ | ⟨-, hc⟩ := clock_cases s
  · rw [State.halts, hd] at hh; cases hh
  · rw [State.halts, hd] at hh; cases hh
  · rw [squashes_of_retire hd, hm] at hsq; cases hsq
  · exact ⟨some r, fun x hx => Option.some.inj hx ▸ hd, hc⟩
  · exact ⟨none, fun x hx => (Option.some_ne_none x hx.symm).elim, hc⟩

end

end Sys2Proof.Machine
end


-- ==== Sys2Proof/Proofs/FetchPredict.lean ====
section
/-! PROOF. Fetch and the predictor in one cycle (45 R350 to R358): what fetch puts in the latch, when
the fetch PC changes, and the one predictor entry a commit writes. -/

namespace Sys2Proof.Machine

/-! ### The fetch access (45 R351 to R353, R357) -/

section
variable {s : State}

theorem fetchRuns_iff {d : Bool} :
    fetchRuns s d = true ↔ s.fetchStopped = false ∧ (s.fl.valid = false ∨ d = true) := by
  simp [fetchRuns]

theorem fetchCheck_eq_none_iff (cfg : Config) (a : Word) :
    fetchCheck cfg a = none ↔ a.toNat % 4 = 0 ∧ a.toNat + 4 ≤ cfg.memBytes :=
  (accessCheck_eq_none cfg .fetch 4 a).trans (and_congr_left' (forall_prop_of_true rfl))

/-- A failing check puts the fault in the latch, stops fetch and keeps the fetch PC. -/
theorem fetchAccess_of_fault {kind : FaultKind} (h : fetchCheck s.cfg s.pcF = some kind) :
    fetchAccess s =
      { fl := { valid := true, pc := s.pcF, word := 0, fault := some kind, predTaken := false
                predTarget := s.pcF + 4 }
        pcF := s.pcF
        stop := true } := by
  rw [fetchAccess, h]

/-- Past the checks the latch gets the word with its prediction, which is the next fetch PC. -/
theorem fetchAccess_of_check (h : fetchCheck s.cfg s.pcF = none) :
    fetchAccess s =
      { fl := { valid := true, pc := s.pcF, word := s.imemWord s.pcF, fault := none
                predTaken := s.predictsTaken s.pcF, predTarget := s.predictedTarget s.pcF }
        pcF := s.predictedTarget s.pcF
        stop := stopsFetch (s.imemWord s.pcF) } := by
  rw [fetchAccess, h]

theorem counterPredictsTaken_iff (c : Counter) :
    counterPredictsTaken c = true ↔ c = .weaklyTaken ∨ c = .stronglyTaken := by
  cases c <;> decide

theorem predictsTaken_iff (s : State) (a : Word) :
    s.predictsTaken a = true ↔
      ((s.bpEntry a).ctr = .weaklyTaken ∨ (s.bpEntry a).ctr = .stronglyTaken) ∧
        (s.bpEntry a).tag = a >>> s.cfg.bhtLogSize := by
  rw [State.predictsTaken, Bool.and_eq_true, counterPredictsTaken_iff, decide_eq_true_iff, bpTag]

theorem stopsFetch_iff (w : Word) :
    stopsFetch w = true ↔ w = 0x00100073#32 ∨ decode w = none := by
  rw [stopsFetch, Bool.or_eq_true, decide_eq_true_iff, Option.isNone_iff_eq_none, ebreakWord]

/-- The predictor has an entry for every address: the index is below the table's size (10 R47). -/
theorem State.Shape.bp_at_index (h : s.Shape) (pc : Word) :
    s.bp[pc.toNat % 2 ^ s.cfg.bhtLogSize]? = some (s.bpEntry pc) := by
  have hlt : bpIndex s.cfg pc < s.bp.length := h.bp_length ▸ Nat.mod_lt _ (Nat.two_pow_pos _)
  rw [State.bpEntry, List.getD_eq_getElem _ _ hlt]
  exact List.getElem?_eq_getElem hlt

/-! ### Fetch in a cycle (45 R350, R356) -/

/-- In a cycle that goes on, latch, fetch PC and stop flag are those the fetch stage leaves. -/
theorem clock_front_of_flows (h : s.flows = true) :
    s.clock.fl = (fetchStage s s.dispatches).fl ∧ s.clock.pcF = (fetchStage s s.dispatches).pcF ∧
      s.clock.fetchStopped = (fetchStage s s.dispatches).stop := by
  obtain ⟨r, -, hc⟩ := clock_of_flows h
  rw [hc]
  exact (withImmediateStop_front s (s.advance r)).2

theorem clock_front_of_fetchRuns (h : s.flows = true) (hrun : fetchRuns s s.dispatches = true) :
    s.clock.fl = (fetchAccess s).fl ∧ s.clock.pcF = (fetchAccess s).pcF ∧
      s.clock.fetchStopped = (fetchAccess s).stop := by
  have hstage : fetchStage s s.dispatches = fetchAccess s := if_pos hrun
  exact hstage ▸ clock_front_of_flows h

theorem clock_pcF_of_squashes (h : s.squashes = true) : s.clock.pcF = squashPc s.headEntry := by
  obtain ⟨r, hd, hc⟩ := clock_of_squashes h
  rw [hc, State.squash_pcF, headEntry_of_retire hd]

theorem clock_pcF_of_halts (h : s.halts = true) : s.clock.pcF = s.pcF := by
  obtain ⟨st, hc⟩ | ⟨e, hc⟩ := clock_of_halts h
  · rw [hc, State.haltOnFault_pcF]
  · rw [hc, State.haltOnEbreak_pcF]

/-- The fetch stage moves the fetch PC only by a fetch that runs and passes its checks. -/
theorem fetchStage_pcF_of_not_fetches {d : Bool}
    (h : ¬(fetchRuns s d = true ∧ fetchCheck s.cfg s.pcF = none)) :
    (fetchStage s d).pcF = s.pcF := by
  unfold fetchStage
  by_cases hrun : fetchRuns s d = true
  · obtain ⟨kind, hk⟩ := Option.ne_none_iff_exists'.1 fun hc => h ⟨hrun, hc⟩
    rw [if_pos hrun, fetchAccess_of_fault hk]
  · rw [if_neg hrun]

/-! ### The predictor write (45 R354, R358) -/

/-- The entry the commit of `e` writes over `old`. -/
def resolvedEntry (cfg : Config) (e : RobEntry) (old : BpEntry) : BpEntry :=
  { ctr := counterStep e.actTaken old.ctr, tag := bpTag cfg e.pc, target := e.actTarget }

/-- The update writes the resolved entry at the index of the committing pc and nothing else. -/
theorem bpUpdate_getElem? {e : RobEntry} {i : Nat} {old : BpEntry} (h : s.bp[i]? = some old) :
    (bpUpdate s e)[i]? =
      some (if i = bpIndex s.cfg e.pc then resolvedEntry s.cfg e old else old) := by
  obtain ⟨hi, -⟩ := List.getElem?_eq_some_iff.1 h
  by_cases hidx : i = bpIndex s.cfg e.pc
  · have hold : s.bpEntry e.pc = old := by
      rw [State.bpEntry, List.getD_eq_getElem?_getD, ← hidx, h, Option.getD_some]
    rw [if_pos hidx, hidx, bpUpdate, List.getElem?_set_self (hidx ▸ hi), hold, resolvedEntry]
  · rw [if_neg hidx, bpUpdate, List.getElem?_set_ne (Ne.symm hidx), h]

theorem updatesPredictor_iff (cfg : Config) (e : RobEntry) :
    updatesPredictor cfg e = true ↔
      e.mispredict = true ∨
        (cfg.predictorUpdate = .everyResolution ∧ (e.kind = .branch ∨ e.kind = .jump)) := by
  unfold updatesPredictor
  cases cfg.predictorUpdate <;> simp [or_assoc]

/-- The predictor changes by the update of a retiring head that asks for it, in no other cycle. -/
theorem clock_bp (s : State) :
    s.clock.bp = if s.retires = true ∧ updatesPredictor s.cfg s.headEntry = true
      then bpUpdate s s.headEntry else s.bp := by
  obtain ⟨st, hd, hc⟩ | ⟨e, hd, hc⟩ | ⟨r, hd, -, hc⟩ | ⟨r, hd, -, hc⟩ | ⟨hd, hc⟩ := clock_cases s
  · simp [hc, State.retires, hd]
  · simp [hc, State.retires, hd]
  · simp [hc, retires_of_retire hd, headEntry_of_retire hd]
  · simp [hc, withImmediateStop_front, retires_of_retire hd, headEntry_of_retire hd]
  · simp [hc, withImmediateStop_front, State.retires, hd]

theorem clock_bp_length (s : State) : s.clock.bp.length = s.bp.length := by
  rw [clock_bp]
  split_ifs
  · exact List.length_set
  · rfl

theorem clock_bp_getElem? {i : Nat} {old : BpEntry} (h : s.bp[i]? = some old) :
    s.clock.bp[i]? =
      some (if (s.retires = true ∧ updatesPredictor s.cfg s.headEntry = true) ∧
          i = bpIndex s.cfg s.headEntry.pc
        then resolvedEntry s.cfg s.headEntry old else old) := by
  rw [clock_bp]
  by_cases hw : s.retires = true ∧ updatesPredictor s.cfg s.headEntry = true
  · rw [if_pos hw, bpUpdate_getElem? h]
    simp only [hw, true_and, and_self]
  · rw [if_neg hw, if_neg fun hc => hw hc.1, h]

/-! ### Counters (45 R354) -/

theorem counterPredictsTaken_iff_two_le (c : Counter) :
    counterPredictsTaken c = true ↔ 2 ≤ counterValue c := by
  cases c <;> decide

theorem counterValue_le_three (c : Counter) : counterValue c ≤ 3 := by
  cases c <;> decide

/-- One step toward the outcome, saturating, on the numbers of the states. -/
theorem counterValue_counterStep (taken : Bool) (c : Counter) :
    counterValue (counterStep taken c) =
      if taken then min 3 (counterValue c + 1) else counterValue c - 1 := by
  cases taken <;> cases c <;> rfl

theorem counterStep_adjacent (taken : Bool) (c : Counter) :
    counterValue (counterStep taken c) ≤ counterValue c + 1 ∧
      counterValue c ≤ counterValue (counterStep taken c) + 1 := by
  have hle := counterValue_le_three c
  rw [counterValue_counterStep]
  split_ifs <;> omega

end

/-! ### The statements -/

/-- Settles O32: fetch runs, so the latch is what its access writes; the checks decide which of the
three forms that is. -/
theorem fetchFillsTheLatch : Obligations.FetchFillsTheLatch := by
  intro s hclk hshape hflows hstop hlatch
  obtain ⟨hfl, hpc, hst⟩ := clock_front_of_fetchRuns hflows (fetchRuns_iff.2 ⟨hstop, hlatch⟩)
  refine ⟨s.clock, step_of_clocked hclk, fun hmis => ?misaligned,
    fun halign hout => ?outOfBounds, fun halign hin => ?word⟩
  case misaligned =>
    rw [hfl, hpc, hst, fetchAccess_of_fault (accessCheck_of_misaligned hmis s.cfg .fetch)]
    exact ⟨rfl, rfl, rfl⟩
  case outOfBounds =>
    rw [hfl, hpc, hst,
      fetchAccess_of_fault (accessCheck_of_outOfBounds (fun _ => halign) hout .fetch)]
    exact ⟨rfl, rfl, rfl⟩
  case word =>
    rw [hfl, hpc, hst, fetchAccess_of_check ((fetchCheck_eq_none_iff ..).2 ⟨halign, hin⟩)]
    exact ⟨s.bpEntry s.pcF, s.predictsTaken s.pcF, hshape.bp_at_index s.pcF,
      predictsTaken_iff s s.pcF, rfl, rfl, stopsFetch_iff (s.imemWord s.pcF)⟩

/-- Settles O33: a squash redirects fetch, a halt at commit leaves it alone, and in a cycle that goes
on the fetch stage moves the fetch PC exactly by a fetch that runs and passes its checks. -/
theorem fetchPcChanges : Obligations.FetchPcChanges := by
  intro s hclk fetches
  refine ⟨s.clock, step_of_clocked hclk, clock_pcF_of_squashes, ?fetched, ?unchanged⟩
  case fetched =>
    rintro ⟨hflows, hstop, hlatch, halign, hin⟩
    obtain ⟨hfl, hpc, -⟩ := clock_front_of_fetchRuns hflows (fetchRuns_iff.2 ⟨hstop, hlatch⟩)
    rw [hfl, hpc, fetchAccess_of_check ((fetchCheck_eq_none_iff ..).2 ⟨halign, hin⟩)]
    exact ⟨rfl, rfl, rfl⟩
  case unchanged =>
    intro hsq hnot
    cases hh : s.halts with
    | true => exact clock_pcF_of_halts hh
    | false =>
      have hflows : s.flows = true := flows_iff.2 ⟨hsq, hh⟩
      obtain ⟨-, hpc, -⟩ := clock_front_of_flows hflows
      refine hpc.trans <| fetchStage_pcF_of_not_fetches fun ⟨hrun, hcheck⟩ => hnot ?_
      obtain ⟨hstop, hlatch⟩ := fetchRuns_iff.1 hrun
      exact ⟨hflows, hstop, hlatch, (fetchCheck_eq_none_iff ..).1 hcheck⟩

/-- Settles O34: an entry is the old one or, at the retiring head's index, the resolved one, whose
counter is one saturating step away. -/
theorem countersMoveByOneStep : Obligations.CountersMoveByOneStep := by
  refine ⟨counterPredictsTaken_iff_two_le, counterValue_le_three, fun s hclk =>
    ⟨s.clock, step_of_clocked hclk, clock_bp_length s, fun i e f he hf => ?_⟩⟩
  rw [clock_bp_getElem? he, Option.some_inj] at hf
  subst hf
  split_ifs with hw
  · obtain ⟨⟨hretires, -⟩, hi⟩ := hw
    obtain ⟨hup, hdown⟩ := counterStep_adjacent s.headEntry.actTaken e.ctr
    exact ⟨hup, hdown, fun _ => ⟨hretires, hi⟩⟩
  · exact ⟨Nat.le_succ _, Nat.le_succ _, fun hne => absurd rfl hne⟩

/-- Settles O35: the head's own update condition is the statement's, and the update puts the
resolved entry at the head's index. -/
theorem predictorUpdates : Obligations.PredictorUpdates := by
  intro s hclk hshape e writes
  have hwrites : writes ↔ s.retires = true ∧ updatesPredictor s.cfg e = true :=
    and_congr_right' (updatesPredictor_iff s.cfg e).symm
  have hbp := clock_bp s
  refine ⟨s.clock, step_of_clocked hclk, fun hn => ?kept, fun hw => ?written⟩
  case kept => rw [hbp, if_neg (hwrites.not.1 hn)]
  case written =>
    have hold := hshape.bp_at_index e.pc
    rw [if_pos (hwrites.1 hw)] at hbp
    rw [hbp]
    exact ⟨s.bpEntry e.pc, resolvedEntry s.cfg e (s.bpEntry e.pc), hold,
      (bpUpdate_getElem? hold).trans (congrArg some (if_pos rfl)),
      counterValue_counterStep .., rfl, rfl, fun i hi => List.getElem?_set_ne (Ne.symm hi)⟩

/-! ### A correctly predicted branch under EveryResolution (45 R358) -/

/-- A small core under EveryResolution in the cycle in which a not-taken branch at pc 0 retires. -/
def everyResolutionBranch : State :=
  let cfg : Config :=
    { Config.standard with
      robSize := 4, rsSize := 2, lsqSize := 2, bhtLogSize := 2, depthLog := 4, dataBase := 0#32,
      mulStages := 1, divStages := 1, predictorUpdate := .everyResolution }
  steps 3 ((State.initial cfg).withFetchWord 32 (encode (.bne 0 0 8#32)).toNat).atCycles

/-- The branch was predicted right and still moves its counter from weakly to strongly not taken: the
second disjunct of the write condition of `Obligations.PredictorUpdates` is met alone. -/
theorem witness_everyResolutionBranch :
    let s := everyResolutionBranch
    s.Clocked ∧ s.Shape ∧ s.retires = true ∧ s.headEntry.mispredict = false ∧
      s.headEntry.kind = .branch ∧ (s.bpEntry 0).ctr = .weaklyNotTaken ∧
      (s.clock.bpEntry 0).ctr = .stronglyNotTaken :=
  ⟨⟨by decide, by decide⟩, shape_of_check _ (by decide), by decide⟩

end Sys2Proof.Machine
end

