-- ==== Sys2Proof/Proofs/RenameDispatch.lean ====
section
/-! PROOF. Operand resolution and dispatch in one cycle (46 R402 to R413): which value a source
register gives, when dispatch finds its resources, and what it writes or leaves to the other stages. -/

namespace Sys2Proof.Machine

section
variable {s : State}

/-! ### Operand resolution (46 R410, R412) -/

section
variable {b : Option Payload} {r : Reg} {p : Nat}

theorem resolveReg_committed (hr : r ≠ 0) (h : s.rat[r.toNat]'r.isLt = .committed) :
    resolveReg s b r = .value (s.reg r) := by
  simp only [resolveReg, if_neg hr, h]

/-- A renamed register is its producer's value once that is ready, until then a slot that waits on the
producer and sees this cycle's broadcast. -/
theorem resolveReg_pending (hr : r ≠ 0) (h : s.rat[r.toNat]'r.isLt = .pending p) :
    resolveReg s b r =
      if (s.robEntry p).ready then .value (s.robEntry p).value else wakeSlot b (.pending p) := by
  simp only [resolveReg, if_neg hr, h]
  cases b <;> rfl

theorem resolveReg_ready (hr : r ≠ 0) (h : s.rat[r.toNat]'r.isLt = .pending p)
    (hready : (s.robEntry p).ready = true) : resolveReg s b r = .value (s.robEntry p).value := by
  rw [resolveReg_pending hr h, if_pos hready]

theorem wakeSlot_pending_of_ne (h : ∀ q, b = some q → q.tag ≠ p) :
    wakeSlot b (.pending p) = .pending p := by
  cases b with
  | none => rfl
  | some q => rw [wakeSlot_pending, if_neg (h q rfl)]

end

/-! ### The retirement of a cycle -/

/-- The head that retires in this cycle, if one does (49 R541, R542). -/
def State.retirement (s : State) : Option Retirement :=
  match commitDecision s with
  | .retire r => some r
  | .stop _ | .ebreak _ | .wait => none

theorem retires_retirement (s : State) : Retires s s.retirement := by
  intro r hr
  unfold State.retirement at hr
  cases hd : commitDecision s with
  | retire q => rw [hd] at hr; cases hr; rfl
  | _ => rw [hd] at hr; cases hr

theorem isSome_retirement (s : State) : s.retirement.isSome = s.retires := by
  unfold State.retirement State.retires
  cases commitDecision s <;> rfl

theorem retirement_ne_none_iff : s.retirement ≠ none ↔ s.retires = true := by
  rw [← isSome_retirement, Option.isSome_iff_ne_none]

theorem storeFreed_eq (s : State) :
    s.storeFreed = (retiredStore s.retirement).map ReadyStore.index := by
  unfold State.storeFreed State.retirement
  cases commitDecision s <;> rfl

/-- A cycle that goes on leaves the advanced state; its early stop sets the halt status alone. -/
theorem step_of_flows (hclk : s.Clocked) (h : s.flows = true) :
    ∃ halt, step s = .next { s.advance s.retirement with halt := halt } := by
  obtain ⟨hsq, hh⟩ := flows_iff.1 h
  have hclock : s.clock = withImmediateStop s (s.advance s.retirement) := by
    unfold State.retirement
    obtain ⟨st, hd, -⟩ | ⟨e, hd, -⟩ | ⟨r, hd, hm, -⟩ | ⟨r, hd, -, hc⟩ | ⟨hd, hc⟩ := clock_cases s
    · rw [State.halts, hd] at hh; cases hh
    · rw [State.halts, hd] at hh; cases hh
    · rw [squashes_of_retire hd, hm] at hsq; cases hsq
    · rw [hd]; exact hc
    · rw [hd]; exact hc
  rw [step_of_clocked hclk, hclock]
  obtain hn | ⟨st, -, hn⟩ := withImmediateStop_cases s (s.advance s.retirement)
  · exact ⟨(s.advance s.retirement).halt, congrArg _ hn⟩
  · exact ⟨.fatal st.kind st.pc st.addr, congrArg _ hn⟩

/-- The RAT after a cycle: dispatch's rename, which wins over the clear of the retiring head's own
mapping (46 R406, R413, 49 R544). -/
theorem rat_advance_retirement (s : State) (q : Fin 32) :
    (s.advance s.retirement).rat[q] =
      if s.newDest = some (BitVec.ofFin q) then .pending s.robTail
      else if s.retires = true ∧ s.headEntry.dest = some (BitVec.ofFin q) ∧
          s.rat[q] = .pending s.robHead then .committed
      else s.rat[q] := by
  simp only [rat_advance, rat_afterCommit s (retires_retirement s), retirement_ne_none_iff]

/-! ### The queues between wakeup and dispatch (47 R444, R472, R473, 48 R512, R521) -/

/-- Releasing an issue frees its place and no other. -/
theorem releaseRs_getElem?_eq (rs : List RsEntry) (c : Option Issued) (i : Nat) :
    (releaseRs rs c)[i]? = (rs[i]?).map fun e =>
      { e with busy := e.busy && !decide (c.map Issued.index = some i) } := by
  cases c with
  | none => simp [releaseRs]
  | some c =>
    rw [releaseRs_getElem?]
    by_cases h : c.index = i <;> simp [h]

theorem issuedRs_getElem? (s : State) (i : Nat) :
    s.issuedRs[i]? = (s.rs[i]?).map fun e =>
      { wakeRs s.broadcast e with busy := e.busy && !s.issuesFrom i } := by
  simp [State.issuedRs, releaseRs_getElem?_eq, State.issuesFrom, State.broadcast,
    Function.comp_def, Bool.and_assoc]

/-- The load port's turn frees the place of the winning load, or marks that of the losing one. -/
theorem loadPortLsq_getElem? (s : State) (lsq : List LsqEntry) (i : Nat) :
    (loadPortLsq s (signals s) lsq)[i]? = (lsq[i]?).map fun e =>
      { e with
        busy := e.busy && decide (s.loadFreed ≠ some i)
        issued := e.issued || decide (s.loadHeld = some i) } := by
  unfold loadPortLsq State.loadFreed State.loadHeld State.loadRequest
  rw [signals_load]
  cases if s.ldOut.isSome then s.ldOut else selectLoad s with
  | none => simp
  | some l =>
    cases wonBy (signals s).win .load <;>
      by_cases h : l.index = i <;> simp [releaseLsq, h]

theorem portedLsq_getElem? (s : State) (i : Nat) :
    s.portedLsq[i]? = (s.lsq[i]?).map fun e =>
      { wakeLsq s.broadcast e with
        busy := e.busy && decide (s.loadFreed ≠ some i)
        issued := e.issued || decide (s.loadHeld = some i) } := by
  simp [State.portedLsq, loadPortLsq_getElem?, Function.comp_def, State.broadcast]

theorem committedLsq_getElem? (s : State) (i : Nat) :
    (s.committedLsq s.retirement)[i]? = (s.lsq[i]?).map fun e =>
      { wakeLsq s.broadcast e with
        busy := e.busy && decide (s.loadFreed ≠ some i ∧ s.storeFreed ≠ some i)
        issued := e.issued || decide (s.loadHeld = some i) } := by
  rw [storeFreed_eq]
  unfold State.committedLsq
  cases retiredStore s.retirement with
  | none => simp [portedLsq_getElem?]
  | some st =>
    simp only [releaseLsq_getElem?, portedLsq_getElem?, Option.map_map]
    by_cases h : st.index = i <;> simp [h, Function.comp_def]

/-! ### The resources of dispatch (46 R402) -/

theorem freeRs_ne_none_iff : freeRs s ≠ none ↔ ∃ e ∈ s.rs, e.busy = false := by
  simp [freeRs, List.findIdx?_eq_none_iff]

theorem freeLsq_ne_none_iff : freeLsq s ≠ none ↔ ∃ e ∈ s.lsq, e.busy = false := by
  simp [freeLsq, List.findIdx?_eq_none_iff]

theorem busy_of_lt_freeRs {i j : Nat} {f : RsEntry} (h : freeRs s = some i) (hj : j < i)
    (hf : s.rs[j]? = some f) : f.busy = true := by
  obtain ⟨_, -, hlow⟩ := List.findIdx?_eq_some_iff_getElem.1 h
  obtain ⟨-, rfl⟩ := List.getElem?_eq_some_iff.1 hf
  simpa using hlow j hj

theorem busy_of_lt_freeLsq {i j : Nat} {f : LsqEntry} (h : freeLsq s = some i) (hj : j < i)
    (hf : s.lsq[j]? = some f) : f.busy = true := by
  obtain ⟨_, -, hlow⟩ := List.findIdx?_eq_some_iff_getElem.1 h
  obtain ⟨-, rfl⟩ := List.getElem?_eq_some_iff.1 hf
  simpa using hlow j hj

theorem latch_cls {fl : FetchLatch} {d : Decoded} (h : latchMicroOp fl = .instr d) :
    d.cls = opClass d.op := by
  obtain ⟨-, i, -, rfl⟩ := latchMicroOp_instr h
  rfl

/-- A class takes an RS entry, an LSQ entry, or is EBREAK's (46 R403, 47 R440). -/
theorem unitOfClass_ne_none_iff (c : OpClass) :
    unitOfClass c ≠ none ↔
      kindOfClass c ≠ .load ∧ kindOfClass c ≠ .store ∧ kindOfClass c ≠ .ebreak := by
  cases c <;> decide

theorem kindOfClass_memory_iff (c : OpClass) :
    kindOfClass c = .load ∨ kindOfClass c = .store ↔ c = .load ∨ c = .store := by
  cases c <;> decide

theorem opKind_of_unit {op : Op} {u : ExecUnit} (h : opUnit op = some u) :
    opKind op ≠ .load ∧ opKind op ≠ .store ∧ opKind op ≠ .ebreak :=
  (unitOfClass_ne_none_iff _).1 (Option.ne_none_iff_exists'.2 ⟨u, h⟩)

theorem opIsMemory_of_unit {op : Op} {u : ExecUnit} (h : opUnit op = some u) :
    opIsMemory op = false := by
  obtain ⟨hload, hstore, -⟩ := opKind_of_unit h
  simp [opIsMemory, hload, hstore]

/-- With a valid latch dispatch takes place exactly when the resources are there. -/
theorem allocation_ne_none_iff (hv : s.fl.valid = true) :
    s.allocation ≠ none ↔ s.resourcesFree := by
  unfold State.allocation dispatch allocate State.resourcesFree
  rw [if_pos hv]
  by_cases hroom : s.robCount < s.cfg.robSize
  case neg => simp [hroom]
  rw [if_pos hroom]
  cases hu : latchMicroOp s.fl with
  | fault f => simp [hroom]
  | instr d =>
    cases hunit : unitOfClass d.cls with
    | some u =>
      have hmem : opIsMemory d.op = false := opIsMemory_of_unit (latch_cls hu ▸ hunit)
      simp [hroom, hunit, hmem, freeRs_ne_none_iff]
    | none =>
      cases hmem : opIsMemory d.op <;> simp [hroom, hunit, hmem, freeLsq_ne_none_iff]

/-! ### What dispatch writes (46 R403, R405) -/

theorem kindOfClass_eq_ebreak_iff (c : OpClass) : kindOfClass c = .ebreak ↔ c = .system := by
  cases c <;> decide

theorem kindOfClass_eq_branch_iff (c : OpClass) : kindOfClass c = .branch ↔ c = .branch := by
  cases c <;> decide

theorem kindOfClass_eq_jump_iff (c : OpClass) : kindOfClass c = .jump ↔ c = .jump := by
  cases c <;> decide

theorem dispatchedEntry_fault (fl : FetchLatch) (f : FaultInfo) :
    dispatchedEntry fl (.fault f) =
      { kind := .fault, op := none, dest := none, value := 0, ready := true, pc := fl.pc,
        predTaken := fl.predTaken, predTarget := fl.predTarget, actTaken := false,
        actTarget := fl.pc + 4, mispredict := fl.predTaken, fault := some f } := by
  simp [dispatchedEntry, MicroOp.kind, MicroOp.op, MicroOp.dest, MicroOp.fault?]

theorem dispatchedEntry_instr (fl : FetchLatch) (d : Decoded) :
    dispatchedEntry fl (.instr d) =
      { kind := kindOfClass d.cls, op := some d.op, dest := d.dest, value := 0,
        ready := decide (d.cls = .system), pc := fl.pc, predTaken := fl.predTaken,
        predTarget := fl.predTarget, actTaken := false, actTarget := fl.pc + 4,
        mispredict := decide (d.cls ≠ .branch ∧ d.cls ≠ .jump) && fl.predTaken,
        fault := none } := by
  simp [dispatchedEntry, MicroOp.kind, MicroOp.op, MicroOp.dest, MicroOp.fault?,
    kindOfClass_eq_ebreak_iff, kindOfClass_eq_branch_iff, kindOfClass_eq_jump_iff,
    kindOfClass_ne_fault]

section
variable {b : Option Payload} {a : Allocation} {d : Decoded}

/-- An instruction of a unit takes the lowest free RS entry. -/
theorem Allocates.rs_of_unit (h : Allocates s b a) (hd : latchMicroOp s.fl = .instr d)
    (hu : unitOfClass d.cls ≠ none) :
    ∃ i, freeRs s = some i ∧ a.rs = some (i, dispatchedRs s b d s.robTail) := by
  obtain ⟨hload, hstore, hebreak⟩ := (unitOfClass_ne_none_iff _).1 hu
  rw [latch_cls hd] at hload hstore hebreak
  cases h with
  | fault f hf => rw [hd] at hf; cases hf
  | unit d' i u hd' _ hi => rw [hd] at hd'; cases hd'; exact ⟨i, hi, rfl⟩
  | memory d' i hd' hm => rw [hd] at hd'; cases hd'; exact (hm.elim hload hstore).elim
  | ebreak d' hd' he => rw [hd] at hd'; cases hd'; exact (hebreak he).elim

/-- A load or store takes the lowest free LSQ entry. -/
theorem Allocates.lsq_of_memory (h : Allocates s b a) (hd : latchMicroOp s.fl = .instr d)
    (hm : d.cls = .load ∨ d.cls = .store) :
    ∃ i, freeLsq s = some i ∧ a.lsq = some (i, dispatchedLsq s b d s.robTail) := by
  have hk : opKind d.op = .load ∨ opKind d.op = .store :=
    (kindOfClass_memory_iff _).2 (latch_cls hd ▸ hm)
  cases h with
  | fault f hf => rw [hd] at hf; cases hf
  | unit d' i u hd' hu =>
    rw [hd] at hd'
    cases hd'
    obtain ⟨hload, hstore, -⟩ := opKind_of_unit hu
    exact (hk.elim hload hstore).elim
  | memory d' i hd' _ hi => rw [hd] at hd'; cases hd'; exact ⟨i, hi, rfl⟩
  | ebreak d' hd' he => rw [hd] at hd'; cases hd'; simp [he] at hk

theorem nextRs_getElem?_new {i : Nat} {e : RsEntry} (hi : freeRs s = some i)
    (ha : a.rs = some (i, e)) : (nextRs s (signals s) (some a))[i]? = some e := by
  obtain ⟨hlt, -⟩ := List.findIdx?_eq_some_iff_getElem.1 hi
  rw [nextRs_some, ha, List.getElem?_set_self (issuedRs_length s ▸ hlt)]

theorem nextLsq_getElem?_new {r : Option Retirement} {i : Nat} {e : LsqEntry}
    (hi : freeLsq s = some i) (ha : a.lsq = some (i, e)) :
    (nextLsq s (signals s) (some a) r)[i]? = some e := by
  obtain ⟨hlt, -⟩ := List.findIdx?_eq_some_iff_getElem.1 hi
  rw [nextLsq_some, ha, List.getElem?_set_self (committedLsq_length s r ▸ hlt)]

end

/-- Dispatch renames a register exactly when it consumes a latch with that destination. -/
theorem newDest_eq_some_iff {r : Reg} :
    s.newDest = some r ↔ s.dispatches = true ∧ (latchMicroOp s.fl).dest = some r := by
  have hd : s.dispatches = s.allocation.isSome := rfl
  rw [hd]
  cases ha : s.allocation with
  | none => simp [State.newDest, ha]
  | some a => simp [State.newDest, ha, (dispatch_allocates ha).2.2.dest_eq]

/-- A head in flight that retires and writes a register is ready: it is no Store. -/
theorem State.InFlight.ready_of_retires (h : s.InFlight) {x : Retirement} {r : Reg}
    (hx : Retires s (some x)) (hv : s.validTag s.robHead = true)
    (hd : s.headEntry.dest = some r) : s.headEntry.ready = true := by
  obtain ⟨-, hkind⟩ := h.dests s.robHead hv r hd
  obtain ⟨-, -, hready | hstore⟩ := hx.head
  · exact hready
  · rw [State.headEntry] at hstore
    simp [hstore] at hkind

end

/-! ### The statements -/

/-- Settles O36: the branches of the resolution; a register still waiting gives its tag after this
cycle's wakeup. -/
theorem operandResolution : Obligations.OperandResolution := by
  intro s b r
  refine ⟨fun h0 => if_pos h0, fun hr => ⟨resolveReg_committed hr, fun p hp =>
    ⟨resolveReg_ready hr hp, fun hwait => ?_⟩⟩⟩
  have hwake : resolveReg s b r = wakeSlot b (.pending p) := by
    rw [resolveReg_pending hr hp, if_neg (Bool.eq_false_iff.1 hwait)]
  refine ⟨fun q hq ht => ?carried, fun hne => hwake.trans (wakeSlot_pending_of_ne hne)⟩
  case carried => rw [hwake, hq, wakeSlot_pending, if_pos ht]

/-- Settles O37: nothing is allocated, so the cycle is that of the other stages, and the fetch stage
finds a full latch. -/
theorem dispatchStalls : Obligations.DispatchStalls := by
  intro s hclk hflows hvalid hres
  have ha : s.allocation = none := by
    by_contra hne
    exact hres ((allocation_ne_none_iff hvalid).1 hne)
  have hfetch : fetchStage s s.allocation.isSome =
      { fl := s.fl, pcF := s.pcF, stop := s.fetchStopped } := by
    simp [fetchStage, fetchRuns, ha, hvalid]
  obtain ⟨halt, hstep⟩ := step_of_flows hclk hflows
  refine ⟨_, hstep, congrArg FetchResult.fl hfetch, congrArg FetchResult.pcF hfetch,
    congrArg FetchResult.stop hfetch, ?tail, ?count, ?rob, ?rs, ?lsq, ?rat⟩
  case tail => exact if_neg (by simp [ha])
  case count =>
    change (s.advance s.retirement).robCount = _
    rw [advance_robCount_eq, dispatchCount_of_none ha, retireCount, isSome_retirement]
    rfl
  case rob => exact nextRob_of_none ha
  case rs =>
    intro i
    rw [← issuedRs_getElem?]
    change (nextRs s (signals s) s.allocation)[i]? = _
    rw [ha, nextRs_none]
  case lsq =>
    intro i
    rw [← committedLsq_getElem?, ← nextLsq_none, ← ha]
    rfl
  case rat =>
    intro r
    refine (rat_advance_retirement s r).trans (if_neg ?_)
    simp [State.newDest, ha]

/-- Settles O38: what the allocation holds for the latch stands at the tail, at the lowest free place
and in the renamed register. -/
theorem dispatchAllocates : Obligations.DispatchAllocates := by
  intro s hclk hshape hflows hvalid hres
  obtain ⟨a, ha⟩ := Option.ne_none_iff_exists'.1 ((allocation_ne_none_iff hvalid).2 hres)
  obtain ⟨-, -, halloc⟩ := dispatch_allocates ha
  obtain ⟨halt, hstep⟩ := step_of_flows hclk hflows
  have hentry : (s.advance s.retirement).robEntry s.robTail =
      dispatchedEntry s.fl (latchMicroOp s.fl) :=
    (robEntry_advance_new hshape ha).trans halloc.entry_eq
  refine ⟨_, hstep, ?tail, ?count, fun f hf => ?fault, fun d hd => ⟨?entry, ?rat, ?rs, ?lsq⟩⟩
  case tail => exact if_pos (by simp [ha])
  case count =>
    change (s.advance s.retirement).robCount = _
    rw [advance_robCount_eq, (dispatchCount_of_some ha).1, retireCount, isSome_retirement]
  case fault =>
    rw [hf, dispatchedEntry_fault] at hentry
    exact hentry
  case entry =>
    rw [hd, dispatchedEntry_instr] at hentry
    exact hentry
  case rat =>
    intro r hr
    refine (rat_advance_retirement s r.toFin).trans (if_pos (newDest_eq_some_iff.2 ⟨?_, ?_⟩))
    · exact Option.isSome_of_eq_some ha
    · rw [hd]; exact hr
  case rs =>
    intro hu
    obtain ⟨i, hi, hrs⟩ := halloc.rs_of_unit hd hu
    refine ⟨i, freeRs_eq_some hi, fun j f => busy_of_lt_freeRs hi, ?_⟩
    have hnew := nextRs_getElem?_new hi hrs
    rw [← ha] at hnew
    exact hnew
  case lsq =>
    intro hm
    obtain ⟨i, hi, hlsq⟩ := halloc.lsq_of_memory hd hm
    refine ⟨i, freeLsq_eq_some hi, fun j f => busy_of_lt_freeLsq hi, ?_⟩
    have hnew := nextLsq_getElem?_new (r := s.retirement) hi hlsq
    rw [← ha] at hnew
    exact hnew

/-- Settles O39: the head is ready, so the register resolves to the value it commits; its mapping is
cleared unless dispatch renames the register. -/
theorem commitBypass : Obligations.CommitBypass := by
  intro s r hclk h hflows hret hdest hrat
  obtain ⟨hv, -⟩ := h.rat_pending r.toFin s.robHead hrat
  obtain ⟨hr, -⟩ := h.dests s.robHead hv r hdest
  have hne := retirement_ne_none_iff.2 hret
  obtain ⟨x, hx⟩ := Option.ne_none_iff_exists'.1 hne
  have hready := h.ready_of_retires (hx ▸ retires_retirement s) hv hdest
  obtain ⟨halt, hstep⟩ := step_of_flows hclk hflows
  refine ⟨fun b => resolveReg_ready hr hrat hready, _, hstep, ?reg, ?rat⟩
  case reg => exact (advance_x s _ (retires_retirement s) r).trans (if_pos ⟨hne, hdest, hr⟩)
  case rat =>
    refine (rat_advance_retirement s r.toFin).trans ?_
    rw [if_pos (And.intro hret ⟨hdest, hrat⟩)]
    exact if_congr newDest_eq_some_iff rfl rfl

end Sys2Proof.Machine
end

