-- ==== Sys2Proof/Proofs/DivStages.lean ====
section
/-! PROOF. The restoring division of the DIV unit (47 R461, R465, R466): what one iteration does to
the quantities as numbers, what the iterations keep, and the sign correction. -/

namespace Sys2Proof.Machine

/-! ### One iteration -/

section
variable {divisor : Word} {d : DivIteration}

/-- The partial remainder with one dividend bit shifted in. -/
theorem toNat_shiftIn (hrem : d.rem.toNat < 2 ^ 32) :
    ((d.rem <<< 1) ||| (d.num.extractLsb' 31 1).setWidth 33).toNat =
      2 * d.rem.toNat + d.num.toNat / 2 ^ 31 := by
  have hnum := d.num.isLt
  have hbit : d.num.toNat / 2 ^ 31 < 2 ^ 1 := by omega
  have hor := Nat.shiftLeft_add_eq_or_of_lt hbit d.rem.toNat
  rw [Nat.shiftLeft_eq] at hor
  simp only [BitVec.toNat_or, BitVec.toNat_shiftLeft, BitVec.toNat_setWidth,
    BitVec.extractLsb'_toNat, Nat.shiftLeft_eq, Nat.shiftRight_eq_div_pow]
  rw [Nat.mod_eq_of_lt (by omega : d.rem.toNat * 2 ^ 1 < 2 ^ 33),
    Nat.mod_eq_of_lt (by omega : d.num.toNat / 2 ^ 31 < 2 ^ 1), Nat.mod_eq_of_lt (by omega), ← hor]
  omega

/-- The dividend shifted left with a quotient bit recorded in its lowest place. -/
theorem toNat_shiftLeft_or_one (x : Word) :
    ((x <<< 1) ||| 1#32).toNat = 2 * x.toNat % 2 ^ 32 + 1 := by
  have hand : (x <<< 1) &&& 1#32 = 0#32 := by
    ext i hi
    cases i <;> simp
  rw [← BitVec.add_eq_or_of_and_eq_zero _ _ hand]
  simp only [BitVec.toNat_add, BitVec.toNat_shiftLeft, BitVec.toNat_ofNat, Nat.shiftLeft_eq]
  omega

/-- The divisor fits: it is subtracted and a quotient bit recorded. -/
theorem toNat_divIterate_of_le (hrem : d.rem.toNat < 2 ^ 32)
    (h : divisor.toNat ≤ 2 * d.rem.toNat + d.num.toNat / 2 ^ 31) :
    (divIterate divisor d).rem.toNat = 2 * d.rem.toNat + d.num.toNat / 2 ^ 31 - divisor.toNat ∧
      (divIterate divisor d).num.toNat = 2 * d.num.toNat % 2 ^ 32 + 1 := by
  have hin := toNat_shiftIn hrem
  have hdivisor : (divisor.setWidth 33).toNat = divisor.toNat :=
    BitVec.toNat_setWidth_of_le (by decide)
  have hle : divisor.setWidth 33 ≤ (d.rem <<< 1) ||| (d.num.extractLsb' 31 1).setWidth 33 := by
    rw [BitVec.le_def, hin, hdivisor]; exact h
  rw [divIterate, if_pos hle]
  exact ⟨by rw [BitVec.toNat_sub_of_le hle, hin, hdivisor], toNat_shiftLeft_or_one d.num⟩

/-- The divisor does not fit: the shifted quantities stay. -/
theorem toNat_divIterate_of_lt (hrem : d.rem.toNat < 2 ^ 32)
    (h : 2 * d.rem.toNat + d.num.toNat / 2 ^ 31 < divisor.toNat) :
    (divIterate divisor d).rem.toNat = 2 * d.rem.toNat + d.num.toNat / 2 ^ 31 ∧
      (divIterate divisor d).num.toNat = 2 * d.num.toNat % 2 ^ 32 := by
  have hin := toNat_shiftIn hrem
  have hdivisor : (divisor.setWidth 33).toNat = divisor.toNat :=
    BitVec.toNat_setWidth_of_le (by decide)
  have hlt : ¬ divisor.setWidth 33 ≤ (d.rem <<< 1) ||| (d.num.extractLsb' 31 1).setWidth 33 := by
    rw [BitVec.le_def, hin, hdivisor]; exact Nat.not_le.2 h
  rw [divIterate, if_neg hlt]
  refine ⟨hin, ?_⟩
  rw [BitVec.toNat_shiftLeft, Nat.shiftLeft_eq, Nat.mul_comm, pow_one]

end

/-! ### What the iterations keep -/

/-- With `todo` of the 32 iterations to go, the leading bits of the dividend are divided: their
remainder is in `rem`, their quotient in the low bits of `num`, below the bits not yet used. -/
structure DivProgress (a divisor : Word) (todo : Nat) (d : DivIteration) : Prop where
  rem : d.rem.toNat = a.toNat / 2 ^ todo % divisor.toNat
  num : d.num.toNat = a.toNat % 2 ^ todo * 2 ^ (32 - todo) + a.toNat / 2 ^ todo / divisor.toNat

section
variable {a divisor : Word} {todo : Nat} {d : DivIteration}

theorem divProgress_start (a divisor : Word) : DivProgress a divisor 32 { rem := 0, num := a } where
  rem := by simp [Nat.div_eq_of_lt a.isLt]
  num := by simp [Nat.div_eq_of_lt a.isLt, Nat.mod_eq_of_lt a.isLt]

/-- Below the highest place, `num` holds the unused bits but the next and the quotient so far. -/
theorem unused_and_quotient_lt (a divisor : Word) (htodo : todo < 32) :
    a.toNat % 2 ^ todo * 2 ^ (31 - todo) + a.toNat / 2 ^ (todo + 1) / divisor.toNat < 2 ^ 31 := by
  have hpow : 2 ^ todo * 2 ^ (31 - todo) = 2 ^ 31 := by rw [← pow_add]; congr 1; omega
  have hquot : a.toNat / 2 ^ (todo + 1) / divisor.toNat < 2 ^ (31 - todo) := by
    refine (Nat.div_le_self _ _).trans_lt ((Nat.div_lt_iff_lt_mul (by positivity)).2 ?_)
    rw [← pow_add, show 31 - todo + (todo + 1) = 32 by omega]
    exact a.isLt
  have hunused : (a.toNat % 2 ^ todo + 1) * 2 ^ (31 - todo) ≤ 2 ^ todo * 2 ^ (31 - todo) :=
    Nat.mul_le_mul_right _ (Nat.mod_lt _ (by positivity))
  rw [Nat.succ_mul] at hunused
  omega

/-- The highest place of `num` is the next dividend bit, the others shift up. -/
theorem DivProgress.num_shift (h : DivProgress a divisor (todo + 1) d) (htodo : todo < 32) :
    d.num.toNat / 2 ^ 31 = a.toNat / 2 ^ todo % 2 ∧
      2 * d.num.toNat % 2 ^ 32 = a.toNat % 2 ^ todo * 2 ^ (32 - todo)
        + 2 * (a.toNat / 2 ^ (todo + 1) / divisor.toNat) := by
  have hpow : 2 ^ todo * 2 ^ (31 - todo) = 2 ^ 31 := by rw [← pow_add]; congr 1; omega
  have hlow := unused_and_quotient_lt a divisor htodo
  have hnum : d.num.toNat = 2 ^ 31 * (a.toNat / 2 ^ todo % 2)
      + (a.toNat % 2 ^ todo * 2 ^ (31 - todo) + a.toNat / 2 ^ (todo + 1) / divisor.toNat) := by
    rw [h.num, Nat.mod_pow_succ, show 32 - (todo + 1) = 31 - todo by omega, ← hpow]
    ring
  rw [show 32 - todo = 31 - todo + 1 by omega, pow_succ 2 (31 - todo), ← mul_assoc]
  generalize a.toNat / 2 ^ (todo + 1) / divisor.toNat = quotient at hnum hlow ⊢
  omega

/-- One iteration divides one bit more. -/
theorem DivProgress.iterate (h : DivProgress a divisor (todo + 1) d) (htodo : todo < 32)
    (hdiv : 0 < divisor.toNat) : DivProgress a divisor todo (divIterate divisor d) := by
  obtain ⟨htop, hshift⟩ := h.num_shift htodo
  have hrem := h.rem
  have hlead : a.toNat / 2 ^ todo = 2 * (a.toNat / 2 ^ (todo + 1)) + a.toNat / 2 ^ todo % 2 := by
    rw [pow_succ, ← Nat.div_div_eq_div_mul]; omega
  have hsplit := Nat.div_add_mod (a.toNat / 2 ^ (todo + 1)) divisor.toNat
  have hlt := Nat.mod_lt (a.toNat / 2 ^ (todo + 1)) hdiv
  have hword := divisor.isLt
  have hdouble := Nat.mul_left_comm divisor.toNat 2 (a.toNat / 2 ^ (todo + 1) / divisor.toNat)
  have hbit := Nat.mod_lt (a.toNat / 2 ^ todo) (show 0 < 2 by decide)
  by_cases hfits : divisor.toNat ≤ 2 * d.rem.toNat + d.num.toNat / 2 ^ 31
  · obtain ⟨hr, hn⟩ := toNat_divIterate_of_le (by omega) hfits
    obtain ⟨hq, hm⟩ := (Nat.div_mod_unique (a := a.toNat / 2 ^ todo) hdiv
      (c := (divIterate divisor d).rem.toNat)
      (d := 2 * (a.toNat / 2 ^ (todo + 1) / divisor.toNat) + 1)).2
      ⟨by rw [Nat.mul_succ, hdouble]; omega, by omega⟩
    exact ⟨hm.symm, by rw [hq]; omega⟩
  · obtain ⟨hr, hn⟩ := toNat_divIterate_of_lt (by omega) (Nat.not_le.1 hfits)
    obtain ⟨hq, hm⟩ := (Nat.div_mod_unique (a := a.toNat / 2 ^ todo) hdiv
      (c := (divIterate divisor d).rem.toNat)
      (d := 2 * (a.toNat / 2 ^ (todo + 1) / divisor.toNat))).2
      ⟨by rw [hdouble]; omega, by omega⟩
    exact ⟨hm.symm, by rw [hq]; omega⟩

theorem DivProgress.iterations (n : Nat) (hdiv : 0 < divisor.toNat) :
    ∀ {d : DivIteration}, todo + n ≤ 32 → DivProgress a divisor (todo + n) d →
      DivProgress a divisor todo (divIterations divisor n d) := by
  induction n with
  | zero => exact fun _ h => h
  | succ n ih => exact fun hle h => ih (Nat.le_of_succ_le hle) (h.iterate hle hdiv)

end

/-! ### The stages -/

/-- Only a zero operand has magnitude zero. -/
theorem divMagnitude_ne_zero {signed : Bool} {b : Word} (hb : b ≠ 0) :
    divMagnitude signed b ≠ 0 := by
  unfold divMagnitude
  split
  · rwa [Ne, sub_eq_zero, eq_comm]
  · exact hb

section
variable (signed : Bool) (a : Word) {b : Word}

/-- Stages 2 and 3 leave quotient and remainder of the magnitudes. -/
theorem divMiddleStages_eq (hb : b ≠ 0) :
    (divMiddleStages signed a b).num = divMagnitude signed a / divMagnitude signed b ∧
      (divMiddleStages signed a b).rem.setWidth 32 =
        divMagnitude signed a % divMagnitude signed b := by
  have hpos : 0 < (divMagnitude signed b).toNat :=
    Nat.pos_of_ne_zero fun h => divMagnitude_ne_zero hb (BitVec.eq_of_toNat_eq h)
  have hhalf := (divProgress_start (divMagnitude signed a) (divMagnitude signed b)).iterations
    (todo := 16) 16 hpos (Nat.le_refl _)
  have hdone := hhalf.iterations (todo := 0) 16 hpos (by decide)
  have hnum := hdone.num
  have hrem := hdone.rem
  rw [pow_zero, Nat.mod_one, Nat.zero_mul, Nat.zero_add, Nat.div_one] at hnum
  rw [pow_zero, Nat.div_one] at hrem
  refine ⟨BitVec.eq_of_toNat_eq (hnum.trans BitVec.toNat_udiv.symm), BitVec.eq_of_toNat_eq ?_⟩
  rw [BitVec.toNat_setWidth, BitVec.toNat_umod]
  exact (congrArg (· % 2 ^ 32) hrem).trans (Nat.mod_eq_of_lt
    ((Nat.mod_le _ _).trans_lt (divMagnitude signed a).isLt))

end

/-! ### The sign correction -/

/-- On a nonzero divisor DIV is the quotient of the integers, the overflow case included. -/
theorem divValue_eq_sdiv {a b : Word} (hb : b ≠ 0) : divValue a b = a.sdiv b := by
  by_cases ho : a.toInt = -2147483648 ∧ b.toInt = -1
  · have ha : a = 0x80000000#32 := BitVec.eq_of_toInt_eq ho.1
    have hb1 : b = 0xffffffff#32 := BitVec.eq_of_toInt_eq ho.2
    subst ha hb1
    decide
  · apply BitVec.eq_of_toInt_eq
    rw [toInt_divValue hb ho, BitVec.toInt_sdiv, ← toInt_u32_tdiv ho, u32, BitVec.toInt_ofInt,
      Int.bmod_bmod]

theorem remValue_eq_srem {a b : Word} (hb : b ≠ 0) : remValue a b = a.srem b := by
  by_cases ho : a.toInt = -2147483648 ∧ b.toInt = -1
  · have ha : a = 0x80000000#32 := BitVec.eq_of_toInt_eq ho.1
    have hb1 : b = 0xffffffff#32 := BitVec.eq_of_toInt_eq ho.2
    subst ha hb1
    decide
  · exact BitVec.eq_of_toInt_eq ((toInt_remValue hb ho).trans (BitVec.toInt_srem a b).symm)

/-- The quotient of the magnitudes, negated when the signs differ, is the signed quotient. -/
theorem divNegate_quotient (a b : Word) :
    divNegate (a.msb != b.msb) (divMagnitude true a / divMagnitude true b) = a.sdiv b := by
  rw [BitVec.sdiv_eq]
  cases ha : a.msb <;> cases hb : b.msb <;> simp [divNegate, divMagnitude, ha, hb]

/-- The remainder of the magnitudes, with the sign of the dividend, is the signed remainder. -/
theorem divNegate_remainder (a b : Word) :
    divNegate a.msb (divMagnitude true a % divMagnitude true b) = a.srem b := by
  rw [BitVec.srem_eq]
  cases ha : a.msb <;> cases hb : b.msb <;> simp [divNegate, divMagnitude, ha, hb]

theorem divuValue_eq_udiv {a b : Word} (hb : b ≠ 0) : divuValue a b = a / b :=
  BitVec.eq_of_toNat_eq ((toNat_divuValue hb).trans BitVec.toNat_udiv.symm)

theorem remuValue_eq_umod {a b : Word} (hb : b ≠ 0) : remuValue a b = a % b :=
  BitVec.eq_of_toNat_eq ((toNat_remuValue hb).trans BitVec.toNat_umod.symm)

/-- Settles O19: the iterations divide the magnitudes, the last stage puts the signs back, and a
zero divisor has its defined results. -/
theorem restoringDivision : Obligations.RestoringDivision := by
  intro a b
  by_cases hb : b = 0
  case pos =>
    exact ⟨(if_pos hb).trans (divValue_of_eq_zero hb).symm,
      (if_pos hb).trans (divuValue_of_eq_zero hb).symm,
      (if_pos hb).trans (remValue_of_eq_zero hb).symm,
      (if_pos hb).trans (remuValue_of_eq_zero hb).symm⟩
  case neg =>
    obtain ⟨hquot, hrem⟩ := divMiddleStages_eq true a hb
    obtain ⟨hquotu, hremu⟩ := divMiddleStages_eq false a hb
    refine ⟨(if_neg hb).trans ?div, (if_neg hb).trans ?divu, (if_neg hb).trans ?rem,
      (if_neg hb).trans ?remu⟩
    case div =>
      change divNegate (a.msb != b.msb) (divMiddleStages true a b).num = divValue a b
      rw [hquot, divNegate_quotient, divValue_eq_sdiv hb]
    case divu => exact hquotu.trans (divuValue_eq_udiv hb).symm
    case rem =>
      change divNegate a.msb ((divMiddleStages true a b).rem.setWidth 32) = remValue a b
      rw [hrem, divNegate_remainder, remValue_eq_srem hb]
    case remu => exact hremu.trans (remuValue_eq_umod hb).symm

end Sys2Proof.Machine
end

