-- ==== Sys2Proof/Proofs/SequentialSteps.lean ====
section
/-! PROOF. The step of the sequential semantics: its fetch and checks, what an instruction leaves of
the rest of the core, and the stopped core (60 R602, R610, 49 R551, R560). -/

namespace Sys2Proof.Machine

/-! ### Fetch, check, decode (60 R602, R610) -/

section
variable {s : State}

theorem sequentialFetch_of_fault {pc : Word} {kind : FaultKind}
    (h : fetchCheck s.cfg pc = some kind) : sequentialFetch s pc = .error kind := by
  simp only [sequentialFetch, h]

theorem sequentialFetch_of_undecoded {pc : Word} (h : fetchCheck s.cfg pc = none)
    (hd : decode (s.imemWord pc) = none) : sequentialFetch s pc = .error .decodeError := by
  simp only [sequentialFetch, h, hd]

theorem sequentialFetch_of_decoded {pc : Word} {i : Instr} (h : fetchCheck s.cfg pc = none)
    (hd : decode (s.imemWord pc) = some i) : sequentialFetch s pc = .ok i := by
  simp only [sequentialFetch, h, hd]

/-- A fetch that fails stops the core at the pc. -/
theorem instructionStep_of_error {kind : FaultKind} (h : sequentialFetch s s.pcA = .error kind) :
    instructionStep s = .next (s.raise kind s.pcA s.pcA) := by
  simp only [instructionStep, h]

theorem instructionStep_of_ok {i : Instr} (h : sequentialFetch s s.pcA = .ok i) :
    instructionStep s = exec i s := by
  simp only [instructionStep, h]

/-- The word `withFetchWord` places is the one the pc then reads (log entry 1). -/
theorem imemWord_withFetchWord (hwf : s.imem.wf s.cfg.initFill = true) (w : Word) :
    (s.withFetchWord 32 w.toNat).imemWord s.pcA = w := by
  have hw : BitVec.ofNat 32 (w.toNat % 2 ^ 32) = w := by
    rw [Nat.mod_eq_of_lt w.isLt, BitVec.ofNat_toNat, BitVec.setWidth_eq]
  rw [State.imemWord, State.withFetchWord_imem, State.withFetchWord_cfg, hw,
    Memory.readWord_writeWord _ _ _ _ hwf]

/-- What completion leaves of the core, whatever data memory and halt status become: nothing in
flight, the head moved on by one, and one event with the old head's tag. -/
theorem complete_leaves (s : State) (d : Option Reg) (v next : Word) (mem : Memory) (halt : Halt) :
    let t := { s.complete d v next with dmem := mem, halt := halt }
    t.drained = true ∧ t.robHead = nextTag s.cfg s.robHead ∧
      ∃ w, t.log = s.log ++ [⟨s.cycle, s.robHead, s.pcA, w⟩] :=
  ⟨State.drained_complete s d v next, rfl, d.map fun _ => v, rfl⟩

/-- An instruction changes none of cycle counter, predictor and ROB entries. It stops the core with
a fault, or completes: nothing is in flight, the head has moved on and its event is emitted. -/
theorem seqResult_leaves (s : State) (i : Instr) :
    (seqResult s i).cycle = s.cycle ∧ (seqResult s i).bp = s.bp ∧ (seqResult s i).rob = s.rob ∧
      ((∃ kind addr, seqResult s i = s.raise kind s.pcA addr) ∨
        ((seqResult s i).drained = true ∧ (seqResult s i).robHead = nextTag s.cfg s.robHead ∧
          ∃ v, (seqResult s i).log = s.log ++ [⟨s.cycle, s.robHead, s.pcA, v⟩])) := by
  obtain ⟨k, a, h⟩ | ⟨ea, v, -, h⟩ | h | ⟨v, next, h⟩ := seqResult_cases s i <;> rw [h] <;>
    refine ⟨rfl, rfl, rfl, ?_⟩
  · exact .inl ⟨k, a, rfl⟩
  · exact .inr (complete_leaves s none 0 (s.pcA + 4) (s.dmemStore ea v) s.halt)
  · exact .inr (complete_leaves s none 0 s.pcA s.dmem .halted)
  · exact .inr (complete_leaves s (destOf (instrRd i)) v next s.dmem s.halt)

end

/-! ### The statements -/

/-- Settles O22: the step looks at the level only while the core runs. -/
theorem stoppedCoreStays : Obligations.StoppedCoreStays := step_of_stopped

/-- Settles O23: the check that fails first, a word that does not decode and a word that does each
have their own equation of the sequential step. -/
theorem sequentialStep : Obligations.SequentialStep := by
  intro s hrun hlevel
  rw [step_at_instructions s hrun hlevel]
  refine ⟨fun hmis => ?misaligned, fun halign hout => ?outOfBounds, fun halign hin => ?word⟩
  case misaligned =>
    exact instructionStep_of_error
      (sequentialFetch_of_fault (accessCheck_of_misaligned hmis s.cfg .fetch))
  case outOfBounds =>
    exact instructionStep_of_error
      (sequentialFetch_of_fault (accessCheck_of_outOfBounds (fun _ => halign) hout .fetch))
  case word =>
    have hcheck := (fetchCheck_eq_none_iff s.cfg s.pcA).2 ⟨halign, hin⟩
    exact ⟨fun hd => instructionStep_of_error (sequentialFetch_of_undecoded hcheck hd),
      fun i hd => instructionStep_of_ok (sequentialFetch_of_decoded hcheck hd)⟩

/-- Settles O24: the placed word is read back and decodes to its instruction. -/
theorem placedWordRuns : Obligations.PlacedWordRuns := by
  intro s i hrun hwf halign hin hi
  have hcheck := (fetchCheck_eq_none_iff s.cfg s.pcA).2 ⟨halign, hin⟩
  have hword := congrArg decode (imemWord_withFetchWord hwf (encode i))
  exact (step_at_instructions (s.withFetchWord 32 (encode i).toNat) hrun rfl).trans
    (instructionStep_of_ok (sequentialFetch_of_decoded hcheck (hword.trans (decode_encode hi))))

/-- Settles O21: every arm of `exec` answers the result of its kind, which leaves these fields. -/
theorem sequentialFrame : Obligations.SequentialFrame := by
  intro i s _
  obtain ⟨hcfg, hlevel, himem⟩ := seqResult_frame s i
  exact ⟨seqResult s i, exec_eq i s, hlevel, hcfg, himem, seqResult_leaves s i⟩

end Sys2Proof.Machine
end

