-- ==== Sys2Proof/Proofs/Loading.lean ====
section
/-! PROOF. Reset and loading (70 R650 to R655): the reset values, where the images stand, and the
invariants of every start state. -/

namespace Sys2Proof.Machine

/-! ### Reset values (70 R651) -/

/-- Before anything is placed a memory reads as the fill byte of its lane. -/
theorem initial_reads_fill (cfg : Config) (a : Nat) :
    (State.initial cfg).imemByte a = cfg.initFill.extractLsb' (8 * (a % 4)) 8 ∧
      (State.initial cfg).dmemByte a = cfg.initFill.extractLsb' (8 * (a % 4)) 8 := ⟨rfl, rfl⟩

theorem registersAtReset_zero (cfg : Config) : (registersAtReset cfg)[0] = 0 := by
  simp [registersAtReset, Vector.append]

theorem registersAtReset_succ (cfg : Config) (i : Fin 31) :
    (registersAtReset cfg)[i.val + 1]'(by omega) = cfg.initX[i.val] := by
  simp [registersAtReset, Vector.append]

/-- Settles O26: the elements as `State.initial` writes them; the memories are empty and the lists
hold one reset entry again and again. -/
theorem resetValues : Obligations.ResetValues := by
  intro cfg s
  have hfill := initial_reads_fill cfg
  refine ⟨registersAtReset_zero cfg, registersAtReset_succ cfg, rfl, fun a => (hfill a).1,
    fun a => (hfill a).2, rfl, rfl, rfl, rfl, rfl, List.length_replicate,
    fun e he => List.eq_of_mem_replicate he, fun r => Vector.getElem_replicate _, rfl, rfl, rfl,
    List.length_replicate, fun e he => ?rob, List.length_replicate, fun e he => ?rs,
    List.length_replicate, fun e he => ?lsq, rfl, rfl, List.length_replicate,
    fun u hu => List.eq_of_mem_replicate hu, List.length_replicate,
    fun u hu => List.eq_of_mem_replicate hu⟩
  all_goals
    obtain rfl := List.eq_of_mem_replicate he
    decide

/-! ### Images (70 R655) -/

/-- Byte `l` of word `k` of an image (20 R104). -/
theorem imageOfWords_getElem? (ws : List Word) (k : Nat) {l : Nat} (hl : l < 4) :
    (imageOfWords ws)[4 * k + l]? = (ws[k]?).map fun w => byteLane w l := by
  induction ws generalizing k with
  | nil => simp [imageOfWords]
  | cons w ws ih =>
    have hcons : imageOfWords (w :: ws) = bytesOfWord w ++ imageOfWords ws := rfl
    rw [hcons]
    cases k with
    | zero =>
      rw [List.getElem?_append_left (by simpa [bytesOfWord] using hl)]
      obtain rfl | rfl | rfl | rfl : l = 0 ∨ l = 1 ∨ l = 2 ∨ l = 3 := by omega
      all_goals rfl
    | succ k =>
      have hlen : (bytesOfWord w).length = 4 := rfl
      rw [List.getElem?_append_right (by omega), hlen,
        show 4 * (k + 1) + l - 4 = 4 * k + l by omega, ih]
      rfl

/-- A placed word is read back at its place. -/
theorem readWord_placed (fill : Word) (base : Nat) {ws : List Word} {k : Nat} (hk : k < ws.length) :
    (Memory.writeBytes fill [] base (imageOfWords ws)).readWord fill (base + 4 * k) = ws[k] := by
  have hbyte : ∀ l, l < 4 →
      (Memory.writeBytes fill [] base (imageOfWords ws)).read fill (base + (4 * k + l)) =
        byteLane ws[k] l := by
    intro l hl
    have hlt : 4 * k + l < (imageOfWords ws).length := by rw [imageOfWords_length]; omega
    have hget := imageOfWords_getElem? ws k hl
    rw [List.getElem?_eq_getElem hlt, List.getElem?_eq_getElem hk, Option.map_some] at hget
    rw [Memory.read_writeBytes_inside fill _ [] base _ rfl hlt]
    exact Option.some.inj hget
  have hword := wordOfBytes_byteLane ws[k]
  rw [← hbyte 0 (by decide), ← hbyte 1 (by decide), ← hbyte 2 (by decide),
    ← hbyte 3 (by decide)] at hword
  exact hword

theorem memBytes_le {cfg : Config} (h : cfg.legal = true) : cfg.memBytes ≤ 2 ^ 32 := by
  simp only [Config.legal, Bool.and_eq_true, decide_eq_true_eq] at h
  have hdepth : cfg.depthLog ≤ 30 := by tauto
  calc 4 * 2 ^ cfg.depthLog ≤ 4 * 2 ^ 30 :=
        Nat.mul_le_mul_left 4 (Nat.pow_le_pow_right (by decide) hdepth)
    _ = 2 ^ 32 := by decide

section
variable {cfg : Config} {code : List Word} {data : List Byte}

/-- Two images that fit are placed over the reset state. -/
theorem boot_of_fits (hlegal : cfg.legal = true)
    (hcode : cfg.codeBase.toNat + 4 * code.length ≤ cfg.memBytes)
    (hdata : cfg.dataBase.toNat + data.length ≤ cfg.memBytes) :
    State.boot cfg code data = .next
      { State.initial cfg with
        imem := Memory.writeBytes cfg.initFill [] cfg.codeBase.toNat (imageOfWords code)
        dmem := Memory.writeBytes cfg.initFill [] cfg.dataBase.toNat data } := by
  simp [State.boot, hlegal, imageFits, hcode, hdata]

/-- A word of the code image is the instruction word at its address. -/
theorem imemWord_boot {s : State} (h : State.boot cfg code data = .next s) {k : Nat}
    (hk : k < code.length) :
    s.imemWord (cfg.codeBase + BitVec.ofNat 32 (4 * k)) = code[k] := by
  obtain ⟨hlegal, hcode, -, rfl⟩ := boot_eq_next h
  have hfits : cfg.codeBase.toNat + 4 * code.length ≤ cfg.memBytes := of_decide_eq_true hcode
  have hmem := memBytes_le hlegal
  have haddr : (cfg.codeBase + BitVec.ofNat 32 (4 * k)).toNat = cfg.codeBase.toNat + 4 * k := by
    rw [BitVec.toNat_add, BitVec.toNat_ofNat]
    omega
  rw [State.imemWord, haddr]
  exact readWord_placed cfg.initFill cfg.codeBase.toNat hk

/-- Every state a workload starts in has nothing in flight (70 R652). -/
theorem boot_drained {s : State} (h : State.boot cfg code data = .next s) : s.drained = true := by
  obtain ⟨-, -, -, rfl⟩ := boot_eq_next h
  simp [State.drained, State.initial, FetchLatch.reset, RsEntry.reset, LsqEntry.reset]

end

/-- Settles O27: images that fit are read back where they were placed, every other byte is still the
fill; with one that does not fit the check of `boot` fails. -/
theorem imagesPlaced : Obligations.ImagesPlaced := by
  intro cfg code data hlegal
  refine ⟨fun hcode hdata => ?placed, fun hout => ?refused⟩
  case placed =>
    have hboot := boot_of_fits hlegal hcode hdata
    refine ⟨_, hboot, rfl, fun k hk => imemWord_boot hboot hk, fun j hj => ?data,
      fun a ha => ?codeFill, fun a ha => ?dataFill⟩
    case data => exact Memory.read_writeBytes_inside cfg.initFill data [] _ j rfl hj
    case codeFill =>
      exact Memory.read_writeBytes_outside cfg.initFill _ [] _ a
        (by rw [imageOfWords_length]; exact ha)
    case dataFill => exact Memory.read_writeBytes_outside cfg.initFill data [] _ a ha
  case refused =>
    have hfits : (imageFits cfg cfg.codeBase (4 * code.length) &&
        imageFits cfg cfg.dataBase data.length) = false := by
      simp only [imageFits, Bool.and_eq_false_iff, decide_eq_false_iff_not]
      omega
    simp [State.boot, hlegal, hfits]

/-- Settles O28: a start state has the shape and nothing in flight, and its log is empty. -/
theorem invariantsAtReset : Obligations.InvariantsAtReset := by
  intro cfg code data s h
  refine ⟨(boot_shape h).inFlight_of_drained (boot_drained h), boot_drained h, ?_⟩
  obtain ⟨-, -, -, rfl⟩ := boot_eq_next h
  trivial

end Sys2Proof.Machine
end

