-- ==== Sys2Proof/Proofs/IssueAndBus.lean ====
section
/-! PROOF. Selection, the three units, the bus and the pipelines in one cycle (47 R440 to R472,
48 R512): who issues, who wins, and what the losers keep. -/

namespace Sys2Proof.Machine

section
variable {s : State}

/-! ### Selection (47 R441, R442) -/

/-- An entry is eligible exactly when it is busy, of the unit, and has both operands. -/
theorem exists_eligibleEntry_iff {u : ExecUnit} {e : RsEntry} {i : Nat} :
    (∃ c, eligibleEntry u e i = some c) ↔
      e.busy = true ∧ opUnit e.op = some u ∧ ∃ a b, e.j = .value a ∧ e.k = .value b := by
  constructor
  · rintro ⟨c, hc⟩
    obtain ⟨hbusy, hunit, hj, hk, -⟩ := (eligibleEntry_eq_some u e i c).1 hc
    exact ⟨hbusy, hunit, c.a, c.b, hj, hk⟩
  · rintro ⟨hbusy, hunit, a, b, hj, hk⟩
    exact ⟨⟨i, e.dest, e.op, a, b, e.imm, e.pc⟩,
      (eligibleEntry_eq_some u e i _).2 ⟨hbusy, hunit, hj, hk, rfl⟩⟩

/-- Nothing is selected exactly when no place holds an eligible entry. -/
theorem selectRs_eq_none_iff {u : ExecUnit} :
    selectRs s u = none ↔ ∀ (i : Nat) e, s.rs[i]? = some e → eligibleEntry u e i = none := by
  rw [selectRs, leastBy_eq_none, List.filterMap_eq_nil_iff]
  exact ⟨fun h i e he => h (e, i) (List.mem_zipIdx_iff_getElem?.2 he),
    fun h p hp => h p.2 p.1 (List.mem_zipIdx_iff_getElem?.1 hp)⟩

/-! ### Units (47 R445, R460, R465) -/

/-- A unit takes no load, store or EBREAK, so its instruction completes with the unit's payload. -/
theorem seqResult_of_unit {i : Instr} {u : ExecUnit} (h : opUnit (instrOp i) = some u) :
    (seqPayload s 0 i).fault = none ∧ seqResult s i =
      s.complete (destOf (instrRd i)) (seqPayload s 0 i).value
        (nextPc s.pcA (seqPayload s 0 i).ctrl) := by
  obtain ⟨hload, hstore, hebreak⟩ := opKind_of_unit h
  have hfault := seqPayload_fault s 0 i hload
  refine ⟨hfault, ?_⟩
  unfold seqResult
  cases hk : opKind (instrOp i) with
  | store => exact absurd hk hstore
  | ebreak => exact absurd hk hebreak
  | _ => simp only [hfault]

/-! ### The bus (47 R471) -/

theorem mem_cdbPriority {cfg : Config} (h : cfg.legal = true) (r : Requester) :
    r ∈ cfg.cdbPriority := by
  simp only [Config.legal, Bool.and_eq_true, List.all_eq_true, List.contains_iff_mem] at h
  exact h.2 r (by cases r <;> decide)

/-- Before the first element of a list that has a value stands no other that has one. -/
theorem idxOf_le_of_findSome? {α β : Type} [BEq α] [LawfulBEq α] {f : α → Option β} {l : List α}
    {a : α} {b : α × β} (h : (l.findSome? fun r => (f r).map fun p => (r, p)) = some b)
    (ha : (f a).isSome = true) : l.idxOf b.1 ≤ l.idxOf a := by
  obtain ⟨before, r, after, rfl, hr, hbefore⟩ := List.findSome?_eq_some_iff.1 h
  obtain ⟨p, -, rfl⟩ := Option.map_eq_some_iff.1 hr
  have hna : a ∉ before := fun hmem => by
    rw [Option.map_eq_none_iff.1 (hbefore a hmem)] at ha
    cases ha
  have hr' : (before ++ r :: after).idxOf r ≤ before.length := by
    rw [List.idxOf_append]
    split_ifs with hm
    · exact (List.idxOf_lt_length_of_mem hm).le
    · simp
  rw [List.idxOf_append (a := a), if_neg hna]
  exact hr'.trans (Nat.le_add_left _ _)

/-! ### Pipelines (47 R456, R462) -/

theorem pipeAdvances_iff {pipe : List (Option UnitOp)} {won : Bool} :
    pipeAdvances pipe won = true ↔ lastStage pipe = none ∨ won = true := by
  rw [pipeAdvances, Bool.or_eq_true, Option.isNone_iff_eq_none]

theorem lastStage_eq_none_iff {pipe : List (Option UnitOp)} (h : pipe ≠ []) :
    lastStage pipe = none ↔ pipe[pipe.length - 1]? = some none := by
  rw [lastStage, ← List.getLast?_eq_getElem?, List.getLast?_eq_getLast_of_ne_nil h]
  simp

/-- A pipeline that does not advance keeps every stage. -/
theorem nextPipe_of_frozen {pipe : List (Option UnitOp)} {adv : Bool} (h : adv ≠ true)
    (new : Option Issued) : nextPipe pipe adv new = pipe := if_neg h

/-- A pipeline that advances moves every stage on by one and takes the new operation in front. -/
theorem nextPipe_getElem?_of_advances {pipe : List (Option UnitOp)} {adv : Bool} (h : adv = true)
    (new : Option Issued) {k : Nat} (hk : k < pipe.length) :
    (nextPipe pipe adv new)[k]? = (new.map issuedUnitOp :: pipe)[k]? := by
  rw [nextPipe, if_pos h, List.getElem?_dropLast, List.length_cons]
  exact if_pos hk

/-- One pipeline in a cycle, given how it advances and what is issued to it. -/
theorem nextPipe_advances_or_freezes {pipe : List (Option UnitOp)} {n : Nat} {won : Bool}
    {sel : Option Issued} (hn : pipe.length = n) (hne : pipe ≠ []) :
    let t := nextPipe pipe (pipeAdvances pipe won) (if pipeAdvances pipe won then sel else none)
    if pipe[n - 1]? = some none ∨ won = true then
      (∀ k, k + 1 < n → t[k + 1]? = pipe[k]?) ∧ t[0]? = some (sel.map issuedUnitOp)
    else t = pipe := by
  intro t
  have hgo : pipe[n - 1]? = some none ∨ won = true ↔ pipeAdvances pipe won = true := by
    rw [pipeAdvances_iff, lastStage_eq_none_iff hne, hn]
  split_ifs with h
  · have hadv := hgo.1 h
    refine ⟨fun k hk => nextPipe_getElem?_of_advances hadv _ (hn ▸ hk),
      (nextPipe_getElem?_of_advances hadv _ (List.length_pos_iff.2 hne)).trans ?_⟩
    rw [if_pos hadv]
    rfl
  · exact nextPipe_of_frozen (hgo.not.1 h) _

/-! ### Issue frees the entry (47 R443, R444) -/

/-- A busy place is not the one dispatch fills. -/
theorem nextRs_of_busy {b : Option Payload} {i : Nat} {e : RsEntry} (he : s.rs[i]? = some e)
    (hb : e.busy = true) : (nextRs s (signals s) (dispatch s b))[i]? = s.issuedRs[i]? := by
  cases ha : dispatch s b with
  | none => rw [nextRs_none]
  | some a =>
    obtain ⟨-, -, halloc⟩ := dispatch_allocates ha
    rw [nextRs_some]
    cases halloc with
    | unit d j u _ _ hj =>
      obtain ⟨f, hf, hfree⟩ := freeRs_eq_some hj
      refine List.getElem?_set_ne ?_
      rintro rfl
      rw [Option.some.inj (hf.symm.trans he), hb] at hfree
      cases hfree
    | _ => rfl

/-- What a cycle that goes on leaves of a busy RS entry: woken, and free if it issues. -/
theorem advance_rs_of_busy {i : Nat} {e : RsEntry} (he : s.rs[i]? = some e) (hb : e.busy = true)
    (r : Option Retirement) :
    (s.advance r).rs[i]? =
      some { wakeRs s.broadcast e with busy := !s.issuesFrom i } := by
  refine (nextRs_of_busy he hb).trans ?_
  rw [issuedRs_getElem?, he, Option.map_some, hb, Bool.true_and]

theorem issuesFrom_iff {i : Nat} :
    s.issuesFrom i = true ↔ ∃ c, c.index = i ∧
      ((signals s).alu = some c ∨ (signals s).mul = some c ∨ (signals s).div = some c) := by
  simp only [State.issuesFrom, List.any_cons, List.any_nil, Bool.or_false, Bool.or_eq_true,
    decide_eq_true_eq, Option.map_eq_some_iff, and_comm, ← exists_or, ← and_or_left]

/-- An entry a unit takes in this cycle is free after it. -/
theorem freed_of_issue {c : Issued} {u : ExecUnit} (hsel : selectRs s u = some c)
    (h : (signals s).alu = some c ∨ (signals s).mul = some c ∨ (signals s).div = some c)
    (r : Option Retirement) : ∃ e, (s.advance r).rs[c.index]? = some e ∧ e.busy = false := by
  obtain ⟨e, he⟩ := selectRs_issued hsel
  refine ⟨_, advance_rs_of_busy he.at_index he.busy r, ?_⟩
  rw [issuesFrom_iff.2 ⟨c, rfl, h⟩]
  rfl

/-- What issues is resolved, and its unit takes it: the ALU with an empty latch, MUL and DIV when
they advance. -/
theorem issued_entry {i : Nat} {e : RsEntry} (he : s.rs[i]? = some e) (h : s.issuesFrom i = true) :
    (∃ a b, e.j = .value a ∧ e.k = .value b) ∧
      (opUnit e.op = some .alu ∧ s.aluOut = none ∨
        opUnit e.op = some .mul ∧ (signals s).mulAdvances = true ∨
        opUnit e.op = some .div ∧ (signals s).divAdvances = true) := by
  obtain ⟨c, rfl, hc⟩ := issuesFrom_iff.1 h
  have hentry : ∀ {u f}, IssuedFrom s.rs u c f → (∃ a b, e.j = .value a ∧ e.k = .value b) ∧
      opUnit e.op = some u := by
    intro u f hf
    obtain rfl := Option.some.inj (hf.at_index.symm.trans he)
    exact ⟨⟨c.a, c.b, hf.j, hf.k⟩, hf.unit⟩
  obtain hc | hc | hc := hc
  · obtain ⟨hempty, f, hf⟩ := selectAlu_issued hc
    exact ⟨(hentry hf).1, .inl ⟨(hentry hf).2, hempty⟩⟩
  · obtain ⟨f, hf⟩ := signals_mul_issued hc
    refine ⟨(hentry hf).1, .inr (.inl ⟨(hentry hf).2, ?_⟩)⟩
    by_contra hadv
    rw [signals_mul, if_neg hadv] at hc
    cases hc
  · obtain ⟨f, hf⟩ := signals_div_issued hc
    refine ⟨(hentry hf).1, .inr (.inr ⟨(hentry hf).2, ?_⟩)⟩
    by_contra hadv
    rw [signals_div, if_neg hadv] at hc
    cases hc

/-- Stage 1 of a pipeline that advances holds the operation issued to it, if it has any stage. -/
theorem nextPipe_head {pipe : List (Option UnitOp)} {adv : Bool} {new : Option Issued} {c : Issued}
    (h : adv = true) (hnew : new = some c) :
    nextPipe pipe adv new = [] ∨ (nextPipe pipe adv new).head? = some (some (issuedUnitOp c)) := by
  rw [nextPipe, if_pos h, hnew]
  cases pipe with
  | nil => exact .inl rfl
  | cons u pipe => exact .inr rfl

/-! ### Winners and losers of the bus (47 R472, 48 R512) -/

/-- The load that requests the bus is no store, so no commit frees its place. -/
theorem storeFreed_ne_loadRequest (h : s.InFlight) {l : LoadOut} (hl : s.loadRequest = some l) :
    s.storeFreed ≠ some l.index := by
  intro hfreed
  rw [storeFreed_eq, Option.map_eq_some_iff] at hfreed
  obtain ⟨st, hst, hindex⟩ := hfreed
  obtain ⟨-, -, -, f, hf, hstore, -⟩ := retiredStore_at h (retires_retirement s) hst
  obtain ⟨e, he, hload, -⟩ := loadRequest_at h hl
  rw [hindex, he] at hf
  obtain rfl := Option.some.inj hf
  rw [isLoadEntry_not_store hload] at hstore
  cases hstore

/-- What a cycle that goes on leaves of a busy LSQ entry: woken, free if it is the winning load or
the committing store, and marked issued if it is the losing load. -/
theorem advance_lsq_of_busy {i : Nat} {e : LsqEntry} (he : s.lsq[i]? = some e)
    (hb : e.busy = true) :
    (s.advance s.retirement).lsq[i]? = some
      { wakeLsq s.broadcast e with
        busy := decide (s.loadFreed ≠ some i ∧ s.storeFreed ≠ some i)
        issued := e.issued || decide (s.loadHeld = some i) } := by
  refine (nextLsq_of_busy he hb).trans ?_
  rw [committedLsq_getElem?, he, Option.map_some, hb, Bool.true_and]

/-- The place of the requesting load after the cycle: free when it wins, else busy, marked issued
and with its tag. -/
theorem advance_lsq_at_loadRequest (h : s.InFlight) {l : LoadOut} (hl : s.loadRequest = some l) :
    ∃ e, (s.advance s.retirement).lsq[l.index]? = some e ∧
      (if wonBy (signals s).win .load then e.busy = false
       else e.busy = true ∧ e.issued = true ∧ e.tag = l.payload.tag) := by
  obtain ⟨e, he, hload, htag, -⟩ := loadRequest_at h hl
  have hstore := storeFreed_ne_loadRequest h hl
  refine ⟨_, advance_lsq_of_busy he (busy_of_isLoadEntry hload), ?_⟩
  cases hwon : wonBy (signals s).win .load <;>
    simp [State.loadFreed, State.loadHeld, hwon, hl, hstore, htag]

/-- A pipeline whose result is presented and loses does not advance. -/
theorem nextPipe_of_loser {pipe : List (Option UnitOp)} {p : Payload} {won : Bool}
    (hreq : (lastStage pipe).map unitPayload = some p) (hlost : won = false)
    (new : Option Issued) : nextPipe pipe (pipeAdvances pipe won) new = pipe := by
  refine nextPipe_of_frozen (fun hadv => ?_) new
  rw [pipeAdvances_iff, hlost] at hadv
  obtain hnone | h := hadv
  · rw [hnone] at hreq; cases hreq
  · cases h

end

/-! ### The statements -/

/-- Settles O40: the selection is the smallest-age element of the eligible entries, which is missing
only when they are. -/
theorem oldestEligibleIsSelected : Obligations.OldestEligibleIsSelected := by
  intro s u eligible
  refine ⟨fun c hc => ⟨?entry, fun e he hel => ?oldest⟩, ?none⟩
  case entry =>
    obtain ⟨e, h⟩ := selectRs_issued hc
    exact ⟨e, h.at_index, h.busy, h.unit, h.j, h.k, h.tag, h.op, h.imm, h.pc⟩
  case oldest =>
    obtain ⟨i, hi⟩ := List.getElem?_of_mem he
    obtain ⟨d, hd⟩ := exists_eligibleEntry_iff.2 hel
    have hle := (selectRs_spec s u c hc).2 i e d hi hd
    obtain ⟨-, -, -, -, hfields⟩ := (eligibleEntry_eq_some u e i d).1 hd
    exact hle.trans_eq (congrArg (fun f => s.age f.tag) hfields)
  case none =>
    rw [selectRs_eq_none_iff]
    constructor
    · intro h e he hel
      obtain ⟨i, hi⟩ := List.getElem?_of_mem he
      obtain ⟨d, hd⟩ := exists_eligibleEntry_iff.2 hel
      exact Option.some_ne_none d (hd.symm.trans (h i e hi))
    · intro h i e he
      refine Option.eq_none_iff_forall_ne_some.2 fun d hd => ?_
      exact h e (List.mem_of_getElem? he) (exists_eligibleEntry_iff.1 ⟨d, hd⟩)

/-- Settles O42: the payload is the one the sequential semantics owes, which completes the
instruction. -/
theorem unitsAgreeWithExec : Obligations.UnitsAgreeWithExec := by
  intro i s p hrun a b hp
  have hpayload : p = seqPayload s 0 i ∧ ∃ u, opUnit (instrOp i) = some u := by
    obtain ⟨hu, rfl⟩ | ⟨hu, rfl⟩ := hp
    · exact ⟨(seqPayload_alu hu 0).symm, _, hu⟩
    · exact ⟨(seqPayload_mulDiv hu 0).symm, hu.elim (fun h => ⟨_, h⟩) fun h => ⟨_, h⟩⟩
  obtain ⟨rfl, u, hu⟩ := hpayload
  obtain ⟨hfault, hres⟩ := seqResult_of_unit (s := s) hu
  refine ⟨hfault, seqResult s i, exec_eq i s, ?retired, ?pc⟩
  case retired => rw [hres, retired_complete, destOf_map]
  case pc =>
    rw [hres, State.pcA_complete _ _ _ _ hrun]
    cases (seqPayload s 0 i).ctrl <;> rfl

/-- Settles O43: the arbitration takes the first requester in a list that names all four. -/
theorem busArbitration : Obligations.BusArbitration := by
  intro s alu load hlegal
  refine ⟨fun r p h => ⟨(arbitrate_request s alu load r p h).2,
    fun r' => idxOf_le_of_findSome? h⟩, ?_, rfl⟩
  rw [arbitrate, List.findSome?_eq_none_iff]
  exact ⟨fun h r => Option.map_eq_none_iff.1 (h r (mem_cdbPriority hlegal r)),
    fun h r _ => Option.map_eq_none_iff.2 (h r)⟩

/-- Settles O45: both pipelines follow the one rule. -/
theorem pipelinesAdvanceOrFreeze : Obligations.PipelinesAdvanceOrFreeze := by
  intro s hclk h hflows g
  obtain ⟨halt, hstep⟩ := step_of_flows hclk hflows
  exact ⟨_, hstep, nextPipe_advances_or_freezes h.mul_length h.mul_ne_nil,
    nextPipe_advances_or_freezes h.div_length h.div_ne_nil⟩

/-- Settles O41: the selections are the signals when their unit takes them, which frees their
places; no other busy place issues. -/
theorem issueFreesTheEntry : Obligations.IssueFreesTheEntry := by
  intro s hclk hflows g mulGoes divGoes
  have hmul : mulGoes ↔ g.mulAdvances = true := pipeAdvances_iff.symm
  have hdiv : divGoes ↔ g.divAdvances = true := pipeAdvances_iff.symm
  obtain ⟨halt, hstep⟩ := step_of_flows hclk hflows
  refine ⟨_, hstep, fun hempty c hc => ?alu, fun hgo c hc => ?mul, fun hgo c hc => ?div,
    fun hstay => nextPipe_of_frozen (hmul.not.1 hstay) _,
    fun hstay => nextPipe_of_frozen (hdiv.not.1 hstay) _, fun i e he hb hkept => ?kept⟩
  case alu =>
    refine freed_of_issue hc (.inl ?_) s.retirement
    rw [signals_alu, selectAlu, hempty]
    exact hc
  case mul =>
    have hsig : g.mul = some c := (if_pos (hmul.1 hgo)).trans hc
    exact ⟨freed_of_issue hc (.inr (.inl hsig)) s.retirement, nextPipe_head (hmul.1 hgo) hsig⟩
  case div =>
    have hsig : g.div = some c := (if_pos (hdiv.1 hgo)).trans hc
    exact ⟨freed_of_issue hc (.inr (.inr hsig)) s.retirement, nextPipe_head (hdiv.1 hgo) hsig⟩
  case kept =>
    have hno : s.issuesFrom i = false := by
      refine Bool.eq_false_iff.2 fun hi => ?_
      obtain ⟨⟨a, b, hj, hk⟩, hunit⟩ := issued_entry he hi
      obtain ⟨p, hp⟩ | ⟨hu, hfull⟩ | ⟨hu, hstay⟩ | ⟨hu, hstay⟩ := hkept
      · rw [hj, hk] at hp
        simp at hp
      all_goals rw [hu] at hunit
      · simp [hfull] at hunit
      · exact hstay (hmul.2 (by simpa using hunit))
      · exact hstay (hdiv.2 (by simpa using hunit))
    refine ⟨_, advance_rs_of_busy he hb s.retirement, ?_, wakeRs_dest _ e, wakeRs_op _ e⟩
    rw [hno]
    rfl

/-- Settles O44: latches and pipelines keep what they present unless it wins; the load's own place
says which. -/
theorem losersHold : Obligations.LosersHold := by
  intro s hclk h hflows g
  obtain ⟨halt, hstep⟩ := step_of_flows hclk hflows
  refine ⟨_, hstep, fun p hp => ?alu, fun l hl => ⟨?latch, advance_lsq_at_loadRequest h hl⟩,
    fun p hp hlost => nextPipe_of_loser hp hlost _, fun p hp hlost => nextPipe_of_loser hp hlost _⟩
  case alu => rw [← hp]; rfl
  case latch => rw [← hl]; rfl

end Sys2Proof.Machine
end

