-- ==== Sys2Proof/Proofs/Broadcast.lean ====
section
/-! PROOF. The broadcast of a cycle (47 R473, R474): it resolves every slot that waits on its tag,
and completes the ROB entry of that tag. -/

namespace Sys2Proof.Machine

section
variable {s : State} {b : Payload}

/-! ### Slots (47 R473) -/

theorem wakeSlot_pending_self (b : Payload) : wakeSlot (some b) (.pending b.tag) = .value b.value :=
  if_pos rfl

theorem wakeRs_slots {e : RsEntry} (h : e.busy = true) (b : Option Payload) :
    (wakeRs b e).j = wakeSlot b e.j ∧ (wakeRs b e).k = wakeSlot b e.k := by
  rw [wakeRs, if_pos h]
  exact ⟨rfl, rfl⟩

theorem wakeLsq_slots {e : LsqEntry} (h : e.busy = true) (b : Option Payload) :
    (wakeLsq b e).base = wakeSlot b e.base ∧ (wakeLsq b e).data = wakeSlot b e.data := by
  rw [wakeLsq, if_pos h]
  exact ⟨rfl, rfl⟩

/-- An operand read in the cycle of the broadcast does not wait on it (46 R412). -/
theorem resolveReg_ne_broadcast (s : State) (b : Payload) (r : Reg) :
    resolveReg s (some b) r ≠ .pending b.tag := by
  obtain ⟨v, hv⟩ | ⟨p, hp, -, -, -, hne⟩ := resolveReg_cases s (some b) r
  · rw [hv]; exact Slot.noConfusion
  · rw [hp]
    exact fun h => hne b rfl (Slot.pending.inj h).symm

/-- The slots of a busy RS entry after the cycle are those before it, woken. -/
theorem advance_rs_slots {r : Option Retirement} {i : Nat} {e f : RsEntry} (he : s.rs[i]? = some e)
    (hb : e.busy = true) (hf : (s.advance r).rs[i]? = some f) :
    f.j = wakeSlot s.broadcast e.j ∧ f.k = wakeSlot s.broadcast e.k := by
  rw [advance_rs_of_busy he hb] at hf
  obtain rfl := Option.some.inj hf
  exact wakeRs_slots hb s.broadcast

theorem advance_lsq_slots {i : Nat} {e f : LsqEntry} (he : s.lsq[i]? = some e)
    (hb : e.busy = true) (hf : (s.advance s.retirement).lsq[i]? = some f) :
    f.base = wakeSlot s.broadcast e.base ∧ f.data = wakeSlot s.broadcast e.data := by
  rw [advance_lsq_of_busy he hb] at hf
  obtain rfl := Option.some.inj hf
  exact wakeLsq_slots hb s.broadcast

/-- No busy RS entry waits on the broadcast after the cycle, be it an old or a new one. -/
theorem advance_rs_ne_broadcast (hb : s.broadcast = some b) {r : Option Retirement} {f : RsEntry}
    (hf : f ∈ (s.advance r).rs) (hbusy : f.busy = true) :
    f.j ≠ .pending b.tag ∧ f.k ≠ .pending b.tag := by
  have hbus : (signals s).broadcast = some b := hb
  obtain ⟨e, -, he, rfl⟩ | ⟨a, i, ha, hrs⟩ := nextRs_origin hf hbusy
  · obtain ⟨hj, hk⟩ := wakeRs_slots he (signals s).broadcast
    rw [hj, hk, hbus]
    exact ⟨wakeSlot_ne_pending b e.j, wakeSlot_ne_pending b e.k⟩
  · rw [hbus] at ha
    have halloc := (dispatch_allocates ha).2.2
    cases halloc with
    | unit d j u _ _ _ =>
      cases hrs
      exact ⟨resolveReg_ne_broadcast s b d.rs1, resolveReg_ne_broadcast s b d.rs2⟩
    | _ => cases hrs

theorem advance_lsq_ne_broadcast (hb : s.broadcast = some b) {r : Option Retirement} {f : LsqEntry}
    (hf : f ∈ (s.advance r).lsq) (hbusy : f.busy = true) :
    f.base ≠ .pending b.tag ∧ f.data ≠ .pending b.tag := by
  have hbus : (signals s).broadcast = some b := hb
  obtain ⟨i, hi⟩ := List.getElem?_of_mem hf
  obtain ⟨e, -, he, hold⟩ | ⟨a, d, -, -, -, rfl⟩ := advance_lsq_cases hi hbusy
  · obtain ⟨hbase, hdata⟩ := wakeLsq_slots he (signals s).broadcast
    have hslots : f.base = (wakeLsq (signals s).broadcast e).base ∧
        f.data = (wakeLsq (signals s).broadcast e).data := by
      obtain ⟨-, rfl⟩ | ⟨l, -, -, -, rfl⟩ := hold <;> exact ⟨rfl, rfl⟩
    rw [hslots.1, hslots.2, hbase, hdata, hbus]
    exact ⟨wakeSlot_ne_pending b e.base, wakeSlot_ne_pending b e.data⟩
  · rw [hbus]
    exact ⟨resolveReg_ne_broadcast s b d.rs1, resolveReg_ne_broadcast s b d.rs2⟩

/-! ### The ROB entry (47 R474) -/

/-- The entry the broadcast names was awaited, so it is no new one and is completed in its place. -/
theorem advance_robEntry_of_broadcast (h : s.InFlight) (hb : s.broadcast = some b)
    (r : Option Retirement) :
    (s.robEntry b.tag).ready = false ∧
      (s.advance r).robEntry b.tag = completeEntry b (s.robEntry b.tag) := by
  obtain ⟨hv, hready, -⟩ := awaited_iff.1 (h.awaited_of_broadcast hb)
  obtain ⟨hlt, hage⟩ := validTag_iff.1 hv
  have hold := robEntry_advance_old h.shape (r := r) hlt fun hn ht =>
    not_dispatched_of_age_lt h.shape hage ⟨hn, ht⟩
  refine ⟨hready, hold.trans ?_⟩
  obtain ⟨c, hc, -, hcomp⟩ | ⟨hne, -⟩ := completed_cases s b.tag
  · obtain rfl := Option.some.inj (hc.symm.trans hb)
    exact hcomp
  · exact absurd rfl (hne b hb)

theorem mispredicted_eq (predTaken : Bool) (predTarget : Word) (actTaken : Bool)
    (actTarget : Word) :
    mispredicted predTaken predTarget actTaken actTarget =
      decide (predTaken ≠ actTaken ∨ (actTaken = true ∧ predTarget ≠ actTarget)) := by
  cases actTaken <;> simp [mispredicted]

end

/-! ### The statements -/

/-- Settles O46: a slot of a busy entry is woken in its place, and neither a woken slot nor a newly
resolved one waits on the broadcast. -/
theorem wakeup : Obligations.Wakeup := by
  intro s b hclk _ hflows hb
  obtain ⟨halt, hstep⟩ := step_of_flows hclk hflows
  refine ⟨_, hstep, fun i e f he hbusy hf _ => ?rs, fun i e f he hbusy hf _ => ?lsq,
    fun f hf hbusy => advance_rs_ne_broadcast (r := s.retirement) hb hf hbusy,
    fun f hf hbusy => advance_lsq_ne_broadcast (r := s.retirement) hb hf hbusy⟩
  case rs =>
    obtain ⟨hj, hk⟩ := advance_rs_slots (r := s.retirement) he hbusy hf
    rw [hb] at hj hk
    exact ⟨fun hp => by rw [hj, hp, wakeSlot_pending_self],
      fun hp => by rw [hk, hp, wakeSlot_pending_self]⟩
  case lsq =>
    obtain ⟨hbase, hdata⟩ := advance_lsq_slots he hbusy hf
    rw [hb] at hbase hdata
    exact ⟨fun hp => by rw [hbase, hp, wakeSlot_pending_self],
      fun hp => by rw [hdata, hp, wakeSlot_pending_self]⟩

/-- Settles O47: the entry is completed in its place, with the control outcome when there is one. -/
theorem broadcastCompletesTheEntry : Obligations.BroadcastCompletesTheEntry := by
  intro s b hclk h hflows hb
  obtain ⟨halt, hstep⟩ := step_of_flows hclk hflows
  obtain ⟨hready, hentry⟩ := advance_robEntry_of_broadcast h hb s.retirement
  refine ⟨_, hstep, hready, fun hctrl => ?_, fun c hctrl => ?_⟩ <;>
    refine Eq.trans hentry ?_ <;> rw [completeEntry, hctrl]
  simp only [mispredicted_eq]

end Sys2Proof.Machine
end

