-- ==== Sys2Proof/Proofs/CommitEffects.lean ====
section
/-! PROOF. What a cycle commits (49 R541 to R559, 48 R521): at most one register, one retire event
and one store, the squash, and the halts. -/

namespace Sys2Proof.Machine

section
variable {s : State}

/-! ### The commit of a cycle, by its decision (49 R570 step 1) -/

/-- The early stop sets the halt status and nothing else. -/
theorem withImmediateStop_eq (s n : State) :
    ∃ halt, withImmediateStop s n = { n with halt := halt } := by
  obtain h | ⟨st, -, h⟩ := withImmediateStop_cases s n
  · exact ⟨n.halt, h⟩
  · exact ⟨.fatal st.kind st.pc st.addr, h⟩

/-- The retire event of the head (49 R558). -/
def State.headEvent (s : State) : RetireEvent :=
  retireEvent s s.robHead s.headEntry.pc s.headEntry.dest s.headEntry.value

theorem headEvent_eq (s : State) :
    s.headEvent =
      { cycle := s.cycle, tag := s.robHead, pc := s.headEntry.pc,
        value := if s.headEntry.dest = none then none else some s.headEntry.value } := by
  unfold State.headEvent retireEvent
  cases s.headEntry.dest <;> rfl

theorem clock_of_stop {st : Stop} (h : commitDecision s = .stop st) :
    s.clock = s.haltOnFault st := by
  simp only [State.clock, h]

theorem clock_of_ebreak {e : RobEntry} (h : commitDecision s = .ebreak e) :
    s.clock = s.haltOnEbreak s.headEntry := by
  obtain ⟨-, rfl, -⟩ := commitDecision_ebreak h
  simp only [State.clock, h]

/-- With nothing to commit, registers, data memory, log and head stay. -/
theorem clock_of_wait (h : commitDecision s = .wait) :
    s.clock.x = s.x ∧ s.clock.dmem = s.dmem ∧ s.clock.log = s.log ∧
      s.clock.robHead = s.robHead := by
  obtain ⟨halt, hn⟩ := withImmediateStop_eq s (s.advance none)
  simp only [State.clock, h, hn]
  exact ⟨rfl, rfl, rfl, rfl⟩

/-- A retiring head writes its destination and its store, emits its event and moves the head on,
with a squash or without. -/
theorem clock_of_retire {r : Retirement} (h : commitDecision s = .retire r) :
    s.clock.x = writeDest s.x s.headEntry.dest s.headEntry.value ∧
      s.clock.dmem = retireDmem s r.store ∧ s.clock.log = s.log ++ [s.headEvent] ∧
      s.clock.robHead = nextTag s.cfg s.robHead := by
  rw [State.headEvent, ← headEntry_of_retire h]
  obtain ⟨halt, hn⟩ := withImmediateStop_eq s (s.advance (some r))
  cases hm : r.entry.mispredict <;> simp only [State.clock, h, hm, hn] <;>
    exact ⟨rfl, rfl, rfl, rfl⟩

theorem clock_cycle (s : State) : s.clock.cycle = s.cycle + 1 := by
  have hgoes : ∀ r, (withImmediateStop s (s.advance r)).cycle = s.cycle + 1 := fun r => by
    obtain ⟨halt, hn⟩ := withImmediateStop_eq s (s.advance r)
    rw [hn]
    rfl
  obtain ⟨st, -, h⟩ | ⟨e, -, h⟩ | ⟨r, -, -, h⟩ | ⟨r, -, -, h⟩ | ⟨-, h⟩ := clock_cases s <;> rw [h]
  case inr.inr.inr.inl => exact hgoes (some r)
  case inr.inr.inr.inr => exact hgoes none
  all_goals rfl

/-! ### Registers (49 R543) -/

theorem clock_x (s : State) :
    s.clock.x = if s.retires then writeDest s.x s.headEntry.dest s.headEntry.value else s.x := by
  unfold State.retires
  cases h : commitDecision s with
  | wait => exact (clock_of_wait h).1
  | stop st => rw [clock_of_stop h]; rfl
  | ebreak e => rw [clock_of_ebreak h]; rfl
  | retire r => exact (clock_of_retire h).1

/-- A register other than x0 after the write of an optional destination. -/
theorem readReg_writeDest_of_ne_zero (x : Vector Word 32) (d : Option Reg) (v : Word) {q : Reg}
    (hq : q ≠ 0) :
    readReg (writeDest x d v) q = if d = some q then v else readReg x q := by
  cases d with
  | none => rfl
  | some r =>
    refine (readReg_writeReg x r q v).trans (if_congr ?_ rfl rfl)
    rw [Option.some_inj]
    exact ⟨fun h => h.1.symm, fun h => ⟨h.symm, h ▸ hq⟩⟩

/-! ### Retire events (49 R558, R559) -/

/-- The head retires in this cycle, EBREAK included (49 R542, R556). -/
def State.emits (s : State) : Prop := (∃ e, commitDecision s = .ebreak e) ∨ s.retires = true

theorem clock_of_emits (h : s.emits) :
    s.clock.log = s.log ++ [s.headEvent] ∧ s.clock.robHead = nextTag s.cfg s.robHead := by
  obtain ⟨e, he⟩ | hr := h
  · rw [clock_of_ebreak he]
    exact ⟨rfl, rfl⟩
  · unfold State.retires at hr
    cases hd : commitDecision s with
    | retire r => exact (clock_of_retire hd).2.2
    | _ => rw [hd] at hr; cases hr

theorem clock_of_not_emits (h : ¬s.emits) : s.clock.log = s.log ∧ s.clock.robHead = s.robHead := by
  cases hd : commitDecision s with
  | wait => exact (clock_of_wait hd).2.2
  | stop st => rw [clock_of_stop hd]; exact ⟨rfl, rfl⟩
  | ebreak e => exact absurd (.inl ⟨e, hd⟩) h
  | retire r => exact absurd (.inr (retires_of_retire hd)) h

/-- One more event, with the head's tag, and the head moved on by one. -/
theorem tagsFollow_append {cfg : Config} {head : Nat} {log : List RetireEvent} {e : RetireEvent}
    (ht : e.tag = head) (h : tagsFollow cfg head log) :
    tagsFollow cfg (nextTag cfg head) (log ++ [e]) := by
  induction log with
  | nil => exact congrArg (nextTag cfg) ht
  | cons f rest ih =>
    cases rest with
    | nil => exact ⟨Eq.trans h ht.symm, congrArg (nextTag cfg) ht⟩
    | cons g rest => exact ⟨h.1, ih h.2⟩

/-- A sequential step that emits no event leaves the head, and one that does moves it on. -/
theorem seqNext_head_and_log (s : State) :
    ((seqNext s).log = s.log ∧ (seqNext s).robHead = s.robHead) ∨
      ∃ e : RetireEvent, e.tag = s.robHead ∧ (seqNext s).log = s.log ++ [e] ∧
        (seqNext s).robHead = nextTag s.cfg s.robHead := by
  unfold seqNext
  cases sequentialFetch s s.pcA with
  | error kind => exact .inl ⟨rfl, rfl⟩
  | ok i =>
    obtain ⟨-, -, -, ⟨k, a, h⟩ | ⟨-, hhead, v, hlog⟩⟩ := seqResult_leaves s i
    · exact .inl ⟨show (seqResult s i).log = s.log by rw [h]; rfl,
        show (seqResult s i).robHead = s.robHead by rw [h]; rfl⟩
    · exact .inr ⟨_, rfl, hlog, hhead⟩

/-! ### The squash (49 R551, R552) -/

/-! ### The decision at the head (49 R541, R554, R556) -/

section
variable (hc : s.robCount ≠ 0)
include hc

theorem commitDecision_of_ebreak (hready : s.headEntry.ready = true)
    (hk : s.headEntry.kind = .ebreak) : commitDecision s = .ebreak s.headEntry := by
  simp only [commitDecision, if_neg hc, hk, hready, if_true]

/-- A complete Fault entry, and a complete Load with a fault, stop the core with it. -/
theorem commitDecision_of_fault {f : FaultInfo} (hready : s.headEntry.ready = true)
    (hk : s.headEntry.kind = .fault ∨ s.headEntry.kind = .load) (hf : s.headEntry.fault = some f) :
    commitDecision s = .stop ⟨f.kind, s.headEntry.pc, f.addr⟩ := by
  obtain hk | hk := hk <;>
    simp only [commitDecision, if_neg hc, hk, hready, retireOrStop, hf, if_true]

theorem commitDecision_of_store (hk : s.headEntry.kind = .store) :
    commitDecision s = commitStore s s.headEntry := by
  simp only [commitDecision, if_neg hc, hk]

theorem commitDecision_of_store_waits (hk : s.headEntry.kind = .store)
    (h : readyStore s s.robHead = none) : commitDecision s = .wait := by
  simp only [commitDecision_of_store hc hk, commitStore, h]

theorem commitDecision_of_store_fails {st : ReadyStore} {kind : FaultKind}
    (hk : s.headEntry.kind = .store) (h : readyStore s s.robHead = some st)
    (hcheck : accessCheck s.cfg .store 4 st.ea = some kind) :
    commitDecision s = .stop ⟨kind, s.headEntry.pc, st.ea⟩ := by
  simp only [commitDecision_of_store hc hk, commitStore, h, hcheck]

theorem commitDecision_of_store_retires {st : ReadyStore} (hk : s.headEntry.kind = .store)
    (h : readyStore s s.robHead = some st) (hcheck : accessCheck s.cfg .store 4 st.ea = none) :
    commitDecision s = .retire ⟨s.headEntry, some st⟩ := by
  simp only [commitDecision_of_store hc hk, commitStore, h, hcheck]

end

/-! ### The store at the head (48 R520, R521) -/

/-- The LSQ entry at place `i` is the one busy entry with tag `t`. -/
structure State.OneEntry (s : State) (t i : Nat) (e : LsqEntry) : Prop where
  at_place : s.lsq[i]? = some e
  busy : e.busy = true
  tag : e.tag = t
  only : ∀ (j : Nat) f, s.lsq[j]? = some f → f.busy = true → f.tag = t → j = i

section
variable {t i : Nat} {e : LsqEntry}

theorem State.OneEntry.find (h : s.OneEntry t i e) :
    s.lsq.zipIdx.find? (fun (f, _) => f.busy && f.tag = t) = some (e, i) := by
  cases hf : s.lsq.zipIdx.find? (fun (f, _) => f.busy && f.tag = t) with
  | none =>
    have hno := List.find?_eq_none.1 hf (e, i) (List.mem_zipIdx_iff_getElem?.2 h.at_place)
    simp [h.busy, h.tag] at hno
  | some p =>
    obtain ⟨f, j⟩ := p
    have hat : s.lsq[j]? = some f :=
      List.mem_zipIdx_iff_getElem?.1 (List.mem_of_find?_eq_some hf)
    have hp := List.find?_some hf
    simp only [Bool.and_eq_true, decide_eq_true_eq] at hp
    obtain rfl := h.only j f hat hp.1 hp.2
    obtain rfl := Option.some.inj (hat.symm.trans h.at_place)
    rfl

/-- With base and data known the store is ready at its address. -/
theorem State.OneEntry.readyStore (h : s.OneEntry t i e) {base d : Word}
    (hbase : e.base = .value base) (hdata : e.data = .value d) :
    readyStore s t = some ⟨i, base + e.imm, d⟩ := by
  have haddr : lsqAddress e = some (base + e.imm) := lsqAddress_eq_some.2 ⟨base, hbase, rfl⟩
  simp only [Machine.readyStore, h.find, haddr, hdata]

/-- While base or data is pending it is not. -/
theorem State.OneEntry.readyStore_pending (h : s.OneEntry t i e) {p : Nat}
    (hp : e.base = .pending p ∨ e.data = .pending p) : Machine.readyStore s t = none := by
  obtain hp | hp := hp
  · have haddr : lsqAddress e = none := by rw [lsqAddress, hp]; rfl
    simp only [Machine.readyStore, h.find, haddr]
  · simp only [Machine.readyStore, h.find, hp]
    cases lsqAddress e <;> rfl

end

/-- The place of a retiring store is free after the cycle. -/
theorem clock_frees_store {r : Retirement} {st : ReadyStore} {e : LsqEntry}
    (hr : commitDecision s = .retire r) (hst : r.store = some st) (he : s.lsq[st.index]? = some e)
    (hb : e.busy = true) : ∃ f, s.clock.lsq[st.index]? = some f ∧ f.busy = false := by
  have hret : s.retirement = some r := by rw [State.retirement, hr]
  cases hm : r.entry.mispredict with
  | true =>
    simp only [State.clock, hr, hm, if_true]
    exact ⟨{ e with busy := false }, by simp [he], rfl⟩
  | false =>
    obtain ⟨halt, hn⟩ := withImmediateStop_eq s (s.advance (some r))
    simp only [State.clock, hr, hm, hn]
    have hfreed : s.storeFreed = some st.index := by rw [State.storeFreed, hr]; simp [hst]
    exact ⟨_, hret ▸ advance_lsq_of_busy he hb, by simp [hfreed]⟩

end

/-! ### The statements -/

/-- Settles O51: the cycle writes the retiring head's destination, and no write reaches the
entry of x0. -/
theorem oneRegisterWrite : Obligations.OneRegisterWrite := by
  intro s hclk
  refine ⟨s.clock, step_of_clocked hclk, fun q hq => ?others, ?zero⟩
  case others =>
    rw [State.reg, clock_x]
    cases s.retires with
    | true => simpa [State.reg] using
      readReg_writeDest_of_ne_zero s.x s.headEntry.dest s.headEntry.value hq
    | false => rfl
  case zero =>
    rw [clock_x]
    split_ifs
    · exact writeDest_entry_zero s.x s.headEntry.dest s.headEntry.value
    · rfl

/-- Settles O52: the cycle appends the head's event exactly when the head retires. -/
theorem retireEvents : Obligations.RetireEvents := by
  intro s hclk
  refine ⟨s.clock, step_of_clocked hclk, clock_cycle s, fun h => ?_, fun he hr => ?_⟩
  · rw [(clock_of_emits h).1, headEvent_eq]
  · exact (clock_of_not_emits (by simp [State.emits, he, hr])).1

/-- Settles O31: a step of either level appends an event with the head's tag and moves the head on,
or leaves both alone. -/
theorem commitOrder : Obligations.CommitOrder := by
  intro s t h hstep
  obtain rfl | rfl | rfl := step_eq_next_cases hstep
  · exact h
  · rw [(clock_frame s).1]
    by_cases he : s.emits
    · rw [(clock_of_emits he).1, (clock_of_emits he).2]
      exact tagsFollow_append rfl h
    · rwa [(clock_of_not_emits he).1, (clock_of_not_emits he).2]
  · rw [(seqNext_frame s).1]
    obtain ⟨hlog, hhead⟩ | ⟨e, he, hlog, hhead⟩ := seqNext_head_and_log s <;> rw [hlog, hhead]
    · exact h
    · exact tagsFollow_append he h

/-- Settles O53: the squash empties every unit and redirects fetch to the head's correct next pc. -/
theorem squashClears : Obligations.SquashClears := by
  intro s hclk hsq
  obtain ⟨r, hr, hc⟩ := clock_of_squashes hsq
  refine ⟨s.squash r, hc ▸ step_of_clocked hclk, rfl, rfl, rfl, ?rs, ?lsq, rfl, rfl, ?mul, ?div,
    fun q => Vector.getElem_replicate _, rfl, rfl, ?pc⟩
  case rs | lsq | mul | div => simp
  case pc => rw [← headEntry_of_retire hr]; rfl

/-- Settles O49: the decision is to wait, to stop or to retire by what the entry holds and the check
says; retiring writes the four bytes and frees the entry. -/
theorem storeCommit : Obligations.StoreCommit := by
  intro s i e hclk hwf hc hk he hb ht honly
  have hone : s.OneEntry s.robHead i e := ⟨he, hb, ht, honly⟩
  refine ⟨s.clock, step_of_clocked hclk, fun ⟨p, hp⟩ => ?pending, fun base d hbase hdata => ?known⟩
  case pending =>
    obtain ⟨hx, hdmem, hlog, hhead⟩ :=
      clock_of_wait (commitDecision_of_store_waits hc hk (hone.readyStore_pending hp))
    exact ⟨hhead, hlog, hdmem, hx⟩
  case known =>
    have hst := hone.readyStore hbase hdata
    intro ea
    refine ⟨fun hmis => ?misaligned, fun halign hout => ?outOfBounds, fun halign hin => ?stores⟩
    case misaligned =>
      exact clock_of_stop (commitDecision_of_store_fails hc hk hst
        (accessCheck_of_misaligned hmis s.cfg .store))
    case outOfBounds =>
      exact clock_of_stop (commitDecision_of_store_fails hc hk hst
        (accessCheck_of_outOfBounds (fun _ => halign) hout .store))
    case stores =>
      have hr := commitDecision_of_store_retires hc hk hst
        ((accessCheck_eq_none ..).2 ⟨fun _ => halign, hin⟩)
      obtain ⟨-, hdmem, -, hhead⟩ := clock_of_retire hr
      refine ⟨fun a => ?_, hhead, clock_frees_store hr rfl he hb⟩
      rw [State.dmemByte, hdmem, (clock_frame s).1]
      exact Memory.read_writeWord s.cfg.initFill s.dmem ea.toNat a d hwf

/-- Settles O54: the decision at such a head is its halt, and the halt cycle is that of 49 R557. -/
theorem haltCycles : Obligations.HaltCycles := by
  intro s hclk hc
  rw [step_of_clocked hclk]
  refine ⟨fun hready hk => ?ebreak, fun f hready hk hf => ?fault,
    fun i e base d hk he hb ht honly hbase hdata => ?store⟩
  case ebreak =>
    rw [clock_of_ebreak (commitDecision_of_ebreak hc hready hk), ← headEvent_eq]
    rfl
  case fault => rw [clock_of_stop (commitDecision_of_fault hc hready hk hf)]; rfl
  case store =>
    have hst := State.OneEntry.readyStore ⟨he, hb, ht, honly⟩ hbase hdata
    intro ea
    refine ⟨fun hmis => ?_, fun halign hout => ?_⟩
    · rw [clock_of_stop (commitDecision_of_store_fails hc hk hst
        (accessCheck_of_misaligned hmis s.cfg .store))]
      rfl
    · rw [clock_of_stop (commitDecision_of_store_fails hc hk hst
        (accessCheck_of_outOfBounds (fun _ => halign) hout .store))]
      rfl

end Sys2Proof.Machine
end

