-- ==== Sys2Proof/Proofs/FatalStops.lean ====
section
/-! PROOF. Fatal stops (49 R554, R555, 60 R603 to R605): under Deferred faults they are the head's
own, under Immediate the latch's or the selected load's as well, in a cycle that is otherwise the
Deferred one. -/

namespace Sys2Proof.Machine

section
variable {s : State}

/-! ### Deferred: the head's own fault -/

/-- Which check of an access failed (20 R107, R108). -/
theorem accessCheck_eq_some {cfg : Config} {hit : Access} {a : Word} {kind : FaultKind}
    (h : accessCheck cfg hit 4 a = some kind) :
    kind = .misalignedAccess hit ∧ a.toNat % 4 ≠ 0 ∨
      kind = boundsKind hit ∧ a.toNat % 4 = 0 ∧ cfg.memBytes < a.toNat + 4 := by
  by_cases hmis : a.toNat % 4 ≠ 0
  · rw [accessCheck_of_misaligned hmis] at h
    exact .inl ⟨(Option.some.inj h).symm, hmis⟩
  · have halign : a.toNat % 4 = 0 := not_not.1 hmis
    by_cases hout : cfg.memBytes < a.toNat + 4
    · rw [accessCheck_of_outOfBounds (fun _ => halign) hout] at h
      exact .inr ⟨(Option.some.inj h).symm, halign, hout⟩
    · rw [(accessCheck_eq_none ..).2 ⟨fun _ => halign, Nat.not_lt.1 hout⟩] at h
      cases h

/-- Under Deferred faults a running core stops with a fatal status only by the head's decision. -/
theorem stop_of_fatal (hrun : s.halt = .running) (hd : s.cfg.faultPolicy = .deferred)
    {kind : FaultKind} {pc addr : Word} (h : s.clock.halt = .fatal kind pc addr) :
    commitDecision s = .stop ⟨kind, pc, addr⟩ := by
  obtain ⟨st, hdec, hc⟩ | ⟨e, -, hc⟩ | ⟨r, -, -, hc⟩ | ⟨r, -, -, hc⟩ | ⟨-, hc⟩ := clock_cases s
  case inl =>
    rw [hc, State.haltOnFault_halt] at h
    cases h
    exact hdec
  case inr.inl => rw [hc] at h; cases h
  case inr.inr.inl => rw [hc, State.squash_halt, hrun] at h; cases h
  all_goals
    rw [hc, withImmediateStop_deferred hd] at h
    exact absurd (hrun.symm.trans h) Halt.noConfusion

/-! ### Immediate: the Deferred cycle with an early stop -/

/-- The state with another fault policy. -/
def State.withPolicy (s : State) (p : FaultPolicy) : State :=
  { s with cfg := { s.cfg with faultPolicy := p } }

theorem advance_withPolicy (s : State) (p : FaultPolicy) (r : Option Retirement) :
    (s.withPolicy p).advance r = (s.advance r).withPolicy p := by
  cases r <;> rfl

/-- The cycle changes no parameter, so the policy can be put back after it. -/
theorem advance_withPolicy_back (s : State) (p : FaultPolicy) (r : Option Retirement)
    (halt : Halt) :
    { (s.advance r).withPolicy p with halt := halt, cfg := s.cfg } =
      { s.advance r with halt := halt } := by
  cases r <;> rfl

theorem clock_eq_of_flows (h : s.flows = true) :
    s.clock = withImmediateStop s (s.advance s.retirement) := by
  obtain ⟨hsq, hh⟩ := flows_iff.1 h
  unfold State.clock State.retirement
  cases hd : commitDecision s with
  | stop st => rw [State.halts, hd] at hh; cases hh
  | ebreak e => rw [State.halts, hd] at hh; cases hh
  | retire r =>
    rw [squashes_of_retire hd] at hsq
    simp only [hsq]
    rfl
  | wait => rfl

/-- The step under Deferred faults of a cycle that goes on is the advanced state itself. -/
theorem step_withPolicy_deferred (hclk : s.Clocked) (h : s.flows = true) :
    step (s.withPolicy .deferred) = .next ((s.advance s.retirement).withPolicy .deferred) := by
  refine (step_of_clocked (s := s.withPolicy .deferred) hclk).trans (congrArg _ ?_)
  refine (clock_eq_of_flows (s := s.withPolicy .deferred) h).trans ?_
  rw [withImmediateStop_deferred rfl]
  exact advance_withPolicy s .deferred s.retirement

section
variable (hp : s.cfg.faultPolicy = .immediate)
include hp

theorem immediateStop_of_load {l : LoadOut} {f : FaultInfo} (hl : selectLoad s = some l)
    (hf : l.payload.fault = some f) :
    immediateStop s = some ⟨f.kind, (s.robEntry l.payload.tag).pc, f.addr⟩ := by
  simp [immediateStop, hp, hl, hf]

/-- With no fault of the selected load, the latch decides. -/
theorem immediateStop_of_latch (hl : ∀ l, selectLoad s = some l → l.payload.fault = none) :
    (∀ f, s.fl.valid = true → latchMicroOp s.fl = .fault f →
      immediateStop s = some ⟨f.kind, s.fl.pc, f.addr⟩) ∧
    ((s.fl.valid = false ∨ ∃ d, latchMicroOp s.fl = .instr d) → immediateStop s = none) := by
  have hload : ((selectLoad s).bind fun l => l.payload.fault.map fun f => (l.payload.tag, f)) =
      none := by
    refine Option.bind_eq_none_iff.2 fun l hsel => ?_
    rw [hl l hsel, Option.map_none]
  refine ⟨fun f hv hf => ?_, ?_⟩
  · simp [immediateStop, hp, hload, hv, hf]
  · rintro (hv | ⟨d, hd⟩)
    · simp [immediateStop, hp, hload, hv]
    · simp [immediateStop, hp, hload, hd]

end

end

/-! ### The statements -/

/-- Settles O55: the stop is the decision at the head, which reads it off the head's entry or off
the store's own LSQ entry. -/
theorem deferredStopsAreTheHeads : Obligations.DeferredStopsAreTheHeads := by
  intro s hclk hd
  refine ⟨s.clock, step_of_clocked hclk, fun kind pc addr hfatal => ?_⟩
  have hdec := stop_of_fatal hclk.1 hd hfatal
  obtain ⟨hc, hpc, hwhy⟩ := commitDecision_stop hdec
  rw [clock_of_stop hdec]
  refine ⟨hc, hpc, rfl, rfl, rfl, hwhy.imp_right ?_⟩
  rintro ⟨hk, st, hst, haddr, hcheck⟩
  obtain ⟨e, he, hb, ht, hea, hdata⟩ := readyStore_eq_some hst
  obtain ⟨base, hbase, hsum⟩ := lsqAddress_eq_some.1 hea
  have hown : addr = base + e.imm := haddr.trans hsum.symm
  rw [← show addr = st.ea from haddr] at hcheck
  exact ⟨hk, ⟨e, List.mem_of_getElem? he, base, st.data, hb, ht, hbase, hdata, hown⟩,
    accessCheck_eq_some hcheck⟩

/-- Settles O56: the cycle under either policy is the same advance; what the early stop finds
decides the halt status. -/
theorem immediateStops : Obligations.ImmediateStops := by
  intro s u hclk hp hflows hu
  obtain rfl := Host.Outcome.next.inj ((step_withPolicy_deferred hclk hflows).symm.trans hu)
  have hstep : step s = .next (withImmediateStop s (s.advance s.retirement)) :=
    (step_of_clocked hclk).trans (congrArg _ (clock_eq_of_flows hflows))
  have hstop : ∀ st, immediateStop s = some st → step s = .next
      { (s.advance s.retirement).withPolicy .deferred with
        halt := .fatal st.kind st.pc st.addr, cfg := s.cfg } := by
    intro st hst
    rw [hstep, withImmediateStop, hst, advance_withPolicy_back]
    rfl
  refine ⟨fun l f hl hf => hstop _ (immediateStop_of_load hp hl hf), fun hl => ?_⟩
  obtain ⟨hfault, hnone⟩ := immediateStop_of_latch hp hl
  refine ⟨fun f hv hf => hstop _ (hfault f hv hf), fun hno => ?_⟩
  rw [hstep, withImmediateStop, hnone hno]
  exact congrArg _ (advance_withPolicy_back s .deferred s.retirement _).symm

end Sys2Proof.Machine
end

