-- ==== Sys2Proof/Proofs/FirstInstruction.lean ====
section
/-! PROOF. The first cycles (70 R656, R657): an integer instruction at CODE_BASE is fetched in cycle
0, dispatched in cycle 1, takes the bus in cycle 2 and commits in cycle 3. What it commits is the
sequential result by the simulation of Contract.lean; only the timing is said here. -/

namespace Sys2Proof.Machine

section
variable {s σ : State}

/-! ### The decision of a cycle -/

theorem commitDecision_of_empty (hc : s.robCount = 0) : commitDecision s = .wait := if_pos hc

theorem commitDecision_of_alu (hc : s.robCount ≠ 0) (hk : s.headEntry.kind = .alu) :
    commitDecision s = if s.headEntry.ready then .retire ⟨s.headEntry, none⟩ else .wait := by
  simp only [commitDecision, if_neg hc, hk]

/-! ### Fetch (45 R350 to R352) -/

theorem allocation_of_empty_latch (hv : s.fl.valid = false) : s.allocation = none := by
  simp [State.allocation, dispatch, hv]

/-- From an empty core fetch fills the latch with the instruction at the fetch PC, and nothing else
happens. -/
theorem fetches_first {i : Instr} (hc : s.robCount = 0) (hv : s.fl.valid = false)
    (hst : s.fetchStopped = false) (hi : sequentialFetch s s.pcF = .ok i) :
    (s.advance none).robCount = 0 ∧ (s.advance none).fl.valid = true ∧
      ∃ d, latchMicroOp (s.advance none).fl = .instr d ∧ d.op = instrOp i := by
  have hfl : (s.advance none).fl = (fetchAccess s).fl := by
    obtain ⟨-, -, hfl, -⟩ | ⟨-, -, hno, -⟩ := advance_front s none
    · exact hfl
    · simp [hst, hv] at hno
  have hcount : (s.advance none).robCount = 0 := by
    rw [advance_robCount_eq, dispatchCount_of_none (allocation_of_empty_latch hv), hc]
    rfl
  refine ⟨hcount, by rw [hfl, fetchAccess_valid], ?_⟩
  rw [hfl, fetchAccess_microOp]
  simp only [microOpAt, hi]
  exact ⟨_, rfl, rfl⟩

/-! ### Dispatch (46 R403) -/

/-- An integer instruction that waits for the ALU alone: it is the only one in the ROB, not ready,
its RS entry is busy and the ALU's latch is empty. -/
structure State.AwaitsAlu (s : State) : Prop where
  count : s.robCount = 1
  kind : s.headEntry.kind = .alu
  ready : s.headEntry.ready = false
  aluOut : s.aluOut = none
  entry : ∃ e ∈ s.rs, e.busy = true ∧ opUnit e.op = some .alu ∧ e.dest = s.robHead

/-- With an empty ROB no unit holds anything, so the ALU's latch stays empty. -/
theorem aluOut_advance_of_empty (h : s.InFlight) (hc : s.robCount = 0) (r : Option Retirement) :
    (s.advance r).aluOut = none := by
  have hno : ∀ t, s.awaited t ≠ true := fun t ht =>
    not_validTag_of_empty hc t (awaited_iff.1 ht).1
  have halu : s.aluOut = none := Option.eq_none_iff_forall_ne_some.2 fun p hp =>
    hno _ (h.awaited_of_aluOut hp)
  have hsel : selectAlu s = none := Option.eq_none_iff_forall_ne_some.2 fun c hsel => by
    obtain ⟨-, e, he⟩ := selectAlu_issued hsel
    exact hno _ (h.awaited_of_rs (List.mem_of_getElem? he.at_index) he.busy)
  rw [State.advance_aluOut, nextAluOut]
  split_ifs
  · rfl
  · simp [request, halu, hsel]

theorem opUnit_of_alu {op : Op} (h : opKind op = .alu) : opUnit op = some .alu := by
  revert h
  cases op <;> decide

/-- Into an empty core dispatch puts the latched integer instruction at the head and in the RS. -/
theorem dispatches_first (h : s.InFlight) (hc : s.robCount = 0) (hv : s.fl.valid = true)
    {d : Decoded} (hd : latchMicroOp s.fl = .instr d) (hk : opKind d.op = .alu) :
    (s.advance none).AwaitsAlu := by
  obtain ⟨a, ha⟩ := Option.ne_none_iff_exists'.1 (dispatch_of_empty h hc hv)
  have halloc := (dispatch_allocates ha).2.2
  have hunit := opUnit_of_alu hk
  have hcls := latch_cls hd
  have htail : s.robTail = s.robHead := by
    rw [h.shape.tail_eq, hc, Nat.add_zero, Nat.mod_eq_of_lt h.shape.head_lt]
  have hhead : (s.advance none).headEntry = dispatchedEntry s.fl (.instr d) := by
    rw [← hd, ← halloc.entry_eq, ← robEntry_advance_new h.shape (r := none) ha, htail]
    rfl
  have hkind : kindOfClass d.cls = .alu := hcls ▸ hk
  have hcls_unit : unitOfClass d.cls ≠ none := by
    rw [hcls]
    exact fun hn => Option.some_ne_none _ (hunit.symm.trans hn)
  obtain ⟨i, hi, hrs⟩ := halloc.rs_of_unit hd hcls_unit
  have hnew := nextRs_getElem?_new hi hrs
  rw [← ha] at hnew
  exact
    { count := by rw [advance_robCount_eq, (dispatchCount_of_some ha).1, hc]; rfl
      kind := by rw [hhead]; exact hkind
      ready := by
        rw [hhead, dispatchedEntry_instr]
        exact decide_eq_false fun hsys => by rw [hsys] at hkind; cases hkind
      aluOut := aluOut_advance_of_empty h hc none
      entry := ⟨_, List.mem_of_getElem? hnew, rfl, hunit, htail⟩ }

/-! ### Issue and broadcast (47 R441, R471, R474) -/

/-- The head's RS entry waits for nobody, so the ALU selects one. -/
theorem State.AwaitsAlu.requests (ha : s.AwaitsAlu) (h : s.InFlight) : s.requests .alu ≠ none := by
  obtain ⟨e, he, hb, hu, hdest⟩ := ha.entry
  obtain ⟨hj, hk⟩ := h.rs_slots e he hb
  obtain ⟨v, hv⟩ := slot_value_of_head h.shape hdest hj
  obtain ⟨w, hw⟩ := slot_value_of_head h.shape hdest hk
  obtain ⟨i, hi⟩ := List.getElem?_of_mem he
  obtain ⟨c, hc⟩ := exists_eligibleEntry_iff (i := i).2 ⟨hb, hu, v, w, hv, hw⟩
  have hsel : selectRs s .alu ≠ none := fun hn =>
    Option.some_ne_none c (hc.symm.trans (selectRs_eq_none_iff.1 hn i e hi))
  simpa [State.requests, request, selectAlu, ha.aluOut] using hsel

/-- The bus has a winner, which can only be the head. -/
theorem State.AwaitsAlu.broadcast (ha : s.AwaitsAlu) (h : s.InFlight) :
    ∃ b, s.broadcast = some b ∧ b.tag = s.robHead := by
  obtain ⟨-, hnone⟩ | ⟨r, b, -, hb, -⟩ := win_cases s
  · exact absurd (requests_none_of_no_winner h.shape (Option.map_eq_none_iff.1 hnone) .alu)
      (ha.requests h)
  · obtain ⟨hlt, hage⟩ := validTag_iff.1 (awaited_iff.1 (h.awaited_of_broadcast hb)).1
    rw [ha.count, Nat.lt_one_iff, ← age_head h.shape.head_lt] at hage
    exact ⟨b, hb, age_inj h.shape.head_lt hlt h.shape.head_lt hage⟩

/-- So the head waits in this cycle and retires in the next. -/
theorem State.AwaitsAlu.completes (ha : s.AwaitsAlu) (h : s.InFlight) :
    commitDecision s = .wait ∧
      commitDecision (s.advance none) = .retire ⟨(s.advance none).headEntry, none⟩ := by
  obtain ⟨b, hb, ht⟩ := ha.broadcast h
  have hentry : (s.advance none).headEntry = completeEntry b s.headEntry := by
    have hcomp := (advance_robEntry_of_broadcast h hb none).2
    rw [ht] at hcomp
    exact hcomp
  have hcount : (s.advance none).robCount ≠ 0 := by
    rw [advance_robCount_eq, ha.count, retireCount_none]
    omega
  have hne : s.robCount ≠ 0 := by rw [ha.count]; decide
  refine ⟨?_, ?_⟩
  · rw [commitDecision_of_alu hne ha.kind, ha.ready]
    rfl
  · rw [commitDecision_of_alu hcount (by rw [hentry, completeEntry_kind, ha.kind]), if_pos]
    rw [hentry, completeEntry_ready]

/-! ### The first four cycles -/

/-- A waiting cycle of a simulated run. -/
theorem Sim.step_wait {s₀ : State} {n : Nat} (hs : Sim (steps n s₀) σ)
    (hw : commitDecision (steps n s₀) = .wait) :
    steps (n + 1) s₀ = (steps n s₀).advance none ∧ Sim (steps (n + 1) s₀) σ := by
  obtain ⟨hclock, hsim⟩ := hs.wait hw
  rw [hs.steps_succ_core]
  exact ⟨hclock, hsim⟩

/-- An integer instruction at the fetch PC of an empty core retires in the fourth cycle. -/
theorem first_retires {i : Instr} (hs : Sim s σ) (hd : s.drained = true)
    (hi : sequentialFetch s s.pcF = .ok i) (hk : opKind (instrOp i) = .alu) :
    Sim (steps 3 s) σ ∧ (steps 3 s).log = s.log ∧ (steps 3 s).cycle = s.cycle + 3 ∧
      commitDecision (steps 3 s) = .retire ⟨(steps 3 s).headEntry, none⟩ := by
  simp only [State.drained, Bool.and_eq_true, decide_eq_true_eq, Bool.not_eq_true'] at hd
  have hc : s.robCount = 0 := by tauto
  have hv : s.fl.valid = false := by tauto
  have hst : s.fetchStopped = false := by tauto
  obtain ⟨hstep₁, hs₁⟩ := Sim.step_wait (n := 0) hs (commitDecision_of_empty hc)
  obtain ⟨hc₁, hv₁, d, hd₁, hop⟩ := fetches_first hc hv hst hi
  have heq₁ : steps 1 s = s.advance none := hstep₁
  rw [← heq₁] at hc₁ hv₁ hd₁
  obtain ⟨heq₂, hs₂⟩ := Sim.step_wait (n := 1) hs₁ (commitDecision_of_empty hc₁)
  have hawaits := dispatches_first hs₁.inFlight hc₁ hv₁ hd₁ (hop ▸ hk)
  rw [← heq₂] at hawaits
  obtain ⟨hwait, hretire⟩ := hawaits.completes hs₂.inFlight
  obtain ⟨heq₃, hs₃⟩ := Sim.step_wait (n := 2) hs₂ hwait
  rw [← heq₃] at hretire
  refine ⟨hs₃, ?_, ?_, hretire⟩
  · rw [heq₃, heq₂, heq₁]; rfl
  · rw [heq₃, heq₂, heq₁]; rfl

/-- The first word of the code image is fetched at CODE_BASE (70 R656). -/
theorem sequentialFetch_boot {cfg : Config} {code : List Word} {data : List Byte} {w : Word}
    {i : Instr} (h : State.boot cfg code data = .next s) (hw : code[0]? = some w)
    (hd : decode w = some i) : sequentialFetch s s.pcF = .ok i := by
  obtain ⟨hlen, hget⟩ := List.getElem?_eq_some_iff.1 hw
  have hword := imemWord_boot h hlen
  obtain ⟨hlegal, hcode, -, rfl⟩ := boot_eq_next h
  have hfits : cfg.codeBase.toNat + 4 * code.length ≤ cfg.memBytes := of_decide_eq_true hcode
  simp only [Config.legal, Bool.and_eq_true, decide_eq_true_eq] at hlegal
  have halign : cfg.codeBase.toNat % 4 = 0 := by tauto
  refine sequentialFetch_of_decoded
    ((fetchCheck_eq_none_iff cfg cfg.codeBase).2 ⟨halign, by omega⟩) ?_
  rw [hget, show cfg.codeBase + BitVec.ofNat 32 (4 * 0) = cfg.codeBase from
    BitVec.add_zero cfg.codeBase] at hword
  exact (congrArg decode hword).trans hd

/-- The run's first step is the completed instruction. -/
theorem seqNext_of_alu {i : Instr} (hi : sequentialFetch σ σ.pcA = .ok i)
    (hk : opKind (instrOp i) = .alu) :
    seqNext σ = σ.complete (destOf (instrRd i)) (integerValue (instrOp i) (σ.reg (instrRs1 i))
      (σ.reg (instrRs2 i)) (instrImm i) σ.pcA) (σ.pcA + 4) := by
  have hres := (exec_eq i σ).symm.trans (exec_eq_completeInteger i σ hk)
  rw [completeInteger_eq] at hres
  simp only [seqNext, hi]
  exact Host.Outcome.next.inj hres

end

/-! ### The statements -/

/-- Settles O57: the cycle of the commit is the fourth, and the simulation says what it commits. -/
theorem firstInstructionCommitsInCycleThree : Obligations.FirstInstructionCommitsInCycleThree := by
  intro cfg code data s w i hpolicy hboot hw hd hk
  have hdrained := boot_drained hboot
  have hfetch := sequentialFetch_boot hboot hw hd
  obtain ⟨hs₃, hlog, hcycle, hretire⟩ :=
    first_retires (Sim.boot hpolicy hboot) hdrained hfetch hk
  have hstart : s.log = [] ∧ s.cycle = 0 ∧ s.halt = .running := by
    obtain ⟨-, -, -, rfl⟩ := boot_eq_next hboot
    exact ⟨rfl, rfl, rfl⟩
  obtain ⟨hlog₀, hcycle₀, hrun⟩ := hstart
  have hagrees := (hs₃.commit (by rw [hretire]; exact CommitDecision.noConfusion)).1
  rw [← hs₃.steps_succ_core] at hagrees
  have hpc : s.atInstructions.pcA = s.pcF := State.pcA_of_drained s hdrained hrun
  have hnext := seqNext_of_alu (σ := s.atInstructions) (hpc.symm ▸ hfetch) hk
  rw [hnext] at hagrees
  refine ⟨hlog.trans hlog₀, _, exec_eq_completeInteger i s hk, hagrees.retired, hagrees.x, ?_⟩
  rw [hs₃.steps_succ_core, (clock_of_retire hretire).2.2.1, hlog, hlog₀]
  change [(steps 3 s).cycle] = [3]
  rw [hcycle, hcycle₀]

end Sys2Proof.Machine
end
